-- ==== Sys2Proof/Word.lean ====
section
/-! DEFINITION. The widths HUFFCORE works in (spec/00_scope.md rules R5, R10, R11): every quantity is an
unsigned bit vector, and stream positions are natural numbers. -/

namespace Sys2Proof

/-- A host register, a command word, an ERRINFO value (REG_DW = 32). -/
abbrev Word := BitVec 32

/-- One byte of a stream; one input symbol (SYM_W = 8). -/
abbrev Byte := BitVec 8

/-- A symbol with the sentinel 256 in its range; the value field of a leaf (LEAF_W = 9). -/
abbrev Sym := BitVec 9

/-- A frequency count or a node weight (WEIGHT_W = 32). -/
abbrev Weight := BitVec 32

/-- A node index (NODE_IW = 10). -/
abbrev NodeIx := BitVec 10

/-- A code length (CODE_LW = 9). -/
abbrev CodeLen := BitVec 9

/-- The register image of a code, right-aligned (CODE_MAXLEN = 256). -/
abbrev CodeBits := BitVec 256

/-- A byte address of the host register space (REG_AW = 15). -/
abbrev RegAddr := BitVec 15

end Sys2Proof
end

