-- ==== Sys2Proof/Machine/Tables.lean ====
section
/-! DEFINITION. The records the tables of HUFFCORE hold (spec/10_state.md rules R23 to R27). They stand before
Config because the free values of Config are tables. -/

namespace Sys2Proof.Machine

/-- An entry of the node memory (rule R23). -/
structure Node where
  valid  : Bool
  leaf   : Bool
  sym    : Sym
  left   : NodeIx
  right  : NodeIx
  weight : Weight
  deriving DecidableEq, Repr, Inhabited

/-- ROOT (rule R25). -/
structure Root where
  valid : Bool
  index : NodeIx
  deriving DecidableEq, Repr, Inhabited

/-- The node memory with its counters and its root (rules R23 to R25). -/
structure Tree where
  node   : Vector Node 513
  nnodes : NodeIx
  nleaf  : BitVec 10
  root   : Root
  deriving DecidableEq, Repr, Inhabited

/-- An entry (W, I) of the priority queue (rule R26). -/
structure PQEntry where
  weight : Weight
  index  : NodeIx
  deriving DecidableEq, Repr, Inhabited

/-- An entry of the code table (rule R27). -/
structure Code where
  valid : Bool
  len   : CodeLen
  bits  : CodeBits
  deriving DecidableEq, Repr, Inhabited

/-- What rule R242 leaves unspecified after an error raised during execution, until CLEAR: every table and
counter, both cursors, and (rule R81) the bytes the sink has been given. Two flags: see `OpenFlags`. -/
structure Unspecified where
  freq  : Vector Weight 256
  inlen : Word
  tree  : Tree
  pq    : List PQEntry
  code  : Vector Code 257
  ipos  : Nat
  opos  : Nat
  out   : List Byte
  deriving DecidableEq, Repr, Inhabited

/-- What STATUS reads as EOD and REWOUND after an error where no part of the spec states them (rule R242, log 6). -/
structure OpenFlags where
  eod     : Bool
  rewound : Bool
  deriving DecidableEq, Repr, Inhabited

/-- An entry with VALID = 0 has all other fields 0 (rule R23). -/
def Node.invalid : Node := ⟨false, false, 0, 0, 0, 0⟩

/-- A leaf entry: LEFT and RIGHT are 0 (rule R23). -/
def Node.mkLeaf (sym : Sym) (w : Weight) : Node := ⟨true, true, sym, 0, 0, w⟩

/-- An internal entry: SYM is 0 (rule R23). -/
def Node.mkInternal (l r : NodeIx) (w : Weight) : Node := ⟨true, false, 0, l, r, w⟩

/-- An entry with VALID = 0 has LEN = 0 and BITS = 0 (rule R27). -/
def Code.invalid : Code := ⟨false, 0, 0⟩

/-- Node memory, NNODES, NLEAF and ROOT at their reset values (rule R45). -/
def Tree.empty : Tree :=
  { node := Vector.replicate 513 Node.invalid, nnodes := 0, nleaf := 0, root := ⟨false, 0⟩ }

/-- NODE[i]. An index outside the memory (no tree holds one, rule R24) reads as an invalid entry. -/
def Tree.at (t : Tree) (i : NodeIx) : Node := t.node.getD i.toNat Node.invalid

/-- NODE[i] <- n. -/
def Tree.set (t : Tree) (i : NodeIx) (n : Node) : Tree :=
  { t with node := t.node.setIfInBounds i.toNat n }

end Sys2Proof.Machine
end

