-- ==== Sys2Proof/Config.lean ====
section
/-! DEFINITION. The parameters of spec/00_scope.md rules R5 and R6 at the values the spec takes, and the free
values: constants without a body, for what the spec leaves unspecified. -/

namespace Sys2Proof.Config

/-- ALPH, the number of real symbols (rule R5). -/
abbrev alph : Nat := 256

/-- EOS, the end-of-stream sentinel (rule R5). -/
abbrev eos : Sym := 256

/-- EOS_WEIGHT, the weight of the sentinel leaf (rule R5). -/
abbrev eosWeight : Weight := 1

/-- MAXLEN, the largest number of input symbols COUNT accepts (rules R6, R128). -/
abbrev maxLen : Nat := 2 ^ 32 - 2

/-- NODE_CAP, entries of the node memory (rule R6). -/
abbrev nodeCap : Nat := 513

/-- PQ_CAP, entries of the priority queue (rule R6). -/
abbrev pqCap : Nat := 257

/-- CODE_MAXLEN, largest code length (rule R6). -/
abbrev codeMaxLen : Nat := 256

/-- Frames a walk of a finished tree nests at most (rule R271). -/
abbrev walkFrames : Nat := 257

/-- Tokens of a header at most: the magic field, 513 nodes, and the marker of one node too many (rule R177). -/
abbrev headerTokens : Nat := 515

/-- MAGIC_TREE. PRESUMED (log 1): the source gives no value; the spec's default is from general knowledge
(rule R102, passage G1). -/
def magicTree : Word := 0xFACE8201

/-- MAGIC_COUNTS, different from MAGIC_TREE (rule R7). PRESUMED (log 1), as for `magicTree`. -/
def magicCounts : Word := 0xFACE8202

/-- ID_VALUE, the characters HUF1 (rules R6, R36). -/
def idValue : Word := 0x48554631

/-- TIEBREAK: among entries of equal weight the lower node index is removed first (rule R138). -/
def tieBefore (i j : NodeIx) : Bool := i < j

/-- ORIENT: of two removed nodes the first becomes LEFT, the second RIGHT (rule R142). -/
def orient (first second : NodeIx) : NodeIx × NodeIx := (first, second)

/-- Free value (log 6): what the `n`-th error raised during execution leaves in the state rule R242 calls
unspecified. -/
opaque afterError : Nat → Machine.Unspecified

/-- Free value (log 6): the EOD and REWOUND that STATUS reads after an error where the spec states neither (rule R242),
until CLEAR. Every error has a number of its own. -/
opaque openFlags : Nat → Machine.OpenFlags

/-- Free value (log 7): what the `n`-th read of a register that is unspecified while BUSY = 1 returns (rule
R42 d). -/
opaque busyRead : Nat → Word

end Sys2Proof.Config
end

