-- ==== Sys2Proof/Syntax.lean ====
section
/-! DEFINITION. The instructions: one constructor for each row of spec/opcode_table.json, the eleven command
words of rule R91 and the three stream tokens of rules R96 and R97. -/

namespace Sys2Proof

/-- The header-mode field HM of a command word (rule R92). -/
inductive HeaderMode where
  | treeHeader
  | countHeader
  deriving DecidableEq, Repr

/-- One row of the opcode table with its operands. -/
inductive Instr where
  /-- R113 -/
  | nop
  /-- R114 -/
  | clear
  /-- R125 -/
  | count
  /-- R141 -/
  | build
  /-- R155 -/
  | gencode
  /-- R165 -/
  | wrhdr (hm : HeaderMode)
  /-- R185 -/
  | encode
  /-- R170 -/
  | rdhdr (hm : HeaderMode)
  /-- R195 -/
  | decode
  /-- R205 -/
  | compress (hm : HeaderMode)
  /-- R206 -/
  | decompress (hm : HeaderMode)
  /-- R96: the magic field, first token of a compressed stream -/
  | magic
  /-- R97: marker of an internal node -/
  | internal
  /-- R97, R98: marker and value of a leaf -/
  | leaf (v : Sym)
  deriving DecidableEq, Repr

/-- The header mode of the four commands that take one (rule R92), none of the others. -/
def Instr.headerMode : Instr → Option HeaderMode
  | .wrhdr hm => some hm
  | .rdhdr hm => some hm
  | .compress hm => some hm
  | .decompress hm => some hm
  | .nop => none
  | .clear => none
  | .count => none
  | .build => none
  | .gencode => none
  | .encode => none
  | .decode => none
  | .magic => none
  | .internal => none
  | .leaf _ => none

/-- A row of format CMD: a word the host writes to the CMD register. -/
def Instr.isCommand : Instr → Bool
  | .magic => false
  | .internal => false
  | .leaf _ => false
  | .nop => true
  | .clear => true
  | .count => true
  | .build => true
  | .gencode => true
  | .wrhdr _ => true
  | .encode => true
  | .rdhdr _ => true
  | .decode => true
  | .compress _ => true
  | .decompress _ => true

end Sys2Proof
end

