-- ==== Sys2Proof/WellFormed.lean ====
section
/-! DEFINITION. Which instructions the encoding can hold. Every command is well formed with either header
mode (rule R92: HM = 1 is decoded as that command). The one restriction is rule R98: a leaf names a symbol
0 to 255 or the sentinel 256, and the values 257 to 511 are reserved. -/

namespace Sys2Proof

/-- The check of rule R98 on a leaf, true of every other row. -/
def Instr.wellFormed : Instr → Bool
  | .leaf v => decide (v.toNat ≤ 256)
  | .nop => true
  | .clear => true
  | .count => true
  | .build => true
  | .gencode => true
  | .wrhdr _ => true
  | .encode => true
  | .rdhdr _ => true
  | .decode => true
  | .compress _ => true
  | .decompress _ => true
  | .magic => true
  | .internal => true

end Sys2Proof
end

