-- ==== Sys2Proof/Decode.lean ====
section
/-! DEFINITION. Decoding and encoding (spec/30_encoding.md): the 32-bit command word of part A and the stream
tokens of part B. Decoding is total and rejects by name. The encoder below the decoder is written from the
same tables. -/

namespace Sys2Proof

/-! ## Bits of a field, most significant first (rules R10, R72) -/

/-- The low `n` bits of `v`, most significant first. -/
def bitsOf : Nat → Nat → List Bool
  | 0, _ => []
  | n + 1, v => v.testBit n :: bitsOf n v

/-- The number a bit string spells, first bit most significant. -/
def ofBits (bs : List Bool) : Nat :=
  bs.foldl (fun v b => 2 * v + b.toNat) 0

/-- The bits of a byte sequence in stream order: bit 7 of byte 0 first (rules R64, R72). -/
def bitsOfBytes (bytes : List Byte) : List Bool :=
  bytes.flatMap fun b => bitsOf 8 b.toNat

/-! ## Decoding -/

/-- Why a word or a bit string is no instruction. -/
inductive DecodeError where
  /-- one of bits 31:9 of a command word is 1 (rule R93) -/
  | reservedBits (w : Word)
  /-- OP is not one of the eleven opcodes (rule R93) -/
  | unknownOpcode (w : Word)
  /-- bit 8 is 1 in a command that does not take HM (rule R93) -/
  | headerModeNotTaken (w : Word)
  /-- the 32-bit magic field is not MAGIC_TREE (rule R171) -/
  | notMagic (w : Word)
  /-- no bit where a marker is expected -/
  | missingMarker
  /-- fewer than 9 bits where a leaf value is expected -/
  | missingValue
  /-- a leaf value 257 to 511 (rule R98) -/
  | reservedLeaf (v : Sym)
  /-- bits after a token that should stand alone -/
  | trailingBits
  deriving DecidableEq, Repr

/-- The command of an opcode, with the header mode of bit 8 where the command takes it (rule R91). -/
def commandOf (op : BitVec 8) (hm : HeaderMode) : Option Instr :=
  if op = 0x00 then some .nop
  else if op = 0x01 then some .clear
  else if op = 0x10 then some .count
  else if op = 0x11 then some .build
  else if op = 0x12 then some .gencode
  else if op = 0x13 then some (.wrhdr hm)
  else if op = 0x14 then some .encode
  else if op = 0x20 then some (.rdhdr hm)
  else if op = 0x21 then some .decode
  else if op = 0x30 then some (.compress hm)
  else if op = 0x31 then some (.decompress hm)
  else none

/-- The header mode bit 8 stands for (rule R92). -/
def headerModeOf (b : Bool) : HeaderMode := if b then .countHeader else .treeHeader

/-- Decode a command word (rules R90 to R93). -/
def decodeWord (w : Word) : Except DecodeError Instr :=
  if w.extractLsb' 9 23 ≠ 0 then .error (.reservedBits w)
  else
    match commandOf (w.extractLsb' 0 8) (headerModeOf (w.getLsbD 8)) with
    | none => .error (.unknownOpcode w)
    | some i =>
      if w.getLsbD 8 && i.headerMode.isNone then .error (.headerModeNotTaken w) else .ok i

/-- Decode the magic field (rules R96, R171). -/
def decodeMagic (w : Word) : Except DecodeError Instr :=
  if w = Config.magicTree then .ok .magic else .error (.notMagic w)

/-- Decode the token at the head of a bit string inside the tree field, and give the bits after it (rules
R97, R98). -/
def decodeToken : List Bool → Except DecodeError (Instr × List Bool)
  | [] => .error .missingMarker
  | false :: rest => .ok (.internal, rest)
  | true :: rest =>
    if rest.length < 9 then .error .missingValue
    else
      let v : Sym := BitVec.ofNat 9 (ofBits (rest.take 9))
      if 256 < v.toNat then .error (.reservedLeaf v) else .ok (.leaf v, rest.drop 9)

/-- What is decoded: a command word, a magic field, or the bits of one tree token. -/
inductive Image where
  | command (w : Word)
  | magicField (w : Word)
  | treeBits (bs : List Bool)
  deriving DecidableEq, Repr

/-- Decode any of the three images. -/
def decode : Image → Except DecodeError Instr
  | .command w => decodeWord w
  | .magicField w => decodeMagic w
  | .treeBits bs =>
    match decodeToken bs with
    | .error e => .error e
    | .ok (i, []) => .ok i
    | .ok (_, _ :: _) => .error .trailingBits

/-! ## Encoding -/

/-- The HM field of a command word, in its place at bit 8 (rule R92). -/
def headerModeField : HeaderMode → Word
  | .treeHeader => 0x000
  | .countHeader => 0x100

/-- The words or bits of an instruction (rules R91, R96, R97). -/
def encode : Instr → Image
  | .nop => .command 0x00000000
  | .clear => .command 0x00000001
  | .count => .command 0x00000010
  | .build => .command 0x00000011
  | .gencode => .command 0x00000012
  | .wrhdr hm => .command (0x00000013 ||| headerModeField hm)
  | .encode => .command 0x00000014
  | .rdhdr hm => .command (0x00000020 ||| headerModeField hm)
  | .decode => .command 0x00000021
  | .compress hm => .command (0x00000030 ||| headerModeField hm)
  | .decompress hm => .command (0x00000031 ||| headerModeField hm)
  | .magic => .magicField Config.magicTree
  | .internal => .treeBits [false]
  | .leaf v => .treeBits (true :: bitsOf 9 v.toNat)

/-- The 32-bit word of a command; 0 for a stream token, which has none. -/
def commandWord (i : Instr) : Word :=
  match encode i with
  | .command w => w
  | .magicField _ => 0
  | .treeBits _ => 0

/-- The bits a token has in the stream, in stream order; none for a command. -/
def tokenBits (i : Instr) : List Bool :=
  match encode i with
  | .command _ => []
  | .magicField w => bitsOf 32 w.toNat
  | .treeBits bs => bs

/-! ## The opcode table's own numbering -/

/-- How many stream bits a STREAM row of `nbits` bits in whole bytes has (log 18): 1 for a row given in one byte
(INTERNAL), 10 for a row given in two (LEAF). -/
def tableTokenLen (nbits : Nat) : Nat := if nbits ≤ 8 then 1 else 10

/-- The stream bits of a table word of a STREAM row. -/
def tableTokenBits (nbits w : Nat) : List Bool := bitsOf (tableTokenLen nbits) w

/-- The instruction read from an instruction whose bits are `w`, numbered as spec/opcode_table.json numbers
them: rows of 32 bits are command words or the magic field, which is no command word; shorter rows are tokens
of the tree field. -/
def decodeTableWord (nbits w : Nat) : Option Instr :=
  if nbits ≤ 16 then
    if 2 ^ tableTokenLen nbits ≤ w then none
    else
      match decode (.treeBits (tableTokenBits nbits w)) with
      | .ok i => some i
      | .error _ => none
  else if 2 ^ 32 ≤ w then none
  else
    match decodeWord (BitVec.ofNat 32 w) with
    | .ok i => some i
    | .error _ =>
      match decodeMagic (BitVec.ofNat 32 w) with
      | .ok i => some i
      | .error _ => none

end Sys2Proof
end

