-- ==== Sys2Proof/Machine/State.lean ====
section
/-! DEFINITION. The state of HUFFCORE (spec/10_state.md rules R20 to R36 and R45) with the host port, the two
streams and the collaborators it works with (spec/20_memory.md), and the reasons a step can stop. -/

namespace Sys2Proof.Machine

/-- PHASE (rule R29). The values 8 to 15 are never taken (passage U21). -/
inductive Phase where
  | idle
  | counted
  | built
  | coded
  | hdrwr
  | encdone
  | hdrrd
  | decdone
  deriving DecidableEq, Repr

/-- ERR.CODE (rule R230). The codes 11 to 255 are never produced (passage U21). -/
inductive ErrCode where
  | noError
  | formatError
  | prematureEndOfStream
  | unimplemented
  | illegalCommand
  | sequenceError
  | lengthOverflow
  | noCode
  | badLeafValue
  | treeTooLarge
  | rootLeafNotSentinel
  deriving DecidableEq, Repr

/-- Where a source stops answering (rule R74, log 4): in the pass with this value of REWOUND, when it has served
this many byte requests of the pass. -/
structure SourceStall where
  rewound : Bool
  served  : Nat
  deriving DecidableEq, Repr

/-- The input stream of the session: IN (rule R64), where its source stops answering, `none` for a source that
answers every request (rules R74, R272, log 4), the cursor (rule R33) and the two flags ReadBits and Rewind set
(rule R30). -/
@[ext] structure InStream where
  bytes   : List Byte
  stall   : Option SourceStall
  ipos    : Nat
  eod     : Bool
  rewound : Bool
  deriving DecidableEq, Repr

/-- The output stream of the session: how many of its bytes the sink accepts, `none` for a sink that accepts every
byte (rules R74, R272, log 4), the cursor (rule R33), the packer's partial byte OBUF (rule R34) and OUT, oldest byte
first (rule R81). -/
@[ext] structure OutStream where
  stall : Option Nat
  opos  : Nat
  obuf  : List Bool
  out   : List Byte
  deriving DecidableEq, Repr

/-- What the header reader expects next: the control state of RDHDR's pseudocode (rule R170). -/
inductive Stage where
  | off
  | magic
  | tree
  deriving DecidableEq, Repr

/-- An entry of the traversal stack (rule R35): a node index and a visit state, which is no left child yet
(the left subtree is being read) or the left child (the right subtree is being read). -/
structure Frame where
  index : NodeIx
  left  : Option NodeIx
  deriving DecidableEq, Repr

/-- Transient state (rule R35): empty after every command. -/
@[ext] structure Transient where
  stage   : Stage
  stack   : List Frame
  cur     : NodeIx
  path    : CodeBits
  pathLen : CodeLen
  deriving DecidableEq, Repr

/-- A source and a sink to be attached for one session (rules R263, R264), and where each stops (log 4). -/
structure Streams where
  bytes  : List Byte
  source : Option SourceStall
  sink   : Option Nat
  deriving DecidableEq, Repr

/-- One act of the host or the platform on the engine's ports (rules R61, R260, R264); with `goOn` the source and the
sink of the session go on and stop next at these points (rule R74, log 4). -/
inductive HostOp where
  | read   (addr : RegAddr) (be : BitVec 4)
  | write  (addr : RegAddr) (be : BitVec 4) (data : Word)
  | rst    (level : Bool)
  | attach (p : Streams)
  | goOn   (source : Option SourceStall) (sink : Option Nat)
  deriving DecidableEq, Repr

/-- What the engine answered to the last access (rules R61, R62): nothing, `h_ack`, `h_ack` with `h_rdata`, or
`h_err`. -/
inductive HostAnswer where
  | none
  | ack
  | data (v : Word)
  | err
  deriving DecidableEq, Repr

/-- A signal to the collaborators (rule R74). -/
inductive Signal where
  | inRewind
  | inRestart
  | outAbort
  deriving DecidableEq, Repr

/-- The pins: `rst`, what the host and the platform do next (oldest first), the last answer, the stream pair
waiting for the next session, and the signals sent so far (oldest first). -/
@[ext] structure Port where
  rst     : Bool
  host    : List HostOp
  answer  : HostAnswer
  pending : Option Streams
  signals : List Signal
  deriving DecidableEq, Repr

/-- A command that waits for a collaborator (rule R74, log 4), with OUT and the signals as they were when it was
accepted: meanwhile State holds what the collaborators have been given. -/
structure Waiting where
  cmd     : Instr
  out     : List Byte
  signals : List Signal
  deriving DecidableEq, Repr

/-- The machine. `free` numbers the free values of Config and is the model's own. -/
@[ext]
structure State where
  freq    : Vector Weight 256
  inlen   : Word
  tree    : Tree
  pq      : List PQEntry
  code    : Vector Code 257
  phase   : Phase
  busy    : Bool
  done    : Bool
  cmddrop : Bool
  err     : ErrCode
  errinfo : Word
  ie      : Bool
  inp     : InStream
  outp    : OutStream
  trav    : Transient
  waiting : Option Waiting
  port    : Port
  free    : Nat
  deriving DecidableEq, Repr

/-- Why a step stops the model. -/
inductive Fault where
  /-- Raised by GENCODE, WRHDR and COMPRESS when a walk of the tree nests deeper than 257, and by RDHDR and
  DECOMPRESS for a header that does not end within its 514 markers. Rules R271 and R177 rule both out for every
  tree BUILD or RDHDR makes; only a state no run reaches gets here. Safe: the model stops where the hardware's
  bounded stack could not go on. -/
  | traversalTooDeep
  deriving DecidableEq, Repr

/-- Why the model gives an instruction no meaning. -/
inductive Refusal where
  /-- Raised by an arm of `exec` whose instruction has no meaning yet. Safe. No arm does so. -/
  | notModelled (mnemonic : String)
  deriving DecidableEq, Repr

/-- Transient state between commands (rules R35, R45). -/
def Transient.empty : Transient := { stage := .off, stack := [], cur := 0, path := 0, pathLen := 0 }

/-- The input side at the start of a session over `p` (rule R45). -/
def InStream.fresh (bytes : List Byte) (stall : Option SourceStall) : InStream :=
  { bytes := bytes, stall := stall, ipos := 0, eod := false, rewound := false }

/-- The output side at the start of a session (rules R45, R114: OUT and OBUF empty). -/
def OutStream.fresh (stall : Option Nat) : OutStream :=
  { stall := stall, opos := 0, obuf := [], out := [] }

/-- The state after reset (rules R45, R261). The values of `port`, of `free` and of an input nobody has attached
are the model's (log 9, log 16). -/
def State.reset : State where
  freq    := Vector.replicate 256 0
  inlen   := 0
  tree    := Tree.empty
  pq      := []
  code    := Vector.replicate 257 Code.invalid
  phase   := .idle
  busy    := false
  done    := false
  cmddrop := false
  err     := .noError
  errinfo := 0
  ie      := false
  inp     := InStream.fresh [] none
  outp    := OutStream.fresh none
  trav    := Transient.empty
  waiting := none
  port    := { rst := false, host := [], answer := .none, pending := none, signals := [] }
  free    := 0

end Sys2Proof.Machine
end

