-- ==== Sys2Proof/Machine/Operands.lean ====
section
/-! DEFINITION. The operands of the commands: the header mode of the command word, the phases a command is legal
in and leaves, and the tables every command takes as implicit operands (spec/30_encoding.md rules R90 and R92,
spec/40_control.md rule R111). -/

namespace Sys2Proof.Machine

/-- Is the command legal in this phase (rule R111)? A stream token is no command and is never issued. -/
def legalIn : Instr → Phase → Bool
  | .nop, _ => true
  | .clear, _ => true
  | .count, p => p == .idle
  | .build, p => p == .counted
  | .gencode, p => p == .built
  | .wrhdr _, p => p == .coded
  | .encode, p => p == .hdrwr
  | .rdhdr _, p => p == .idle
  | .decode, p => p == .hdrrd
  | .compress _, p => p == .idle
  | .decompress _, p => p == .idle
  | .magic, _ => false
  | .internal, _ => false
  | .leaf _, _ => false

/-- The phase a command leaves on success (rule R111). -/
def nextPhase : Instr → Phase → Phase
  | .nop, p => p
  | .clear, _ => .idle
  | .count, _ => .counted
  | .build, _ => .built
  | .gencode, _ => .coded
  | .wrhdr _, _ => .hdrwr
  | .encode, _ => .encdone
  | .rdhdr _, _ => .hdrrd
  | .decode, _ => .decdone
  | .compress _, _ => .encdone
  | .decompress _, _ => .decdone
  | .magic, p => p
  | .internal, p => p
  | .leaf _, p => p

/-- The command takes HM and asks for COUNT_HEADER (rule R92). -/
def asksCountHeader (i : Instr) : Bool := i.headerMode == some .countHeader

/-- FREQ[s] of a table (rule R21). -/
def freqAt (freq : Vector Weight 256) (s : Nat) : Weight := freq.getD s 0

/-- CODE[s] of a table; an index outside it (no leaf carries one, rule R98) reads as no code (rule R27). -/
def codeAt (code : Vector Code 257) (s : Sym) : Code := code.getD s.toNat Code.invalid

/-- FREQ[r] <- FREQ[r] + 1 (rule R125). -/
def bumpFreq (freq : Vector Weight 256) (r : Byte) : Vector Weight 256 :=
  freq.setIfInBounds r.toNat (freqAt freq r.toNat + 1)

end Sys2Proof.Machine
end

