-- ==== Sys2Proof/Machine/Flags.lean ====
section
/-! DEFINITION. The status flags (spec/10_state.md rule R30): what is computed from the state, how the STATUS word
is laid out (rule R38), the interrupt output (spec/60_exceptions.md rule R248), and the flag changes of accepting
and completing a command (spec/40_control.md rules R110 and R112). -/

namespace Sys2Proof.Machine

/-- The 8-bit code of an error (rule R230). -/
def ErrCode.code : ErrCode → Nat
  | .noError => 0
  | .formatError => 1
  | .prematureEndOfStream => 2
  | .unimplemented => 3
  | .illegalCommand => 4
  | .sequenceError => 5
  | .lengthOverflow => 6
  | .noCode => 7
  | .badLeafValue => 8
  | .treeTooLarge => 9
  | .rootLeafNotSentinel => 10

/-- The 4-bit value of a phase (rule R29). -/
def Phase.code : Phase → Nat
  | .idle => 0
  | .counted => 1
  | .built => 2
  | .coded => 3
  | .hdrwr => 4
  | .encdone => 5
  | .hdrrd => 6
  | .decdone => 7

/-- STATUS.ERRF is not stored: it is ERR.CODE != 0 (rule R30). -/
def errf (s : State) : Bool := s.err != .noError

/-- The interrupt output (rule R248). -/
def irq (s : State) : Bool := s.ie && (s.done || errf s)

/-- The errors after which EOD and REWOUND read unspecified values until CLEAR (rule R242, log 6): those raised during
execution for which no part of the spec states the two. For the other five it states both: rules R172 and R242, and
the STATUS values of tables T5, T6 and T9. An error raised at dispatch leaves both as they were (rule R242). -/
def ErrCode.leavesFlagsOpen : ErrCode → Bool
  | .noError => false
  | .formatError => false
  | .prematureEndOfStream => false
  | .unimplemented => false
  | .illegalCommand => false
  | .sequenceError => false
  | .lengthOverflow => true
  | .noCode => true
  | .badLeafValue => false
  | .treeTooLarge => false
  | .rootLeafNotSentinel => false

/-- What STATUS reads as EOD: the flag (rule R30), or an unspecified value (rule R242). -/
def statusEod (s : State) : Bool :=
  if s.err.leavesFlagsOpen then (Config.openFlags s.free).eod else s.inp.eod

/-- What STATUS reads as REWOUND: the flag (rule R30), or an unspecified value (rule R242). -/
def statusRewound (s : State) : Bool :=
  if s.err.leavesFlagsOpen then (Config.openFlags s.free).rewound else s.inp.rewound

/-- The STATUS word with every reserved bit 0 (rule R38). -/
def statusWord (s : State) : Word :=
  BitVec.ofNat 32
    (s.busy.toNat + 2 * s.done.toNat + 4 * (errf s).toNat + 8 * (statusEod s).toNat + 16 * (statusRewound s).toNat
      + 32 * s.cmddrop.toNat + 256 * s.phase.code)

/-- Acceptance of a command other than NOP (rule R110 step 7). -/
def accept (s : State) : State := { s with done := false, busy := true }

/-- Completion of a command other than NOP and CLEAR (rules R110 step 7, R112). No transient state survives it
(rule R35). -/
def complete (i : Instr) (s : State) : State :=
  { s with busy := false, done := true, phase := nextPhase i s.phase, trav := Transient.empty }

/-- A write to CMD while BUSY = 1 (rule R110 step 1). -/
def dropCommand (s : State) : State := { s with cmddrop := true }

end Sys2Proof.Machine
end

