-- ==== Sys2Proof/Machine/Ops.lean ====
section
/-! DEFINITION. The shared operations: the stream primitives (spec/20_memory.md), the priority queue
(spec/42_tree_builder.md), raising an error and returning from it (spec/60_exceptions.md), and the dispatch of a
command (spec/40_control.md). -/

namespace Sys2Proof.Machine

/-! ## Input stream -/

/-- The bits of IN in stream order (rule R64). -/
def InStream.bits (i : InStream) : List Bool := bitsOfBytes i.bytes

/-- The bits at positions `ipos` and later: the unread ones (rule R35). -/
def InStream.unread (i : InStream) : List Bool := i.bits.drop i.ipos

/-- `ipos <- ipos + n`. -/
def InStream.advance (i : InStream) (n : Nat) : InStream := { i with ipos := i.ipos + n }

/-- End of data: nothing is consumed and EOD is set (rule R66). -/
def InStream.atEnd (i : InStream) : InStream := { i with eod := true }

/-- `ReadBits(n)` (rules R65, R66): the field at the cursor, or `none` for the distinguished value EOD. -/
def InStream.readBits (n : Nat) (i : InStream) : Option (BitVec n) × InStream :=
  if i.ipos + n > 8 * i.bytes.length then (none, i.atEnd)
  else (some (BitVec.ofNat n (ofBits (i.unread.take n))), i.advance n)

/-- The byte requests of the pass the source has to serve for `ReadBits(n)` at the cursor: one for each byte up to the
field's last bit, or one for each byte of IN and the one that is answered by end of data (rules R66, R74). -/
def InStream.requests (n : Nat) (i : InStream) : Nat :=
  if i.ipos + n > 8 * i.bytes.length then i.bytes.length + 1 else (i.ipos + n + 7) / 8

/-- Does `ReadBits(n)` wait for the source (rule R74, log 4)? The byte the cursor stands in has been served. -/
def InStream.blocks (n : Nat) (i : InStream) : Bool :=
  match i.stall with
  | none => false
  | some p => p.rewound == i.rewound && decide (max p.served ((i.ipos + 7) / 8) < i.requests n)

/-- The later of two points where a source stops; no stop is the latest. -/
def laterSource : Option SourceStall → Option SourceStall → Option SourceStall
  | none, _ => none
  | some _, none => none
  | some p, some q =>
    if p.rewound == q.rewound then some ⟨p.rewound, max p.served q.served⟩ else if p.rewound then some p else some q

/-- The later of two points where a sink stops. -/
def laterSink : Option Nat → Option Nat → Option Nat
  | none, _ => none
  | some _, none => none
  | some m, some n => some (max m n)

/-- `ReadBits(n)` as a command performs it: its result, or `none` while the source does not answer (rule R74). -/
def InStream.ask (n : Nat) (i : InStream) : Option (Option (BitVec n) × InStream) :=
  if i.blocks n then none else some (i.readBits n)

/-- The reads of one pass over the input, COUNT's and ENCODE's: L bytes and the end of data (rule R273). -/
def InStream.passReads (i : InStream) : Nat := i.bytes.length + 1

/-- `Rewind()` (rule R67). -/
def InStream.rewind (i : InStream) : InStream := { i with ipos := 0, eod := false, rewound := true }

/-! ## Output stream -/

/-- One bit to the packer; a completed byte goes to the sink, first bit = bit 7 (rule R69). -/
def OutStream.writeBit (o : OutStream) (b : Bool) : OutStream :=
  if (o.opos + 1) % 8 = 0 then
    { o with opos := o.opos + 1, obuf := [], out := o.out ++ [BitVec.ofNat 8 (ofBits (o.obuf ++ [b]))] }
  else { o with opos := o.opos + 1, obuf := o.obuf ++ [b] }

/-- Bits to the packer, in order. -/
def OutStream.writeList (o : OutStream) (bs : List Bool) : OutStream := bs.foldl OutStream.writeBit o

/-- `WriteBits(n, v)`: v[n-1] first (rules R69, R70). -/
def OutStream.writeBits (o : OutStream) (n v : Nat) : OutStream := o.writeList (bitsOf n v)

/-- `Flush()`: zero bits up to the next byte boundary (rule R71). -/
def OutStream.flush (o : OutStream) : OutStream :=
  if o.opos % 8 = 0 then o else o.writeList (List.replicate (8 - o.opos % 8) false)

/-! ## Priority queue -/

/-- The key order of rule R135: by weight, and by rule R138 among equal weights. -/
def PQEntry.before (a b : PQEntry) : Bool :=
  a.weight < b.weight || (a.weight == b.weight && Config.tieBefore a.index b.index)

/-- `PQInsert(w, i)` (rule R136), keeping the list sorted by key (rule R148, log 14). -/
def pqInsert (e : PQEntry) : List PQEntry → List PQEntry
  | [] => [e]
  | f :: fs => if e.before f then e :: f :: fs else f :: pqInsert e fs

/-- `PQRemoveMin()` (rule R137): the first entry of the sorted list and the queue without it. -/
def pqRemoveMin : List PQEntry → Option (PQEntry × List PQEntry)
  | [] => none
  | e :: es => some (e, es)

/-! ## What a command's body gives -/

/-- The end of a command's body: the state after it, an error raised with the state at that point, the state in which
it waits for a collaborator (rule R74), or a stop of the model. -/
inductive Run where
  | ok (s : State)
  | err (e : ErrCode) (info : Word) (s : State)
  | wait (s : State)
  | fault (f : Fault)
  deriving DecidableEq, Repr

/-- The next body of a macro command runs only if this one raised nothing and has ended (rule R207). -/
def Run.andThen (r : Run) (next : State → Run) : Run :=
  match r with
  | .ok s => next s
  | .err e info s => .err e info s
  | .wait s => .wait s
  | .fault f => .fault f

/-- Only the first `n` bytes of OUT have been accepted. -/
def keepOut (n : Nat) (s : State) : State := { s with outp := { s.outp with out := s.outp.out.take n } }

/-- A run over a sink that accepts `n` bytes: a body that has handed it more waits at the first one too many, since
bytes reach the sink in order (rules R74, R75). -/
def Run.upTo (n : Nat) : Run → Run
  | .ok s => if n < s.outp.out.length then .wait (keepOut n s) else .ok s
  | .err e info s => if n < s.outp.out.length then .wait (keepOut n s) else .err e info s
  | .wait s => .wait (keepOut n s)
  | .fault f => .fault f

/-- The bytes a body run from `s` has written go to the sink; what is in OUT already has been accepted. -/
def Run.drain (s : State) (r : Run) : Run :=
  match s.outp.stall with
  | none => r
  | some n => r.upTo (max n s.outp.out.length)

/-! ## Raising an error, and the return from it -/

/-- What every error does (rule R241): ERR and ERRINFO are written, BUSY and DONE are cleared, PHASE is kept and
the sink is told to discard. Nothing else is changed here: for an error raised at dispatch that is all (rules R110,
R242, log 8). -/
def raise (e : ErrCode) (info : Word) (s : State) : State :=
  { s with
    err := e, errinfo := info, busy := false, done := false,
    port := { s.port with signals := s.port.signals ++ [.outAbort] } }

/-- What rule R242 leaves unspecified after an error raised during execution takes free values. The flags EOD and
REWOUND stay as the reads and the rewind left them, as rule R30 asks; that rule R242 lets them read as anything until
CLEAR after some errors is in the read of STATUS, `statusEod` and `statusRewound` (log 6). OBUF is dropped (rule R241)
and no transient state survives (rule R35). -/
def leaveUnspecified (s : State) : State :=
  { s with
    freq := (Config.afterError s.free).freq,
    inlen := (Config.afterError s.free).inlen,
    tree := (Config.afterError s.free).tree,
    pq := (Config.afterError s.free).pq,
    code := (Config.afterError s.free).code,
    inp := { s.inp with ipos := (Config.afterError s.free).ipos },
    outp :=
      { s.outp with opos := (Config.afterError s.free).opos, obuf := [], out := (Config.afterError s.free).out },
    trav := Transient.empty,
    free := s.free + 1 }

/-- An error raised during execution (rules R241, R242). -/
def raiseExec (e : ErrCode) (info : Word) (s : State) : State := raise e info (leaveUnspecified s)

/-- The stream pair of the next session: the one attached for it, else the same again (log 9). -/
def nextStreams (s : State) : Streams :=
  s.port.pending.getD { bytes := s.inp.bytes, source := s.inp.stall, sink := s.outp.stall }

/-- A new session (rules R12, R45): every reset value, a new stream pair, CTRL as given. -/
def newSession (ie : Bool) (s : State) : State :=
  { State.reset with
    ie := ie,
    inp := InStream.fresh (nextStreams s).bytes (nextStreams s).source,
    outp := OutStream.fresh (nextStreams s).sink,
    port := { s.port with pending := none },
    free := s.free }

/-- CLEAR's effect (rule R114), the one return from an error but reset (rule R244): a new session with CTRL kept,
and `in_restart` to the collaborators. -/
def clearSession (s : State) : State :=
  { newSession s.ie s with
    port := { s.port with pending := none, signals := s.port.signals ++ [.inRestart] } }

/-- The `rst` pin takes a level (rules R260 to R262): high is the reset state, with the signals of rule R262 when a
command was running (log 11). -/
def setResetPin (level : Bool) (s : State) : State :=
  if level then
    { newSession false s with
      port :=
        { s.port with
          rst := true, answer := .none, pending := none,
          signals := s.port.signals ++ (if s.busy then [.inRestart, .outAbort] else []) } }
  else { s with port := { s.port with rst := false } }

/-- Before the first data command of a session (rule R264). -/
def freshSession (s : State) : Bool := s.phase == .idle && !errf s && !s.busy

/-- The platform attaches a source and a sink (rules R263, R264): for this session if no data command has run in
it, else for the next (log 10). -/
def attachStreams (p : Streams) (s : State) : State :=
  if freshSession s then
    { s with
      inp := { s.inp with bytes := p.bytes, stall := p.source }, outp := { s.outp with stall := p.sink } }
  else { s with port := { s.port with pending := some p } }

/-! ## Dispatch of a command -/

/-- The command `i`, accepted in `s`, waits (rule R74, log 4): BUSY stays 1 and the engine's state stays as it was at
acceptance (rule R9), while OUT and the signals are those of `u`, the state at the point where it waits. -/
def hold (i : Instr) (s u : State) : State :=
  { s with
    outp := { s.outp with out := u.outp.out },
    port := { s.port with signals := u.port.signals },
    waiting := some { cmd := i, out := s.outp.out, signals := s.port.signals } }

/-- The state in which the waiting command was accepted, with the pins and flags as they are now. -/
def beforeCommand (s : State) : State :=
  match s.waiting with
  | none => s
  | some w =>
    { s with outp := { s.outp with out := w.out }, port := { s.port with signals := w.signals }, waiting := none }

/-- The end of an accepted command: it completes (rule R112), raises (rule R241), or waits with BUSY = 1 (rule R74).
`s` is the state at acceptance. -/
def settle (i : Instr) (s : State) : Run → Host.Outcome State Fault Refusal
  | .ok s' => .next (complete i s')
  | .err e info s' => .next (raiseExec e info s')
  | .wait s' => .next (hold i s s')
  | .fault f => .fault f

/-- Steps 1, 2, 5, 6 and 7 of rule R110 for a command other than NOP and CLEAR. -/
def issue (i : Instr) (body : State → Run) (s : State) : Host.Outcome State Fault Refusal :=
  if s.busy then .next (dropCommand s)
  else if errf s then .next s
  else if !legalIn i s.phase then .next (raise .sequenceError (commandWord i) s)
  else if asksCountHeader i then .next (raise .unimplemented (commandWord i) s)
  else settle i (accept s) (body (accept s))

/-- A word that is no command is written to CMD: steps 1 to 3 of rule R110 (rules R93, R234). -/
def issueIllegal (w : Word) (s : State) : State :=
  if s.busy then dropCommand s
  else if errf s then s
  else raise .illegalCommand w s

end Sys2Proof.Machine
end

