-- ==== Sys2Proof/Machine/Control.lean ====
section
/-! DEFINITION. NOP and CLEAR (spec/40_control.md rules R113 and R114). -/

namespace Sys2Proof.Machine

/-- NOP (rule R113): dropped while BUSY, and otherwise no state change at all. -/
def execNop (s : State) : Host.Outcome State Fault Refusal :=
  .next (if s.busy then dropCommand s else s)

/-- CLEAR (rule R114): dropped while BUSY, and otherwise accepted in every phase and with an error pending. -/
def execClear (s : State) : Host.Outcome State Fault Refusal :=
  .next (if s.busy then dropCommand s else clearSession s)

end Sys2Proof.Machine
end

