-- ==== Sys2Proof/Machine/CodeGenerator.lean ====
section
/-! DEFINITION. GENCODE, the code generator (spec/43_code_generator.md rules R155 to R161). -/

namespace Sys2Proof.Machine

/-- What GENCODE's walk works on: the path register with its length (rule R35) and the code table. -/
structure Walk where
  path : CodeBits
  len  : CodeLen
  code : Vector Code 257
  deriving DecidableEq, Repr

/-- The path register after descending one edge: 0 for LEFT, 1 for RIGHT (rule R156). -/
def Walk.descend (w : Walk) (right : Bool) (code : Vector Code 257) : Walk :=
  { path := (w.path <<< 1) ||| (if right then 1 else 0), len := w.len + 1, code := code }

/-- CODE[sym] <- the accumulated path (rule R155). -/
def Walk.record (w : Walk) (sym : Sym) : Walk :=
  { w with code := w.code.setIfInBounds sym.toNat ⟨true, w.len, w.path⟩ }

/-- `walk` of rule R155, left subtree first (rule R160). `frames` bounds the nesting (rule R271); `none` where it
does not suffice. The path register is restored on the way up. -/
def walkTree (t : Tree) : Nat → NodeIx → Walk → Option Walk
  | 0, _, _ => none
  | frames + 1, i, w =>
    if (t.at i).leaf then some (w.record (t.at i).sym)
    else
      match walkTree t frames (t.at i).left (w.descend false w.code) with
      | none => none
      | some l =>
        match walkTree t frames (t.at i).right (w.descend true l.code) with
        | none => none
        | some r => some { w with code := r.code }

/-- GENCODE's body (rule R155): every entry made invalid, then the walk from the root with the empty path. -/
def gencodeBody (s : State) : Run :=
  match walkTree s.tree Config.walkFrames s.tree.root.index
      { path := 0, len := 0, code := Vector.replicate 257 Code.invalid } with
  | none => .fault .traversalTooDeep
  | some w => .ok { s with code := w.code, trav := { s.trav with path := w.path, pathLen := w.len } }

/-- GENCODE (rule R155). -/
def execGencode (s : State) : Host.Outcome State Fault Refusal := issue .gencode gencodeBody s

end Sys2Proof.Machine
end

