-- ==== Sys2Proof/Machine/Counter.lean ====
section
/-! DEFINITION. COUNT, the frequency counter (spec/41_freq_counter.md rules R125 to R129). -/

namespace Sys2Proof.Machine

/-- What COUNT's loop works on. -/
structure Tally where
  freq  : Vector Weight 256
  inlen : Word
  inp   : InStream
  deriving DecidableEq, Repr

/-- How COUNT's loop ends: at the end of data, with symbol number MAXLEN + 1 (rule R128), or waiting for the
source. -/
inductive CountEnd where
  | endOfData
  | tooLong
  | wait
  deriving DecidableEq, Repr

/-- COUNT's loop (rule R125). `fuel` is the number of reads still allowed. -/
def countLoop : Nat → Tally → Tally × CountEnd
  | 0, t => (t, .endOfData)
  | fuel + 1, t =>
    match t.inp.ask 8 with
    | none => (t, .wait)
    | some (none, inp) => ({ t with inp := inp }, .endOfData)
    | some (some r, inp) =>
      if t.inlen.toNat = Config.maxLen then ({ t with inp := inp }, .tooLong)
      else countLoop fuel { freq := bumpFreq t.freq r, inlen := t.inlen + 1, inp := inp }

/-- COUNT's body (rule R125). -/
def countBody (s : State) : Run :=
  match countLoop s.inp.passReads { freq := Vector.replicate 256 0, inlen := 0, inp := s.inp } with
  | (t, .endOfData) => .ok { s with freq := t.freq, inlen := t.inlen, inp := t.inp }
  | (t, .tooLong) => .err .lengthOverflow 0 { s with freq := t.freq, inlen := t.inlen, inp := t.inp }
  | (t, .wait) => .wait { s with freq := t.freq, inlen := t.inlen, inp := t.inp }

/-- COUNT (rule R125). -/
def execCount (s : State) : Host.Outcome State Fault Refusal := issue .count countBody s

end Sys2Proof.Machine
end

