-- ==== Sys2Proof/Machine/HeaderCodec.lean ====
section
/-! DEFINITION. The header codec (spec/44_header_codec.md): WRHDR, the three tokens as the header reader takes them
from the input stream, and RDHDR, which is that reader run to the end of the header. -/

namespace Sys2Proof.Machine

/-! ## WRHDR -/

/-- `emit` of rule R165: the token of the node, then its subtrees, left before right (rule R166). `frames` bounds the
nesting (rule R271). -/
def emitTree (t : Tree) : Nat → NodeIx → Option (List Bool)
  | 0, _ => none
  | frames + 1, i =>
    if (t.at i).leaf then some (tokenBits (.leaf (t.at i).sym))
    else
      match emitTree t frames (t.at i).left, emitTree t frames (t.at i).right with
      | some l, some r => some (tokenBits .internal ++ l ++ r)
      | some _, none => none
      | none, _ => none

/-- WRHDR's body with HM = 0 (rule R165): magic, tree, no flush. -/
def wrhdrBody (s : State) : Run :=
  match emitTree s.tree Config.walkFrames s.tree.root.index with
  | none => .fault .traversalTooDeep
  | some bs => (Run.ok { s with outp := (s.outp.writeBits 32 Config.magicTree.toNat).writeList bs }).drain s

/-- WRHDR (rules R165, R167). -/
def execWrhdr (hm : HeaderMode) (s : State) : Host.Outcome State Fault Refusal := issue (.wrhdr hm) wrhdrBody s

/-! ## The tokens of a header being read -/

/-- The header reader takes the magic field: 32 bits are consumed, NNODES and NLEAF are cleared, and the tree field
follows (rule R170). -/
def magicToken (s : State) : Run :=
  .ok { s with
    inp := s.inp.advance 32,
    tree := { s.tree with nnodes := 0, nleaf := 0 },
    trav := { s.trav with stage := .tree, stack := [] } }

/-- The subtree at `i` has been read whole: it becomes the root (no node is open), the left child of the open node
(whose right subtree follows), or the right child, which completes the open node in turn (rules R170, R174). The
last component says that the whole tree has been read. -/
def closeSubtree (i : NodeIx) (t : Tree) : List Frame → List Frame × Tree × Bool
  | [] => ([], { t with root := ⟨true, i⟩ }, true)
  | ⟨p, none⟩ :: fs => (⟨p, some i⟩ :: fs, t, false)
  | ⟨p, some l⟩ :: fs => closeSubtree p (t.set p (Node.mkInternal l i 0)) fs

/-- The header reader takes an INTERNAL token: the node's index is fixed now and the node is left open (rule R170).
The check of rule R177 stands between the marker and the node. -/
def internalToken (s : State) : Run :=
  if s.tree.nnodes.toNat = Config.nodeCap then .err .treeTooLarge 513 { s with inp := s.inp.advance 1 }
  else
    .ok { s with
      inp := s.inp.advance 1,
      tree := { s.tree with nnodes := s.tree.nnodes + 1 },
      trav := { s.trav with stack := ⟨s.tree.nnodes, none⟩ :: s.trav.stack } }

/-- NODE[NNODES] becomes the leaf `v` with weight 0, and NNODES and NLEAF count it (rules R170, R178). -/
def addLeafNode (v : Sym) (t : Tree) : Tree :=
  { t.set t.nnodes (Node.mkLeaf v 0) with nnodes := t.nnodes + 1, nleaf := t.nleaf + 1 }

/-- The header reader takes a LEAF token: the leaf is stored with weight 0 (rule R178) and every subtree it
completes is closed (rule R170). -/
def leafToken (v : Sym) (s : State) : Run :=
  if s.tree.nnodes.toNat = Config.nodeCap then .err .treeTooLarge 513 { s with inp := s.inp.advance 1 }
  else if 256 < v.toNat then .err .badLeafValue (v.zeroExtend 32) { s with inp := s.inp.advance 10 }
  else
    match closeSubtree s.tree.nnodes (addLeafNode v s.tree) s.trav.stack with
    | (stack, t, finished) =>
      .ok { s with
        inp := s.inp.advance 10, tree := t,
        trav := { s.trav with stack := stack, stage := if finished then .off else .tree } }

/-! ## The header reader -/

/-- What the reader finds at the cursor: a token, an error with the input stream at that point, or a source that does
not answer. -/
inductive Fetched where
  | token (i : Instr)
  | bad (e : ErrCode) (info : Word) (inp : InStream)
  | wait
  deriving DecidableEq, Repr

/-- The magic field at the cursor (rules R170 to R173). -/
def fetchMagic (s : State) : Fetched :=
  match s.inp.ask 32 with
  | none => .wait
  | some (none, inp) => .bad .formatError 0xFFFFFFFF inp
  | some (some m, inp) => if m = Config.magicTree then .token .magic else .bad .formatError m inp

/-- The tree token at the cursor, with the errors in the order of rule R170: end of data at the marker,
TreeTooLarge, end of data in the value, BadLeafValue (rules R175 to R177). -/
def fetchTree (s : State) : Fetched :=
  match s.inp.ask 1 with
  | none => .wait
  | some (none, inp) => .bad .prematureEndOfStream 0 inp
  | some (some b, inp) =>
    if s.tree.nnodes.toNat = Config.nodeCap then .bad .treeTooLarge 513 inp
    else if b = 0 then .token .internal
    else
      match inp.ask 9 with
      | none => .wait
      | some (none, inp) => .bad .prematureEndOfStream 1 inp
      | some (some v, inp) => if 256 < v.toNat then .bad .badLeafValue (v.zeroExtend 32) inp else .token (.leaf v)

/-- What the reader finds where it stands. -/
def fetchToken (s : State) : Option Fetched :=
  match s.trav.stage with
  | .off => none
  | .magic => some (fetchMagic s)
  | .tree => some (fetchTree s)

/-- The effect of a token the reader has found; a command is no token. -/
def tokenBody (i : Instr) (s : State) : Run :=
  match i with
  | .magic => magicToken s
  | .internal => internalToken s
  | .leaf v => leafToken v s
  | .nop => .ok s
  | .clear => .ok s
  | .count => .ok s
  | .build => .ok s
  | .gencode => .ok s
  | .wrhdr _ => .ok s
  | .encode => .ok s
  | .rdhdr _ => .ok s
  | .decode => .ok s
  | .compress _ => .ok s
  | .decompress _ => .ok s

/-- One token of the header: found and taken, or the error found in its place, or waited for. -/
def readToken (s : State) : Run :=
  match fetchToken s with
  | none => .ok s
  | some (.bad e info inp) => .err e info { s with inp := inp }
  | some .wait => .wait s
  | some (.token i) => tokenBody i s

/-- Tokens until the reader is done: one 32-bit read, a marker for each node, a value for each leaf (rule R273).
`fuel` is the number of tokens still allowed. -/
def readTokens : Nat → State → Run
  | 0, s => if s.trav.stage = .off then .ok s else .fault .traversalTooDeep
  | fuel + 1, s => if s.trav.stage = .off then .ok s else (readToken s).andThen (readTokens fuel)

/-- RDHDR's body with HM = 0 (rule R170). -/
def rdhdrBody (s : State) : Run :=
  readTokens Config.headerTokens { s with trav := { s.trav with stage := .magic } }

/-- RDHDR (rules R170 to R180). -/
def execRdhdr (hm : HeaderMode) (s : State) : Host.Outcome State Fault Refusal := issue (.rdhdr hm) rdhdrBody s

/-! ## A token as a step of its own (log 3) -/

/-- The end of a token taken alone: when the tree is whole RDHDR is complete (rule R112), an error ends RDHDR (rule
R241), otherwise the reader goes on. -/
def settleToken : Run → Host.Outcome State Fault Refusal
  | .ok s => .next (if s.trav.stage = .off then complete (.rdhdr .treeHeader) s else s)
  | .err e info s => .next (raiseExec e info s)
  | .wait s => .next s
  | .fault f => .fault f

/-- MAGIC (rule R96) where the reader expects the magic field; elsewhere nobody reads it. -/
def execMagic (s : State) : Host.Outcome State Fault Refusal :=
  if s.trav.stage = .magic then settleToken (magicToken s) else .next s

/-- INTERNAL (rule R97) where the reader stands in the tree field; elsewhere nobody reads it. -/
def execInternal (s : State) : Host.Outcome State Fault Refusal :=
  if s.trav.stage = .tree then settleToken (internalToken s) else .next s

/-- LEAF (rules R97, R98) where the reader stands in the tree field; elsewhere nobody reads it. -/
def execLeaf (v : Sym) (s : State) : Host.Outcome State Fault Refusal :=
  if s.trav.stage = .tree then settleToken (leafToken v s) else .next s

end Sys2Proof.Machine
end

