-- ==== Sys2Proof/Machine/StreamCodec.lean ====
section
/-! DEFINITION. The bit-stream codec: ENCODE and DECODE (spec/45_bitstream_codec.md rules R185 to R202). -/

namespace Sys2Proof.Machine

/-! ## ENCODE -/

/-- The end of ENCODE's loop: the input is exhausted, a byte has no code, or the source does not answer. -/
inductive Encoded where
  | done (inp : InStream) (outp : OutStream)
  | noCode (r : Byte) (inp : InStream) (outp : OutStream)
  | wait (inp : InStream) (outp : OutStream)
  deriving DecidableEq, Repr

/-- `WriteBits(LEN, BITS[LEN-1:0])` (rule R187). -/
def writeCode (c : Code) (o : OutStream) : OutStream := o.writeBits c.len.toNat c.bits.toNat

/-- ENCODE's loop (rule R185). `fuel` is the number of reads still allowed. -/
def encodeLoop (code : Vector Code 257) : Nat → InStream → OutStream → Encoded
  | 0, inp, outp => .done inp outp
  | fuel + 1, inp, outp =>
    match inp.ask 8 with
    | none => .wait inp outp
    | some (none, inp) => .done inp outp
    | some (some r, inp) =>
      if (codeAt code (r.zeroExtend 9)).valid then
        encodeLoop code fuel inp (writeCode (codeAt code (r.zeroExtend 9)) outp)
      else .noCode r inp outp

/-- `in_rewind` to the source, one request for each `Rewind()` (rule R74). -/
def signalRewind (s : State) : State := { s with port := { s.port with signals := s.port.signals ++ [.inRewind] } }

/-- ENCODE's body (rules R185 to R190): rewind, the codes of the input, the sentinel's code, flush. -/
def encodeBody (s : State) : Run :=
  (match encodeLoop s.code s.inp.passReads s.inp.rewind s.outp with
  | .done inp outp =>
    Run.ok { signalRewind s with inp := inp, outp := (writeCode (codeAt s.code Config.eos) outp).flush }
  | .noCode r inp outp => .err .noCode (r.zeroExtend 32) { signalRewind s with inp := inp, outp := outp }
  | .wait inp outp => .wait { signalRewind s with inp := inp, outp := outp }).drain s

/-- ENCODE (rule R185). -/
def execEncode (s : State) : Host.Outcome State Fault Refusal := issue .encode encodeBody s

/-! ## DECODE -/

/-- The end of a descent: a leaf, end of data (rule R197), or a source that does not answer. -/
inductive Descent where
  | leaf (cur : NodeIx) (inp : InStream)
  | endOfData (cur : NodeIx) (inp : InStream)
  | wait (cur : NodeIx) (inp : InStream)
  deriving DecidableEq, Repr

/-- The child of CUR a body bit selects (rule R196). -/
def childOf (t : Tree) (cur : NodeIx) (b : BitVec 1) : NodeIx :=
  if b = 0 then (t.at cur).left else (t.at cur).right

/-- The bit reads of one descent at most: each one that succeeds consumes a bit of the input (rule R273: one bit for
each edge walked). -/
def InStream.descentReads (i : InStream) : Nat := 8 * i.bytes.length + 1

/-- The descents of DECODE at most: each but one under a leaf root consumes a bit (rules R202, R273). -/
def InStream.descents (i : InStream) : Nat := 8 * i.bytes.length + 2

/-- DECODE's inner loop (rule R196): one bit for each internal node. `fuel` is the number of reads still allowed. -/
def descend (t : Tree) : Nat → NodeIx → InStream → Descent
  | 0, cur, inp => if (t.at cur).leaf then .leaf cur inp else .endOfData cur inp.atEnd
  | fuel + 1, cur, inp =>
    if (t.at cur).leaf then .leaf cur inp
    else
      match inp.ask 1 with
      | none => .wait cur inp
      | some (none, inp) => .endOfData cur inp
      | some (some b, inp) => descend t fuel (childOf t cur b) inp

/-- The end of DECODE's outer loop, with CUR. -/
inductive Decoded where
  | done (cur : NodeIx) (inp : InStream) (outp : OutStream)
  | endOfData (cur : NodeIx) (inp : InStream) (outp : OutStream)
  | wait (cur : NodeIx) (inp : InStream) (outp : OutStream)
  deriving DecidableEq, Repr

/-- DECODE's outer loop (rules R195, R198, R199). `reads` is the fuel of one descent and `fuel` the number of
descents still allowed. -/
def decodeLoop (t : Tree) (reads : Nat) : Nat → InStream → OutStream → Decoded
  | 0, inp, outp => .endOfData t.root.index inp.atEnd outp
  | fuel + 1, inp, outp =>
    match descend t reads t.root.index inp with
    | .endOfData cur inp => .endOfData cur inp outp
    | .wait cur inp => .wait cur inp outp
    | .leaf cur inp =>
      if (t.at cur).sym = Config.eos then .done cur inp outp
      else decodeLoop t reads fuel inp (outp.writeBits 8 (t.at cur).sym.toNat)

/-- NODE[ROOT.INDEX]. -/
def rootNode (t : Tree) : Node := t.at t.root.index

/-- DECODE's body (rules R195 to R201). -/
def decodeBody (s : State) : Run :=
  if (rootNode s.tree).leaf && (rootNode s.tree).sym != Config.eos then
    .err .rootLeafNotSentinel ((rootNode s.tree).sym.zeroExtend 32) s
  else
    (match decodeLoop s.tree s.inp.descentReads s.inp.descents s.inp s.outp with
    | .done cur inp outp => Run.ok { s with inp := inp, outp := outp.flush, trav := { s.trav with cur := cur } }
    | .endOfData cur inp outp =>
      .err .prematureEndOfStream 2 { s with inp := inp, outp := outp, trav := { s.trav with cur := cur } }
    | .wait cur inp outp => .wait { s with inp := inp, outp := outp, trav := { s.trav with cur := cur } }).drain s

/-- DECODE (rule R195). -/
def execDecode (s : State) : Host.Outcome State Fault Refusal := issue .decode decodeBody s

end Sys2Proof.Machine
end

