-- ==== Sys2Proof/Machine/TreeBuilder.lean ====
section
/-! DEFINITION. BUILD, the tree builder with its min-priority queue (spec/42_tree_builder.md rules R135 to R148). -/

namespace Sys2Proof.Machine

/-- What BUILD's loops work on. -/
structure Builder where
  tree : Tree
  pq   : List PQEntry
  deriving DecidableEq, Repr

/-- The next free entry becomes this node and enters the queue (rules R139 to R141). -/
def addNode (n : Node) (b : Builder) : Builder :=
  { tree := { b.tree.set b.tree.nnodes n with nnodes := b.tree.nnodes + 1 },
    pq := pqInsert ⟨n.weight, b.tree.nnodes⟩ b.pq }

/-- One symbol of the leaf loop (rule R139): no leaf for a count of 0. -/
def addSymbolLeaf (freq : Vector Weight 256) (b : Builder) (s : Nat) : Builder :=
  if freqAt freq s = 0 then b else addNode (Node.mkLeaf (BitVec.ofNat 9 s) (freqAt freq s)) b

/-- All leaves: the symbols in ascending order (rule R139), then the sentinel (rule R140). -/
def addLeaves (freq : Vector Weight 256) (b : Builder) : Builder :=
  addNode (Node.mkLeaf Config.eos Config.eosWeight) ((List.range Config.alph).foldl (addSymbolLeaf freq) b)

/-- The internal node over two removed nodes (rules R141, R142, R145). -/
def mergeNode (t : Tree) (first second : NodeIx) : Node :=
  Node.mkInternal (Config.orient first second).1 (Config.orient first second).2
    ((t.at first).weight + (t.at second).weight)

/-- The merge loop (rule R141): while the queue holds more than one entry. `fuel` is the number of passes still
allowed. -/
def mergeLoop : Nat → Builder → Builder
  | 0, b => b
  | fuel + 1, b =>
    match pqRemoveMin b.pq with
    | none => b
    | some (e₁, q₁) =>
      match pqRemoveMin q₁ with
      | none => b
      | some (e₂, q₂) =>
        mergeLoop fuel (addNode (mergeNode b.tree e₁.index e₂.index) { b with pq := q₂ })

/-- The index of the one entry left in the queue (rule R143). The queue is never empty here, since the sentinel is
always added (rule R144). -/
def rootIndex : List PQEntry → NodeIx
  | [] => 0
  | e :: _ => e.index

/-- `NLEAF <- NNODES` (rule R141). -/
def setLeafCount (b : Builder) : Builder := { b with tree := { b.tree with nleaf := b.tree.nnodes } }

/-- ROOT becomes the one entry left (rule R141). -/
def setRoot (b : Builder) : Builder := { b with tree := { b.tree with root := ⟨true, rootIndex b.pq⟩ } }

/-- The leaves BUILD starts from, NNODES and PQ emptied first (rules R139 to R141). -/
def buildLeaves (freq : Vector Weight 256) (t : Tree) : Builder :=
  setLeafCount (addLeaves freq { tree := { t with nnodes := 0 }, pq := [] })

/-- The passes of the merge loop: NLEAF - 1 times two removals and one insert (rules R143, R273). -/
def mergePasses (b : Builder) : Nat := b.pq.length - 1

/-- BUILD's tables (rule R141): leaves, merges, ROOT. -/
def buildTree (freq : Vector Weight 256) (t : Tree) : Builder :=
  setRoot (mergeLoop (mergePasses (buildLeaves freq t)) (buildLeaves freq t))

/-- BUILD's body (rule R141); it cannot fail. -/
def buildBody (s : State) : Run :=
  .ok { s with tree := (buildTree s.freq s.tree).tree, pq := (buildTree s.freq s.tree).pq }

/-- BUILD (rule R141). -/
def execBuild (s : State) : Host.Outcome State Fault Refusal := issue .build buildBody s

end Sys2Proof.Machine
end

