-- ==== Sys2Proof/Machine/Macro.lean ====
section
/-! DEFINITION. The whole operations COMPRESS and DECOMPRESS (spec/46_compress_decompress.md rules R205 to R207): the
bodies of the phase commands without their dispatch checks and without their own PHASE updates. -/

namespace Sys2Proof.Machine

/-- COMPRESS's body with HM = 0 (rule R205). -/
def compressBody (s : State) : Run :=
  ((((countBody s).andThen buildBody).andThen gencodeBody).andThen wrhdrBody).andThen encodeBody

/-- COMPRESS (rule R205). -/
def execCompress (hm : HeaderMode) (s : State) : Host.Outcome State Fault Refusal :=
  issue (.compress hm) compressBody s

/-- DECOMPRESS's body with HM = 0 (rule R206). -/
def decompressBody (s : State) : Run := (rdhdrBody s).andThen decodeBody

/-- DECOMPRESS (rule R206). -/
def execDecompress (hm : HeaderMode) (s : State) : Host.Outcome State Fault Refusal :=
  issue (.decompress hm) decompressBody s

/-- The body of each command that has one, so that a waiting command can go on (rule R74, log 4). -/
def bodyOf : Instr → State → Run
  | .nop => .ok
  | .clear => .ok
  | .count => countBody
  | .build => buildBody
  | .gencode => gencodeBody
  | .wrhdr _ => wrhdrBody
  | .encode => encodeBody
  | .rdhdr _ => rdhdrBody
  | .decode => decodeBody
  | .compress _ => compressBody
  | .decompress _ => decompressBody
  | .magic => .ok
  | .internal => .ok
  | .leaf _ => .ok

/-- The session's source and sink stop next at these points. What has been served and accepted stays so: neither comes
to stop earlier than before. -/
def moveStalls (source : Option SourceStall) (sink : Option Nat) (s : State) : State :=
  { s with
    inp := { s.inp with stall := laterSource s.inp.stall source },
    outp := { s.outp with stall := laterSink s.outp.stall sink } }

/-- The source and the sink go on, up to these points (rule R74, log 4). A command that waits for them goes on with
them; nothing it has read or written changes, so it is taken again from its acceptance. -/
def goOn (source : Option SourceStall) (sink : Option Nat) (s : State) : Host.Outcome State Fault Refusal :=
  match s.waiting with
  | none => .next (moveStalls source sink s)
  | some w =>
    settle w.cmd (moveStalls source sink (beforeCommand s)) (bodyOf w.cmd (moveStalls source sink (beforeCommand s)))

end Sys2Proof.Machine
end

