-- ==== Sys2Proof/Machine/Dispatch.lean ====
section
/-! DEFINITION. One arm for each row of the opcode table. -/

namespace Sys2Proof.Machine

def exec (i : Instr) (s : State) : Host.Outcome State Fault Refusal :=
  match i with
  | .nop => Sys2Proof.Machine.execNop s
  | .clear => Sys2Proof.Machine.execClear s
  | .count => Sys2Proof.Machine.execCount s
  | .build => Sys2Proof.Machine.execBuild s
  | .gencode => Sys2Proof.Machine.execGencode s
  | .wrhdr hm => Sys2Proof.Machine.execWrhdr hm s
  | .encode => Sys2Proof.Machine.execEncode s
  | .rdhdr hm => Sys2Proof.Machine.execRdhdr hm s
  | .decode => Sys2Proof.Machine.execDecode s
  | .compress hm => Sys2Proof.Machine.execCompress hm s
  | .decompress hm => Sys2Proof.Machine.execDecompress hm s
  | .magic => Sys2Proof.Machine.execMagic s
  | .internal => Sys2Proof.Machine.execInternal s
  | .leaf v => Sys2Proof.Machine.execLeaf v s

end Sys2Proof.Machine
end

