-- ==== Sys2Proof/Machine/HostPort.lean ====
section
/-! DEFINITION. The host port (spec/10_state.md rules R37 to R42, spec/20_memory.md rules R61 to R63): the register
map, reads and writes of registers, and what one act of the host or the platform does. -/

namespace Sys2Proof.Machine

/-- A register of the map of rule R37, each table entry under its index. -/
inductive Reg where
  | cmd
  | status
  | ctrl
  | err
  | errinfo
  | inlen
  | iposl
  | iposh
  | oposl
  | oposh
  | nnodes
  | root
  | nleaf
  | pqcnt
  | id
  | magict
  | magicc
  | freq (s : Fin 256)
  | nodeA (i : Fin 513)
  | nodeW (i : Fin 513)
  | codeLen (s : Fin 257)
  | codeBits (s : Fin 257) (w : Fin 8)
  deriving DecidableEq, Repr

/-- The byte address of a register (rule R37). -/
def Reg.addr : Reg → Nat
  | .cmd => 0x0000
  | .status => 0x0004
  | .ctrl => 0x0008
  | .err => 0x000C
  | .errinfo => 0x0010
  | .inlen => 0x0014
  | .iposl => 0x0018
  | .iposh => 0x001C
  | .oposl => 0x0020
  | .oposh => 0x0024
  | .nnodes => 0x0028
  | .root => 0x002C
  | .nleaf => 0x0030
  | .pqcnt => 0x0034
  | .id => 0x0038
  | .magict => 0x003C
  | .magicc => 0x0040
  | .freq s => 0x0400 + 4 * s.val
  | .nodeA i => 0x1000 + 8 * i.val
  | .nodeW i => 0x1004 + 8 * i.val
  | .codeLen s => 0x3000 + 4 * s.val
  | .codeBits s w => 0x4000 + 32 * s.val + 4 * w.val

/-- The scalar registers in the order of their addresses, 0x0000 to 0x0040 in steps of 4 (rule R37). -/
def scalarRegs : List Reg :=
  [.cmd, .status, .ctrl, .err, .errinfo, .inlen, .iposl, .iposh, .oposl, .oposh, .nnodes, .root, .nleaf, .pqcnt,
    .id, .magict, .magicc]

/-- The register at a byte address that is a multiple of 4; `none` at an unmapped offset (rules R37, R42 b). -/
def regAt (a : Nat) : Option Reg :=
  if a < 0x0400 then scalarRegs[a / 4]?
  else if h : a < 0x0800 then some (.freq ⟨(a - 0x0400) / 4, by omega⟩)
  else if a < 0x1000 then none
  else if h : a < 0x2008 then
    if a % 8 = 0 then some (.nodeA ⟨(a - 0x1000) / 8, by omega⟩) else some (.nodeW ⟨(a - 0x1000) / 8, by omega⟩)
  else if a < 0x3000 then none
  else if h : a < 0x3404 then some (.codeLen ⟨(a - 0x3000) / 4, by omega⟩)
  else if a < 0x4000 then none
  else if h : a < 0x6020 then some (.codeBits ⟨(a - 0x4000) / 32, by omega⟩ ⟨(a - 0x4000) / 4 % 8, by omega⟩)
  else none

/-- The constant registers (rule R36). -/
def Reg.isConstant : Reg → Bool
  | .id => true
  | .magict => true
  | .magicc => true
  | .cmd => false
  | .status => false
  | .ctrl => false
  | .err => false
  | .errinfo => false
  | .inlen => false
  | .iposl => false
  | .iposh => false
  | .oposl => false
  | .oposh => false
  | .nnodes => false
  | .root => false
  | .nleaf => false
  | .pqcnt => false
  | .freq _ => false
  | .nodeA _ => false
  | .nodeW _ => false
  | .codeLen _ => false
  | .codeBits _ _ => false

/-- NODEA (rule R39): VALID 31, LEAF 30, LEFT 29:20, RIGHT 19:10, SYM 8:0. -/
def nodeAWord (n : Node) : Word :=
  BitVec.ofNat 32
    (n.valid.toNat * 2 ^ 31 + n.leaf.toNat * 2 ^ 30 + n.left.toNat * 2 ^ 20 + n.right.toNat * 2 ^ 10 + n.sym.toNat)

/-- CODELEN (rule R40): VALID 31, LEN 8:0. -/
def codeLenWord (c : Code) : Word := BitVec.ofNat 32 (c.valid.toNat * 2 ^ 31 + c.len.toNat)

/-- ROOT (rule R38): VALID 31, INDEX 9:0. -/
def rootWord (r : Root) : Word := BitVec.ofNat 32 (r.valid.toNat * 2 ^ 31 + r.index.toNat)

/-- The value a register holds (rules R36 to R41); CMD reads 0 (rule R42 b). -/
def readReg (s : State) : Reg → Word
  | .cmd => 0
  | .status => statusWord s
  | .ctrl => BitVec.ofNat 32 s.ie.toNat
  | .err => BitVec.ofNat 32 s.err.code
  | .errinfo => s.errinfo
  | .inlen => s.inlen
  | .iposl => BitVec.ofNat 32 s.inp.ipos
  | .iposh => BitVec.ofNat 32 (s.inp.ipos / 2 ^ 32)
  | .oposl => BitVec.ofNat 32 s.outp.opos
  | .oposh => BitVec.ofNat 32 (s.outp.opos / 2 ^ 32)
  | .nnodes => BitVec.ofNat 32 s.tree.nnodes.toNat
  | .root => rootWord s.tree.root
  | .nleaf => BitVec.ofNat 32 s.tree.nleaf.toNat
  | .pqcnt => BitVec.ofNat 32 (s.pq.length % 2 ^ 9)
  | .id => Config.idValue
  | .magict => Config.magicTree
  | .magicc => Config.magicCounts
  | .freq i => freqAt s.freq i.val
  | .nodeA i => nodeAWord (s.tree.at (BitVec.ofNat 10 i.val))
  | .nodeW i => (s.tree.at (BitVec.ofNat 10 i.val)).weight
  | .codeLen i => codeLenWord (codeAt s.code (BitVec.ofNat 9 i.val))
  | .codeBits i w => (codeAt s.code (BitVec.ofNat 9 i.val)).bits.extractLsb' (32 * w.val) 32

/-- What a read returns while BUSY = 1, from a free value (rule R42 d, log 7): STATUS.BUSY is 1, the constants are
themselves, nothing else is defined. -/
def busyRead (s : State) (free : Word) : Reg → Word
  | .status => free ||| 1
  | .id => readReg s .id
  | .magict => readReg s .magict
  | .magicc => readReg s .magicc
  | .cmd => free
  | .ctrl => free
  | .err => free
  | .errinfo => free
  | .inlen => free
  | .iposl => free
  | .iposh => free
  | .oposl => free
  | .oposh => free
  | .nnodes => free
  | .root => free
  | .nleaf => free
  | .pqcnt => free
  | .freq _ => free
  | .nodeA _ => free
  | .nodeW _ => free
  | .codeLen _ => free
  | .codeBits _ _ => free

/-- The engine answers an access (rule R61). -/
def answer (a : HostAnswer) (s : State) : State := { s with port := { s.port with answer := a } }

/-- The one legal access: 32 bits wide at a multiple of 4 (rule R62). -/
def legalAccess (a : RegAddr) (be : BitVec 4) : Bool := be == 0xF && a.toNat % 4 == 0

/-- `MemRead` (rules R42, R61 to R63, R115). -/
def hostRead (a : RegAddr) (be : BitVec 4) (s : State) : State :=
  if !legalAccess a be then answer .err s
  else
    match regAt a.toNat with
    | none => answer (.data 0) s
    | some r =>
      if s.busy && !r.isConstant then
        { answer (.data (busyRead s (Config.busyRead s.free) r)) s with free := s.free + 1 }
      else answer (.data (readReg s r)) s

/-- A word written to CMD (rule R110): a command is run, any other word is illegal. -/
def writeCmd (w : Word) (s : State) : Host.Outcome State Fault Refusal :=
  match decodeWord w with
  | .ok i => exec i s
  | .error _ => .next (issueIllegal w s)

/-- A word written to a register (rules R42 a, R115): CMD issues a command, CTRL stores IE, nothing else is
writable. -/
def writeReg (r : Reg) (w : Word) (s : State) : Host.Outcome State Fault Refusal :=
  match r with
  | .cmd => writeCmd w s
  | .ctrl => .next { s with ie := w.getLsbD 0 }
  | .status => .next s
  | .err => .next s
  | .errinfo => .next s
  | .inlen => .next s
  | .iposl => .next s
  | .iposh => .next s
  | .oposl => .next s
  | .oposh => .next s
  | .nnodes => .next s
  | .root => .next s
  | .nleaf => .next s
  | .pqcnt => .next s
  | .id => .next s
  | .magict => .next s
  | .magicc => .next s
  | .freq _ => .next s
  | .nodeA _ => .next s
  | .nodeW _ => .next s
  | .codeLen _ => .next s
  | .codeBits _ _ => .next s

/-- `MemWrite` (rules R42, R61 to R63, R115). -/
def hostWrite (a : RegAddr) (be : BitVec 4) (w : Word) (s : State) : Host.Outcome State Fault Refusal :=
  if !legalAccess a be then .next (answer .err s)
  else
    match regAt a.toNat with
    | none => .next (answer .ack s)
    | some r => writeReg r w (answer .ack s)

/-- One act of the host or the platform. While `rst` is high accesses get no answer (rule R260). -/
def hostStep (op : HostOp) (s : State) : Host.Outcome State Fault Refusal :=
  match op with
  | .rst level => .next (setResetPin level s)
  | .attach p => .next (attachStreams p s)
  | .goOn source sink => goOn source sink s
  | .read a be => .next (if s.port.rst then answer .none s else hostRead a be s)
  | .write a be w => if s.port.rst then .next (answer .none s) else hostWrite a be w s

/-- The act at the head of the queue; with nothing to do the engine waits (rule R261). -/
def hostTurn (s : State) : Host.Outcome State Fault Refusal :=
  match s.port.host with
  | [] => .next s
  | op :: rest => hostStep op { s with port := { s.port with host := rest } }

/-- The reader's turn inside RDHDR (log 3): the token it finds is executed, the error it finds ends the command. -/
def readerTurn (s : State) : Host.Outcome State Fault Refusal :=
  match fetchToken s with
  | none => .next s
  | some (.bad e info inp) => .next (raiseExec e info { s with inp := inp })
  | some .wait => .next s
  | some (.token i) => exec i s

/-- The reader goes on when it is inside a header and its source answers what it asks next. -/
def readerActive (s : State) : Bool :=
  match fetchToken s with
  | none => false
  | some (.bad _ _ _) => true
  | some .wait => false
  | some (.token _) => true

/-- The host writes this word to CMD before anything else it has to do. -/
def queueCommand (w : Word) (s : State) : State :=
  { s with port := { s.port with rst := false, host := .write 0 0xF w :: s.port.host } }

/-- Bits as bytes, first bit most significant, the last byte filled with 0. -/
def bytesOfBits (bs : List Bool) : List Byte :=
  ((OutStream.fresh none).writeList bs).flush.out

/-- The reader stands inside RDHDR, expecting `stage`, at the start of an input that holds these bits. -/
def placeToken (stage : Stage) (bs : List Bool) (s : State) : State :=
  { s with
    busy := true,
    inp := { s.inp with bytes := bytesOfBits bs, stall := none, ipos := 0 },
    trav := { s.trav with stage := stage },
    port := { s.port with rst := false } }

/-- Where a table word is placed so that the next step runs it (log 2, log 3, log 18): a command word at the head of
the host's queue with the reader off, the magic field or a tree token in the input of the header reader. -/
def placeTableWord (s : State) (nbits w : Nat) : State :=
  if nbits ≤ 16 then placeToken .tree (tableTokenBits nbits w) s
  else
    match decodeTableWord nbits w with
    | some .magic => placeToken .magic (bitsOf 32 w) s
    | _ => queueCommand (BitVec.ofNat 32 w) { s with trav := { s.trav with stage := .off } }

end Sys2Proof.Machine
end

