-- ==== Sys2Proof/Machine/Step.lean ====
section
/-! DEFINITION. One step of the machine: the header reader's next token if it stands inside a header, else the next
act of the host or the platform. -/

namespace Sys2Proof.Machine

/-- One step. Every command is one step (rules R9, R272): the reader is inside a header only in states placed there
token by token (log 3). -/
def step (s : State) : Host.Outcome State Fault Refusal :=
  if readerActive s then readerTurn s else hostTurn s

/-- The state with the instruction `w` of the opcode table where `step` takes its next instruction. -/
def State.withFetchWord (s : State) (nbits w : Nat) : State := placeTableWord s nbits w

end Sys2Proof.Machine
end

