-- ==== Sys2Proof/Safety.lean ====
section
/-! DEFINITION. The words claims about HUFFCORE are stated in: when a command may run, what tree a node memory
holds, what a session's result is, the invariant of a run, and the recursive header reader of rule R170 as the spec
writes it. -/

namespace Sys2Proof.Machine

/-! ## The opcode map -/

/-- A row of rule R91's table: mask, match, and the command with each header mode. -/
structure CommandRow where
  mask        : Word
  pattern     : Word
  treeHeader  : Instr
  countHeader : Instr
  deriving DecidableEq, Repr

/-- Rule R91's table. -/
def commandRows : List CommandRow :=
  [⟨0xFFFFFFFF, 0x00000000, .nop, .nop⟩,
    ⟨0xFFFFFFFF, 0x00000001, .clear, .clear⟩,
    ⟨0xFFFFFFFF, 0x00000010, .count, .count⟩,
    ⟨0xFFFFFFFF, 0x00000011, .build, .build⟩,
    ⟨0xFFFFFFFF, 0x00000012, .gencode, .gencode⟩,
    ⟨0xFFFFFEFF, 0x00000013, .wrhdr .treeHeader, .wrhdr .countHeader⟩,
    ⟨0xFFFFFFFF, 0x00000014, .encode, .encode⟩,
    ⟨0xFFFFFEFF, 0x00000020, .rdhdr .treeHeader, .rdhdr .countHeader⟩,
    ⟨0xFFFFFFFF, 0x00000021, .decode, .decode⟩,
    ⟨0xFFFFFEFF, 0x00000030, .compress .treeHeader, .compress .countHeader⟩,
    ⟨0xFFFFFEFF, 0x00000031, .decompress .treeHeader, .decompress .countHeader⟩]

/-! ## When a command runs -/

/-- Source and sink answer every request (rule R272). -/
abbrev Answering (s : State) : Prop := s.inp.stall = none ∧ s.outp.stall = none

/-- The engine is idle in phase `p` with no error pending and its collaborators answer. -/
abbrev Ready (p : Phase) (s : State) : Prop :=
  s.busy = false ∧ s.err = .noError ∧ s.phase = p ∧ Answering s

/-- The next step is the host's: the header reader is not at work and `rst` is low (log 3, rule R260). -/
abbrev AtHostPort (s : State) : Prop := readerActive s = false ∧ s.port.rst = false

/-- The next act of the host ends the session: CLEAR's word written to CMD with `rst` low, or `rst` raised (rule R244). -/
def EndsSession (s : State) : Prop :=
  ∃ rest, s.port.rst = false ∧ s.port.host = .write 0x0000 0xF 0x00000001 :: rest ∨ s.port.host = .rst true :: rest

/-- The phases a command is legal in, as rule R111's table lists them. -/
def legalPhases : Instr → List Phase
  | .nop => [.idle, .counted, .built, .coded, .hdrwr, .encdone, .hdrrd, .decdone]
  | .clear => [.idle, .counted, .built, .coded, .hdrwr, .encdone, .hdrrd, .decdone]
  | .count => [.idle]
  | .build => [.counted]
  | .gencode => [.built]
  | .wrhdr _ => [.coded]
  | .encode => [.hdrwr]
  | .rdhdr _ => [.idle]
  | .decode => [.hdrrd]
  | .compress _ => [.idle]
  | .decompress _ => [.idle]
  | .magic => []
  | .internal => []
  | .leaf _ => []

/-- The phase a command leaves on success, as rule R111's table lists it; none where the phase stays. -/
def phaseAfter : Instr → Option Phase
  | .nop => none
  | .clear => some .idle
  | .count => some .counted
  | .build => some .built
  | .gencode => some .coded
  | .wrhdr _ => some .hdrwr
  | .encode => some .encdone
  | .rdhdr _ => some .hdrrd
  | .decode => some .decdone
  | .compress _ => some .encdone
  | .decompress _ => some .decdone
  | .magic => none
  | .internal => none
  | .leaf _ => none

/-- The three errors raised at dispatch (rule R242). -/
def ErrCode.atDispatch : ErrCode → Bool
  | .unimplemented => true
  | .illegalCommand => true
  | .sequenceError => true
  | .noError => false
  | .formatError => false
  | .prematureEndOfStream => false
  | .lengthOverflow => false
  | .noCode => false
  | .badLeafValue => false
  | .treeTooLarge => false
  | .rootLeafNotSentinel => false

/-- No error raised during execution is pending: tables, cursors and streams are defined (rule R242). -/
abbrev Defined (s : State) : Prop := s.err = .noError ∨ s.err.atDispatch = true

/-! ## Trees -/

/-- A binary tree in which every internal node has two children (rule R24). -/
inductive Shape where
  | leaf (v : Sym)
  | node (l r : Shape)
  deriving DecidableEq, Repr

/-- Number of nodes. -/
def Shape.size : Shape → Nat
  | .leaf _ => 1
  | .node l r => 1 + l.size + r.size

/-- Number of leaves. -/
def Shape.leafCount : Shape → Nat
  | .leaf _ => 1
  | .node l r => l.leafCount + r.leafCount

/-- The leaf values, left to right. -/
def Shape.values : Shape → List Sym
  | .leaf v => [v]
  | .node l r => l.values ++ r.values

/-- Each leaf with the path from the root to it, 0 descending left and 1 descending right (rule R156). -/
def Shape.paths : Shape → List (Sym × List Bool)
  | .leaf v => [(v, [])]
  | .node l r =>
    (l.paths.map fun x => (x.1, false :: x.2)) ++ (r.paths.map fun x => (x.1, true :: x.2))

/-- The preorder serialization (rules R97, R166). -/
def Shape.bits : Shape → List Bool
  | .leaf v => true :: bitsOf 9 v.toNat
  | .node l r => false :: l.bits ++ r.bits

/-- The node memory spells this tree at index `i` (rules R23, R24). -/
def spells (t : Tree) : NodeIx → Shape → Bool
  | i, .leaf v => t.at i == Node.mkLeaf v (t.at i).weight
  | i, .node l r =>
    t.at i == Node.mkInternal (t.at i).left (t.at i).right (t.at i).weight
      && spells t (t.at i).left l && spells t (t.at i).right r

/-- The indices of the nodes of the tree at index `i`, in preorder. -/
def indices (t : Tree) : NodeIx → Shape → List NodeIx
  | i, .leaf _ => [i]
  | i, .node l r => i :: indices t (t.at i).left l ++ indices t (t.at i).right r

/-- The tree invariant (rules R24, R25): the valid entries are 0..NNODES-1 and form the one tree `sh` at the root,
each of them once; every other entry has all fields 0. -/
structure TreeOk (t : Tree) (sh : Shape) : Prop where
  rootValid : t.root.valid = true
  spelled   : spells t t.root.index sh = true
  once      : (indices t t.root.index sh).Nodup
  nodes     : sh.size = t.nnodes.toNat
  leaves    : sh.leafCount = t.nleaf.toNat
  used      : ∀ i : Nat, i < t.nnodes.toNat → (t.at (BitVec.ofNat 10 i)).valid = true
  unused    : ∀ i : Nat, t.nnodes.toNat ≤ i → i < 513 → t.at (BitVec.ofNat 10 i) = Node.invalid

/-- What BUILD adds (rule R24): pairwise different symbols, one sentinel, the root created last. -/
structure BuiltOk (t : Tree) (sh : Shape) : Prop extends TreeOk t sh where
  different : sh.values.Nodup
  sentinel  : Config.eos ∈ sh.values
  symbols   : ∀ v ∈ sh.values, v.toNat ≤ 256
  rootLast  : t.root.index.toNat + 1 = t.nnodes.toNat

/-- The queue entry of a node. -/
def entryOf (t : Tree) (k : NodeIx) : PQEntry := ⟨(t.at k).weight, k⟩

/-- Node `k` became a child of a node created before node `i`. -/
def mergedBefore (t : Tree) (i k : NodeIx) : Prop :=
  ∃ j : NodeIx, j.toNat < i.toNat ∧ (t.at j).leaf = false ∧ ((t.at j).left = k ∨ (t.at j).right = k)

/-- Where an internal node of a built tree came from (rules R137, R141, R142, R145): of the nodes that existed and
were not merged yet, its LEFT child came first in the queue's order and its RIGHT child second; their weights were
added. -/
structure MergeOk (t : Tree) (i : NodeIx) : Prop where
  left      : (t.at i).left.toNat < i.toNat
  right     : (t.at i).right.toNat < i.toNat
  weight    : (t.at i).weight = (t.at (t.at i).left).weight + (t.at (t.at i).right).weight
  leftFree  : ¬ mergedBefore t i (t.at i).left
  rightFree : ¬ mergedBefore t i (t.at i).right
  order     : (entryOf t (t.at i).left).before (entryOf t (t.at i).right) = true
  least     : ∀ k : NodeIx, k.toNat < i.toNat → k ≠ (t.at i).left → k ≠ (t.at i).right → ¬ mergedBefore t i k →
    (entryOf t (t.at i).right).before (entryOf t k) = true

/-- The symbols below `n` with a nonzero count, in ascending order (rule R139). -/
def usedValues (freq : Vector Weight 256) (n : Nat) : List Sym :=
  ((List.range n).filter fun s => freqAt freq s != 0).map (BitVec.ofNat 9)

/-- The register image of a path (rule R27). -/
def codeOfPath (p : List Bool) : Code := ⟨true, BitVec.ofNat 9 p.length, BitVec.ofNat 256 (ofBits p)⟩

/-- The bits of a code in stream order (rules R27, R187). -/
def codeBitList (c : Code) : List Bool := bitsOf c.len.toNat c.bits.toNat

/-- The code table invariant (rules R28, R158): the path of every leaf, and no other code. -/
structure CodesOk (code : Vector Code 257) (sh : Shape) : Prop where
  spelled : ∀ x ∈ sh.paths, codeAt code x.1 = codeOfPath x.2
  absent  : ∀ v : Sym, v ∉ sh.values → codeAt code v = Code.invalid

/-- The queue's order (rule R135): sorted by key, so no two entries are alike. -/
def Queued (q : List PQEntry) : Prop := q.Pairwise fun a b => a.before b = true

/-- How many of the first `n` symbols have a nonzero count. -/
def usedSymbols (freq : Vector Weight 256) (n : Nat) : Nat :=
  (List.range n).countP fun s => freqAt freq s != 0

/-- The sum of the counts of the first `n` symbols. -/
def sumFreq (freq : Vector Weight 256) (n : Nat) : Nat :=
  ((List.range n).map fun s => (freqAt freq s).toNat).sum

/-! ## Streams and results -/

/-- The packer agrees with its cursor (rules R34, R69): OBUF holds `opos mod 8` bits, OUT `opos div 8` bytes. -/
abbrev OutStream.Coherent (o : OutStream) : Prop := o.obuf.length = o.opos % 8 ∧ o.out.length = o.opos / 8

/-- Every bit written in the session, in order. -/
def OutStream.written (o : OutStream) : List Bool := bitsOfBytes o.out ++ o.obuf

/-- Zero bits `Flush()` adds at cursor position `p` (rule R71). -/
def padLength (p : Nat) : Nat := if p % 8 = 0 then 0 else 8 - p % 8

/-- The code of a byte (rule R185). -/
abbrev codeOfByte (code : Vector Code 257) (r : Byte) : Code := codeAt code (r.zeroExtend 9)

/-- The bits of a compressed stream before the pad: magic, tree, body (rules R95, R99). -/
def streamBits (sh : Shape) (code : Vector Code 257) (bytes : List Byte) : List Bool :=
  bitsOf 32 Config.magicTree.toNat ++ sh.bits ++
    ((bytes.flatMap fun r => codeBitList (codeOfByte code r)) ++ codeBitList (codeAt code Config.eos))

/-- The symbols and paths DECODE meets before the sentinel: leaves of the tree other than the sentinel. -/
def Emitted (sh : Shape) (xs : List (Sym × List Bool)) : Prop := ∀ x ∈ xs, x ∈ sh.paths ∧ x.1.toNat < 256

/-- Their bits in the body (rule R99). -/
abbrev bodyBits (xs : List (Sym × List Bool)) : List Bool := xs.flatMap Prod.snd

/-- Their bytes in the output (rule R199). -/
abbrev emittedBytes (xs : List (Sym × List Bool)) : List Byte := xs.map fun x => x.1.truncate 8

/-- A run's result (rules R81, R242): an error kind with its detail, or the output bytes, never both. -/
inductive Result where
  | error (e : ErrCode) (info : Word)
  | output (bytes : List Byte)
  deriving DecidableEq, Repr

/-- The result of the session so far: none before its last data command has ended. -/
def result (s : State) : Option Result :=
  if s.err ≠ .noError then some (.error s.err s.errinfo)
  else if s.done && (s.phase == .encdone || s.phase == .decdone) then some (.output s.outp.out)
  else none

/-! ## The invariant of a run -/

/-- FREQ and INLEN are those of the session's input (rules R22, R129). -/
structure Counted (s : State) : Prop where
  each  : ∀ b : Byte, (freqAt s.freq b.toNat).toNat = s.inp.bytes.count b
  total : s.inlen.toNat = s.inp.bytes.length
  bound : s.inp.bytes.length ≤ Config.maxLen

/-- FREQ and INLEN are zero (rule R43). -/
abbrev NotCounted (s : State) : Prop := s.freq = Vector.replicate 256 0 ∧ s.inlen = 0

/-- CODE is zero (rule R43). -/
abbrev NoCodes (s : State) : Prop := s.code = Vector.replicate 257 Code.invalid

/-- Nothing has been written in the session. -/
abbrev NothingOut (s : State) : Prop := s.outp = OutStream.fresh s.outp.stall

/-- Nothing has been read in the session. -/
abbrev NothingIn (s : State) : Prop := s.inp = InStream.fresh s.inp.bytes s.inp.stall

/-- The queue holds the root alone (rules R26, R143). -/
abbrev RootQueued (s : State) : Prop := s.pq = [⟨(s.tree.at s.tree.root.index).weight, s.tree.root.index⟩]

/-- The leaves are the symbols that were counted and the sentinel (rules R139, R140), so every byte of the input has a
code once there are codes (rule R190). -/
abbrev UsedLeaves (s : State) (sh : Shape) : Prop := sh.values.Perm (usedValues s.freq 256 ++ [Config.eos])

/-- What the tables and streams hold in each phase (rules R24, R28, R43, R129, R146, R168, R180). -/
def PhaseHolds (s : State) : Prop :=
  match s.phase with
  | .idle => NotCounted s ∧ s.tree = Tree.empty ∧ s.pq = [] ∧ NoCodes s ∧ NothingIn s ∧ NothingOut s
  | .counted => Counted s ∧ s.tree = Tree.empty ∧ s.pq = [] ∧ NoCodes s ∧ NothingOut s
  | .built => Counted s ∧ (∃ sh, BuiltOk s.tree sh ∧ UsedLeaves s sh) ∧ RootQueued s ∧ NoCodes s ∧ NothingOut s
  | .coded =>
    Counted s ∧ (∃ sh, BuiltOk s.tree sh ∧ UsedLeaves s sh ∧ CodesOk s.code sh) ∧ RootQueued s ∧ NothingOut s
  | .hdrwr =>
    Counted s ∧
      (∃ sh, BuiltOk s.tree sh ∧ UsedLeaves s sh ∧ CodesOk s.code sh ∧
        s.outp.written = bitsOf 32 Config.magicTree.toNat ++ sh.bits) ∧
      RootQueued s
  | .encdone =>
    Counted s ∧ (∃ sh, BuiltOk s.tree sh ∧ UsedLeaves s sh ∧ CodesOk s.code sh) ∧ RootQueued s ∧ s.outp.opos % 8 = 0
  | .hdrrd =>
    NotCounted s ∧ (∃ sh, TreeOk s.tree sh ∧ s.inp.ipos = 31 + 11 * sh.leafCount) ∧ s.tree.root.index = 0 ∧ s.pq = []
      ∧ NoCodes s ∧ NothingOut s
  | .decdone =>
    NotCounted s ∧ (∃ sh, TreeOk s.tree sh) ∧ s.tree.root.index = 0 ∧ s.pq = [] ∧ NoCodes s ∧ s.outp.opos % 8 = 0

/-- Flags, error registers and transient state between steps (rules R30, R31, R35). -/
structure FlagsHold (s : State) : Prop where
  info      : s.err = .noError → s.errinfo = 0
  doneIdle  : s.done = true → s.busy = false ∧ s.err = .noError
  busyClean : s.busy = true → s.err = .noError
  transient : s.trav = Transient.empty
  waits     : s.waiting.isSome = s.busy

/-- The command that waits, if any, was accepted in its legal phase and asks for no counts header (rules R110, R111). -/
def WaitingLegal (s : State) : Prop :=
  ∀ w, s.waiting = some w → w.cmd.isCommand = true ∧ w.cmd ≠ .nop ∧ w.cmd ≠ .clear ∧ s.phase ∈ legalPhases w.cmd ∧
    w.cmd.headerMode ≠ some .countHeader

/-- The invariant of a run: flags, and (unless an execution error is pending) streams and tables, while a command waits
as they were when it was accepted. -/
structure RunInv (s : State) : Prop where
  flags   : FlagsHold s
  waiting : WaitingLegal s
  packer  : Defined s → (beforeCommand s).outp.Coherent
  phase   : Defined s → PhaseHolds (beforeCommand s)

/-! ## The header reader as rule R170 writes it -/

/-- The end of `rd()`: the node read, or an error with the input stream at that point. -/
inductive Read where
  | node (i : NodeIx) (inp : InStream) (t : Tree)
  | err (e : ErrCode) (info : Word) (inp : InStream)
  deriving DecidableEq, Repr

/-- `rd()` of rule R170, a recursion over both subtrees. `frames` bounds its nesting (rule R271: 513). -/
def readNode : Nat → InStream → Tree → Read
  | 0, inp, _ => .err .treeTooLarge 513 inp
  | frames + 1, inp, t =>
    match inp.readBits 1 with
    | (none, inp) => .err .prematureEndOfStream 0 inp
    | (some b, inp) =>
      if t.nnodes.toNat = Config.nodeCap then .err .treeTooLarge 513 inp
      else
        if b = 1 then
          match inp.readBits 9 with
          | (none, inp) => .err .prematureEndOfStream 1 inp
          | (some v, inp) =>
            if 256 < v.toNat then .err .badLeafValue (v.zeroExtend 32) inp
            else
              .node t.nnodes inp
                { t.set t.nnodes (Node.mkLeaf v 0) with nnodes := t.nnodes + 1, nleaf := t.nleaf + 1 }
        else
          match readNode frames inp { t with nnodes := t.nnodes + 1 } with
          | .err e info inp => .err e info inp
          | .node l inp t₁ =>
            match readNode frames inp t₁ with
            | .err e info inp => .err e info inp
            | .node r inp t₂ => .node t.nnodes inp (t₂.set t.nnodes (Node.mkInternal l r 0))

/-- RDHDR of rule R170 over `rd()`. -/
def readHeader (inp : InStream) (t : Tree) : Read :=
  match inp.readBits 32 with
  | (none, inp) => .err .formatError 0xFFFFFFFF inp
  | (some m, inp) =>
    if m ≠ Config.magicTree then .err .formatError m inp
    else
      match readNode 514 inp { t with nnodes := 0, nleaf := 0 } with
      | .err e info inp => .err e info inp
      | .node r inp t => .node r inp { t with root := ⟨true, r⟩ }

end Sys2Proof.Machine
end

