-- ==== Sys2Proof/Certificates/Slice0/Obligations.lean ====
section
/-! DEFINITION. The statements about HUFFCORE. A hypothesis `RunInv s` is the invariant of Safety, which
`ResetMeetsTheInvariant` and `StepsKeepTheInvariant` say holds in every run. -/

open Sys2Proof Sys2Proof.Machine

/-! ## Encoding -/

/-- Rule R91: a word is the command of a row exactly when it matches the row under the row's mask, with the header mode
of bit 8 (rule R92), and a word that is a command matches some row. -/
def Obligations.CommandWordsMatchTheOpcodeMap : Prop :=
  (∀ row ∈ commandRows, ∀ w : Word,
    decodeWord w = .ok (if w.getLsbD 8 then row.countHeader else row.treeHeader) ↔ w &&& row.mask = row.pattern) ∧
  ∀ (w : Word) (i : Instr), decodeWord w = .ok i → ∃ row ∈ commandRows,
    w &&& row.mask = row.pattern ∧ i = if w.getLsbD 8 then row.countHeader else row.treeHeader

/-- Rules R93 and R234: the illegal words are those with an OP outside the map, a 1 in bits 31:9, or a 1 in bit 8 of a
command that does not take HM; written to CMD with BUSY = 0 and no error pending they raise IllegalCommand with the
word in ERRINFO. -/
def Obligations.AnyOtherWordIsIllegal : Prop :=
  (∀ w : Word, (∀ i, decodeWord w ≠ .ok i) ↔
    w.extractLsb' 0 8 ∉ [0x00#8, 0x01, 0x10, 0x11, 0x12, 0x13, 0x14, 0x20, 0x21, 0x30, 0x31] ∨
      w.extractLsb' 9 23 ≠ 0 ∨
      (w.getLsbD 8 = true ∧ w.extractLsb' 0 8 ∉ [0x13#8, 0x20, 0x30, 0x31])) ∧
  ∀ (w : Word) (s : State), (∀ i, decodeWord w ≠ .ok i) → s.busy = false → s.err = .noError →
    writeCmd w s = .next { s with
      err := .illegalCommand, errinfo := w, busy := false, done := false,
      port := { s.port with signals := s.port.signals ++ [.outAbort] } }

/-- Rules R91 and R96 to R98: decoding inverts encoding on every well-formed instruction with every operand, and
encoding inverts decoding, so no two instructions share an image and none has two. -/
def Obligations.DecodingInvertsEncoding : Prop :=
  (∀ i : Instr, i.wellFormed = true → decode (encode i) = .ok i) ∧
  ∀ (x : Image) (i : Instr), decode x = .ok i → i.wellFormed = true ∧ encode i = x

/-- Rules R97 and R98: a tree token is read from the head of any bit string and the rest is left; nine bits that
spell 257 to 511 after a leaf marker are rejected. -/
def Obligations.TreeTokensAreReadFromTheHead : Prop :=
  (∀ (i : Instr) (rest : List Bool), i = .internal ∨ (∃ v : Sym, i = .leaf v ∧ v.toNat ≤ 256) →
    decodeToken (tokenBits i ++ rest) = .ok (i, rest)) ∧
  (∀ (v : Sym) (rest : List Bool), 256 < v.toNat →
    decodeToken (true :: bitsOf 9 v.toNat ++ rest) = .error (.reservedLeaf v)) ∧
  ∀ rest : List Bool, rest.length < 9 → decodeToken (true :: rest) = .error .missingValue

/-- Words written out from rules R91, R96 and R97 are read as the instructions they stand for (a sanity statement). -/
def Obligations.WrittenOutWordsDecode : Prop :=
  decodeWord 0b00000000000000000000000000000001 = .ok .clear ∧
  decodeWord 0b00000000000000000000000000010000 = .ok .count ∧
  decodeWord 0b00000000000000000000000000010011 = .ok (.wrhdr .treeHeader) ∧
  decodeWord 0b00000000000000000000000100100000 = .ok (.rdhdr .countHeader) ∧
  decodeWord 0b00000000000000000000000000100001 = .ok .decode ∧
  decodeWord 0b00000000000000000000000000110000 = .ok (.compress .treeHeader) ∧
  decode (.treeBits [false]) = .ok .internal ∧
  decode (.treeBits [true, true, false, false, false, false, false, false, false, false]) = .ok (.leaf 256)

/-! ## Steps -/

/-- Rules R90, R94 and R110: when the host's next act writes a command's word to CMD, the step is that command, on the
state in which the write has been taken from the queue and acknowledged. -/
def Obligations.StepRunsTheCommandWritten : Prop :=
  ∀ (s : State) (w : Word) (rest : List HostOp) (i : Instr), AtHostPort s →
    s.port.host = .write 0x0000 0xF w :: rest → decodeWord w = .ok i →
    step s = exec i { s with port := { s.port with host := rest, answer := .ack } }

/-- The same inside a header (log 3, the model's own stepping): when the reader stands where a token is expected and
the token is the next thing in the input, the step is that token. -/
def Obligations.StepRunsTheTokenAtTheCursor : Prop :=
  ∀ (s : State) (i : Instr) (rest : List Bool), s.inp.stall = none → s.inp.unread = tokenBits i ++ rest →
    (s.trav.stage = .magic ∧ i = .magic ∨
      s.trav.stage = .tree ∧ s.tree.nnodes.toNat ≠ 513 ∧ (i = .internal ∨ ∃ v : Sym, i = .leaf v ∧ v.toNat ≤ 256)) →
    step s = exec i s

/-- Rule R170 with log 3 (the model's own stepping): RDHDR as one command is what stepping through the tokens of its
header gives, from the accepted command to its completion or its error. -/
def Obligations.HeaderTokensAddUpToRdhdr : Prop :=
  ∀ s : State, Ready .idle s →
    ∃ n, Host.Core.run core n { s with busy := true, done := false, trav := { s.trav with stage := .magic } } =
      exec (.rdhdr .treeHeader) s

/-! ## Dispatch -/

/-- Rule R110, check by check. The last clause is step 7 for the commands other than NOP and CLEAR, with source and
sink answering. -/
def Obligations.DispatchChecksInOrder : Prop :=
  ∀ (w : Word) (s : State),
    (s.busy = true → writeCmd w s = .next { s with cmddrop := true }) ∧
    (s.busy = false → s.err ≠ .noError → w = 0x00000001 → writeCmd w s = exec .clear s) ∧
    (s.busy = false → s.err ≠ .noError → w ≠ 0x00000001 → writeCmd w s = .next s) ∧
    (s.busy = false → s.err = .noError → (∀ i, decodeWord w ≠ .ok i) →
      writeCmd w s = .next { s with
        err := .illegalCommand, errinfo := w, busy := false, done := false,
        port := { s.port with signals := s.port.signals ++ [.outAbort] } }) ∧
    (s.busy = false → s.err = .noError → decodeWord w = .ok .nop → writeCmd w s = .next s) ∧
    ∀ i : Instr, s.busy = false → s.err = .noError → decodeWord w = .ok i → i ≠ .nop →
      (s.phase ∉ legalPhases i →
        writeCmd w s = .next { s with
          err := .sequenceError, errinfo := w, busy := false, done := false,
          port := { s.port with signals := s.port.signals ++ [.outAbort] } }) ∧
      (s.phase ∈ legalPhases i → i.headerMode = some .countHeader →
        writeCmd w s = .next { s with
          err := .unimplemented, errinfo := w, busy := false, done := false,
          port := { s.port with signals := s.port.signals ++ [.outAbort] } }) ∧
      (s.phase ∈ legalPhases i → i.headerMode ≠ some .countHeader → i ≠ .clear → Answering s →
        ∀ t, writeCmd w s = .next t → t.busy = false ∧
          (t.done = true ∧ t.err = .noError ∧ some t.phase = phaseAfter i ∨
            t.done = false ∧ t.err ≠ .noError ∧ t.phase = s.phase))

/-- Rules R74, R112, R272 and R273: a legal command other than NOP and CLEAR always finishes when source and sink answer:
it completes with BUSY = 0, DONE = 1 and the next PHASE, or raises with BUSY = 0, DONE = 0 and PHASE kept. Otherwise it
finishes so or waits with BUSY = 1 (log 4, the model's choice of what a waiting command shows): nothing has changed but
what the sink and the source have been given, and when they go on without a stop the command does what it does with
collaborators that answer. COUNT makes one byte request for each byte of the input it takes and one more, none after the
rewind; ENCODE makes L + 1 after the rewind, of which the source has been told; WRHDR waits at the first byte of the
header the sink does not accept. -/
def Obligations.AcceptedCommandsFinishOrWait : Prop :=
  ∀ (i : Instr) (s : State), RunInv s → i.isCommand = true → i ≠ .nop → i ≠ .clear → s.busy = false →
    s.err = .noError → s.phase ∈ legalPhases i → i.headerMode ≠ some .countHeader →
    ∃ t, exec i s = .next t ∧
      (Answering s → t.busy = false) ∧
      (t.busy = false →
        t.done = true ∧ t.err = .noError ∧ some t.phase = phaseAfter i ∨
          t.done = false ∧ t.err ≠ .noError ∧ t.phase = s.phase) ∧
      (t.busy = true → ∃ out signals,
        t = { s with
          busy := true, done := false, outp := { s.outp with out := out }, port := { s.port with signals := signals },
          waiting := some { cmd := i, out := s.outp.out, signals := s.port.signals } } ∧
        s.outp.out <+: out ∧ (signals = s.port.signals ∨ signals = s.port.signals ++ [.inRewind]) ∧
        goOn none none t =
          exec i { s with inp := { s.inp with stall := none }, outp := { s.outp with stall := none } }) ∧
      (i = .count → ∀ k, s.inp.stall = some ⟨false, k⟩ →
        (t.busy = true ↔ k < min s.inp.bytes.length (2 ^ 32 - 2) + 1)) ∧
      (i = .count → ∀ k, s.inp.stall = some ⟨true, k⟩ → t.busy = false) ∧
      (i = .encode → s.outp.stall = none → ∀ k, s.inp.stall = some ⟨true, k⟩ →
        (t.busy = true ↔ k < s.inp.bytes.length + 1) ∧
        (t.busy = true → t.port.signals = s.port.signals ++ [.inRewind])) ∧
      (i = .wrhdr .treeHeader → ∀ n, s.outp.stall = some n →
        (t.busy = true ↔ n < (31 + 11 * s.tree.nleaf.toNat) / 8) ∧ (t.busy = true → t.outp.out.length = n))

/-- Rule R235: a command outside its legal phases (rule R111) raises SequenceError with its word in ERRINFO, and PHASE
and everything else stay. -/
def Obligations.WrongPhaseRaisesSequenceError : Prop :=
  ∀ (i : Instr) (s : State), i.isCommand = true → s.busy = false → s.err = .noError → s.phase ∉ legalPhases i →
    exec i s = .next { s with
      err := .sequenceError, errinfo := commandWord i, busy := false, done := false,
      port := { s.port with signals := s.port.signals ++ [.outAbort] } }

/-- Rule R233: each of the four commands with HM = 1, legal otherwise, raises Unimplemented with its word in ERRINFO
before any stream or table is touched. -/
def Obligations.CountHeaderIsUnimplemented : Prop :=
  ∀ (i : Instr) (w : Word) (s : State),
    (i, w) ∈ [(Instr.wrhdr .countHeader, 0x00000113#32), (.rdhdr .countHeader, 0x00000120),
      (.compress .countHeader, 0x00000130), (.decompress .countHeader, 0x00000131)] →
    s.busy = false → s.err = .noError → s.phase ∈ legalPhases i →
    exec i s = .next { s with
      err := .unimplemented, errinfo := w, busy := false, done := false,
      port := { s.port with signals := s.port.signals ++ [.outAbort] } }

/-- Rule R113: NOP changes no state, with or without an error pending; while BUSY = 1 it is dropped and sets CMDDROP;
with any reserved bit set it is IllegalCommand. -/
def Obligations.NopChangesNothing : Prop :=
  ∀ s : State,
    (s.busy = false → exec .nop s = .next s) ∧
    (s.busy = true → exec .nop s = .next { s with cmddrop := true }) ∧
    decodeWord 0x00000000 = .ok .nop ∧
    (∀ w : Word, w.extractLsb' 0 8 = 0 → w ≠ 0 → s.busy = false → s.err = .noError →
      writeCmd w s = .next { s with
        err := .illegalCommand, errinfo := w, busy := false, done := false,
        port := { s.port with signals := s.port.signals ++ [.outAbort] } })

/-- Rule R114: CLEAR, in every phase and with an error pending, gives every state element of rule R45 its reset value
but CTRL, a new stream pair with an empty OUT, and `in_restart`; `irq` falls. While BUSY = 1 it is dropped. -/
def Obligations.ClearStartsANewSession : Prop :=
  ∀ s : State,
    (s.busy = false → ∃ (bytes : List Byte) (source : Option SourceStall) (sink : Option Nat) (t : State), exec .clear s = .next t ∧
      t = { freq := Vector.replicate 256 0, inlen := 0, tree := Tree.empty, pq := [],
            code := Vector.replicate 257 Code.invalid, phase := .idle, busy := false, done := false, cmddrop := false,
            err := .noError, errinfo := 0, ie := s.ie,
            inp := { bytes := bytes, stall := source, ipos := 0, eod := false, rewound := false },
            outp := { stall := sink, opos := 0, obuf := [], out := [] }, trav := Transient.empty, waiting := none,
            port := { s.port with pending := none, signals := s.port.signals ++ [.inRestart] }, free := s.free } ∧
      irq t = false ∧
      ∀ p, s.port.pending = some p → bytes = p.bytes ∧ source = p.source ∧ sink = p.sink) ∧
    (s.busy = true → exec .clear s = .next { s with cmddrop := true })

/-- Rule R243: while an error is pending every word written to CMD but CLEAR's is ignored without any state change, and
no command but CLEAR changes ERR or ERRINFO. -/
def Obligations.ErrorsAreSticky : Prop :=
  ∀ s : State, s.busy = false → s.err ≠ .noError →
    (∀ w : Word, w ≠ 0x00000001 → writeCmd w s = .next s) ∧
    ∀ (i : Instr) (t : State), i.isCommand = true → i ≠ .clear → exec i s = .next t →
      t.err = s.err ∧ t.errinfo = s.errinfo

/-- Rule R244: in a run an error and its ERRINFO stay from step to step, except that a write of CLEAR (with `rst` low) and
the raising of `rst` clear them and every table and start a new session with a new stream pair, whatever the error. -/
def Obligations.ErrorsEndWithClearOrReset : Prop :=
  ∀ s t : State, RunInv s → s.err ≠ .noError → step s = .next t →
    (¬ EndsSession s → t.err = s.err ∧ t.errinfo = s.errinfo) ∧
    (EndsSession s → t.err = .noError ∧ t.errinfo = 0 ∧ t.phase = .idle ∧ NotCounted t ∧ t.tree = Tree.empty ∧ t.pq = [] ∧ NoCodes t ∧
      (∃ (bytes : List Byte) (source : Option SourceStall) (sink : Option Nat),
        t.inp = InStream.fresh bytes source ∧ t.outp = OutStream.fresh sink))

/-! ## Streams -/

/-- Rules R65 and R66: `ReadBits(n)` returns the n bits at the cursor, most significant first, and advances, or returns
the distinguished value, consumes nothing and sets EOD. -/
def Obligations.ReadBitsTakesTheBitsAtTheCursor : Prop :=
  ∀ (n : Nat) (i : InStream),
    (i.ipos + n ≤ 8 * i.bytes.length → ∃ v : BitVec n,
      i.readBits n = (some v, { i with ipos := i.ipos + n }) ∧
      ∀ j, j < n → v.getLsbD (n - 1 - j) = (i.bytes.getD ((i.ipos + j) / 8) 0).getLsbD (7 - (i.ipos + j) % 8)) ∧
    (8 * i.bytes.length < i.ipos + n → i.readBits n = (none, { i with eod := true }))

/-- Rules R69 and R70: `WriteBits(n, v)` appends the bits v[n-1] .. v[0] and advances the cursor; whole bytes are in OUT,
first bit = bit 7, the rest in OBUF; no byte in OUT changes; n = 0 changes nothing. -/
def Obligations.WriteBitsAppendsBits : Prop :=
  ∀ (o : OutStream) (n v : Nat), o.Coherent →
    (o.writeBits n v).Coherent ∧
    (o.writeBits n v).opos = o.opos + n ∧
    (o.writeBits n v).written = o.written ++ (List.range n).map (fun j => v.testBit (n - 1 - j)) ∧
    (∀ k, k < 8 * (o.writeBits n v).out.length →
      ((o.writeBits n v).out.getD (k / 8) 0).getLsbD (7 - k % 8) = (o.writeBits n v).written.getD k false) ∧
    o.out <+: (o.writeBits n v).out ∧
    o.writeBits 0 v = o

/-- Rule R71: `Flush()` completes the last byte with zero bits; at a byte boundary it does nothing. -/
def Obligations.FlushCompletesTheLastByte : Prop :=
  ∀ o : OutStream, o.Coherent →
    (o.opos % 8 = 0 → o.flush = o) ∧
    o.flush.opos % 8 = 0 ∧ o.flush.obuf = [] ∧ o.flush.out.length = o.flush.opos / 8 ∧
    bitsOfBytes o.flush.out = o.written ++ List.replicate (padLength o.opos) false

/-! ## Tables -/

/-- Rules R135 to R137: the queue's order is by weight and then by index, `PQInsert` adds exactly its entry, and
`PQRemoveMin` removes exactly the entry that comes before every other one. -/
def Obligations.QueueGrantsTheLeastEntry : Prop :=
  (∀ a b : PQEntry, a.before b = true ↔
    a.weight.toNat < b.weight.toNat ∨ a.weight = b.weight ∧ a.index.toNat < b.index.toNat) ∧
  (∀ a b : PQEntry, a.index ≠ b.index → (a.before b = true ↔ ¬ b.before a = true)) ∧
  (∀ (q : List PQEntry) (e : PQEntry), Queued q → (∀ f ∈ q, f.index ≠ e.index) →
    Queued (pqInsert e q) ∧ (pqInsert e q).Perm (e :: q)) ∧
  ∀ q : List PQEntry, Queued q → q ≠ [] → ∃ e rest, pqRemoveMin q = some (e, rest) ∧ q.Perm (e :: rest) ∧
    Queued rest ∧ ∀ f ∈ rest, e.before f = true

/-- Rules R125, R127, R128 and R129: COUNT leaves for every byte value its number of occurrences, and the length, reads
to the end of data, and changes nothing else; an input longer than MAXLEN raises LengthOverflow. That the flags EOD and
REWOUND then stand as they were, and STATUS reads open values for them, is log 6's reading of the state after an error. -/
def Obligations.CountMakesTheHistogram : Prop :=
  ∀ s : State, RunInv s → Ready .idle s →
    (s.inp.bytes.length ≤ 2 ^ 32 - 2 → ∃ freq inlen, exec .count s = .next { s with
        freq := freq, inlen := inlen, inp := { s.inp with ipos := 8 * s.inp.bytes.length, eod := true },
        phase := .counted, done := true } ∧
      (∀ b : Byte, (freqAt freq b.toNat).toNat = s.inp.bytes.count b) ∧
      inlen.toNat = s.inp.bytes.length ∧ sumFreq freq 256 = s.inp.bytes.length) ∧
    (2 ^ 32 - 2 < s.inp.bytes.length → exec .count s = .next (raiseExec .lengthOverflow 0 s))

/-- Rules R24, R139, R140, R143, R144, R146 and R147: BUILD makes one leaf for each symbol with a count, in ascending
order, then the sentinel's, then as many internal nodes as symbols, the root last and alone in the queue; with no
counts the sentinel is the root. The nodes form one full binary tree. It touches no stream and changes nothing else. -/
def Obligations.BuildPlacesEveryNode : Prop :=
  ∀ s : State, RunInv s → Ready .counted s → ∃ t q d, exec .build s = .next { s with
      tree := t, pq := q, phase := .built, done := true } ∧
    d = s.inp.bytes.dedup.length ∧ d = usedSymbols s.freq 256 ∧
    t.nleaf.toNat = d + 1 ∧ t.nnodes.toNat = 2 * d + 1 ∧ t.root = ⟨true, BitVec.ofNat 10 (2 * d)⟩ ∧
    q = [entryOf t t.root.index] ∧
    (∀ k, k < 256 → freqAt s.freq k ≠ 0 →
      t.at (BitVec.ofNat 10 (usedSymbols s.freq k)) = Node.mkLeaf (BitVec.ofNat 9 k) (freqAt s.freq k)) ∧
    t.at (BitVec.ofNat 10 d) = Node.mkLeaf 256 1 ∧
    (∀ i : NodeIx, d < i.toNat → i.toNat < 2 * d + 1 → (t.at i).valid = true ∧ (t.at i).leaf = false) ∧
    (∀ i : NodeIx, 2 * d + 1 ≤ i.toNat → t.at i = Node.invalid) ∧
    ∃ sh, BuiltOk t sh ∧ sh.values.Perm (usedValues s.freq 256 ++ [256])

/-- Rules R137, R138, R141 and R142: every internal node BUILD made has as its LEFT child the first and as its RIGHT
child the second, in the queue's order, of the nodes that were there and not merged yet (the two themselves were not
merged before), and the sum of their weights. -/
def Obligations.BuildMergesTheTwoLightest : Prop :=
  ∀ s t : State, RunInv s → Ready .counted s → exec .build s = .next t →
    ∀ i : NodeIx, i.toNat < t.tree.nnodes.toNat → (t.tree.at i).leaf = false → MergeOk t.tree i

/-- Rule R145: no weight addition wraps, and the root's weight is INLEN + 1. -/
def Obligations.WeightsAreExactSums : Prop :=
  ∀ s t : State, RunInv s → Ready .counted s → exec .build s = .next t →
    (t.tree.at t.tree.root.index).weight.toNat = s.inlen.toNat + 1 ∧
    ∀ i : NodeIx, i.toNat < t.tree.nnodes.toNat →
      (t.tree.at i).weight.toNat ≤ s.inlen.toNat + 1 ∧
      ((t.tree.at i).leaf = false → (t.tree.at i).weight.toNat =
        (t.tree.at (t.tree.at i).left).weight.toNat + (t.tree.at (t.tree.at i).right).weight.toNat)

/-- Rules R155 to R158: GENCODE records for every leaf the path from the root, 0 for LEFT and 1 for RIGHT, leaves every
other entry invalid, and changes nothing else. -/
def Obligations.GencodeRecordsEveryPath : Prop :=
  ∀ (s : State) (sh : Shape), Ready .built s → BuiltOk s.tree sh →
    ∃ code, exec .gencode s = .next { s with
        code := code, phase := .coded, done := true, trav := Transient.empty } ∧
      (∀ x ∈ sh.paths, codeAt code x.1 = codeOfPath x.2 ∧ codeBitList (codeAt code x.1) = x.2) ∧
      ∀ v : Sym, v ∉ sh.values → codeAt code v = Code.invalid

/-- Rules R28 and R209: in every run, whenever PHASE is CODED, HDRWR or ENCDONE and no error is pending, no valid code
begins another one. -/
def Obligations.CodesArePrefixFree : Prop :=
  ∀ s : State, RunInv s → s.err = .noError → s.phase = .coded ∨ s.phase = .hdrwr ∨ s.phase = .encdone →
    ∀ u v : Sym, u ≠ v → (codeAt s.code u).valid = true → (codeAt s.code v).valid = true →
      ¬ codeBitList (codeAt s.code u) <+: codeBitList (codeAt s.code v)

/-- Rule R161: after GENCODE exactly NLEAF codes are valid, the sentinel's among them, they are prefix-free, and the sum
of 2^(-LEN) over them is 1 (here multiplied by 2^256). -/
def Obligations.CodesFillTheTree : Prop :=
  ∀ s t : State, RunInv s → Ready .built s → exec .gencode s = .next t →
    (∃ sh, BuiltOk t.tree sh ∧ CodesOk t.code sh) ∧
    (List.range 257).countP (fun v => (codeAt t.code (BitVec.ofNat 9 v)).valid) = t.tree.nleaf.toNat ∧
    (codeAt t.code 256).valid = true ∧
    (∀ u v : Sym, u ≠ v → (codeAt t.code u).valid = true → (codeAt t.code v).valid = true →
      ¬ codeBitList (codeAt t.code u) <+: codeBitList (codeAt t.code v)) ∧
    ((List.range 257).map fun v =>
      if (codeAt t.code (BitVec.ofNat 9 v)).valid then 2 ^ (256 - (codeAt t.code (BitVec.ofNat 9 v)).len.toNat) else 0).sum
      = 2 ^ 256

/-! ## Header -/

/-- Rules R165, R166 and R168: WRHDR appends the magic field and the preorder serialization of the tree, 31 + 11 * NLEAF
bits, without a flush, and changes nothing else. -/
def Obligations.WrhdrAppendsTheHeader : Prop :=
  ∀ (s : State) (sh : Shape), Ready .coded s → TreeOk s.tree sh → s.outp.Coherent →
    ∃ o, exec (.wrhdr .treeHeader) s = .next { s with
        outp := o, phase := .hdrwr, done := true, trav := Transient.empty } ∧
      o.stall = s.outp.stall ∧ o.Coherent ∧ o.opos = s.outp.opos + 31 + 11 * s.tree.nleaf.toNat ∧
      o.written = s.outp.written ++ bitsOf 32 0xFACE8201 ++ sh.bits

/-- Rule R170: RDHDR is the recursive reader of the rule's pseudocode, with its errors in its order. -/
def Obligations.RdhdrIsTheRecursiveReader : Prop :=
  ∀ s : State, Ready .idle s →
    match readHeader s.inp s.tree with
    | .node _ inp t => exec (.rdhdr .treeHeader) s = .next { s with
        inp := inp, tree := t, phase := .hdrrd, done := true, trav := Transient.empty }
    | .err e info inp => exec (.rdhdr .treeHeader) s = .next (raiseExec e info { s with inp := inp })

/-- Rules R174, R178, R180 and R210: on an input that begins with the magic field and the serialization of a tree RDHDR
completes with that tree, numbered in preorder from 0, every weight 0, the cursor at the first body bit, and nothing
else changed. -/
def Obligations.RdhdrReadsBackTheTree : Prop :=
  ∀ (s : State) (sh : Shape) (rest : List Bool), RunInv s → Ready .idle s →
    s.inp.bits = bitsOf 32 0xFACE8201 ++ sh.bits ++ rest → sh.leafCount ≤ 257 → (∀ v ∈ sh.values, v.toNat ≤ 256) →
    ∃ t, exec (.rdhdr .treeHeader) s = .next { s with
        inp := { s.inp with ipos := 31 + 11 * sh.leafCount }, tree := t, phase := .hdrrd, done := true } ∧
      TreeOk t sh ∧ t.root = ⟨true, 0⟩ ∧ indices t 0 sh = (List.range sh.size).map (BitVec.ofNat 10) ∧
      ∀ i, (t.at i).weight = 0

/-- Rules R172, R173 and R231: a first field other than the magic constant, the counts constant included, raises
FormatError with the field in ERRINFO; an input of fewer than 32 bits raises it with 0xFFFFFFFF and EOD = 1. That a wrong
field leaves EOD and REWOUND as they were is log 6's reading of the state after an error. -/
def Obligations.WrongMagicIsAFormatError : Prop :=
  ∀ (s : State) (i : Instr), RunInv s → Ready .idle s → i = .rdhdr .treeHeader ∨ i = .decompress .treeHeader →
    (∀ (m : Word) (rest : List Bool), s.inp.bits = bitsOf 32 m.toNat ++ rest → m ≠ 0xFACE8201 →
      exec i s = .next (raiseExec .formatError m s)) ∧
    (s.inp.bytes.length < 4 →
      exec i s = .next (raiseExec .formatError 0xFFFFFFFF { s with inp := { s.inp with eod := true } }))

/-- Rules R175 to R177 and R246 at one node of the header, reader stepped token by token (log 3, the model's own
stepping): end of data at the marker, then a 514th node, then end of data in the value, then a reserved value. -/
def Obligations.HeaderErrorsInOrder : Prop :=
  ∀ s : State, s.trav.stage = .tree → s.inp.stall = none →
    (s.inp.unread = [] →
      step s = .next (raiseExec .prematureEndOfStream 0 { s with inp := { s.inp with eod := true } })) ∧
    (s.inp.unread ≠ [] → s.tree.nnodes.toNat = 513 → step s = .next (raiseExec .treeTooLarge 513 s)) ∧
    ∀ bs : List Bool, s.inp.unread = true :: bs → s.tree.nnodes.toNat ≠ 513 →
      (bs.length < 9 →
        step s = .next (raiseExec .prematureEndOfStream 1 { s with inp := { s.inp with eod := true } })) ∧
      ∀ (v : Sym) (rest : List Bool), bs = bitsOf 9 v.toNat ++ rest → 256 < v.toNat →
        step s = .next (raiseExec .badLeafValue (v.zeroExtend 32) s)

/-- Rules R96, R97, R170 and R177 (log 3, the model's own stepping): MAGIC where the reader expects it consumes 32 bits,
clears NNODES and NLEAF and opens the tree field; INTERNAL in the tree field consumes one bit, takes the next index and
leaves the node open, and as a 514th node raises TreeTooLarge; anywhere else they have no effect. -/
def Obligations.MagicAndInternalTokensAdvanceTheReader : Prop :=
  ∀ s : State,
    (s.trav.stage = .magic → exec .magic s = .next { s with
      inp := { s.inp with ipos := s.inp.ipos + 32 }, tree := { s.tree with nnodes := 0, nleaf := 0 },
      trav := { s.trav with stage := .tree, stack := [] } }) ∧
    (s.trav.stage ≠ .magic → exec .magic s = .next s) ∧
    (s.trav.stage = .tree → s.tree.nnodes.toNat ≠ 513 → exec .internal s = .next { s with
      inp := { s.inp with ipos := s.inp.ipos + 1 }, tree := { s.tree with nnodes := s.tree.nnodes + 1 },
      trav := { s.trav with stack := ⟨s.tree.nnodes, none⟩ :: s.trav.stack } }) ∧
    (s.trav.stage = .tree → s.tree.nnodes.toNat = 513 → exec .internal s = .next (raiseExec .treeTooLarge 513 s)) ∧
    (s.trav.stage ≠ .tree → exec .internal s = .next s)

/-- Rules R97, R98, R170, R176 and R178 (log 3, the model's own stepping): LEAF in the tree field consumes ten bits and
stores the leaf with weight 0; then it is the root and RDHDR is complete, or the left child of the open node, or its
right child, which stores the node and closes it in turn. A reserved value raises BadLeafValue, a 514th node
TreeTooLarge; elsewhere LEAF has no effect. -/
def Obligations.LeafTokenClosesSubtrees : Prop :=
  ∀ (v : Sym) (s : State),
    (s.trav.stage = .tree → s.tree.nnodes.toNat ≠ 513 → v.toNat ≤ 256 →
      ∀ t, t = { s.tree.set s.tree.nnodes (Node.mkLeaf v 0) with
          nnodes := s.tree.nnodes + 1, nleaf := s.tree.nleaf + 1 } →
        ((closeSubtree s.tree.nnodes t s.trav.stack).2.2 = true → exec (.leaf v) s = .next { s with
          inp := { s.inp with ipos := s.inp.ipos + 10 }, tree := (closeSubtree s.tree.nnodes t s.trav.stack).2.1,
          busy := false, done := true, phase := .hdrrd, trav := Transient.empty }) ∧
        ((closeSubtree s.tree.nnodes t s.trav.stack).2.2 = false → exec (.leaf v) s = .next { s with
          inp := { s.inp with ipos := s.inp.ipos + 10 }, tree := (closeSubtree s.tree.nnodes t s.trav.stack).2.1,
          trav := { s.trav with stack := (closeSubtree s.tree.nnodes t s.trav.stack).1 } })) ∧
    (∀ (i p l : NodeIx) (t : Tree) (fs : List Frame),
      closeSubtree i t [] = ([], { t with root := ⟨true, i⟩ }, true) ∧
      closeSubtree i t (⟨p, none⟩ :: fs) = (⟨p, some i⟩ :: fs, t, false) ∧
      closeSubtree i t (⟨p, some l⟩ :: fs) = closeSubtree p (t.set p (Node.mkInternal l i 0)) fs) ∧
    (s.trav.stage = .tree → s.tree.nnodes.toNat ≠ 513 → 256 < v.toNat →
      exec (.leaf v) s = .next (raiseExec .badLeafValue (v.zeroExtend 32) s)) ∧
    (s.trav.stage = .tree → s.tree.nnodes.toNat = 513 → exec (.leaf v) s = .next (raiseExec .treeTooLarge 513 s)) ∧
    (s.trav.stage ≠ .tree → exec (.leaf v) s = .next s)

/-! ## Body -/

/-- Rules R185 to R189, R191 and R192: ENCODE rewinds once, appends the code of every input byte in order and the
sentinel's, and flushes; the input is at its end again, and nothing else changes. -/
def Obligations.EncodeWritesTheBody : Prop :=
  ∀ s : State, Ready .hdrwr s → s.outp.Coherent → (∀ r ∈ s.inp.bytes, (codeOfByte s.code r).valid = true) →
    ∃ o, exec .encode s = .next { s with
        inp := { s.inp with ipos := 8 * s.inp.bytes.length, eod := true, rewound := true }, outp := o,
        phase := .encdone, done := true, trav := Transient.empty,
        port := { s.port with signals := s.port.signals ++ [.inRewind] } } ∧
      o.stall = s.outp.stall ∧ o.obuf = [] ∧ o.opos = 8 * o.out.length ∧
      ∃ bits, bits = (s.inp.bytes.flatMap fun r => codeBitList (codeOfByte s.code r)) ++ codeBitList (codeAt s.code 256) ∧
        bitsOfBytes o.out = s.outp.written ++ bits ++ List.replicate (padLength (s.outp.opos + bits.length)) false

/-- Rules R190 and R237: ENCODE raises NoCode at the first byte without a code, with the byte in ERRINFO; it has
rewound. That the flags EOD and REWOUND then stand as the rewind left them, and STATUS reads open values for them, is
log 6's reading of the state after an error. -/
def Obligations.ByteWithoutACodeRaisesNoCode : Prop :=
  ∀ (s : State) (good rest : List Byte) (r : Byte), Ready .hdrwr s → s.inp.bytes = good ++ r :: rest →
    (∀ x ∈ good, (codeOfByte s.code x).valid = true) → (codeOfByte s.code r).valid = false →
    exec .encode s = .next (raiseExec .noCode (r.zeroExtend 32) { s with
      inp := { s.inp with eod := false, rewound := true },
      port := { s.port with signals := s.port.signals ++ [.inRewind] } })

/-- Rules R195, R196 and R198 to R200: on a body that holds the paths of some leaves and then the sentinel's, DECODE
emits the leaves' symbols as bytes, stops at the sentinel, reads nothing after it (however the input goes on), and
changes nothing else; a root that is the sentinel's leaf emits nothing and reads no bit. -/
def Obligations.DecodeEmitsUpToTheSentinel : Prop :=
  ∀ (s : State) (sh : Shape) (xs : List (Sym × List Bool)) (p rest : List Bool), Ready .hdrrd s → TreeOk s.tree sh →
    (Config.eos, p) ∈ sh.paths → Emitted sh xs → s.inp.unread = bodyBits xs ++ p ++ rest →
    s.outp.Coherent → s.outp.opos % 8 = 0 →
    exec .decode s = .next { s with
      inp := { s.inp with ipos := s.inp.ipos + (bodyBits xs).length + p.length },
      outp := { s.outp with opos := s.outp.opos + 8 * xs.length, out := s.outp.out ++ emittedBytes xs },
      phase := .decdone, done := true, trav := Transient.empty }

/-- Rules R197 and R232: when the input ends before the next leaf, between symbols or inside a code, DECODE raises
PrematureEndOfStream with ERRINFO = 2 and EOD = 1. -/
def Obligations.EndOfDataInTheBody : Prop :=
  ∀ (s : State) (l r : Shape) (xs : List (Sym × List Bool)) (q : List Bool), Ready .hdrrd s →
    TreeOk s.tree (.node l r) → Emitted (.node l r) xs → s.inp.unread = bodyBits xs ++ q →
    (∀ x ∈ (Shape.node l r).paths, ¬ x.2 <+: q) →
    exec .decode s = .next (raiseExec .prematureEndOfStream 2 { s with inp := { s.inp with eod := true } })

/-- Rule R240: a root that is a leaf other than the sentinel raises RootLeafNotSentinel with its value in
ERRINFO. -/
def Obligations.RootLeafMustBeTheSentinel : Prop :=
  ∀ s : State, Ready .hdrrd s → (s.tree.at s.tree.root.index).leaf = true →
    (s.tree.at s.tree.root.index).sym ≠ 256 →
    exec .decode s = .next (raiseExec .rootLeafNotSentinel ((s.tree.at s.tree.root.index).sym.zeroExtend 32) s)

/-! ## Whole operations -/

/-- Rules R205 and R206: COMPRESS gives the state that COUNT, BUILD, GENCODE, WRHDR and ENCODE give one by one, and
DECOMPRESS the state that RDHDR and DECODE give. -/
def Obligations.WholeOperationsAreTheirPhases : Prop :=
  (∀ s s₁ s₂ s₃ s₄ s₅ : State, Ready .idle s →
    exec .count s = .next s₁ → s₁.phase = .counted → exec .build s₁ = .next s₂ → exec .gencode s₂ = .next s₃ →
    exec (.wrhdr .treeHeader) s₃ = .next s₄ → exec .encode s₄ = .next s₅ → s₅.phase = .encdone →
    exec (.compress .treeHeader) s = .next s₅) ∧
  ∀ s s₁ s₂ : State, Ready .idle s →
    exec (.rdhdr .treeHeader) s = .next s₁ → s₁.phase = .hdrrd → exec .decode s₁ = .next s₂ → s₂.phase = .decdone →
    exec (.decompress .treeHeader) s = .next s₂

/-- Rules R95, R99, R192, R205 and R215: COMPRESS of any input of at most MAXLEN bytes completes; OUT is the magic field,
the tree, the codes of the input, the sentinel's code and the pad, with the length rule R215 gives. -/
def Obligations.CompressWritesTheStream : Prop :=
  ∀ s : State, RunInv s → Ready .idle s → s.inp.bytes.length ≤ 2 ^ 32 - 2 →
    ∃ freq inlen tree pq code out, exec (.compress .treeHeader) s = .next { s with
        freq := freq, inlen := inlen, tree := tree, pq := pq, code := code,
        inp := { s.inp with ipos := 8 * s.inp.bytes.length, eod := true, rewound := true },
        outp := { s.outp with opos := 8 * out.length, out := out }, phase := .encdone, done := true,
        port := { s.port with signals := s.port.signals ++ [.inRewind] } } ∧
      (∀ b : Byte, (freqAt freq b.toNat).toNat = s.inp.bytes.count b) ∧ inlen.toNat = s.inp.bytes.length ∧
      ∃ sh, BuiltOk tree sh ∧ CodesOk code sh ∧ pq = [entryOf tree tree.root.index] ∧
        bitsOfBytes out = streamBits sh code s.inp.bytes ++
          List.replicate (padLength (streamBits sh code s.inp.bytes).length) false ∧
        out.length = (31 + 11 * tree.nleaf.toNat +
          ((List.range 256).map fun v =>
            (freqAt freq v).toNat * (codeAt code (BitVec.ofNat 9 v)).len.toNat).sum +
          (codeAt code 256).len.toNat + 7) / 8

/-- Rules R101, R206 and R208: DECOMPRESS of a stream that holds a tree with a sentinel, the paths of some leaves and the
sentinel's completes with their symbols as output, whatever follows in the input. -/
def Obligations.DecompressReadsTheStream : Prop :=
  ∀ (s : State) (sh : Shape) (xs : List (Sym × List Bool)) (p rest : List Bool), RunInv s → Ready .idle s →
    s.inp.bits = bitsOf 32 0xFACE8201 ++ sh.bits ++ bodyBits xs ++ p ++ rest → sh.leafCount ≤ 257 →
    (∀ v ∈ sh.values, v.toNat ≤ 256) → (Config.eos, p) ∈ sh.paths → Emitted sh xs →
    ∃ t, exec (.decompress .treeHeader) s = .next { s with
        inp := { s.inp with ipos := 31 + 11 * sh.leafCount + (bodyBits xs).length + p.length }, tree := t,
        outp := { s.outp with opos := 8 * xs.length, out := emittedBytes xs }, phase := .decdone, done := true } ∧
      TreeOk t sh

/-- Rule R208: decompressing the compression of any input of at most MAXLEN bytes, with any bytes appended, reproduces it
with no error; a longer input raises LengthOverflow. -/
def Obligations.RoundTripReproducesTheInput : Prop :=
  ∀ s : State, RunInv s → Ready .idle s →
    (s.inp.bytes.length ≤ 2 ^ 32 - 2 → ∃ t c, exec (.compress .treeHeader) s = .next t ∧ result t = some (.output c) ∧
      ∀ (s' : State) (more : List Byte), RunInv s' → Ready .idle s' → s'.inp.bytes = c ++ more →
        ∃ t', exec (.decompress .treeHeader) s' = .next t' ∧ result t' = some (.output s.inp.bytes)) ∧
    (2 ^ 32 - 2 < s.inp.bytes.length → ∃ t, exec (.compress .treeHeader) s = .next t ∧
      result t = some (.error .lengthOverflow 0))

/-- Rule R212: the empty input compresses to the magic, the ten bits of the sentinel's leaf and six pad bits, and they
decompress to the empty output, reading 42 bits. -/
def Obligations.EmptyInputRoundTrips : Prop :=
  ∀ s : State, RunInv s → Ready .idle s →
    (s.inp.bytes = [] → ∃ t, exec (.compress .treeHeader) s = .next t ∧
      result t = some (.output [0xFA, 0xCE, 0x82, 0x01, 0xC0, 0x00])) ∧
    (s.inp.bytes = [0xFA, 0xCE, 0x82, 0x01, 0xC0, 0x00] → ∃ t, exec (.decompress .treeHeader) s = .next t ∧
      result t = some (.output []) ∧ t.inp.ipos = 42)

/-- Rule R213: n copies of one byte give a tree of two leaves; for n >= 2 the sentinel's code is 0 and the byte's 1, for
n = 1 the other way round. -/
def Obligations.SingleSymbolInputHasOneBitCodes : Prop :=
  ∀ (s : State) (v : Byte) (n : Nat), RunInv s → Ready .idle s → 1 ≤ n → n ≤ 2 ^ 32 - 2 →
    s.inp.bytes = List.replicate n v →
    ∃ t, exec (.compress .treeHeader) s = .next t ∧ t.done = true ∧ t.tree.nleaf = 2 ∧ t.tree.nnodes = 3 ∧
      codeBitList (codeAt t.code 256) = [decide (n = 1)] ∧ codeBitList (codeOfByte t.code v) = [decide (2 ≤ n)]

/-- Rule R214: a compressed stream with one of its first four bytes altered decompresses to FormatError, and one that is
cut short anywhere to FormatError inside the magic field and else to PrematureEndOfStream. -/
def Obligations.CorruptionIsDetected : Prop :=
  ∀ (s t s' : State) (c : List Byte), RunInv s → Ready .idle s → exec (.compress .treeHeader) s = .next t →
    result t = some (.output c) → RunInv s' → Ready .idle s' →
    (∀ head tail : List Byte, c = head ++ tail → head.length = 4 → ∀ head' : List Byte, head'.length = 4 →
      head' ≠ head → s'.inp.bytes = head' ++ tail →
      ∃ t' info, exec (.decompress .treeHeader) s' = .next t' ∧ result t' = some (.error .formatError info)) ∧
    (∀ k, k < c.length → s'.inp.bytes = c.take k →
      ∃ t' info, exec (.decompress .treeHeader) s' = .next t' ∧
        result t' = some (.error (if k < 4 then .formatError else .prematureEndOfStream) info))

/-! ## Errors and the interrupt -/

/-- Rules R241 and R242: what is defined after an error raised during execution: ERR, ERRINFO, STATUS and CTRL. The flags
EOD and REWOUND stay as they were, and STATUS reads them but after LengthOverflow and NoCode, where it reads open values
(log 6's reading of R30, R42 f and R242). -/
def Obligations.ExecutionErrorLeavesThisDefined : Prop :=
  ∀ (e : ErrCode) (info : Word) (s t : State), e ≠ .noError → t = raiseExec e info s →
    t.err = e ∧ t.errinfo = info ∧ errf t = true ∧ t.busy = false ∧ t.done = false ∧ t.phase = s.phase ∧
    t.cmddrop = s.cmddrop ∧ t.ie = s.ie ∧ irq t = s.ie ∧ t.outp.obuf = [] ∧
    t.port = { s.port with signals := s.port.signals ++ [.outAbort] } ∧
    t.inp.eod = s.inp.eod ∧ t.inp.rewound = s.inp.rewound ∧
    (e ≠ .lengthOverflow → e ≠ .noCode → statusEod t = s.inp.eod ∧ statusRewound t = s.inp.rewound)

/-- Rules R241, R245 and R247 over all commands: whenever a command changes ERR no error was pending, and BUSY and DONE
are 0, PHASE, CMDDROP and CTRL are kept, `out_abort` is the last signal and `irq` follows CTRL.IE. -/
def Obligations.EveryErrorStopsTheEngine : Prop :=
  ∀ (i : Instr) (s t : State), i.isCommand = true → i ≠ .clear → exec i s = .next t → t.err ≠ s.err →
    s.err = .noError ∧ t.busy = false ∧ t.done = false ∧ t.phase = s.phase ∧ t.cmddrop = s.cmddrop ∧ t.ie = s.ie ∧
    t.port.signals.getLast? = some .outAbort ∧ irq t = s.ie

/-- Rules R248 and R249: a write to CTRL stores IE at any time, while BUSY and with an error pending, and `irq` is then
IE and (DONE or ERRF): low without IE, and raised at once by IE = 1 when DONE or ERRF is 1. DONE and ERRF stay. -/
def Obligations.InterruptFollowsItsCause : Prop :=
  (∀ s : State, irq s = true ↔ s.ie = true ∧ (s.done = true ∨ s.err ≠ .noError)) ∧
  ∀ (s : State) (w : Word) (rest : List HostOp), AtHostPort s → s.port.host = .write 0x0008 0xF w :: rest →
    ∃ t, step s = .next t ∧
      t = { s with ie := w.getLsbD 0, port := { s.port with host := rest, answer := .ack } } ∧
      (w.getLsbD 0 = false → irq t = false) ∧
      (w.getLsbD 0 = true → s.done = true ∨ s.err ≠ .noError → irq t = true)

/-! ## Whole-machine rules -/

/-- Rules R21 to R23, R25 to R27, R32 and R129: outside an execution error FREQ and INLEN are written by COUNT, PQ by
BUILD, CODE by GENCODE, the tree by BUILD and RDHDR (and the tokens it reads), each also by the whole operation that
contains it and by CLEAR; CTRL by no instruction. -/
def Obligations.TablesHaveOneWriter : Prop :=
  ∀ (i : Instr) (s t : State), exec i s = .next t →
    t.ie = s.ie ∧
    (Defined t → i ≠ .clear →
      (i ≠ .count → (∀ hm, i ≠ .compress hm) → t.freq = s.freq ∧ t.inlen = s.inlen) ∧
      (i ≠ .build → (∀ hm, i ≠ .compress hm) → t.pq = s.pq) ∧
      (i ≠ .gencode → (∀ hm, i ≠ .compress hm) → t.code = s.code) ∧
      (i ≠ .build → (∀ hm, i ≠ .compress hm) → (∀ hm, i ≠ .rdhdr hm) → (∀ hm, i ≠ .decompress hm) → i ≠ .magic →
        i ≠ .internal → (∀ v, i ≠ .leaf v) → t.tree = s.tree))

/-- Rules R64, R67, R69 and R111: only ENCODE and COMPRESS set the flag REWOUND (that an execution error leaves the flag
itself alone is log 6's reading of R30 and R242) and no instruction but CLEAR changes the input itself; outside an
execution error COUNT, ENCODE, the readers and the whole operations move the input cursor, WRHDR, ENCODE, DECODE and the
whole operations write, and what is in OUT stays. -/
def Obligations.StreamsHaveTheirUsers : Prop :=
  ∀ (i : Instr) (s t : State), exec i s = .next t → i ≠ .clear →
    t.inp.bytes = s.inp.bytes ∧
    (i ≠ .encode → (∀ hm, i ≠ .compress hm) → t.inp.rewound = s.inp.rewound) ∧
    (Defined t →
      (i = .nop ∨ i = .build ∨ i = .gencode ∨ (∃ hm, i = .wrhdr hm) → t.inp = s.inp) ∧
      (i = .nop ∨ i = .count ∨ i = .build ∨ i = .gencode ∨ (∃ hm, i = .rdhdr hm) ∨ i.isCommand = false →
        t.outp = s.outp) ∧
      s.outp.out <+: t.outp.out)

/-- Rule R29: PHASE changes only when a command completes, to the phase of the table, or by CLEAR; a command completes
also at the LEAF token that ends the tree field when the reader is stepped token by token, and PHASE is then HDRRD (log 3,
the model's own stepping). -/
def Obligations.PhaseMovesOnlyAtCompletion : Prop :=
  ∀ (i : Instr) (s t : State), exec i s = .next t → t.phase ≠ s.phase →
    t.busy = false ∧ t.err = s.err ∧ t.done = true ∧
        (s.phase ∈ legalPhases i ∧ some t.phase = phaseAfter i ∨
          s.trav.stage = .tree ∧ (∃ v, i = .leaf v) ∧ t.phase = .hdrrd) ∨
      i = .clear ∧ t.phase = .idle

/-- The invariant of a run (rules R24, R28, R34, R35, R43): a step that goes on from it ends in it. -/
def Obligations.StepsKeepTheInvariant : Prop :=
  ∀ s t : State, RunInv s → step s = .next t → RunInv t

/-- No step from the invariant faults or is refused: the one fault of the model is never reached (rules R177, R271). -/
def Obligations.NoStepOfARunStops : Prop :=
  ∀ s : State, RunInv s → ∃ t, step s = .next t

/-- Rule R45: the reset state holds the reset values of the table, and it meets the invariant of a run. -/
def Obligations.ResetMeetsTheInvariant : Prop :=
  RunInv State.reset ∧
  (∀ v, v < 256 → freqAt State.reset.freq v = 0) ∧ State.reset.inlen = 0 ∧
  (∀ i, State.reset.tree.at i = Node.invalid) ∧ State.reset.tree.nnodes = 0 ∧ State.reset.tree.nleaf = 0 ∧
  State.reset.tree.root = ⟨false, 0⟩ ∧ State.reset.pq = [] ∧ (∀ v, codeAt State.reset.code v = Code.invalid) ∧
  State.reset.phase = .idle ∧ State.reset.busy = false ∧ State.reset.done = false ∧ State.reset.inp.eod = false ∧
  State.reset.inp.rewound = false ∧ State.reset.cmddrop = false ∧ State.reset.err = .noError ∧
  errf State.reset = false ∧ State.reset.errinfo = 0 ∧ State.reset.ie = false ∧ State.reset.inp.ipos = 0 ∧
  State.reset.outp.opos = 0 ∧ State.reset.outp.obuf = [] ∧ State.reset.trav = Transient.empty ∧
  readReg State.reset .status = 0 ∧ readReg State.reset .id = 0x48554631 ∧
  readReg State.reset .magict = 0xFACE8201 ∧ readReg State.reset .magicc = 0xFACE8202 ∧ irq State.reset = false

/-! ## Host port -/

/-- Rule R37: each register is at its address and each mapped address holds one register. -/
def Obligations.RegisterMapIsOneToOne : Prop :=
  (∀ r : Reg, r.addr < 0x8000 ∧ r.addr % 4 = 0 ∧ regAt r.addr = some r) ∧
  ∀ (a : Nat) (r : Reg), a % 4 = 0 → regAt a = some r → r.addr = a

/-- Rules R38 to R41: every register reads with its fields where the layouts put them and its reserved bits 0, CTRL stores
bit 0 alone, a command word has OP in bits 7:0, HM in bit 8 and 0 in bits 31:9, else it is IllegalCommand, and outside an
execution error the fields of a run keep to their legal values. That STATUS reads the stored flags EOD and REWOUND but
after LengthOverflow and NoCode, where what it reads is open, is log 6's reading of R30, R42 f and R242. -/
def Obligations.RegisterFieldsAreInPlace : Prop :=
  (∀ s : State, (readReg s .status).getLsbD 0 = s.busy ∧ (readReg s .status).getLsbD 1 = s.done ∧
    (readReg s .status).getLsbD 2 = decide (s.err ≠ .noError) ∧ (readReg s .status).getLsbD 3 = statusEod s ∧
    (readReg s .status).getLsbD 4 = statusRewound s ∧ (readReg s .status).getLsbD 5 = s.cmddrop ∧
    (s.err ≠ .lengthOverflow → s.err ≠ .noCode → statusEod s = s.inp.eod ∧ statusRewound s = s.inp.rewound) ∧
    ((readReg s .status).extractLsb' 8 4).toNat = s.phase.code ∧
    (readReg s .status).extractLsb' 6 2 = 0 ∧ (readReg s .status).extractLsb' 12 20 = 0 ∧
    (readReg s .ctrl).getLsbD 0 = s.ie ∧ (readReg s .ctrl).extractLsb' 1 31 = 0 ∧
    ((readReg s .err).extractLsb' 0 8).toNat = s.err.code ∧ (readReg s .err).extractLsb' 8 24 = 0 ∧
    (readReg s .root).getLsbD 31 = s.tree.root.valid ∧ (readReg s .root).extractLsb' 10 21 = 0 ∧
    (readReg s .root).extractLsb' 0 10 = s.tree.root.index ∧ readReg s .cmd = 0 ∧ readReg s .errinfo = s.errinfo ∧
    readReg s .inlen = s.inlen ∧
    (readReg s .iposl).toNat = s.inp.ipos % 2 ^ 32 ∧ (readReg s .iposh).toNat = s.inp.ipos / 2 ^ 32 % 2 ^ 32 ∧
    (readReg s .oposl).toNat = s.outp.opos % 2 ^ 32 ∧ (readReg s .oposh).toNat = s.outp.opos / 2 ^ 32 % 2 ^ 32 ∧
    (readReg s .nnodes).extractLsb' 0 10 = s.tree.nnodes ∧ (readReg s .nnodes).extractLsb' 10 22 = 0 ∧
    (readReg s .nleaf).extractLsb' 0 10 = s.tree.nleaf ∧ (readReg s .nleaf).extractLsb' 10 22 = 0 ∧
    ((readReg s .pqcnt).extractLsb' 0 9).toNat = s.pq.length % 2 ^ 9 ∧ (readReg s .pqcnt).extractLsb' 9 23 = 0 ∧
    readReg s .id = 0x48554631 ∧ readReg s .magict = 0xFACE8201 ∧ readReg s .magicc = 0xFACE8202 ∧
    (∀ v : Fin 256, readReg s (.freq v) = s.freq[v]) ∧
    s.phase.code ≤ 7 ∧ s.err.code ≤ 10 ∧
    (RunInv s → Defined s → s.tree.nnodes.toNat ≤ 513 ∧ s.tree.root.index.toNat ≤ 512 ∧ s.tree.nleaf.toNat ≤ 257 ∧
      s.pq.length ≤ 257) ∧
    (∀ w : Word, writeReg .ctrl w s = .next { s with ie := w.getLsbD 0 })) ∧
  (∀ (w : Word) (i : Instr), decodeWord w = .ok i →
    w.extractLsb' 9 23 = 0 ∧ (w.getLsbD 8 = true ↔ i.headerMode = some .countHeader) ∧
    w.extractLsb' 0 8 ∈ [0x00#8, 0x01, 0x10, 0x11, 0x12, 0x13, 0x14, 0x20, 0x21, 0x30, 0x31]) ∧
  (∀ (w : Word) (s : State), w.extractLsb' 9 23 ≠ 0 → s.busy = false → s.err = .noError →
    ∃ t, writeReg .cmd w s = .next t ∧ t.err = .illegalCommand ∧ t.errinfo = w) ∧
  (∀ (s : State) (i : Fin 513) (n : Node), n = s.tree.at (BitVec.ofNat 10 i.val) →
    (readReg s (.nodeA i)).getLsbD 31 = n.valid ∧ (readReg s (.nodeA i)).getLsbD 30 = n.leaf ∧
    (readReg s (.nodeA i)).extractLsb' 20 10 = n.left ∧ (readReg s (.nodeA i)).extractLsb' 10 10 = n.right ∧
    (readReg s (.nodeA i)).getLsbD 9 = false ∧ (readReg s (.nodeA i)).extractLsb' 0 9 = n.sym ∧
    readReg s (.nodeW i) = n.weight) ∧
  ∀ (s : State) (v : Fin 257) (c : Code), c = codeAt s.code (BitVec.ofNat 9 v.val) →
    (readReg s (.codeLen v)).getLsbD 31 = c.valid ∧ (readReg s (.codeLen v)).extractLsb' 9 22 = 0 ∧
    (readReg s (.codeLen v)).extractLsb' 0 9 = c.len ∧
    ∀ (w : Fin 8) (j : Nat), j < 32 → (readReg s (.codeBits v w)).getLsbD j = c.bits.getLsbD (32 * w.val + j)

/-- Rules R42 (b) to (d), R62 and R63: a legal read answers with the register, 0 where nothing is mapped and some value
while BUSY = 1 (STATUS with BUSY = 1, the constants themselves); any other read is refused with `h_err`; no read changes
the state of the engine (`free` numbers the unspecified values and is the model's own, log 7). -/
def Obligations.ReadsChangeNothing : Prop :=
  ∀ (s : State) (a : RegAddr) (be : BitVec 4) (rest : List HostOp), AtHostPort s → s.port.host = .read a be :: rest →
    ∃ ans k, step s = .next { s with port := { s.port with host := rest, answer := ans }, free := k } ∧
      (be ≠ 0xF ∨ a.toNat % 4 ≠ 0 → ans = .err) ∧
      (be = 0xF → a.toNat % 4 = 0 → s.busy = false → ans = .data (((regAt a.toNat).map (readReg s)).getD 0)) ∧
      (be = 0xF → a.toNat % 4 = 0 → s.busy = true → ∃ v, ans = .data v ∧ (a = 0x0004 → v.getLsbD 0 = true) ∧
        (a = 0x0038 → v = 0x48554631) ∧ (a = 0x003C → v = 0xFACE8201) ∧ (a = 0x0040 → v = 0xFACE8202)) ∧
      (s.busy = false → k = s.free)

/-- Rules R42 (a) and R62: a write to any register but CMD and CTRL, or to an unmapped address, is acknowledged and
ignored; a write that is not 32 bits wide at a multiple of 4 is refused with `h_err` and changes no state, CMD and CTRL
included. -/
def Obligations.OnlyCmdAndCtrlAreWritable : Prop :=
  ∀ (s : State) (a : RegAddr) (be : BitVec 4) (w : Word) (rest : List HostOp), AtHostPort s →
    s.port.host = .write a be w :: rest →
    (be ≠ 0xF ∨ a.toNat % 4 ≠ 0 →
      step s = .next { s with port := { s.port with host := rest, answer := .err } }) ∧
    (be = 0xF → a.toNat % 4 = 0 → a ≠ 0x0000 → a ≠ 0x0008 →
      step s = .next { s with port := { s.port with host := rest, answer := .ack } })

/-- Rules R260 to R262: raising `rst` gives the reset state in any state the reader is not at work in, with the signals
of rule R262 when a command was running and none otherwise (that an idle engine signals nothing is log 11's choice);
while it is high the host port is ignored. -/
def Obligations.ResetPinGivesTheResetState : Prop :=
  ∀ (s : State) (rest : List HostOp), readerActive s = false →
    (s.port.host = .rst true :: rest → ∃ (bytes : List Byte) (source : Option SourceStall) (sink : Option Nat), step s = .next { State.reset with
      inp := InStream.fresh bytes source, outp := OutStream.fresh sink,
      port := { rst := true, host := rest, answer := .none, pending := none,
                signals := s.port.signals ++ (if s.busy then [.inRestart, .outAbort] else []) },
      free := s.free }) ∧
    (∀ op, s.port.rst = true → s.port.host = op :: rest →
      (∃ a be, op = .read a be) ∨ (∃ a be w, op = .write a be w) →
      step s = .next { s with port := { s.port with host := rest, answer := .none } })
end

