-- ==== Sys2Proof/Laws/Bits.lean ====
section
/-! SUPPORT. Bit strings and the numbers they spell. -/

namespace Sys2Proof

@[simp] theorem bitsOf_zero (v : Nat) : bitsOf 0 v = [] := rfl

theorem bitsOf_succ (n v : Nat) : bitsOf (n + 1) v = v.testBit n :: bitsOf n v := rfl

@[simp] theorem length_bitsOf (n v : Nat) : (bitsOf n v).length = n := by
  induction n with
  | zero => rfl
  | succ n ih => simp [bitsOf_succ, ih]

@[simp] theorem ofBits_nil : ofBits [] = 0 := rfl

theorem foldl_bits (bs : List Bool) (v : Nat) :
    bs.foldl (fun v b => 2 * v + b.toNat) v = v * 2 ^ bs.length + ofBits bs := by
  induction bs generalizing v with
  | nil => simp [ofBits]
  | cons b bs ih =>
    simp only [List.foldl_cons, List.length_cons, ofBits]
    rw [ih, ih (2 * 0 + b.toNat)]
    ring

theorem ofBits_cons (b : Bool) (bs : List Bool) : ofBits (b :: bs) = b.toNat * 2 ^ bs.length + ofBits bs := by
  have := foldl_bits bs (2 * 0 + b.toNat)
  simpa [ofBits] using this

theorem ofBits_append (as bs : List Bool) : ofBits (as ++ bs) = ofBits as * 2 ^ bs.length + ofBits bs := by
  unfold ofBits
  rw [List.foldl_append, foldl_bits bs]
  rfl

theorem ofBits_lt (bs : List Bool) : ofBits bs < 2 ^ bs.length := by
  induction bs with
  | nil => simp
  | cons b bs ih =>
    rw [ofBits_cons, List.length_cons, pow_succ]
    cases b <;> simp <;> omega

/-- Writing a number in `n` bits and reading it back keeps its low `n` bits. -/
theorem ofBits_bitsOf (n v : Nat) : ofBits (bitsOf n v) = v % 2 ^ n := by
  induction n with
  | zero => simp [Nat.mod_one]
  | succ n ih =>
    rw [bitsOf_succ, ofBits_cons, ih, length_bitsOf, Nat.mod_pow_succ, Nat.testBit_eq_decide_div_mod_eq]
    rcases Nat.mod_two_eq_zero_or_one (v / 2 ^ n) with h | h <;> simp [h]
    omega

/-- Reading a bit string and writing it back gives the string. -/
theorem bitsOf_ofBits (bs : List Bool) (v : Nat) : bitsOf bs.length (v * 2 ^ bs.length + ofBits bs) = bs := by
  induction bs generalizing v with
  | nil => rfl
  | cons b bs ih =>
    rw [List.length_cons, bitsOf_succ, ofBits_cons]
    have hb := ofBits_lt bs
    have e : v * 2 ^ (bs.length + 1) + (b.toNat * 2 ^ bs.length + ofBits bs)
        = (2 * v + b.toNat) * 2 ^ bs.length + ofBits bs := by ring
    rw [e, ih]
    congr 1
    rw [Nat.testBit_eq_decide_div_mod_eq,
      show ((2 * v + b.toNat) * 2 ^ bs.length + ofBits bs) / 2 ^ bs.length = 2 * v + b.toNat by
        rw [Nat.mul_comm, Nat.mul_add_div (by positivity), Nat.div_eq_of_lt hb, Nat.add_zero]]
    cases b <;> simp

theorem bitsOf_length_ofBits (bs : List Bool) : bitsOf bs.length (ofBits bs) = bs := by
  simpa using bitsOf_ofBits bs 0

/-- A code's register image spells its path again (rule R27). -/
theorem bitsOf_of_length {n : Nat} {bs : List Bool} (h : bs.length = n) : bitsOf n (ofBits bs) = bs := by
  subst h; exact bitsOf_length_ofBits bs

@[simp] theorem bitsOfBytes_nil : bitsOfBytes [] = [] := rfl

theorem bitsOfBytes_cons (b : Byte) (bs : List Byte) : bitsOfBytes (b :: bs) = bitsOf 8 b.toNat ++ bitsOfBytes bs := by
  simp [bitsOfBytes]

theorem bitsOfBytes_append (as bs : List Byte) : bitsOfBytes (as ++ bs) = bitsOfBytes as ++ bitsOfBytes bs := by
  simp [bitsOfBytes]

@[simp] theorem length_bitsOfBytes (bs : List Byte) : (bitsOfBytes bs).length = 8 * bs.length := by
  induction bs with
  | nil => rfl
  | cons b bs ih => rw [bitsOfBytes_cons, List.length_append, ih, length_bitsOf, List.length_cons]; omega

/-- Eight bits made a byte are the byte's bits. -/
theorem bitsOf_byte_ofBits {bs : List Bool} (h : bs.length = 8) :
    bitsOf 8 (BitVec.ofNat 8 (ofBits bs)).toNat = bs := by
  have hb : ofBits bs < 2 ^ 8 := by have := ofBits_lt bs; rwa [h] at this
  rw [BitVec.toNat_ofNat, Nat.mod_eq_of_lt hb]
  exact bitsOf_of_length h

/-- Two byte sequences with the same bits are the same. -/
theorem bitsOfBytes_injective {as bs : List Byte} (h : bitsOfBytes as = bitsOfBytes bs) : as = bs := by
  induction as generalizing bs with
  | nil =>
    have := congrArg List.length h
    simp only [bitsOfBytes_nil, List.length_nil, length_bitsOfBytes] at this
    exact (List.length_eq_zero_iff.mp (by omega)).symm
  | cons a as ih =>
    cases bs with
    | nil => have := congrArg List.length h; simp at this
    | cons b bs =>
      rw [bitsOfBytes_cons, bitsOfBytes_cons] at h
      have h2 := List.append_inj h (by simp)
      have e : a = b := by
        have := congrArg ofBits h2.1
        rw [ofBits_bitsOf, ofBits_bitsOf] at this
        apply BitVec.eq_of_toNat_eq
        have ha := a.isLt
        have hb := b.isLt
        omega
      rw [e, ih h2.2]

/-- Bit k of the stream is bit `7 - (k mod 8)` of byte `k div 8` (rules R65, R69). -/
theorem bitsOfBytes_getD (bs : List Byte) (k : Nat) (h : k < 8 * bs.length) :
    (bitsOfBytes bs).getD k false = (bs.getD (k / 8) 0).getLsbD (7 - k % 8) := by
  induction bs generalizing k with
  | nil => simp at h
  | cons b bs ih =>
    rw [bitsOfBytes_cons]
    rcases Nat.lt_or_ge k 8 with hk | hk
    · have e : k / 8 = 0 := by omega
      rw [List.getD_append _ _ _ _ (by simpa using hk), e]
      simp only [List.getD_cons_zero, BitVec.getLsbD]
      interval_cases k <;> simp [bitsOf]
    · have e : k / 8 = (k - 8) / 8 + 1 := by omega
      rw [List.getD_append_right _ _ _ _ (by simpa using hk), e, List.getD_cons_succ, length_bitsOf,
        ih (k - 8) (by simp at h; omega)]
      congr 1
      omega

end Sys2Proof
end

