-- ==== Sys2Proof/Laws/Streams.lean ====
section
/-! SUPPORT. The stream primitives (rules R64 to R71): what each can do, said once. -/

namespace Sys2Proof.Machine

/-! ## Input -/

@[simp] theorem advance_bytes (i : InStream) (n : Nat) : (i.advance n).bytes = i.bytes := rfl
@[simp] theorem advance_stall (i : InStream) (n : Nat) : (i.advance n).stall = i.stall := rfl
@[simp] theorem advance_ipos (i : InStream) (n : Nat) : (i.advance n).ipos = i.ipos + n := rfl
@[simp] theorem advance_eod (i : InStream) (n : Nat) : (i.advance n).eod = i.eod := rfl
@[simp] theorem advance_rewound (i : InStream) (n : Nat) : (i.advance n).rewound = i.rewound := rfl
@[simp] theorem atEnd_bytes (i : InStream) : i.atEnd.bytes = i.bytes := rfl
@[simp] theorem atEnd_stall (i : InStream) : i.atEnd.stall = i.stall := rfl
@[simp] theorem atEnd_ipos (i : InStream) : i.atEnd.ipos = i.ipos := rfl
@[simp] theorem atEnd_eod (i : InStream) : i.atEnd.eod = true := rfl
@[simp] theorem atEnd_rewound (i : InStream) : i.atEnd.rewound = i.rewound := rfl
@[simp] theorem rewind_bytes (i : InStream) : i.rewind.bytes = i.bytes := rfl
@[simp] theorem rewind_stall (i : InStream) : i.rewind.stall = i.stall := rfl
@[simp] theorem rewind_ipos (i : InStream) : i.rewind.ipos = 0 := rfl
@[simp] theorem rewind_eod (i : InStream) : i.rewind.eod = false := rfl
@[simp] theorem rewind_rewound (i : InStream) : i.rewind.rewound = true := rfl

theorem advance_advance (i : InStream) (m n : Nat) : (i.advance m).advance n = i.advance (m + n) := by
  simp [InStream.advance, Nat.add_assoc]

@[simp] theorem length_bits (i : InStream) : i.bits.length = 8 * i.bytes.length := by simp [InStream.bits]

@[simp] theorem length_unread (i : InStream) : i.unread.length = 8 * i.bytes.length - i.ipos := by
  simp [InStream.unread]

@[simp] theorem bits_advance (i : InStream) (n : Nat) : (i.advance n).bits = i.bits := rfl

theorem unread_advance (i : InStream) (n : Nat) : (i.advance n).unread = i.unread.drop n := by
  simp [InStream.unread]

/-- The three results of `ReadBits(n)` (rules R65, R66): end of data, or the next `n` unread bits. -/
theorem readBits_cases (n : Nat) (i : InStream) :
    (i.unread.length < n ∨ 8 * i.bytes.length < i.ipos) ∧ i.readBits n = (none, i.atEnd) ∨
      n ≤ i.unread.length ∧ i.ipos + n ≤ 8 * i.bytes.length ∧
        i.readBits n = (some (BitVec.ofNat n (ofBits (i.unread.take n))), i.advance n) := by
  unfold InStream.readBits
  by_cases h : i.ipos + n > 8 * i.bytes.length
  · exact .inl ⟨by rw [length_unread]; omega, if_pos h⟩
  · exact .inr ⟨by rw [length_unread]; omega, by omega, if_neg h⟩

/-- `ReadBits(n)` on unread bits that begin with the `n` bits `bs`. -/
theorem readBits_of_unread {n : Nat} {i : InStream} {bs rest : List Bool} (hn : bs.length = n) (h0 : 0 < n)
    (h : i.unread = bs ++ rest) : i.readBits n = (some (BitVec.ofNat n (ofBits bs)), i.advance n) := by
  have hl : i.unread.length = n + rest.length := by rw [h, List.length_append, hn]
  rw [length_unread] at hl
  rw [InStream.readBits, if_neg (by omega), h, List.take_left' hn]

/-- `ReadBits(n)` with too few unread bits (rule R66). -/
theorem readBits_short {n : Nat} {i : InStream} (h : i.unread.length < n) : i.readBits n = (none, i.atEnd) := by
  rw [length_unread] at h
  rw [InStream.readBits, if_pos (by omega)]

/-- A source that answers every request gives what `ReadBits(n)` reads (rules R65, R66, R272). -/
theorem ask_answering {n : Nat} {i : InStream} (h : i.stall = none) : i.ask n = some (i.readBits n) := by
  simp [InStream.ask, InStream.blocks, h]

/-- The two ends of a request: the source does not answer, or `ReadBits(n)` is performed (rule R74). -/
theorem ask_cases (n : Nat) (i : InStream) :
    i.blocks n = true ∧ i.ask n = none ∨ i.blocks n = false ∧ i.ask n = some (i.readBits n) := by
  unfold InStream.ask
  cases i.blocks n <;> simp

/-- A pass has a read for every byte and one more (rule R273). -/
theorem length_lt_passReads (i : InStream) : i.bytes.length < i.passReads := Nat.lt_succ_self _

@[simp] theorem passReads_rewind (i : InStream) : i.rewind.passReads = i.passReads := rfl

@[simp] theorem laterSource_none (p : Option SourceStall) : laterSource p none = none := by cases p <;> rfl
@[simp] theorem laterSink_none (p : Option Nat) : laterSink p none = none := by cases p <;> rfl

theorem unread_of_append {n : Nat} {i : InStream} {bs rest : List Bool} (hn : bs.length = n)
    (h : i.unread = bs ++ rest) : (i.advance n).unread = rest := by
  rw [unread_advance, h, List.drop_left' hn]

/-! ## Output -/

@[simp] theorem writeBit_stall (o : OutStream) (b : Bool) : (o.writeBit b).stall = o.stall := by
  unfold OutStream.writeBit; split <;> rfl

@[simp] theorem writeBit_opos (o : OutStream) (b : Bool) : (o.writeBit b).opos = o.opos + 1 := by
  unfold OutStream.writeBit; split <;> rfl

@[simp] theorem writeList_nil (o : OutStream) : o.writeList [] = o := rfl

theorem writeList_cons (o : OutStream) (b : Bool) (bs : List Bool) :
    o.writeList (b :: bs) = (o.writeBit b).writeList bs := rfl

theorem writeList_append (o : OutStream) (as bs : List Bool) :
    o.writeList (as ++ bs) = (o.writeList as).writeList bs := by
  simp [OutStream.writeList, List.foldl_append]

@[simp] theorem writeList_stall (o : OutStream) (bs : List Bool) : (o.writeList bs).stall = o.stall := by
  induction bs generalizing o with
  | nil => rfl
  | cons b bs ih => rw [writeList_cons, ih, writeBit_stall]

@[simp] theorem writeList_opos (o : OutStream) (bs : List Bool) : (o.writeList bs).opos = o.opos + bs.length := by
  induction bs generalizing o with
  | nil => rfl
  | cons b bs ih => rw [writeList_cons, ih, writeBit_opos, List.length_cons]; omega

/-- One bit keeps the packer coherent and is appended to what has been written. -/
theorem writeBit_coherent {o : OutStream} (h : o.Coherent) (b : Bool) :
    (o.writeBit b).Coherent ∧ (o.writeBit b).written = o.written ++ [b] := by
  obtain ⟨h1, h2⟩ := h
  unfold OutStream.writeBit
  split
  · rename_i hm
    have hl : (o.obuf ++ [b]).length = 8 := by rw [List.length_append, h1]; simp; omega
    refine ⟨⟨?_, ?_⟩, ?_⟩
    · simp [hm]
    · simp only [List.length_append, List.length_cons, List.length_nil, h2]; omega
    · simp only [OutStream.written, bitsOfBytes_append, bitsOfBytes_cons, bitsOfBytes_nil, List.append_nil,
        bitsOf_byte_ofBits hl, List.append_assoc]
  · rename_i hm
    refine ⟨⟨?_, ?_⟩, ?_⟩
    · simp only [List.length_append, List.length_cons, List.length_nil, h1]; omega
    · simp only [h2]; omega
    · simp [OutStream.written]

/-- Writing bits keeps the packer coherent and appends them (rule R69). -/
theorem writeList_coherent {o : OutStream} (h : o.Coherent) (bs : List Bool) :
    (o.writeList bs).Coherent ∧ (o.writeList bs).written = o.written ++ bs := by
  induction bs generalizing o with
  | nil => exact ⟨h, by simp⟩
  | cons b bs ih =>
    have hb := writeBit_coherent h b
    rw [writeList_cons]
    exact ⟨(ih hb.1).1, by rw [(ih hb.1).2, hb.2, List.append_assoc]; rfl⟩

theorem flush_eq (o : OutStream) : o.flush = o.writeList (List.replicate (padLength o.opos) false) := by
  unfold OutStream.flush padLength
  split <;> simp

@[simp] theorem flush_stall (o : OutStream) : o.flush.stall = o.stall := by rw [flush_eq]; simp

/-- After `Flush()` the packer is empty and every written bit is in OUT (rules R71, R76). -/
theorem flush_coherent {o : OutStream} (h : o.Coherent) :
    o.flush.Coherent ∧ o.flush.opos % 8 = 0 ∧ o.flush.obuf = [] ∧
      bitsOfBytes o.flush.out = o.written ++ List.replicate (padLength o.opos) false := by
  have hw := writeList_coherent h (List.replicate (padLength o.opos) false)
  rw [flush_eq]
  have hp : (o.writeList (List.replicate (padLength o.opos) false)).opos % 8 = 0 := by
    rw [writeList_opos, List.length_replicate]; unfold padLength; split <;> omega
  have hb : (o.writeList (List.replicate (padLength o.opos) false)).obuf = [] := by
    apply List.length_eq_zero_iff.mp; rw [hw.1.1, hp]
  refine ⟨hw.1, hp, hb, ?_⟩
  have := hw.2
  rwa [OutStream.written, hb, List.append_nil] at this

/-- Bits written never leave the sink: OUT only grows. -/
theorem writeList_out_length (o : OutStream) (bs : List Bool) : o.out.length ≤ (o.writeList bs).out.length := by
  induction bs generalizing o with
  | nil => simp
  | cons b bs ih =>
    rw [writeList_cons]
    refine le_trans ?_ (ih _)
    unfold OutStream.writeBit
    split <;> simp

end Sys2Proof.Machine
end

