-- ==== Sys2Proof/Laws/State.lean ====
section
/-! SUPPORT. One lemma for each field of State under each named update of it, true by definition, so that no later
proof unfolds the update. -/

namespace Sys2Proof.Machine

/-! ## `accept` -/

@[simp] theorem accept_freq (s : State) : (accept s).freq = s.freq := rfl
@[simp] theorem accept_inlen (s : State) : (accept s).inlen = s.inlen := rfl
@[simp] theorem accept_tree (s : State) : (accept s).tree = s.tree := rfl
@[simp] theorem accept_pq (s : State) : (accept s).pq = s.pq := rfl
@[simp] theorem accept_code (s : State) : (accept s).code = s.code := rfl
@[simp] theorem accept_phase (s : State) : (accept s).phase = s.phase := rfl
@[simp] theorem accept_busy (s : State) : (accept s).busy = true := rfl
@[simp] theorem accept_done (s : State) : (accept s).done = false := rfl
@[simp] theorem accept_cmddrop (s : State) : (accept s).cmddrop = s.cmddrop := rfl
@[simp] theorem accept_err (s : State) : (accept s).err = s.err := rfl
@[simp] theorem accept_errinfo (s : State) : (accept s).errinfo = s.errinfo := rfl
@[simp] theorem accept_ie (s : State) : (accept s).ie = s.ie := rfl
@[simp] theorem accept_inp (s : State) : (accept s).inp = s.inp := rfl
@[simp] theorem accept_outp (s : State) : (accept s).outp = s.outp := rfl
@[simp] theorem accept_trav (s : State) : (accept s).trav = s.trav := rfl
@[simp] theorem accept_waiting (s : State) : (accept s).waiting = s.waiting := rfl
@[simp] theorem accept_port (s : State) : (accept s).port = s.port := rfl
@[simp] theorem accept_free (s : State) : (accept s).free = s.free := rfl

/-! ## `complete` -/

@[simp] theorem complete_freq (i : Instr) (s : State) : (complete i s).freq = s.freq := rfl
@[simp] theorem complete_inlen (i : Instr) (s : State) : (complete i s).inlen = s.inlen := rfl
@[simp] theorem complete_tree (i : Instr) (s : State) : (complete i s).tree = s.tree := rfl
@[simp] theorem complete_pq (i : Instr) (s : State) : (complete i s).pq = s.pq := rfl
@[simp] theorem complete_code (i : Instr) (s : State) : (complete i s).code = s.code := rfl
@[simp] theorem complete_phase (i : Instr) (s : State) : (complete i s).phase = nextPhase i s.phase := rfl
@[simp] theorem complete_busy (i : Instr) (s : State) : (complete i s).busy = false := rfl
@[simp] theorem complete_done (i : Instr) (s : State) : (complete i s).done = true := rfl
@[simp] theorem complete_cmddrop (i : Instr) (s : State) : (complete i s).cmddrop = s.cmddrop := rfl
@[simp] theorem complete_err (i : Instr) (s : State) : (complete i s).err = s.err := rfl
@[simp] theorem complete_errinfo (i : Instr) (s : State) : (complete i s).errinfo = s.errinfo := rfl
@[simp] theorem complete_ie (i : Instr) (s : State) : (complete i s).ie = s.ie := rfl
@[simp] theorem complete_inp (i : Instr) (s : State) : (complete i s).inp = s.inp := rfl
@[simp] theorem complete_outp (i : Instr) (s : State) : (complete i s).outp = s.outp := rfl
@[simp] theorem complete_trav (i : Instr) (s : State) : (complete i s).trav = Transient.empty := rfl
@[simp] theorem complete_waiting (i : Instr) (s : State) : (complete i s).waiting = s.waiting := rfl
@[simp] theorem complete_port (i : Instr) (s : State) : (complete i s).port = s.port := rfl
@[simp] theorem complete_free (i : Instr) (s : State) : (complete i s).free = s.free := rfl

/-! ## `dropCommand` -/

@[simp] theorem dropCommand_freq (s : State) : (dropCommand s).freq = s.freq := rfl
@[simp] theorem dropCommand_inlen (s : State) : (dropCommand s).inlen = s.inlen := rfl
@[simp] theorem dropCommand_tree (s : State) : (dropCommand s).tree = s.tree := rfl
@[simp] theorem dropCommand_pq (s : State) : (dropCommand s).pq = s.pq := rfl
@[simp] theorem dropCommand_code (s : State) : (dropCommand s).code = s.code := rfl
@[simp] theorem dropCommand_phase (s : State) : (dropCommand s).phase = s.phase := rfl
@[simp] theorem dropCommand_busy (s : State) : (dropCommand s).busy = s.busy := rfl
@[simp] theorem dropCommand_done (s : State) : (dropCommand s).done = s.done := rfl
@[simp] theorem dropCommand_cmddrop (s : State) : (dropCommand s).cmddrop = true := rfl
@[simp] theorem dropCommand_err (s : State) : (dropCommand s).err = s.err := rfl
@[simp] theorem dropCommand_errinfo (s : State) : (dropCommand s).errinfo = s.errinfo := rfl
@[simp] theorem dropCommand_ie (s : State) : (dropCommand s).ie = s.ie := rfl
@[simp] theorem dropCommand_inp (s : State) : (dropCommand s).inp = s.inp := rfl
@[simp] theorem dropCommand_outp (s : State) : (dropCommand s).outp = s.outp := rfl
@[simp] theorem dropCommand_trav (s : State) : (dropCommand s).trav = s.trav := rfl
@[simp] theorem dropCommand_waiting (s : State) : (dropCommand s).waiting = s.waiting := rfl
@[simp] theorem dropCommand_port (s : State) : (dropCommand s).port = s.port := rfl
@[simp] theorem dropCommand_free (s : State) : (dropCommand s).free = s.free := rfl

/-! ## `raise` -/

@[simp] theorem raise_freq (e : ErrCode) (info : Word) (s : State) : (raise e info s).freq = s.freq := rfl
@[simp] theorem raise_inlen (e : ErrCode) (info : Word) (s : State) : (raise e info s).inlen = s.inlen := rfl
@[simp] theorem raise_tree (e : ErrCode) (info : Word) (s : State) : (raise e info s).tree = s.tree := rfl
@[simp] theorem raise_pq (e : ErrCode) (info : Word) (s : State) : (raise e info s).pq = s.pq := rfl
@[simp] theorem raise_code (e : ErrCode) (info : Word) (s : State) : (raise e info s).code = s.code := rfl
@[simp] theorem raise_phase (e : ErrCode) (info : Word) (s : State) : (raise e info s).phase = s.phase := rfl
@[simp] theorem raise_busy (e : ErrCode) (info : Word) (s : State) : (raise e info s).busy = false := rfl
@[simp] theorem raise_done (e : ErrCode) (info : Word) (s : State) : (raise e info s).done = false := rfl
@[simp] theorem raise_cmddrop (e : ErrCode) (info : Word) (s : State) : (raise e info s).cmddrop = s.cmddrop := rfl
@[simp] theorem raise_err (e : ErrCode) (info : Word) (s : State) : (raise e info s).err = e := rfl
@[simp] theorem raise_errinfo (e : ErrCode) (info : Word) (s : State) : (raise e info s).errinfo = info := rfl
@[simp] theorem raise_ie (e : ErrCode) (info : Word) (s : State) : (raise e info s).ie = s.ie := rfl
@[simp] theorem raise_inp (e : ErrCode) (info : Word) (s : State) : (raise e info s).inp = s.inp := rfl
@[simp] theorem raise_outp (e : ErrCode) (info : Word) (s : State) : (raise e info s).outp = s.outp := rfl
@[simp] theorem raise_trav (e : ErrCode) (info : Word) (s : State) : (raise e info s).trav = s.trav := rfl
@[simp] theorem raise_waiting (e : ErrCode) (info : Word) (s : State) : (raise e info s).waiting = s.waiting := rfl
@[simp] theorem raise_port (e : ErrCode) (info : Word) (s : State) :
    (raise e info s).port = { s.port with signals := s.port.signals ++ [.outAbort] } := rfl
@[simp] theorem raise_free (e : ErrCode) (info : Word) (s : State) : (raise e info s).free = s.free := rfl

/-! ## `leaveUnspecified` -/

@[simp] theorem leaveUnspecified_freq (s : State) :
    (leaveUnspecified s).freq = (Config.afterError s.free).freq := rfl
@[simp] theorem leaveUnspecified_inlen (s : State) :
    (leaveUnspecified s).inlen = (Config.afterError s.free).inlen := rfl
@[simp] theorem leaveUnspecified_tree (s : State) :
    (leaveUnspecified s).tree = (Config.afterError s.free).tree := rfl
@[simp] theorem leaveUnspecified_pq (s : State) :
    (leaveUnspecified s).pq = (Config.afterError s.free).pq := rfl
@[simp] theorem leaveUnspecified_code (s : State) :
    (leaveUnspecified s).code = (Config.afterError s.free).code := rfl
@[simp] theorem leaveUnspecified_phase (s : State) : (leaveUnspecified s).phase = s.phase := rfl
@[simp] theorem leaveUnspecified_busy (s : State) : (leaveUnspecified s).busy = s.busy := rfl
@[simp] theorem leaveUnspecified_done (s : State) : (leaveUnspecified s).done = s.done := rfl
@[simp] theorem leaveUnspecified_cmddrop (s : State) : (leaveUnspecified s).cmddrop = s.cmddrop := rfl
@[simp] theorem leaveUnspecified_err (s : State) : (leaveUnspecified s).err = s.err := rfl
@[simp] theorem leaveUnspecified_errinfo (s : State) : (leaveUnspecified s).errinfo = s.errinfo := rfl
@[simp] theorem leaveUnspecified_ie (s : State) : (leaveUnspecified s).ie = s.ie := rfl
@[simp] theorem leaveUnspecified_trav (s : State) : (leaveUnspecified s).trav = Transient.empty := rfl
@[simp] theorem leaveUnspecified_waiting (s : State) : (leaveUnspecified s).waiting = s.waiting := rfl
@[simp] theorem leaveUnspecified_port (s : State) : (leaveUnspecified s).port = s.port := rfl
@[simp] theorem leaveUnspecified_free (s : State) : (leaveUnspecified s).free = s.free + 1 := rfl

/-! ## `newSession` -/

@[simp] theorem newSession_freq (ie : Bool) (s : State) : (newSession ie s).freq = State.reset.freq := rfl
@[simp] theorem newSession_inlen (ie : Bool) (s : State) : (newSession ie s).inlen = State.reset.inlen := rfl
@[simp] theorem newSession_tree (ie : Bool) (s : State) : (newSession ie s).tree = State.reset.tree := rfl
@[simp] theorem newSession_pq (ie : Bool) (s : State) : (newSession ie s).pq = State.reset.pq := rfl
@[simp] theorem newSession_code (ie : Bool) (s : State) : (newSession ie s).code = State.reset.code := rfl
@[simp] theorem newSession_phase (ie : Bool) (s : State) : (newSession ie s).phase = State.reset.phase := rfl
@[simp] theorem newSession_busy (ie : Bool) (s : State) : (newSession ie s).busy = State.reset.busy := rfl
@[simp] theorem newSession_done (ie : Bool) (s : State) : (newSession ie s).done = State.reset.done := rfl
@[simp] theorem newSession_cmddrop (ie : Bool) (s : State) : (newSession ie s).cmddrop = State.reset.cmddrop := rfl
@[simp] theorem newSession_err (ie : Bool) (s : State) : (newSession ie s).err = State.reset.err := rfl
@[simp] theorem newSession_errinfo (ie : Bool) (s : State) : (newSession ie s).errinfo = State.reset.errinfo := rfl
@[simp] theorem newSession_ie (ie : Bool) (s : State) : (newSession ie s).ie = ie := rfl
@[simp] theorem newSession_inp (ie : Bool) (s : State) :
    (newSession ie s).inp = InStream.fresh (nextStreams s).bytes (nextStreams s).source := rfl
@[simp] theorem newSession_outp (ie : Bool) (s : State) :
    (newSession ie s).outp = OutStream.fresh (nextStreams s).sink := rfl
@[simp] theorem newSession_trav (ie : Bool) (s : State) : (newSession ie s).trav = State.reset.trav := rfl
@[simp] theorem newSession_waiting (ie : Bool) (s : State) : (newSession ie s).waiting = none := rfl
@[simp] theorem newSession_port (ie : Bool) (s : State) :
    (newSession ie s).port = { s.port with pending := none } := rfl
@[simp] theorem newSession_free (ie : Bool) (s : State) : (newSession ie s).free = s.free := rfl

/-! ## `answer` -/

@[simp] theorem answer_freq (a : HostAnswer) (s : State) : (answer a s).freq = s.freq := rfl
@[simp] theorem answer_inlen (a : HostAnswer) (s : State) : (answer a s).inlen = s.inlen := rfl
@[simp] theorem answer_tree (a : HostAnswer) (s : State) : (answer a s).tree = s.tree := rfl
@[simp] theorem answer_pq (a : HostAnswer) (s : State) : (answer a s).pq = s.pq := rfl
@[simp] theorem answer_code (a : HostAnswer) (s : State) : (answer a s).code = s.code := rfl
@[simp] theorem answer_phase (a : HostAnswer) (s : State) : (answer a s).phase = s.phase := rfl
@[simp] theorem answer_busy (a : HostAnswer) (s : State) : (answer a s).busy = s.busy := rfl
@[simp] theorem answer_done (a : HostAnswer) (s : State) : (answer a s).done = s.done := rfl
@[simp] theorem answer_cmddrop (a : HostAnswer) (s : State) : (answer a s).cmddrop = s.cmddrop := rfl
@[simp] theorem answer_err (a : HostAnswer) (s : State) : (answer a s).err = s.err := rfl
@[simp] theorem answer_errinfo (a : HostAnswer) (s : State) : (answer a s).errinfo = s.errinfo := rfl
@[simp] theorem answer_ie (a : HostAnswer) (s : State) : (answer a s).ie = s.ie := rfl
@[simp] theorem answer_inp (a : HostAnswer) (s : State) : (answer a s).inp = s.inp := rfl
@[simp] theorem answer_outp (a : HostAnswer) (s : State) : (answer a s).outp = s.outp := rfl
@[simp] theorem answer_trav (a : HostAnswer) (s : State) : (answer a s).trav = s.trav := rfl
@[simp] theorem answer_waiting (a : HostAnswer) (s : State) : (answer a s).waiting = s.waiting := rfl
@[simp] theorem answer_port (a : HostAnswer) (s : State) : (answer a s).port = { s.port with answer := a } := rfl
@[simp] theorem answer_free (a : HostAnswer) (s : State) : (answer a s).free = s.free := rfl

/-! ## `signalRewind` -/

@[simp] theorem signalRewind_freq (s : State) : (signalRewind s).freq = s.freq := rfl
@[simp] theorem signalRewind_inlen (s : State) : (signalRewind s).inlen = s.inlen := rfl
@[simp] theorem signalRewind_tree (s : State) : (signalRewind s).tree = s.tree := rfl
@[simp] theorem signalRewind_pq (s : State) : (signalRewind s).pq = s.pq := rfl
@[simp] theorem signalRewind_code (s : State) : (signalRewind s).code = s.code := rfl
@[simp] theorem signalRewind_phase (s : State) : (signalRewind s).phase = s.phase := rfl
@[simp] theorem signalRewind_busy (s : State) : (signalRewind s).busy = s.busy := rfl
@[simp] theorem signalRewind_done (s : State) : (signalRewind s).done = s.done := rfl
@[simp] theorem signalRewind_cmddrop (s : State) : (signalRewind s).cmddrop = s.cmddrop := rfl
@[simp] theorem signalRewind_err (s : State) : (signalRewind s).err = s.err := rfl
@[simp] theorem signalRewind_errinfo (s : State) : (signalRewind s).errinfo = s.errinfo := rfl
@[simp] theorem signalRewind_ie (s : State) : (signalRewind s).ie = s.ie := rfl
@[simp] theorem signalRewind_inp (s : State) : (signalRewind s).inp = s.inp := rfl
@[simp] theorem signalRewind_outp (s : State) : (signalRewind s).outp = s.outp := rfl
@[simp] theorem signalRewind_trav (s : State) : (signalRewind s).trav = s.trav := rfl
@[simp] theorem signalRewind_waiting (s : State) : (signalRewind s).waiting = s.waiting := rfl
@[simp] theorem signalRewind_port (s : State) :
    (signalRewind s).port = { s.port with signals := s.port.signals ++ [.inRewind] } := rfl
@[simp] theorem signalRewind_free (s : State) : (signalRewind s).free = s.free := rfl

/-! ## `keepOut` -/

@[simp] theorem keepOut_freq (n : Nat) (s : State) : (keepOut n s).freq = s.freq := rfl
@[simp] theorem keepOut_inlen (n : Nat) (s : State) : (keepOut n s).inlen = s.inlen := rfl
@[simp] theorem keepOut_tree (n : Nat) (s : State) : (keepOut n s).tree = s.tree := rfl
@[simp] theorem keepOut_pq (n : Nat) (s : State) : (keepOut n s).pq = s.pq := rfl
@[simp] theorem keepOut_code (n : Nat) (s : State) : (keepOut n s).code = s.code := rfl
@[simp] theorem keepOut_phase (n : Nat) (s : State) : (keepOut n s).phase = s.phase := rfl
@[simp] theorem keepOut_busy (n : Nat) (s : State) : (keepOut n s).busy = s.busy := rfl
@[simp] theorem keepOut_done (n : Nat) (s : State) : (keepOut n s).done = s.done := rfl
@[simp] theorem keepOut_cmddrop (n : Nat) (s : State) : (keepOut n s).cmddrop = s.cmddrop := rfl
@[simp] theorem keepOut_err (n : Nat) (s : State) : (keepOut n s).err = s.err := rfl
@[simp] theorem keepOut_errinfo (n : Nat) (s : State) : (keepOut n s).errinfo = s.errinfo := rfl
@[simp] theorem keepOut_ie (n : Nat) (s : State) : (keepOut n s).ie = s.ie := rfl
@[simp] theorem keepOut_inp (n : Nat) (s : State) : (keepOut n s).inp = s.inp := rfl
@[simp] theorem keepOut_outp (n : Nat) (s : State) :
    (keepOut n s).outp = { s.outp with out := s.outp.out.take n } := rfl
@[simp] theorem keepOut_trav (n : Nat) (s : State) : (keepOut n s).trav = s.trav := rfl
@[simp] theorem keepOut_waiting (n : Nat) (s : State) : (keepOut n s).waiting = s.waiting := rfl
@[simp] theorem keepOut_port (n : Nat) (s : State) : (keepOut n s).port = s.port := rfl
@[simp] theorem keepOut_free (n : Nat) (s : State) : (keepOut n s).free = s.free := rfl

/-! ## `hold` -/

@[simp] theorem hold_freq (i : Instr) (s u : State) : (hold i s u).freq = s.freq := rfl
@[simp] theorem hold_inlen (i : Instr) (s u : State) : (hold i s u).inlen = s.inlen := rfl
@[simp] theorem hold_tree (i : Instr) (s u : State) : (hold i s u).tree = s.tree := rfl
@[simp] theorem hold_pq (i : Instr) (s u : State) : (hold i s u).pq = s.pq := rfl
@[simp] theorem hold_code (i : Instr) (s u : State) : (hold i s u).code = s.code := rfl
@[simp] theorem hold_phase (i : Instr) (s u : State) : (hold i s u).phase = s.phase := rfl
@[simp] theorem hold_busy (i : Instr) (s u : State) : (hold i s u).busy = s.busy := rfl
@[simp] theorem hold_done (i : Instr) (s u : State) : (hold i s u).done = s.done := rfl
@[simp] theorem hold_cmddrop (i : Instr) (s u : State) : (hold i s u).cmddrop = s.cmddrop := rfl
@[simp] theorem hold_err (i : Instr) (s u : State) : (hold i s u).err = s.err := rfl
@[simp] theorem hold_errinfo (i : Instr) (s u : State) : (hold i s u).errinfo = s.errinfo := rfl
@[simp] theorem hold_ie (i : Instr) (s u : State) : (hold i s u).ie = s.ie := rfl
@[simp] theorem hold_inp (i : Instr) (s u : State) : (hold i s u).inp = s.inp := rfl
@[simp] theorem hold_outp (i : Instr) (s u : State) : (hold i s u).outp = { s.outp with out := u.outp.out } := rfl
@[simp] theorem hold_trav (i : Instr) (s u : State) : (hold i s u).trav = s.trav := rfl
@[simp] theorem hold_waiting (i : Instr) (s u : State) :
    (hold i s u).waiting = some ⟨i, s.outp.out, s.port.signals⟩ := rfl
@[simp] theorem hold_port (i : Instr) (s u : State) :
    (hold i s u).port = { s.port with signals := u.port.signals } := rfl
@[simp] theorem hold_free (i : Instr) (s u : State) : (hold i s u).free = s.free := rfl

/-! ## `moveStalls` -/

@[simp] theorem moveStalls_freq (source : Option SourceStall) (sink : Option Nat) (s : State) :
    (moveStalls source sink s).freq = s.freq := rfl
@[simp] theorem moveStalls_inlen (source : Option SourceStall) (sink : Option Nat) (s : State) :
    (moveStalls source sink s).inlen = s.inlen := rfl
@[simp] theorem moveStalls_tree (source : Option SourceStall) (sink : Option Nat) (s : State) :
    (moveStalls source sink s).tree = s.tree := rfl
@[simp] theorem moveStalls_pq (source : Option SourceStall) (sink : Option Nat) (s : State) :
    (moveStalls source sink s).pq = s.pq := rfl
@[simp] theorem moveStalls_code (source : Option SourceStall) (sink : Option Nat) (s : State) :
    (moveStalls source sink s).code = s.code := rfl
@[simp] theorem moveStalls_phase (source : Option SourceStall) (sink : Option Nat) (s : State) :
    (moveStalls source sink s).phase = s.phase := rfl
@[simp] theorem moveStalls_busy (source : Option SourceStall) (sink : Option Nat) (s : State) :
    (moveStalls source sink s).busy = s.busy := rfl
@[simp] theorem moveStalls_done (source : Option SourceStall) (sink : Option Nat) (s : State) :
    (moveStalls source sink s).done = s.done := rfl
@[simp] theorem moveStalls_cmddrop (source : Option SourceStall) (sink : Option Nat) (s : State) :
    (moveStalls source sink s).cmddrop = s.cmddrop := rfl
@[simp] theorem moveStalls_err (source : Option SourceStall) (sink : Option Nat) (s : State) :
    (moveStalls source sink s).err = s.err := rfl
@[simp] theorem moveStalls_errinfo (source : Option SourceStall) (sink : Option Nat) (s : State) :
    (moveStalls source sink s).errinfo = s.errinfo := rfl
@[simp] theorem moveStalls_ie (source : Option SourceStall) (sink : Option Nat) (s : State) :
    (moveStalls source sink s).ie = s.ie := rfl
@[simp] theorem moveStalls_inp (source : Option SourceStall) (sink : Option Nat) (s : State) :
    (moveStalls source sink s).inp = { s.inp with stall := laterSource s.inp.stall source } := rfl
@[simp] theorem moveStalls_outp (source : Option SourceStall) (sink : Option Nat) (s : State) :
    (moveStalls source sink s).outp = { s.outp with stall := laterSink s.outp.stall sink } := rfl
@[simp] theorem moveStalls_trav (source : Option SourceStall) (sink : Option Nat) (s : State) :
    (moveStalls source sink s).trav = s.trav := rfl
@[simp] theorem moveStalls_waiting (source : Option SourceStall) (sink : Option Nat) (s : State) :
    (moveStalls source sink s).waiting = s.waiting := rfl
@[simp] theorem moveStalls_port (source : Option SourceStall) (sink : Option Nat) (s : State) :
    (moveStalls source sink s).port = s.port := rfl
@[simp] theorem moveStalls_free (source : Option SourceStall) (sink : Option Nat) (s : State) :
    (moveStalls source sink s).free = s.free := rfl

/-! ## `beforeCommand` -/

theorem beforeCommand_of_none {s : State} (h : s.waiting = none) : beforeCommand s = s := by
  rw [beforeCommand, h]

/-- A command that waits is taken up again where it was accepted. -/
theorem beforeCommand_hold (i : Instr) (s u : State) : beforeCommand (hold i s u) = { s with waiting := none } := rfl

@[simp] theorem beforeCommand_freq (s : State) : (beforeCommand s).freq = s.freq := by
  unfold beforeCommand; split <;> rfl
@[simp] theorem beforeCommand_inlen (s : State) : (beforeCommand s).inlen = s.inlen := by
  unfold beforeCommand; split <;> rfl
@[simp] theorem beforeCommand_tree (s : State) : (beforeCommand s).tree = s.tree := by
  unfold beforeCommand; split <;> rfl
@[simp] theorem beforeCommand_pq (s : State) : (beforeCommand s).pq = s.pq := by
  unfold beforeCommand; split <;> rfl
@[simp] theorem beforeCommand_code (s : State) : (beforeCommand s).code = s.code := by
  unfold beforeCommand; split <;> rfl
@[simp] theorem beforeCommand_phase (s : State) : (beforeCommand s).phase = s.phase := by
  unfold beforeCommand; split <;> rfl
@[simp] theorem beforeCommand_busy (s : State) : (beforeCommand s).busy = s.busy := by
  unfold beforeCommand; split <;> rfl
@[simp] theorem beforeCommand_done (s : State) : (beforeCommand s).done = s.done := by
  unfold beforeCommand; split <;> rfl
@[simp] theorem beforeCommand_cmddrop (s : State) : (beforeCommand s).cmddrop = s.cmddrop := by
  unfold beforeCommand; split <;> rfl
@[simp] theorem beforeCommand_err (s : State) : (beforeCommand s).err = s.err := by
  unfold beforeCommand; split <;> rfl
@[simp] theorem beforeCommand_errinfo (s : State) : (beforeCommand s).errinfo = s.errinfo := by
  unfold beforeCommand; split <;> rfl
@[simp] theorem beforeCommand_ie (s : State) : (beforeCommand s).ie = s.ie := by
  unfold beforeCommand; split <;> rfl
@[simp] theorem beforeCommand_inp (s : State) : (beforeCommand s).inp = s.inp := by
  unfold beforeCommand; split <;> rfl
@[simp] theorem beforeCommand_trav (s : State) : (beforeCommand s).trav = s.trav := by
  unfold beforeCommand; split <;> rfl
@[simp] theorem beforeCommand_free (s : State) : (beforeCommand s).free = s.free := by
  unfold beforeCommand; split <;> rfl
@[simp] theorem beforeCommand_waiting (s : State) : (beforeCommand s).waiting = none := by
  unfold beforeCommand; split <;> simp [*]

/-! ## What STATUS reads of EOD and REWOUND -/

theorem leavesFlagsOpen_iff (e : ErrCode) : e.leavesFlagsOpen = true ↔ e = .lengthOverflow ∨ e = .noCode := by
  cases e <;> decide

theorem statusEod_closed {s : State} (h : s.err.leavesFlagsOpen = false) : statusEod s = s.inp.eod := by
  simp [statusEod, h]

theorem statusRewound_closed {s : State} (h : s.err.leavesFlagsOpen = false) : statusRewound s = s.inp.rewound := by
  simp [statusRewound, h]

theorem statusEod_open {s : State} (h : s.err.leavesFlagsOpen = true) :
    statusEod s = (Config.openFlags s.free).eod := by
  simp [statusEod, h]

theorem statusRewound_open {s : State} (h : s.err.leavesFlagsOpen = true) :
    statusRewound s = (Config.openFlags s.free).rewound := by
  simp [statusRewound, h]

/-! ## The input and output sides of `leaveUnspecified` -/

@[simp] theorem leaveUnspecified_inp_bytes (s : State) :
    (leaveUnspecified s).inp.bytes = s.inp.bytes := rfl
@[simp] theorem leaveUnspecified_inp_stall (s : State) :
    (leaveUnspecified s).inp.stall = s.inp.stall := rfl
@[simp] theorem leaveUnspecified_inp_eod (s : State) : (leaveUnspecified s).inp.eod = s.inp.eod := rfl
@[simp] theorem leaveUnspecified_inp_rewound (s : State) : (leaveUnspecified s).inp.rewound = s.inp.rewound := rfl
@[simp] theorem leaveUnspecified_outp_stall (s : State) :
    (leaveUnspecified s).outp.stall = s.outp.stall := rfl
@[simp] theorem leaveUnspecified_outp_obuf (s : State) :
    (leaveUnspecified s).outp.obuf = [] := rfl

/-! ## `clearSession` -/

/-- CLEAR is a new session with CTRL kept and one signal more (rule R114). -/
theorem clearSession_eq (s : State) :
    clearSession s =
      { newSession s.ie s with
        port := { s.port with pending := none, signals := s.port.signals ++ [.inRestart] } } := rfl

/-! ## What is computed from the state -/

@[simp] theorem errf_eq_false (s : State) : errf s = false ↔ s.err = .noError := by
  unfold errf; cases s.err <;> simp

@[simp] theorem errf_eq_true (s : State) : errf s = true ↔ s.err ≠ .noError := by
  unfold errf; cases s.err <;> simp

@[simp] theorem errf_accept (s : State) : errf (accept s) = errf s := rfl

end Sys2Proof.Machine
end

