-- ==== Sys2Proof/Laws/Dispatch.lean ====
section
/-! SUPPORT. The dispatch of a command (rules R110 to R112), said once: what `issue` can answer, and what it answers
when the command is legal and its collaborators answer. -/

namespace Sys2Proof.Machine

/-- The legal phases of the model are those of rule R111's table. -/
theorem legalIn_iff (i : Instr) (p : Phase) : legalIn i p = true ↔ p ∈ legalPhases i := by
  cases i <;> cases p <;> simp [legalIn, legalPhases]

/-- The five ends of rule R110's checks. -/
theorem issue_cases (i : Instr) (body : State → Run) (s : State) :
    s.busy = true ∧ issue i body s = .next (dropCommand s) ∨
    s.busy = false ∧ s.err ≠ .noError ∧ issue i body s = .next s ∨
    s.busy = false ∧ s.err = .noError ∧ s.phase ∉ legalPhases i ∧
      issue i body s = .next (raise .sequenceError (commandWord i) s) ∨
    s.busy = false ∧ s.err = .noError ∧ s.phase ∈ legalPhases i ∧ i.headerMode = some .countHeader ∧
      issue i body s = .next (raise .unimplemented (commandWord i) s) ∨
    s.busy = false ∧ s.err = .noError ∧ s.phase ∈ legalPhases i ∧ i.headerMode ≠ some .countHeader ∧
      issue i body s = settle i (accept s) (body (accept s)) := by
  unfold issue
  cases hb : s.busy
  · by_cases he : s.err = .noError
    · have he' : errf s = false := (errf_eq_false s).mpr he
      by_cases hl : legalIn i s.phase = true
      · have hm := (legalIn_iff i s.phase).mp hl
        by_cases hc : i.headerMode = some .countHeader
        · simp [he, he', hl, hm, asksCountHeader, hc]
        · simp [he, he', hl, hm, asksCountHeader, hc]
      · have hm := mt (legalIn_iff i s.phase).mpr hl
        simp [he, he', hl, hm]
    · have he' : errf s = true := (errf_eq_true s).mpr he
      simp [he, he']
  · simp

/-- A legal command with the tree header runs its body. -/
theorem issue_legal {i : Instr} {s : State} (body : State → Run) (hb : s.busy = false) (he : s.err = .noError)
    (hl : s.phase ∈ legalPhases i) (hm : i.headerMode ≠ some .countHeader) :
    issue i body s = settle i (accept s) (body (accept s)) := by
  rcases issue_cases i body s with h | h | h | h | h
  · simp [hb] at h
  · exact absurd he h.2.1
  · exact absurd hl h.2.2.1
  · exact absurd h.2.2.2.1 hm
  · exact h.2.2.2.2

/-- A sink that accepts every byte keeps no body waiting (rule R272). -/
theorem drain_answering {s : State} (h : s.outp.stall = none) (r : Run) : r.drain s = r := by rw [Run.drain, h]

/-- A ready command whose body ends well completes (rule R112). -/
theorem issue_completes {i : Instr} {p : Phase} {s s' : State} {body : State → Run} (hr : Ready p s)
    (hl : p ∈ legalPhases i) (hm : i.headerMode ≠ some .countHeader) (hbody : body (accept s) = .ok s') :
    issue i body s = .next (complete i s') := by
  obtain ⟨hb, he, hp, _⟩ := hr
  rw [issue_legal body hb he (hp ▸ hl) hm, hbody]
  rfl

/-- A ready command whose body raises ends in the error (rule R241). -/
theorem issue_raises {i : Instr} {p : Phase} {s s' : State} {body : State → Run} {e : ErrCode} {info : Word}
    (hr : Ready p s) (hl : p ∈ legalPhases i) (hm : i.headerMode ≠ some .countHeader)
    (hbody : body (accept s) = .err e info s') :
    issue i body s = .next (raiseExec e info s') := by
  obtain ⟨hb, he, hp, _⟩ := hr
  rw [issue_legal body hb he (hp ▸ hl) hm, hbody]
  rfl

/-- What an accepted command can end in. -/
theorem settle_cases (i : Instr) (s : State) (r : Run) :
    (∃ s', r = .wait s' ∧ settle i s r = .next (hold i s s')) ∨
    (∃ s', r = .ok s' ∧ settle i s r = .next (complete i s')) ∨
    (∃ e info s', r = .err e info s' ∧ settle i s r = .next (raiseExec e info s')) ∨
    (∃ f, r = .fault f ∧ settle i s r = .fault f) := by
  cases r with
  | ok s' => exact .inr (.inl ⟨s', rfl, rfl⟩)
  | err e info s' => exact .inr (.inr (.inl ⟨e, info, s', rfl, rfl⟩))
  | wait s' => exact .inl ⟨s', rfl, rfl⟩
  | fault f => exact .inr (.inr (.inr ⟨f, rfl, rfl⟩))

/-- A word that is no command: dropped, ignored, or IllegalCommand (rules R110, R234). -/
theorem issueIllegal_cases (w : Word) (s : State) :
    s.busy = true ∧ issueIllegal w s = dropCommand s ∨
    s.busy = false ∧ s.err ≠ .noError ∧ issueIllegal w s = s ∨
    s.busy = false ∧ s.err = .noError ∧ issueIllegal w s = raise .illegalCommand w s := by
  unfold issueIllegal
  cases hb : s.busy
  · by_cases he : s.err = .noError
    · simp [(errf_eq_false s).mpr he, he]
    · simp [(errf_eq_true s).mpr he, he]
  · simp

/-- What `andThen` gives: the second body on the first one's state, or the first one's error or stop. -/
theorem andThen_ok {r : Run} {f : State → Run} {t : State} (h : r.andThen f = .ok t) :
    ∃ s, r = .ok s ∧ f s = .ok t := by
  cases r with
  | ok s => exact ⟨s, rfl, h⟩
  | err e info s => simp [Run.andThen] at h
  | wait s => simp [Run.andThen] at h
  | fault f => simp [Run.andThen] at h

@[simp] theorem andThen_of_ok (s : State) (f : State → Run) : (Run.ok s).andThen f = f s := rfl
@[simp] theorem andThen_of_err (e : ErrCode) (info : Word) (s : State) (f : State → Run) :
    (Run.err e info s).andThen f = .err e info s := rfl
@[simp] theorem andThen_of_wait (s : State) (f : State → Run) : (Run.wait s).andThen f = .wait s := rfl
@[simp] theorem andThen_of_fault (x : Fault) (f : State → Run) : (Run.fault x).andThen f = .fault x := rfl

end Sys2Proof.Machine
end

