-- ==== Sys2Proof/Laws/Trees.lean ====
section
/-! SUPPORT. Trees in the node memory (rules R23 to R25): reading an entry after a write, the counts of a full binary
tree, and what the two walks of a tree give (rules R155, R165, R271). -/

namespace Sys2Proof.Machine

/-! ## Entries -/

theorem getD_setIfInBounds {α : Type} {n : Nat} (xs : Vector α n) (i j : Nat) (x d : α) (hi : i < n) :
    (xs.setIfInBounds i x).getD j d = if j = i then x else xs.getD j d := by
  by_cases h : j = i
  · subst h; simp [Vector.getD, hi]
  · by_cases hj : j < n
    · simp [Vector.getD, hj, h, Ne.symm h]
    · simp [Vector.getD, hj, h]

@[simp] theorem getD_replicate {α : Type} {n : Nat} (x : α) (i : Nat) : (Vector.replicate n x).getD i x = x := by
  by_cases h : i < n <;> simp [Vector.getD, h]

theorem at_set (t : Tree) (i j : NodeIx) (n : Node) (hi : i.toNat < 513) :
    (t.set i n).at j = if j = i then n else t.at j := by
  unfold Tree.at Tree.set
  rw [getD_setIfInBounds _ _ _ _ _ hi]
  by_cases h : j = i
  · simp [h]
  · rw [if_neg h, if_neg (fun e => h (BitVec.eq_of_toNat_eq e))]

@[simp] theorem at_set_same {t : Tree} {i : NodeIx} {n : Node} (hi : i.toNat < 513) : (t.set i n).at i = n := by
  rw [at_set t i i n hi, if_pos rfl]

theorem at_set_ne {t : Tree} {i j : NodeIx} {n : Node} (hi : i.toNat < 513) (h : j ≠ i) :
    (t.set i n).at j = t.at j := by
  rw [at_set t i j n hi, if_neg h]

/-- Counters and the root do not matter to what an entry holds. -/
theorem at_congr {t u : Tree} (h : t.node = u.node) (i : NodeIx) : t.at i = u.at i := by
  unfold Tree.at; rw [h]

@[simp] theorem set_nnodes (t : Tree) (i : NodeIx) (n : Node) : (t.set i n).nnodes = t.nnodes := rfl
@[simp] theorem set_nleaf (t : Tree) (i : NodeIx) (n : Node) : (t.set i n).nleaf = t.nleaf := rfl
@[simp] theorem set_root (t : Tree) (i : NodeIx) (n : Node) : (t.set i n).root = t.root := rfl

@[simp] theorem at_empty (i : NodeIx) : Tree.empty.at i = Node.invalid := by
  simp [Tree.at, Tree.empty]

/-! ## Shapes -/

/-- Longest path from the root to a leaf. -/
def Shape.height : Shape → Nat
  | .leaf _ => 0
  | .node l r => 1 + max l.height r.height

theorem Shape.leafCount_pos (sh : Shape) : 0 < sh.leafCount := by
  induction sh with
  | leaf v => simp [Shape.leafCount]
  | node l r hl hr => simp only [Shape.leafCount]; omega

/-- A full binary tree with n leaves has n - 1 internal nodes (rule R97). -/
theorem Shape.size_eq (sh : Shape) : sh.size + 1 = 2 * sh.leafCount := by
  induction sh with
  | leaf v => rfl
  | node l r hl hr => simp only [Shape.size, Shape.leafCount]; omega

/-- The depth of a leaf in a full binary tree with n leaves is at most n - 1 (rules R159, R271). -/
theorem Shape.height_lt_leafCount (sh : Shape) : sh.height < sh.leafCount := by
  induction sh with
  | leaf v => simp [Shape.height, Shape.leafCount]
  | node l r hl hr =>
    have := l.leafCount_pos
    have := r.leafCount_pos
    simp only [Shape.height, Shape.leafCount]
    omega

@[simp] theorem Shape.length_values (sh : Shape) : sh.values.length = sh.leafCount := by
  induction sh with
  | leaf v => rfl
  | node l r hl hr => simp [Shape.values, Shape.leafCount, hl, hr]

/-- A tree with n leaves serializes to 11 n - 1 bits (rule R97). -/
theorem Shape.length_bits (sh : Shape) : sh.bits.length + 1 = 11 * sh.leafCount := by
  induction sh with
  | leaf v => simp [Shape.bits, Shape.leafCount]
  | node l r hl hr =>
    simp only [Shape.bits, Shape.leafCount, List.cons_append, List.length_cons, List.length_append]
    omega

@[simp] theorem Shape.map_fst_paths (sh : Shape) : sh.paths.map Prod.fst = sh.values := by
  induction sh with
  | leaf v => rfl
  | node l r hl hr =>
    simp only [Shape.paths, Shape.values, List.map_append, List.map_map, ← hl, ← hr]
    rfl

theorem Shape.length_path_le {sh : Shape} {x : Sym × List Bool} (h : x ∈ sh.paths) : x.2.length ≤ sh.height := by
  induction sh generalizing x with
  | leaf v =>
    simp only [Shape.paths, List.mem_singleton] at h
    simp [h]
  | node l r hl hr =>
    simp only [Shape.paths, List.mem_append, List.mem_map] at h
    rcases h with ⟨y, hy, rfl⟩ | ⟨y, hy, rfl⟩
    · have := hl hy; simp only [List.length_cons, Shape.height]; omega
    · have := hr hy; simp only [List.length_cons, Shape.height]; omega

/-! ## What a memory spells -/

theorem spells_leaf {t : Tree} {i : NodeIx} {v : Sym} :
    spells t i (.leaf v) = true ↔ t.at i = Node.mkLeaf v (t.at i).weight := by
  simp [spells]

theorem spells_node {t : Tree} {i : NodeIx} {l r : Shape} :
    spells t i (.node l r) = true ↔
      t.at i = Node.mkInternal (t.at i).left (t.at i).right (t.at i).weight ∧
        spells t (t.at i).left l = true ∧ spells t (t.at i).right r = true := by
  simp [spells, and_assoc]

/-- The root of a spelled shape is a leaf exactly when the shape is. -/
theorem leaf_of_spells {t : Tree} {i : NodeIx} {v : Sym} (h : spells t i (.leaf v) = true) :
    (t.at i).leaf = true ∧ (t.at i).sym = v ∧ (t.at i).valid = true := by
  rw [spells_leaf] at h
  rw [h]
  exact ⟨rfl, rfl, rfl⟩

theorem internal_of_spells {t : Tree} {i : NodeIx} {l r : Shape} (h : spells t i (.node l r) = true) :
    (t.at i).leaf = false ∧ (t.at i).valid = true ∧ spells t (t.at i).left l = true ∧
      spells t (t.at i).right r = true := by
  rw [spells_node] at h
  have h1 := h.1
  refine ⟨?_, ?_, h.2⟩
  · rw [h1]; rfl
  · rw [h1]; rfl

/-- What a memory spells depends on the entries of the tree alone. -/
theorem spells_congr {t u : Tree} {sh : Shape} {i : NodeIx} (h : ∀ j ∈ indices t i sh, u.at j = t.at j) :
    spells u i sh = spells t i sh ∧ indices u i sh = indices t i sh := by
  induction sh generalizing i with
  | leaf v =>
    have hi := h i (by simp [indices])
    simp [spells, indices, hi]
  | node l r hl hr =>
    have hi := h i (by simp [indices])
    have el := hl (i := (t.at i).left) fun j hj => h j (by simp [indices, hj])
    have er := hr (i := (t.at i).right) fun j hj => h j (by simp [indices, hj])
    simp only [spells, indices, hi, el.1, el.2, er.1, er.2, and_self]

@[simp] theorem length_indices (t : Tree) (i : NodeIx) (sh : Shape) : (indices t i sh).length = sh.size := by
  induction sh generalizing i with
  | leaf v => rfl
  | node l r hl hr => simp only [indices, Shape.size, List.length_cons, List.length_append, hl, hr, List.cons_append]; omega

/-- Every entry of a spelled tree is valid. -/
theorem valid_of_spells {t : Tree} {sh : Shape} {i : NodeIx} (h : spells t i sh = true) :
    ∀ j ∈ indices t i sh, (t.at j).valid = true := by
  induction sh generalizing i with
  | leaf v =>
    intro j hj
    simp only [indices, List.mem_singleton] at hj
    rw [hj]
    exact (leaf_of_spells h).2.2
  | node l r hl hr =>
    have hn := internal_of_spells h
    intro j hj
    simp only [indices, List.cons_append, List.mem_cons, List.mem_append] at hj
    rcases hj with rfl | hj | hj
    · exact hn.2.1
    · exact hl hn.2.2.1 j hj
    · exact hr hn.2.2.2 j hj

/-- A tree of the memory nests at most 257 deep (rule R271). -/
theorem height_of_treeOk {t : Tree} {sh : Shape} (h : TreeOk t sh) (hn : t.nnodes.toNat ≤ 513) :
    sh.height < Config.walkFrames := by
  have h1 := sh.size_eq
  have h2 := sh.height_lt_leafCount
  have h3 := h.nodes
  show sh.height < 257
  omega

/-- NNODES of a tree never exceeds NODE_CAP: its nodes are different entries of the memory. -/
theorem nnodes_le_of_treeOk {t : Tree} {sh : Shape} (h : TreeOk t sh) : t.nnodes.toNat ≤ 513 := by
  by_contra hc
  have := h.used 513 (by omega)
  simp [Tree.at, Vector.getD, Node.invalid] at this

/-! ## The walks -/

/-- The path register after descending a whole path. -/
def Walk.along (w : Walk) (p : List Bool) : Walk := p.foldl (fun w b => w.descend b w.code) w

@[simp] theorem along_nil (w : Walk) : w.along [] = w := rfl

theorem along_cons (w : Walk) (b : Bool) (p : List Bool) : w.along (b :: p) = (w.descend b w.code).along p := rfl

@[simp] theorem along_code (w : Walk) (p : List Bool) : (w.along p).code = w.code := by
  induction p generalizing w with
  | nil => rfl
  | cons b p ih => rw [along_cons, ih]; rfl

@[simp] theorem descend_code (w : Walk) (b : Bool) (c : Vector Code 257) : (w.descend b c).code = c := rfl

/-- The image of the path register. -/
def Walk.image (w : Walk) : Code := ⟨true, w.len, w.path⟩

/-- One bit appended to the path register (rule R156). -/
theorem descend_ofNat (x n : Nat) (b : Bool) (c c' : Vector Code 257) :
    Walk.descend ⟨BitVec.ofNat 256 x, BitVec.ofNat 9 n, c⟩ b c' =
      ⟨BitVec.ofNat 256 (2 * x + b.toNat), BitVec.ofNat 9 (n + 1), c'⟩ := by
  have hp : (BitVec.ofNat 256 x <<< 1) ||| (if b then 1 else 0) = BitVec.ofNat 256 (2 * x + b.toNat) := by
    apply BitVec.eq_of_getLsbD_eq
    intro i hi
    rw [BitVec.getLsbD_or, BitVec.getLsbD_shiftLeft, BitVec.getLsbD_ofNat, BitVec.getLsbD_ofNat]
    cases i with
    | zero => cases b <;> simp [Nat.testBit_zero, Nat.add_mod]
    | succ i =>
      have e : (2 * x + b.toNat).testBit (i + 1) = x.testBit i := by
        rw [Nat.testBit_succ]; congr 1; have := b.toNat_lt; omega
      rw [e]
      cases b
      · simp [hi, show i < 256 by omega]
      · simp [hi, show i < 256 by omega]
  have hl : BitVec.ofNat 9 n + 1 = BitVec.ofNat 9 (n + 1) := by
    apply BitVec.eq_of_toNat_eq; simp [BitVec.toNat_add, BitVec.toNat_ofNat]
  simp only [Walk.descend, hp, hl]

theorem along_ofNat (p : List Bool) (x n : Nat) (c : Vector Code 257) :
    Walk.along ⟨BitVec.ofNat 256 x, BitVec.ofNat 9 n, c⟩ p =
      ⟨BitVec.ofNat 256 (x * 2 ^ p.length + ofBits p), BitVec.ofNat 9 (n + p.length), c⟩ := by
  induction p generalizing x n with
  | nil => simp
  | cons b p ih =>
    rw [along_cons, descend_ofNat, ih, ofBits_cons, List.length_cons]
    congr 2
    · ring
    · ring

/-- From the empty path register, the image after a path is the code of the path (rule R155). -/
theorem image_along_empty (p : List Bool) (c : Vector Code 257) :
    (Walk.along ⟨0, 0, c⟩ p).image = codeOfPath p := by
  have := along_ofNat p 0 0 c
  simp only [Nat.zero_mul, Nat.zero_add] at this
  exact congrArg Walk.image this

/-- The code table after recording a list of symbols with their paths. -/
def recordPaths (w : Walk) (xs : List (Sym × List Bool)) (c : Vector Code 257) : Vector Code 257 :=
  xs.foldl (fun c x => c.setIfInBounds x.1.toNat (w.along x.2).image) c

theorem image_descend_code (w : Walk) (b : Bool) (c c' : Vector Code 257) (p : List Bool) :
    ((w.descend b c).along p).image = ((w.descend b c').along p).image := by
  induction p generalizing w b c c' with
  | nil => rfl
  | cons a p ih => rw [along_cons, along_cons]; exact ih (w.descend b c) a _ (w.descend b c').code |>.trans rfl

theorem recordPaths_append (w : Walk) (xs ys : List (Sym × List Bool)) (c : Vector Code 257) :
    recordPaths w (xs ++ ys) c = recordPaths w ys (recordPaths w xs c) := by
  simp [recordPaths, List.foldl_append]

theorem recordPaths_map (w : Walk) (b : Bool) (c₀ c : Vector Code 257) (xs : List (Sym × List Bool)) :
    recordPaths w (xs.map fun x => (x.1, b :: x.2)) c = recordPaths (w.descend b c₀) xs c := by
  unfold recordPaths
  rw [List.foldl_map]
  congr 1
  funext c x
  rw [along_cons, image_descend_code w b w.code c₀]

/-- GENCODE's walk of a spelled tree records the path of every leaf, and restores the path register (rule R155). -/
theorem walkTree_of_spells {t : Tree} {sh : Shape} {i : NodeIx} {frames : Nat} (w : Walk)
    (h : spells t i sh = true) (hf : sh.height < frames) :
    walkTree t frames i w = some { w with code := recordPaths w sh.paths w.code } := by
  induction sh generalizing i frames w with
  | leaf v =>
    obtain ⟨k, rfl⟩ := Nat.exists_eq_succ_of_ne_zero (by omega : frames ≠ 0)
    have hl := leaf_of_spells h
    simp [walkTree, hl.1, hl.2.1, Shape.paths, recordPaths, Walk.record, Walk.image]
  | node l r hl hr =>
    obtain ⟨k, rfl⟩ := Nat.exists_eq_succ_of_ne_zero (by omega : frames ≠ 0)
    simp only [Shape.height] at hf
    have hn := internal_of_spells h
    have e1 := hl (i := (t.at i).left) (frames := k) (w.descend false w.code) hn.2.2.1 (by omega)
    have e2 := fun c => hr (i := (t.at i).right) (frames := k) (w.descend true c) hn.2.2.2 (by omega)
    rw [walkTree, if_neg (by simp [hn.1]), e1]
    dsimp only
    rw [e2]
    dsimp only [descend_code]
    rw [Shape.paths, recordPaths_append, recordPaths_map w false w.code,
      recordPaths_map w true (recordPaths (w.descend false w.code) l.paths w.code)]

/-- WRHDR's walk of a spelled tree gives the preorder serialization (rules R165, R166). -/
theorem emitTree_of_spells {t : Tree} {sh : Shape} {i : NodeIx} {frames : Nat} (h : spells t i sh = true)
    (hf : sh.height < frames) : emitTree t frames i = some sh.bits := by
  induction sh generalizing i frames with
  | leaf v =>
    obtain ⟨k, rfl⟩ := Nat.exists_eq_succ_of_ne_zero (by omega : frames ≠ 0)
    have hl := leaf_of_spells h
    simp [emitTree, hl.1, hl.2.1, Shape.bits, tokenBits, encode]
  | node l r hl hr =>
    obtain ⟨k, rfl⟩ := Nat.exists_eq_succ_of_ne_zero (by omega : frames ≠ 0)
    simp only [Shape.height] at hf
    have hn := internal_of_spells h
    have e1 := hl (i := (t.at i).left) (frames := k) hn.2.2.1 (by omega)
    have e2 := hr (i := (t.at i).right) (frames := k) hn.2.2.2 (by omega)
    simp [emitTree, hn.1, e1, e2, Shape.bits, tokenBits, encode]

end Sys2Proof.Machine
end

