-- ==== Sys2Proof/Laws/Codes.lean ====
section
/-! SUPPORT. Codes (rules R27, R28, R155 to R161): the paths of a tree are prefix-free, their images are read back
whole, and GENCODE's table is the table of the tree's paths. -/

namespace Sys2Proof.Machine

/-! ## Paths -/

/-- No path of a tree begins another one (rules R161, R209). -/
theorem Shape.paths_not_begin {sh : Shape} {x y : Sym × List Bool} (hx : x ∈ sh.paths) (hy : y ∈ sh.paths)
    (h : x.2 <+: y.2) : x = y := by
  induction sh generalizing x y with
  | leaf v =>
    simp only [Shape.paths, List.mem_singleton] at hx hy
    rw [hx, hy]
  | node l r hl hr =>
    simp only [Shape.paths, List.mem_append, List.mem_map] at hx hy
    rcases hx with ⟨x, hx, rfl⟩ | ⟨x, hx, rfl⟩ <;> rcases hy with ⟨y, hy, rfl⟩ | ⟨y, hy, rfl⟩
    · rw [hl hx hy (List.cons_prefix_cons.mp h).2]
    · exact absurd (List.cons_prefix_cons.mp h).1 (by simp)
    · exact absurd (List.cons_prefix_cons.mp h).1 (by simp)
    · rw [hr hx hy (List.cons_prefix_cons.mp h).2]

theorem Shape.mem_values_of_path {sh : Shape} {x : Sym × List Bool} (h : x ∈ sh.paths) : x.1 ∈ sh.values := by
  rw [← sh.map_fst_paths]
  exact List.mem_map_of_mem h

theorem Shape.exists_path {sh : Shape} {v : Sym} (h : v ∈ sh.values) : ∃ p, (v, p) ∈ sh.paths := by
  rw [← sh.map_fst_paths, List.mem_map] at h
  obtain ⟨⟨_, p⟩, hx, rfl⟩ := h
  exact ⟨p, hx⟩

/-- The bits of a path's image are the path, as long as it fits (rules R27, R159). -/
theorem codeBitList_codeOfPath {p : List Bool} (h : p.length ≤ 256) : codeBitList (codeOfPath p) = p := by
  have hl : (BitVec.ofNat 9 p.length).toNat = p.length := by
    rw [BitVec.toNat_ofNat, Nat.mod_eq_of_lt (by omega)]
  have hb : (BitVec.ofNat 256 (ofBits p)).toNat = ofBits p := by
    rw [BitVec.toNat_ofNat, Nat.mod_eq_of_lt]
    exact lt_of_lt_of_le (ofBits_lt p) (Nat.pow_le_pow_right (by omega) h)
  simp only [codeBitList, codeOfPath, hl, hb]
  exact bitsOf_length_ofBits p

/-! ## GENCODE's table -/

theorem codeAt_setIfInBounds (c : Vector Code 257) (v w : Sym) (x : Code) (hv : v.toNat ≤ 256) :
    codeAt (c.setIfInBounds v.toNat x) w = if w = v then x else codeAt c w := by
  unfold codeAt
  rw [getD_setIfInBounds _ _ _ _ _ (by omega)]
  by_cases h : w = v
  · simp [h]
  · rw [if_neg h, if_neg (fun e => h (BitVec.eq_of_toNat_eq e))]

@[simp] theorem codeAt_replicate (v : Sym) : codeAt (Vector.replicate 257 Code.invalid) v = Code.invalid := by
  simp [codeAt]

/-- A symbol that is not recorded keeps its entry. -/
theorem codeAt_recordPaths_of_notMem {w : Walk} {xs : List (Sym × List Bool)} {c : Vector Code 257} {v : Sym}
    (hs : ∀ x ∈ xs, x.1.toNat ≤ 256) (h : v ∉ xs.map Prod.fst) : codeAt (recordPaths w xs c) v = codeAt c v := by
  induction xs generalizing c with
  | nil => rfl
  | cons x xs ih =>
    simp only [List.map_cons, List.mem_cons, not_or] at h
    show codeAt (recordPaths w xs _) v = _
    rw [ih (fun y hy => hs y (by simp [hy])) h.2, codeAt_setIfInBounds _ _ _ _ (hs x (by simp)), if_neg h.1]

/-- A symbol recorded once has the image of its path. -/
theorem codeAt_recordPaths_of_mem {w : Walk} {xs : List (Sym × List Bool)} {c : Vector Code 257}
    {x : Sym × List Bool} (hs : ∀ x ∈ xs, x.1.toNat ≤ 256) (hn : (xs.map Prod.fst).Nodup) (hx : x ∈ xs) :
    codeAt (recordPaths w xs c) x.1 = (w.along x.2).image := by
  induction xs generalizing c with
  | nil => simp at hx
  | cons y ys ih =>
    simp only [List.map_cons, List.nodup_cons] at hn
    have hy : ∀ x ∈ ys, x.1.toNat ≤ 256 := fun z hz => hs z (by simp [hz])
    show codeAt (recordPaths w ys _) x.1 = _
    rcases List.mem_cons.mp hx with rfl | hx
    · rw [codeAt_recordPaths_of_notMem hy hn.1, codeAt_setIfInBounds _ _ _ _ (hs x (by simp)), if_pos rfl]
    · exact ih hy hn.2 hx

/-- GENCODE's table of a tree with pairwise different symbols (rules R28, R158). -/
theorem codesOk_recordPaths {sh : Shape} (hd : sh.values.Nodup) (hs : ∀ v ∈ sh.values, v.toNat ≤ 256)
    (c : Vector Code 257) : CodesOk (recordPaths ⟨0, 0, c⟩ sh.paths (Vector.replicate 257 Code.invalid)) sh := by
  have hp : ∀ x ∈ sh.paths, x.1.toNat ≤ 256 := fun x hx => hs _ (Shape.mem_values_of_path hx)
  constructor
  · intro x hx
    rw [codeAt_recordPaths_of_mem hp (by rwa [sh.map_fst_paths]) hx]
    exact image_along_empty x.2 c
  · intro v hv
    rw [codeAt_recordPaths_of_notMem hp (by rwa [sh.map_fst_paths]), codeAt_replicate]

/-- GENCODE's body on a finished tree (rule R155): the codes of the tree, and nothing else changed. -/
theorem gencodeBody_of_tree {s : State} {sh : Shape} (h : spells s.tree s.tree.root.index sh = true)
    (hf : sh.height < Config.walkFrames) :
    gencodeBody s =
      .ok { s with
        code := recordPaths ⟨0, 0, Vector.replicate 257 Code.invalid⟩ sh.paths (Vector.replicate 257 Code.invalid),
        trav := { s.trav with path := 0, pathLen := 0 } } := by
  rw [gencodeBody, walkTree_of_spells _ h hf]

/-- WRHDR's body on a finished tree (rule R165): magic and preorder bits, and nothing else changed. -/
theorem wrhdrBody_of_tree {s : State} {sh : Shape} (h : spells s.tree s.tree.root.index sh = true)
    (hf : sh.height < Config.walkFrames) :
    wrhdrBody s =
      (Run.ok { s with outp := s.outp.writeList (bitsOf 32 Config.magicTree.toNat ++ sh.bits) }).drain s := by
  rw [wrhdrBody, emitTree_of_spells h hf, writeList_append]
  rfl

end Sys2Proof.Machine
end

