-- ==== Sys2Proof/Laws/Counter.lean ====
section
/-! SUPPORT. COUNT (rules R125 to R129): what its loop leaves. -/

namespace Sys2Proof.Machine

@[simp] theorem freqAt_replicate (n : Nat) : freqAt (Vector.replicate 256 0#32) n = 0#32 := by simp [freqAt]

theorem freqAt_bumpFreq (freq : Vector Weight 256) (r b : Byte) :
    freqAt (bumpFreq freq r) b.toNat = if b = r then freqAt freq r.toNat + 1 else freqAt freq b.toNat := by
  unfold bumpFreq
  rw [freqAt, getD_setIfInBounds _ _ _ _ _ r.isLt]
  by_cases h : b = r
  · simp [h]
  · rw [if_neg h, if_neg (fun e => h (BitVec.eq_of_toNat_eq e))]
    rfl

/-- The counts and the length of a byte sequence, as far as they have been read. -/
structure Tallied (t : Tally) (bytes : List Byte) : Prop where
  each  : ∀ b : Byte, (freqAt t.freq b.toNat).toNat = bytes.count b
  total : t.inlen.toNat = bytes.length

/-- One more symbol counted; no increment wraps (rule R128). -/
theorem Tallied.bump {t : Tally} {bytes : List Byte} (h : Tallied t bytes) (r : Byte) (inp : InStream)
    (hl : bytes.length < Config.maxLen) :
    Tallied { freq := bumpFreq t.freq r, inlen := t.inlen + 1, inp := inp } (bytes ++ [r]) := by
  have hm : bytes.length < 2 ^ 32 - 2 := hl
  have h1 : (1 : Word).toNat = 1 := rfl
  constructor
  · intro b
    rw [freqAt_bumpFreq, List.count_append]
    by_cases e : b = r
    · subst e
      have hb := h.each b
      have hc : bytes.count b ≤ bytes.length := List.count_le_length
      rw [if_pos rfl, BitVec.toNat_add, hb]
      rw [h1, List.count_singleton_self]
      omega
    · rw [if_neg e, h.each b]
      have : [r].count b = 0 := List.count_eq_zero.mpr (by simpa using e)
      omega
  · show (t.inlen + 1).toNat = _
    rw [BitVec.toNat_add, h.total, List.length_append]
    rw [h1, List.length_singleton]
    omega

/-- COUNT's loop from a byte boundary: it counts the unread bytes and meets the end of data, or it stops at symbol
number MAXLEN + 1 (rules R125, R128). -/
theorem countLoop_spec {before after : List Byte} {t : Tally} {fuel : Nat} (hb : t.inp.bytes = before ++ after)
    (hp : t.inp.ipos = 8 * before.length) (ht : Tallied t before) (hm : before.length ≤ Config.maxLen)
    (hf : after.length < fuel) (ha : t.inp.stall = none) :
    (before.length + after.length ≤ Config.maxLen →
      ∃ u, countLoop fuel t = (u, .endOfData) ∧ Tallied u (before ++ after) ∧
        u.inp = { t.inp with ipos := 8 * (before ++ after).length, eod := true }) ∧
    (Config.maxLen < before.length + after.length →
      ∃ u, countLoop fuel t = (u, .tooLong) ∧ u.inp.bytes = t.inp.bytes ∧ u.inp.stall = t.inp.stall ∧
        u.inp.eod = t.inp.eod ∧ u.inp.rewound = t.inp.rewound) := by
  induction after generalizing before t fuel with
  | nil =>
    obtain ⟨k, rfl⟩ := Nat.exists_eq_succ_of_ne_zero (by simp at hf; omega : fuel ≠ 0)
    have hr : t.inp.readBits 8 = (none, t.inp.atEnd) := by
      apply readBits_short
      rw [length_unread, hb, hp]
      simp
    refine ⟨fun _ => ⟨{ t with inp := t.inp.atEnd }, by rw [countLoop, ask_answering ha, hr], by simpa using ⟨ht.each, ht.total⟩, ?_⟩,
      fun h => by simp at h; omega⟩
    simp [InStream.atEnd, hp]
  | cons r rs ih =>
    obtain ⟨k, rfl⟩ := Nat.exists_eq_succ_of_ne_zero (by omega : fuel ≠ 0)
    have hu : t.inp.unread = bitsOf 8 r.toNat ++ bitsOfBytes rs := by
      rw [InStream.unread, InStream.bits, hb, bitsOfBytes_append, hp,
        List.drop_left' (by simp), bitsOfBytes_cons]
    have hr : t.inp.readBits 8 = (some r, t.inp.advance 8) := by
      rw [readBits_of_unread (by simp) (by omega) hu, ofBits_bitsOf]
      congr 2
      apply BitVec.eq_of_toNat_eq
      have := r.isLt
      simp only [BitVec.toNat_ofNat]
      omega
    rw [countLoop, ask_answering ha, hr]
    dsimp only
    by_cases hmax : before.length = Config.maxLen
    · rw [if_pos (by rw [ht.total, hmax])]
      refine ⟨fun h => ?_, fun _ => ⟨_, rfl, rfl, rfl, rfl, rfl⟩⟩
      rw [List.length_cons] at h
      omega
    · rw [if_neg (by rw [ht.total]; exact hmax)]
      have hlt : before.length < Config.maxLen := lt_of_le_of_ne hm hmax
      have step := ih (before := before ++ [r])
        (t := { freq := bumpFreq t.freq r, inlen := t.inlen + 1, inp := t.inp.advance 8 }) (fuel := k)
        (by simp [hb]) (by simp [hp]; omega) (ht.bump r _ hlt) (by simp; omega) (by simpa using hf) ha
      have hlen : (before ++ [r]).length + rs.length = before.length + (r :: rs).length := by simp; omega
      rw [hlen] at step
      have happ : before ++ [r] ++ rs = before ++ r :: rs := by simp
      rw [happ] at step
      exact step

/-- COUNT's body at the start of a session (rules R125, R128, R129). -/
theorem countBody_spec (s : State) (hp : s.inp.ipos = 0) (ha : s.inp.stall = none) :
    (s.inp.bytes.length ≤ Config.maxLen →
      ∃ freq inlen, countBody s =
          .ok { s with
            freq := freq, inlen := inlen,
            inp := { s.inp with ipos := 8 * s.inp.bytes.length, eod := true } } ∧
        (∀ b : Byte, (freqAt freq b.toNat).toNat = s.inp.bytes.count b) ∧ inlen.toNat = s.inp.bytes.length) ∧
    (Config.maxLen < s.inp.bytes.length →
      ∃ freq inlen inp, countBody s = .err .lengthOverflow 0 { s with freq := freq, inlen := inlen, inp := inp } ∧
        inp.bytes = s.inp.bytes ∧ inp.stall = s.inp.stall ∧ inp.eod = s.inp.eod ∧
        inp.rewound = s.inp.rewound) := by
  have h := countLoop_spec (before := []) (after := s.inp.bytes)
    (t := { freq := Vector.replicate 256 0, inlen := 0, inp := s.inp }) (fuel := s.inp.passReads)
    (by simp) (by simpa using hp) ⟨fun b => by simp [freqAt], by simp⟩ (by simp) (length_lt_passReads s.inp) ha
  simp only [List.length_nil, Nat.zero_add, List.nil_append] at h
  constructor
  · intro hl
    obtain ⟨u, hu, ht, hi⟩ := h.1 hl
    exact ⟨u.freq, u.inlen, by rw [countBody, hu, ← hi], ht.each, ht.total⟩
  · intro hl
    obtain ⟨u, hu, h1, h2, h3⟩ := h.2 hl
    exact ⟨u.freq, u.inlen, u.inp, by rw [countBody, hu], h1, h2, h3⟩

end Sys2Proof.Machine
end

