-- ==== Sys2Proof/Laws/Codec.lean ====
section
/-! SUPPORT. The bit-stream codec (rules R185 to R202): what ENCODE's loop writes, what a descent finds, and what
DECODE's loop emits. -/

namespace Sys2Proof.Machine

/-! ## Bytes through the packer -/

/-- Whole bytes written at a byte boundary are appended to OUT as they stand (rules R69, R199). -/
theorem writeList_bytes {o : OutStream} (h : o.Coherent) (hp : o.opos % 8 = 0) (bs : List Byte) :
    o.writeList (bitsOfBytes bs) = { o with opos := o.opos + 8 * bs.length, out := o.out ++ bs } := by
  have hw := writeList_coherent h (bitsOfBytes bs)
  have h0 : o.obuf = [] := List.length_eq_zero_iff.mp (by rw [h.1, hp])
  have hop : (o.writeList (bitsOfBytes bs)).opos = o.opos + 8 * bs.length := by rw [writeList_opos, length_bitsOfBytes]
  have h1 : (o.writeList (bitsOfBytes bs)).obuf = [] := List.length_eq_zero_iff.mp (by rw [hw.1.1, hop]; omega)
  have h2 : (o.writeList (bitsOfBytes bs)).out = o.out ++ bs := by
    have := hw.2
    rw [OutStream.written, OutStream.written, h0, h1, List.append_nil, List.append_nil, ← bitsOfBytes_append] at this
    exact bitsOfBytes_injective this
  have h3 := writeList_stall o (bitsOfBytes bs)
  cases hc : o.writeList (bitsOfBytes bs)
  rw [hc] at hop h1 h2 h3
  simp only at hop h1 h2 h3
  rw [hop, h1, h2, h3, h0]

theorem flush_aligned {o : OutStream} (hp : o.opos % 8 = 0) : o.flush = o := by rw [OutStream.flush, if_pos hp]

/-! ## ENCODE -/

theorem writeCode_eq (c : Code) (o : OutStream) : writeCode c o = o.writeList (codeBitList c) := rfl

/-- One read of ENCODE's or COUNT's loop at a byte boundary (rule R66). -/
theorem readBits_byte {inp : InStream} {before after : List Byte} (hb : inp.bytes = before ++ after)
    (hp : inp.ipos = 8 * before.length) :
    inp.readBits 8 = match after with
      | [] => (none, inp.atEnd)
      | r :: _ => (some r, inp.advance 8) := by
  cases after with
  | nil => exact readBits_short (by rw [length_unread, hb, hp]; simp)
  | cons r rs =>
    have hu : inp.unread = bitsOf 8 r.toNat ++ bitsOfBytes rs := by
      rw [InStream.unread, InStream.bits, hb, bitsOfBytes_append, hp, List.drop_left' (by simp), bitsOfBytes_cons]
    rw [readBits_of_unread (by simp) (by omega) hu, ofBits_bitsOf]
    congr 2
    apply BitVec.eq_of_toNat_eq
    have := r.isLt
    simp only [BitVec.toNat_ofNat]
    omega

/-- ENCODE's loop from a byte boundary, when every byte ahead has a code (rules R185, R187). -/
theorem encodeLoop_done {code : Vector Code 257} {after : List Byte} : ∀ {fuel : Nat} {before : List Byte}
    {inp : InStream} {outp : OutStream}, inp.bytes = before ++ after → inp.ipos = 8 * before.length →
    after.length < fuel → inp.stall = none → (∀ r ∈ after, (codeOfByte code r).valid = true) →
    encodeLoop code fuel inp outp =
      .done { inp with ipos := 8 * inp.bytes.length, eod := true }
        (outp.writeList (after.flatMap fun r => codeBitList (codeOfByte code r))) := by
  induction after with
  | nil =>
    intro fuel before inp outp hb hp hf ha _
    obtain ⟨k, rfl⟩ := Nat.exists_eq_succ_of_ne_zero (by omega : fuel ≠ 0)
    rw [encodeLoop, ask_answering ha, readBits_byte hb hp]
    rw [List.append_nil] at hb
    simp [InStream.atEnd, hp, hb]
  | cons r rs ih =>
    intro fuel before inp outp hb hp hf ha hv
    obtain ⟨k, rfl⟩ := Nat.exists_eq_succ_of_ne_zero (by omega : fuel ≠ 0)
    rw [encodeLoop, ask_answering ha, readBits_byte hb hp]
    dsimp only
    rw [if_pos (hv r (by simp)), ih (before := before ++ [r]) (inp := inp.advance 8) (by simp [hb])
      (by simp [hp]; omega) (by simpa using hf) ha (fun x hx => hv x (by simp [hx])), writeCode_eq, List.flatMap_cons, writeList_append]
    rfl

/-- ENCODE's loop stops at the first byte without a code (rule R190). -/
theorem encodeLoop_noCode {code : Vector Code 257} {good : List Byte} {r : Byte} {rest : List Byte} :
    ∀ {fuel : Nat} {before : List Byte} {inp : InStream} {outp : OutStream},
    inp.bytes = before ++ (good ++ r :: rest) → inp.ipos = 8 * before.length → good.length < fuel →
    inp.stall = none →
    (∀ x ∈ good, (codeOfByte code x).valid = true) → (codeOfByte code r).valid = false →
    ∃ j o, encodeLoop code fuel inp outp = .noCode r j o ∧ j.bytes = inp.bytes ∧ j.stall = inp.stall ∧
      j.eod = inp.eod ∧ j.rewound = inp.rewound ∧ o.stall = outp.stall := by
  induction good with
  | nil =>
    intro fuel before inp outp hb hp hf ha _ hr
    obtain ⟨k, rfl⟩ := Nat.exists_eq_succ_of_ne_zero (by omega : fuel ≠ 0)
    rw [encodeLoop, ask_answering ha, readBits_byte hb hp]
    dsimp only [List.nil_append]
    rw [if_neg (by simpa using hr)]
    exact ⟨_, _, rfl, rfl, rfl, rfl, rfl, rfl⟩
  | cons x xs ih =>
    intro fuel before inp outp hb hp hf ha hv hr
    obtain ⟨k, rfl⟩ := Nat.exists_eq_succ_of_ne_zero (by omega : fuel ≠ 0)
    rw [encodeLoop, ask_answering ha, readBits_byte hb hp]
    dsimp only [List.cons_append]
    rw [if_pos (hv x (by simp))]
    obtain ⟨j, o, h⟩ := ih (fuel := k) (before := before ++ [x]) (inp := inp.advance 8)
      (outp := writeCode (codeAt code (x.zeroExtend 9)) outp) (by simp [hb]) (by simp [hp]; omega) (by simpa using hf)
      ha (fun y hy => hv y (by simp [hy])) hr
    refine ⟨j, o, h.1, h.2.1, h.2.2.1, h.2.2.2.1, h.2.2.2.2.1, ?_⟩
    rw [h.2.2.2.2.2, writeCode_eq, writeList_stall]

/-- ENCODE's body when every byte of the input has a code (rules R185 to R189). -/
theorem encodeBody_done (s : State) (ha : s.inp.stall = none)
    (hv : ∀ r ∈ s.inp.bytes, (codeOfByte s.code r).valid = true) :
    encodeBody s =
      (Run.ok { signalRewind s with
        inp := { s.inp with ipos := 8 * s.inp.bytes.length, eod := true, rewound := true },
        outp := (s.outp.writeList ((s.inp.bytes.flatMap fun r => codeBitList (codeOfByte s.code r))
          ++ codeBitList (codeAt s.code Config.eos))).flush }).drain s := by
  rw [encodeBody, encodeLoop_done (before := []) (after := s.inp.bytes) (inp := s.inp.rewind) (by simp) (by simp)
    (length_lt_passReads s.inp) ha hv,
    writeList_append]
  rfl

/-- ENCODE's body on a byte without a code (rules R190, R237). -/
theorem encodeBody_noCode (s : State) (ha : Answering s) {good rest : List Byte} {r : Byte} (hb : s.inp.bytes = good ++ r :: rest)
    (hv : ∀ x ∈ good, (codeOfByte s.code x).valid = true) (hr : (codeOfByte s.code r).valid = false) :
    ∃ ipos o, encodeBody s =
      .err .noCode (r.zeroExtend 32) { signalRewind s with
        inp := { s.inp with ipos := ipos, eod := false, rewound := true }, outp := o } ∧ o.stall = s.outp.stall := by
  obtain ⟨j, o, h, h1, h2, h3, h4, h5⟩ := encodeLoop_noCode (code := s.code) (fuel := s.inp.passReads)
    (before := []) (inp := s.inp.rewind) (outp := s.outp) (good := good) (r := r) (rest := rest)
    (by simpa using hb) (by simp) (by rw [InStream.passReads, hb]; simp) ha.1 hv hr
  refine ⟨j.ipos, o, ?_, h5⟩
  rw [encodeBody, drain_answering ha.2, h]
  have : j = { s.inp with ipos := j.ipos, eod := false, rewound := true } := by
    cases j
    simp only [rewind_bytes, rewind_stall, rewind_eod, rewind_rewound] at h1 h2 h3 h4
    simp [h1, h2, h3, h4]
  rw [this]

/-! ## DECODE -/

theorem descend_leaf {t : Tree} (fuel : Nat) {cur : NodeIx} (inp : InStream) (h : (t.at cur).leaf = true) :
    descend t fuel cur inp = .leaf cur inp := by
  cases fuel <;> rw [descend, if_pos h]

theorem descend_internal {t : Tree} (fuel : Nat) {cur : NodeIx} (inp : InStream) (h : (t.at cur).leaf = false) :
    descend t (fuel + 1) cur inp =
      match inp.ask 1 with
      | none => .wait cur inp
      | some (none, inp) => .endOfData cur inp
      | some (some b, inp) => descend t fuel (childOf t cur b) inp :=
  if_neg (Bool.eq_false_iff.mp h)

/-- A descent along a path of the tree ends at its leaf and has consumed the path (rule R196). -/
theorem descend_path {t : Tree} {sh : Shape} : ∀ {i : NodeIx} {x : Sym × List Bool} {inp : InStream}
    {rest : List Bool} {fuel : Nat}, spells t i sh = true → x ∈ sh.paths → inp.unread = x.2 ++ rest →
    x.2.length ≤ fuel → inp.stall = none →
    ∃ j, descend t fuel i inp = .leaf j (inp.advance x.2.length) ∧ (t.at j).leaf = true ∧ (t.at j).sym = x.1 := by
  induction sh with
  | leaf v =>
    intro i x inp rest fuel hs hx _ _ _
    simp only [Shape.paths, List.mem_singleton] at hx
    have hl := leaf_of_spells hs
    subst hx
    exact ⟨i, descend_leaf fuel inp hl.1, hl.1, hl.2.1⟩
  | node l r ihl ihr =>
    intro i x inp rest fuel hs hx hu hf ha
    have hn := internal_of_spells hs
    simp only [Shape.paths, List.mem_append, List.mem_map] at hx
    rcases hx with ⟨y, hy, rfl⟩ | ⟨y, hy, rfl⟩
    · obtain ⟨k, rfl⟩ := Nat.exists_eq_succ_of_ne_zero (by simp at hf; omega : fuel ≠ 0)
      have hu' : inp.unread = [false] ++ (y.2 ++ rest) := hu
      obtain ⟨j, h1, h2⟩ := ihl (inp := inp.advance 1) (fuel := k) hn.2.2.1 hy (unread_of_append (n := 1) rfl hu')
        (by simpa using hf) ha
      refine ⟨j, ?_, h2⟩
      rw [descend_internal k inp hn.1, ask_answering ha, readBits_of_unread (n := 1) rfl (by omega) hu']
      show descend t k (t.at i).left _ = _
      rw [h1, advance_advance, List.length_cons, Nat.add_comm]
    · obtain ⟨k, rfl⟩ := Nat.exists_eq_succ_of_ne_zero (by simp at hf; omega : fuel ≠ 0)
      have hu' : inp.unread = [true] ++ (y.2 ++ rest) := hu
      obtain ⟨j, h1, h2⟩ := ihr (inp := inp.advance 1) (fuel := k) hn.2.2.2 hy (unread_of_append (n := 1) rfl hu')
        (by simpa using hf) ha
      refine ⟨j, ?_, h2⟩
      rw [descend_internal k inp hn.1, ask_answering ha, readBits_of_unread (n := 1) rfl (by omega) hu']
      show descend t k (t.at i).right _ = _
      rw [h1, advance_advance, List.length_cons, Nat.add_comm]

/-- A descent whose bits begin no path's end runs out of data (rule R197). -/
theorem descend_cut {t : Tree} {sh : Shape} : ∀ {i : NodeIx} {inp : InStream} {fuel : Nat}, spells t i sh = true →
    (∀ x ∈ sh.paths, ¬ x.2 <+: inp.unread) → inp.unread.length < fuel → inp.stall = none →
    ∃ j k, descend t fuel i inp = .endOfData j k ∧ k.bytes = inp.bytes ∧ k.stall = inp.stall ∧
      k.rewound = inp.rewound ∧ k.eod = true := by
  induction sh with
  | leaf v =>
    intro i inp fuel _ hx _ _
    exact absurd (List.nil_prefix) (hx (v, []) (by simp [Shape.paths]))
  | node l r ihl ihr =>
    intro i inp fuel hs hx hf ha
    obtain ⟨k, rfl⟩ := Nat.exists_eq_succ_of_ne_zero (by omega : fuel ≠ 0)
    have hn := internal_of_spells hs
    rw [descend_internal k inp hn.1, ask_answering ha]
    cases hu : inp.unread with
    | nil =>
      rw [readBits_short (by rw [hu]; simp)]
      exact ⟨i, inp.atEnd, rfl, rfl, rfl, rfl, rfl⟩
    | cons b bs =>
      have hu' : inp.unread = [b] ++ bs := hu
      have hu1 := unread_of_append (n := 1) rfl hu'
      rw [readBits_of_unread (n := 1) rfl (by omega) hu']
      rw [hu, List.length_cons] at hf
      cases b with
      | false =>
        exact ihl (inp := inp.advance 1) hn.2.2.1 (fun x hm hp => hx (x.1, false :: x.2)
          (by simp only [Shape.paths, List.mem_append, List.mem_map]; exact .inl ⟨x, hm, rfl⟩)
          (by rw [hu]; rw [hu1] at hp; exact List.cons_prefix_cons.mpr ⟨rfl, hp⟩)) (by rw [hu1]; omega) ha
      | true =>
        exact ihr (inp := inp.advance 1) hn.2.2.2 (fun x hm hp => hx (x.1, true :: x.2)
          (by simp only [Shape.paths, List.mem_append, List.mem_map]; exact .inr ⟨x, hm, rfl⟩)
          (by rw [hu]; rw [hu1] at hp; exact List.cons_prefix_cons.mpr ⟨rfl, hp⟩)) (by rw [hu1]; omega) ha

theorem bitsOf_emitted {v : Sym} (h : v.toNat < 256) : bitsOf 8 v.toNat = bitsOf 8 (v.truncate 8 : Byte).toNat := by
  rw [BitVec.truncate_eq_setWidth, BitVec.toNat_setWidth, Nat.mod_eq_of_lt (by omega)]

theorem decodeLoop_leaf {t : Tree} {reads fuel : Nat} {inp inp' : InStream} {outp : OutStream} {j : NodeIx}
    (h : descend t reads t.root.index inp = .leaf j inp') :
    decodeLoop t reads (fuel + 1) inp outp =
      if (t.at j).sym = Config.eos then .done j inp' outp
      else decodeLoop t reads fuel inp' (outp.writeBits 8 (t.at j).sym.toNat) := by
  rw [decodeLoop, h]

theorem ne_eos_of_lt {v : Sym} (h : v.toNat < 256) : v ≠ Config.eos := by
  intro e; rw [e] at h; exact absurd h (by decide)

/-- DECODE's loop on the bits of some symbols and the sentinel (rules R195, R196, R198, R199). -/
theorem decodeLoop_done {t : Tree} {sh : Shape} (hs : spells t t.root.index sh = true) {reads : Nat} {p : List Bool}
    {rest : List Bool} (he : (Config.eos, p) ∈ sh.paths) : ∀ {xs : List (Sym × List Bool)} {fuel : Nat}
    {inp : InStream} {outp : OutStream}, Emitted sh xs → inp.unread = bodyBits xs ++ (p ++ rest) →
    inp.unread.length ≤ reads → xs.length < fuel → inp.stall = none →
    ∃ j, decodeLoop t reads fuel inp outp =
      .done j (inp.advance ((bodyBits xs).length + p.length)) (outp.writeList (bitsOfBytes (emittedBytes xs))) := by
  intro xs
  induction xs with
  | nil =>
    intro fuel inp outp _ hu hr hf ha
    obtain ⟨k, rfl⟩ := Nat.exists_eq_succ_of_ne_zero (by omega : fuel ≠ 0)
    have hu' : inp.unread = p ++ rest := hu
    have hl : p.length ≤ reads := by
      have := congrArg List.length hu'
      rw [List.length_append] at this
      omega
    obtain ⟨j, h1, h2, h3⟩ := descend_path hs he hu' hl ha
    refine ⟨j, ?_⟩
    rw [decodeLoop_leaf h1, if_pos h3]
    simp
  | cons x xs ih =>
    intro fuel inp outp hx hu hr hf ha
    obtain ⟨k, rfl⟩ := Nat.exists_eq_succ_of_ne_zero (by omega : fuel ≠ 0)
    have hxm := hx x (by simp)
    have hu' : inp.unread = x.2 ++ (bodyBits xs ++ (p ++ rest)) := by simpa [bodyBits] using hu
    have hlen := congrArg List.length hu'
    rw [List.length_append] at hlen
    obtain ⟨j, h1, h2, h3⟩ := descend_path hs hxm.1 hu' (show x.2.length ≤ reads by omega) ha
    have hua := unread_of_append (n := x.2.length) rfl hu'
    obtain ⟨j', h⟩ := ih (fuel := k) (inp := inp.advance x.2.length) (outp := outp.writeBits 8 x.1.toNat)
      (fun y hy => hx y (by simp [hy])) hua (by rw [hua]; omega) (by simpa using hf) ha
    refine ⟨j', ?_⟩
    rw [decodeLoop_leaf h1, h3, if_neg (ne_eos_of_lt hxm.2), h, advance_advance]
    have e1 : x.2.length + ((bodyBits xs).length + p.length) = (bodyBits (x :: xs)).length + p.length := by
      rw [bodyBits, bodyBits, List.flatMap_cons, List.length_append]; omega
    have e2 : (outp.writeBits 8 x.1.toNat).writeList (bitsOfBytes (emittedBytes xs)) =
        outp.writeList (bitsOfBytes (emittedBytes (x :: xs))) := by
      rw [emittedBytes, emittedBytes, List.map_cons, bitsOfBytes_cons, writeList_append, ← bitsOf_emitted hxm.2]
      rfl
    rw [e1, e2]

/-- DECODE's loop on the bits of some symbols and the beginning of another code (rule R197). -/
theorem decodeLoop_cut {t : Tree} {sh : Shape} (hs : spells t t.root.index sh = true) {reads : Nat} {q : List Bool}
    (hq : ∀ x ∈ sh.paths, ¬ x.2 <+: q) : ∀ {xs : List (Sym × List Bool)} {fuel : Nat} {inp : InStream}
    {outp : OutStream}, Emitted sh xs → inp.unread = bodyBits xs ++ q → inp.unread.length < reads → xs.length < fuel →
    inp.stall = none →
    ∃ j k o, decodeLoop t reads fuel inp outp = .endOfData j k o ∧ k.bytes = inp.bytes ∧ k.stall = inp.stall ∧
      k.rewound = inp.rewound ∧ k.eod = true ∧ o.stall = outp.stall := by
  intro xs
  induction xs with
  | nil =>
    intro fuel inp outp _ hu hr hf ha
    obtain ⟨k, rfl⟩ := Nat.exists_eq_succ_of_ne_zero (by omega : fuel ≠ 0)
    have hu' : inp.unread = q := hu
    obtain ⟨j, i, h, hb, hs', hw, he⟩ := descend_cut hs (by rw [hu']; exact hq) hr ha
    exact ⟨j, i, outp, by rw [decodeLoop, h], hb, hs', hw, he, rfl⟩
  | cons x xs ih =>
    intro fuel inp outp hx hu hr hf ha
    obtain ⟨k, rfl⟩ := Nat.exists_eq_succ_of_ne_zero (by omega : fuel ≠ 0)
    have hxm := hx x (by simp)
    have hu' : inp.unread = x.2 ++ (bodyBits xs ++ q) := by simpa [bodyBits] using hu
    have hlen := congrArg List.length hu'
    rw [List.length_append] at hlen
    obtain ⟨j, h1, h2, h3⟩ := descend_path hs hxm.1 hu' (show x.2.length ≤ reads by omega) ha
    have hua := unread_of_append (n := x.2.length) rfl hu'
    obtain ⟨j', i', o', h, hb, hs', hw, he, ho⟩ := ih (fuel := k) (inp := inp.advance x.2.length)
      (outp := outp.writeBits 8 x.1.toNat)
      (fun y hy => hx y (by simp [hy])) hua (by rw [hua]; omega) (by simpa using hf) ha
    refine ⟨j', i', o', ?_, hb, hs', hw, he, ?_⟩
    · rw [decodeLoop_leaf h1, h3, if_neg (ne_eos_of_lt hxm.2), h]
    · rw [ho]; exact writeList_stall _ _

/-- A symbol other than the sentinel has a code of at least one bit in a tree with the sentinel (rule R191). -/
theorem path_pos {sh : Shape} {x : Sym × List Bool} {p : List Bool} (he : (Config.eos, p) ∈ sh.paths)
    (hx : x ∈ sh.paths) (hv : x.1.toNat < 256) : 0 < x.2.length := by
  cases sh with
  | leaf v =>
    simp only [Shape.paths, List.mem_singleton] at he hx
    simp only [Prod.mk.injEq] at he
    rw [hx, ← he.1] at hv
    exact absurd hv (by decide)
  | node l r =>
    simp only [Shape.paths, List.mem_append, List.mem_map] at hx
    rcases hx with ⟨y, _, rfl⟩ | ⟨y, _, rfl⟩ <;> simp

theorem length_le_bodyBits {xs : List (Sym × List Bool)} (h : ∀ x ∈ xs, 0 < x.2.length) :
    xs.length ≤ (bodyBits xs).length := by
  induction xs with
  | nil => simp
  | cons x xs ih =>
    have := ih fun y hy => h y (by simp [hy])
    have := h x (by simp)
    have e : (bodyBits (x :: xs)).length = x.2.length + (bodyBits xs).length := by
      rw [bodyBits, List.flatMap_cons, List.length_append]
    rw [e, List.length_cons]
    omega

theorem root_sentinel {t : Tree} {sh : Shape} (hs : spells t t.root.index sh = true) {p : List Bool}
    (he : (Config.eos, p) ∈ sh.paths) : ((rootNode t).leaf && (rootNode t).sym != Config.eos) = false := by
  cases sh with
  | leaf v =>
    have hl := leaf_of_spells hs
    simp only [Shape.paths, List.mem_singleton] at he
    simp only [Prod.mk.injEq] at he
    simp [rootNode, hl.2.1, ← he.1]
  | node l r => simp [rootNode, (internal_of_spells hs).1]

/-- DECODE's body on a body that holds some symbols and the sentinel (rules R195 to R200). -/
theorem decodeBody_done {s : State} {sh : Shape} (ha : s.inp.stall = none) (hs : spells s.tree s.tree.root.index sh = true) {p rest : List Bool}
    {xs : List (Sym × List Bool)} (he : (Config.eos, p) ∈ sh.paths) (hx : Emitted sh xs)
    (hu : s.inp.unread = bodyBits xs ++ (p ++ rest)) (hc : s.outp.Coherent) (ho : s.outp.opos % 8 = 0) :
    ∃ j, decodeBody s =
      (Run.ok { s with
        inp := s.inp.advance ((bodyBits xs).length + p.length),
        outp := { s.outp with opos := s.outp.opos + 8 * xs.length, out := s.outp.out ++ emittedBytes xs },
        trav := { s.trav with cur := j } }).drain s := by
  have hlen : s.inp.unread.length ≤ 8 * s.inp.bytes.length := by rw [length_unread]; omega
  have hxl := length_le_bodyBits fun x h => path_pos he (hx x h).1 (hx x h).2
  have hl := congrArg List.length hu
  rw [List.length_append] at hl
  obtain ⟨j, h⟩ := decodeLoop_done hs (reads := s.inp.descentReads) he
    (fuel := s.inp.descents) (outp := s.outp) hx hu (by unfold InStream.descentReads; omega)
    (by unfold InStream.descents; omega) ha
  refine ⟨j, ?_⟩
  rw [decodeBody, if_neg (by rw [root_sentinel hs he]; simp), h]
  dsimp only
  rw [writeList_bytes hc ho, flush_aligned]
  · simp
  · show (s.outp.opos + 8 * (emittedBytes xs).length) % 8 = 0
    omega

/-- DECODE's body when the input runs out before the sentinel (rule R197). -/
theorem decodeBody_cut {s : State} {sh : Shape} (hans : Answering s) (hs : spells s.tree s.tree.root.index sh = true) {q : List Bool}
    {xs : List (Sym × List Bool)} (hroot : ∀ v, sh ≠ .leaf v) (hx : Emitted sh xs)
    (hq : ∀ x ∈ sh.paths, ¬ x.2 <+: q) (hu : s.inp.unread = bodyBits xs ++ q) :
    ∃ ipos o j, decodeBody s =
      .err .prematureEndOfStream 2 { s with
        inp := { s.inp with ipos := ipos, eod := true }, outp := o, trav := { s.trav with cur := j } } ∧
      o.stall = s.outp.stall := by
  have hpos : ∀ x ∈ xs, 0 < x.2.length := by
    intro x h
    have := (hx x h).1
    cases sh with
    | leaf v => exact absurd rfl (hroot v)
    | node l r =>
      simp only [Shape.paths, List.mem_append, List.mem_map] at this
      rcases this with ⟨y, _, rfl⟩ | ⟨y, _, rfl⟩ <;> simp
  have hlen : s.inp.unread.length ≤ 8 * s.inp.bytes.length := by rw [length_unread]; omega
  have hxl := length_le_bodyBits hpos
  have hl := congrArg List.length hu
  rw [List.length_append] at hl
  obtain ⟨j, k, o, h, hb, ha, hw, he, hacc⟩ := decodeLoop_cut hs hq (reads := s.inp.descentReads)
    (fuel := s.inp.descents) (outp := s.outp) hx hu (by unfold InStream.descentReads; omega)
    (by unfold InStream.descents; omega) hans.1
  refine ⟨k.ipos, o, j, ?_, hacc⟩
  have hleaf : (rootNode s.tree).leaf = false := by
    cases sh with
    | leaf v => exact absurd rfl (hroot v)
    | node l r => exact (internal_of_spells hs).1
  rw [decodeBody, if_neg (by simp [hleaf]), drain_answering hans.2, h]
  have : k = { s.inp with ipos := k.ipos, eod := true } := by
    cases k
    simp only at hb ha hw he
    simp [hb, ha, hw, he]
  rw [this]

end Sys2Proof.Machine
end

