-- ==== Sys2Proof/Laws/Header.lean ====
section
/-! SUPPORT. The header reader (rules R170 to R180): token by token it is the recursion of rule R170, and on the
serialization of a tree it leaves that tree in preorder. -/

namespace Sys2Proof.Machine

theorem nnodes_succ {t : Tree} (h : t.nnodes.toNat < 513) : (t.nnodes + 1).toNat = t.nnodes.toNat + 1 := by
  have h1 : (1 : NodeIx).toNat = 1 := rfl
  rw [BitVec.toNat_add, h1]
  omega

/-! ## Token by token, and recursively -/

/-- The reader after a whole subtree `i` has been read. -/
def afterSubtree (s : State) (i : NodeIx) (inp : InStream) (t : Tree) : State :=
  { s with
    inp := inp, tree := (closeSubtree i t s.trav.stack).2.1,
    trav :=
      { s.trav with
        stack := (closeSubtree i t s.trav.stack).1,
        stage := if (closeSubtree i t s.trav.stack).2.2 then .off else .tree } }

theorem leafToken_eq {s : State} {v : Sym} (hn : s.tree.nnodes.toNat ≠ 513) (hv : v.toNat ≤ 256) :
    leafToken v s = .ok (afterSubtree s s.tree.nnodes (s.inp.advance 10) (addLeafNode v s.tree)) := by
  rw [leafToken, if_neg hn, if_neg (by omega)]
  rfl

/-- `rd()` does nothing but these (rule R170). -/
theorem readNode_succ (frames : Nat) (inp : InStream) (t : Tree) :
    readNode (frames + 1) inp t =
      match inp.readBits 1 with
      | (none, inp) => .err .prematureEndOfStream 0 inp
      | (some b, inp) =>
        if t.nnodes.toNat = Config.nodeCap then .err .treeTooLarge 513 inp
        else
          if b = 1 then
            match inp.readBits 9 with
            | (none, inp) => .err .prematureEndOfStream 1 inp
            | (some v, inp) =>
              if 256 < v.toNat then .err .badLeafValue (v.zeroExtend 32) inp
              else .node t.nnodes inp (addLeafNode v t)
          else
            match readNode frames inp { t with nnodes := t.nnodes + 1 } with
            | .err e info inp => .err e info inp
            | .node l inp t₁ =>
              match readNode frames inp t₁ with
              | .err e info inp => .err e info inp
              | .node r inp t₂ => .node t.nnodes inp (t₂.set t.nnodes (Node.mkInternal l r 0)) := rfl

theorem readTokens_tree {s : State} (fuel : Nat) (hs : s.trav.stage = .tree) :
    readTokens (fuel + 1) s = (readToken s).andThen (readTokens fuel) := by
  rw [readTokens, if_neg (by rw [hs]; decide)]

/-- From any point of the tree field, reading tokens is `rd()` followed by what the open nodes still wait for. -/
theorem readTokens_readNode (frames : Nat) : ∀ (s : State) (fuel : Nat), s.inp.stall = none → s.trav.stage = .tree →
    s.tree.nnodes.toNat ≤ 513 → 514 ≤ s.tree.nnodes.toNat + frames → 514 ≤ s.tree.nnodes.toNat + fuel →
    match readNode frames s.inp s.tree with
    | .node i inp t =>
      s.tree.nnodes.toNat < t.nnodes.toNat ∧ t.nnodes.toNat ≤ 513 ∧ inp.stall = none ∧
        readTokens fuel s = readTokens (fuel - (t.nnodes.toNat - s.tree.nnodes.toNat)) (afterSubtree s i inp t)
    | .err e info inp => ∃ tree trav, readTokens fuel s = .err e info { s with inp := inp, tree := tree, trav := trav } := by
  induction frames with
  | zero => intro s fuel _ _ h1 h2; omega
  | succ frames ih =>
    intro s fuel ha hs hn hfr hfu
    obtain ⟨k, rfl⟩ := Nat.exists_eq_succ_of_ne_zero (by omega : fuel ≠ 0)
    rw [readTokens_tree k hs, readNode_succ, readToken, fetchToken, hs]
    dsimp only
    rw [fetchTree, ask_answering ha]
    rcases readBits_cases 1 s.inp with ⟨_, h1⟩ | ⟨_, _, h1⟩
    · rw [h1]
      exact ⟨s.tree, s.trav, rfl⟩
    · rw [h1]
      dsimp only
      by_cases hcap : s.tree.nnodes.toNat = Config.nodeCap
      · rw [if_pos hcap, if_pos hcap]
        exact ⟨s.tree, s.trav, rfl⟩
      · rw [if_neg hcap, if_neg hcap]
        have hc : s.tree.nnodes.toNat < 513 := lt_of_le_of_ne hn hcap
        have hsucc := nnodes_succ hc
        generalize BitVec.ofNat 1 (ofBits (s.inp.unread.take 1)) = b
        by_cases hb : b = 0
        · have hb1 : b ≠ 1 := by rw [hb]; decide
          rw [if_pos hb, if_neg hb1]
          dsimp only [tokenBody]
          rw [internalToken, if_neg hcap]
          dsimp only [andThen_of_ok]
          have ihl := ih
            { s with
              inp := s.inp.advance 1,
              tree := { s.tree with nnodes := s.tree.nnodes + 1 },
              trav := { s.trav with stack := ⟨s.tree.nnodes, none⟩ :: s.trav.stack } }
            k ha hs (by dsimp only; omega) (by dsimp only; omega) (by dsimp only; omega)
          dsimp only at ihl
          cases hl : readNode frames (s.inp.advance 1) { s.tree with nnodes := s.tree.nnodes + 1 } with
          | err e info inp =>
            rw [hl] at ihl
            obtain ⟨tree, trav, h⟩ := ihl
            exact ⟨tree, trav, h⟩
          | node l inp₁ t₁ =>
            rw [hl] at ihl
            dsimp only at ihl ⊢
            obtain ⟨hlt, hb', hst, hrun⟩ := ihl
            rw [hsucc] at hlt hrun
            rw [hrun]
            have ihr := ih
              (afterSubtree
                { s with
                  inp := s.inp.advance 1,
                  tree := { s.tree with nnodes := s.tree.nnodes + 1 },
                  trav := { s.trav with stack := ⟨s.tree.nnodes, none⟩ :: s.trav.stack } } l inp₁ t₁)
              (k - (t₁.nnodes.toNat - (s.tree.nnodes.toNat + 1))) hst rfl hb'
              (by show 514 ≤ t₁.nnodes.toNat + _; omega) (by show 514 ≤ t₁.nnodes.toNat + _; omega)
            have e1 : (afterSubtree
                { s with
                  inp := s.inp.advance 1,
                  tree := { s.tree with nnodes := s.tree.nnodes + 1 },
                  trav := { s.trav with stack := ⟨s.tree.nnodes, none⟩ :: s.trav.stack } } l inp₁ t₁).inp = inp₁ := rfl
            have e2 : (afterSubtree
                { s with
                  inp := s.inp.advance 1,
                  tree := { s.tree with nnodes := s.tree.nnodes + 1 },
                  trav := { s.trav with stack := ⟨s.tree.nnodes, none⟩ :: s.trav.stack } } l inp₁ t₁).tree = t₁ := rfl
            rw [e1, e2] at ihr
            cases hr : readNode frames inp₁ t₁ with
            | err e info inp =>
              rw [hr] at ihr
              obtain ⟨tree, trav, h⟩ := ihr
              exact ⟨tree, trav, h⟩
            | node r inp₂ t₂ =>
              rw [hr] at ihr
              dsimp only at ihr ⊢
              obtain ⟨hc', hd, hst', hrun'⟩ := ihr
              refine ⟨by rw [set_nnodes]; omega, by rw [set_nnodes]; exact hd, hst', ?_⟩
              rw [hrun', set_nnodes]
              have ef : k - (t₁.nnodes.toNat - (s.tree.nnodes.toNat + 1)) - (t₂.nnodes.toNat - t₁.nnodes.toNat)
                  = k + 1 - (t₂.nnodes.toNat - s.tree.nnodes.toNat) := by omega
              rw [ef]
              rfl
        · have hb1 : b = 1 := by
            have := b.isLt
            apply BitVec.eq_of_toNat_eq
            have h0 : b.toNat ≠ 0 := fun h => hb (BitVec.eq_of_toNat_eq h)
            show b.toNat = 1
            omega
          rw [if_neg hb, if_pos hb1, ask_answering (i := s.inp.advance 1) ha]
          rcases readBits_cases 9 (s.inp.advance 1) with ⟨_, h9⟩ | ⟨_, _, h9⟩
          · rw [h9]
            exact ⟨s.tree, s.trav, rfl⟩
          · rw [h9]
            dsimp only
            generalize BitVec.ofNat 9 (ofBits ((s.inp.advance 1).unread.take 9)) = v
            by_cases hv : 256 < v.toNat
            · rw [if_pos hv, if_pos hv]
              exact ⟨s.tree, s.trav, rfl⟩
            · rw [if_neg hv, if_neg hv]
              dsimp only [tokenBody]
              rw [leafToken_eq hcap (by omega), andThen_of_ok, advance_advance]
              have e : (addLeafNode v s.tree).nnodes.toNat = s.tree.nnodes.toNat + 1 := hsucc
              refine ⟨by rw [e]; omega, by rw [e]; omega, ha, ?_⟩
              rw [e, show k + 1 - (s.tree.nnodes.toNat + 1 - s.tree.nnodes.toNat) = k by omega]

theorem readTokens_off {s : State} (fuel : Nat) (hs : s.trav.stage = .off) : readTokens fuel s = .ok s := by
  cases fuel <;> rw [readTokens, if_pos hs]

/-- RDHDR's body is RDHDR as rule R170 writes it. -/
theorem rdhdrBody_readHeader (s : State) (ha : s.inp.stall = none) :
    match readHeader s.inp s.tree with
    | .node _ inp t =>
      rdhdrBody s = .ok { s with inp := inp, tree := t, trav := { s.trav with stage := .off, stack := [] } }
    | .err e info inp => ∃ tree trav, rdhdrBody s = .err e info { s with inp := inp, tree := tree, trav := trav } := by
  have hfirst : rdhdrBody s = (readToken { s with trav := { s.trav with stage := .magic } }).andThen (readTokens 514) :=
    rfl
  rw [hfirst, readToken, fetchToken, readHeader]
  dsimp only
  rw [fetchMagic, ask_answering ha]
  rcases readBits_cases 32 s.inp with ⟨_, h1⟩ | ⟨_, _, h1⟩
  · rw [h1]
    exact ⟨s.tree, { s.trav with stage := .magic }, rfl⟩
  · rw [h1]
    dsimp only
    generalize BitVec.ofNat 32 (ofBits (s.inp.unread.take 32)) = m
    by_cases hm : m = Config.magicTree
    · rw [if_pos hm, if_neg (by simp [hm])]
      dsimp only [tokenBody]
      rw [magicToken, andThen_of_ok]
      have h := readTokens_readNode 514
        { s with
          inp := s.inp.advance 32,
          tree := { s.tree with nnodes := 0, nleaf := 0 },
          trav := { s.trav with stage := .tree, stack := [] } } 514 ha rfl (by simp) (by simp) (by simp)
      dsimp only at h ⊢
      cases hr : readNode 514 (s.inp.advance 32) { s.tree with nnodes := 0, nleaf := 0 } with
      | err e info inp =>
        rw [hr] at h
        obtain ⟨tree, trav, h⟩ := h
        exact ⟨tree, trav, h⟩
      | node i inp t =>
        rw [hr] at h
        dsimp only at h ⊢
        rw [h.2.2.2, readTokens_off _ rfl]
        rfl
    · rw [if_neg hm, if_pos hm]
      exact ⟨s.tree, { s.trav with stage := .magic }, rfl⟩

/-! ## On the serialization of a tree -/

/-- What `rd()` leaves of a tree it has read whole: its nodes from `n` on in preorder, without weights, and nothing
else changed (rules R170, R174, R178). -/
structure ReadOk (t u : Tree) (sh : Shape) : Prop where
  nnodes  : u.nnodes.toNat = t.nnodes.toNat + sh.size
  nleaf   : u.nleaf = t.nleaf + BitVec.ofNat 10 sh.leafCount
  spelled : spells u t.nnodes sh = true
  order   : indices u t.nnodes sh = (List.range' t.nnodes.toNat sh.size).map (BitVec.ofNat 10)
  weights : ∀ j ∈ indices u t.nnodes sh, (u.at j).weight = 0
  others  : ∀ j : NodeIx, j.toNat < t.nnodes.toNat ∨ t.nnodes.toNat + sh.size ≤ j.toNat → u.at j = t.at j
  root    : u.root = t.root

theorem Shape.size_pos (sh : Shape) : 0 < sh.size := by cases sh <;> simp only [Shape.size] <;> omega

theorem ofNat_toNat_ix (i : NodeIx) : BitVec.ofNat 10 i.toNat = i := by simp

/-- The indices a subtree of `rd()` takes. -/
theorem mem_order {n m : Nat} {j : NodeIx} (h : n + m ≤ 513) :
    j ∈ (List.range' n m).map (BitVec.ofNat 10) ↔ n ≤ j.toNat ∧ j.toNat < n + m := by
  rw [List.mem_map]
  constructor
  · rintro ⟨k, hk, rfl⟩
    rw [List.mem_range'_1] at hk
    rw [BitVec.toNat_ofNat, Nat.mod_eq_of_lt (by omega)]
    exact hk
  · rintro ⟨h1, h2⟩
    exact ⟨j.toNat, List.mem_range'_1.mpr ⟨h1, h2⟩, by simp⟩

theorem readOk_leaf (t : Tree) (v : Sym) (hc : t.nnodes.toNat < 513) : ReadOk t (addLeafNode v t) (.leaf v) := by
  have hat : ∀ j, (addLeafNode v t).at j = if j = t.nnodes then Node.mkLeaf v 0 else t.at j := fun j =>
    (at_congr (t := addLeafNode v t) (u := t.set t.nnodes (Node.mkLeaf v 0)) rfl j).trans (at_set t _ j _ hc)
  refine ⟨nnodes_succ hc, rfl, ?_, ?_, ?_, ?_, rfl⟩
  · rw [spells_leaf, hat, if_pos rfl]; rfl
  · simp [indices, Shape.size]
  · intro j hj
    simp only [indices, List.mem_singleton] at hj
    rw [hat, if_pos hj]; rfl
  · intro j hj
    rw [hat, if_neg]
    intro e
    simp only [Shape.size] at hj
    rw [e] at hj
    omega

theorem readOk_node {t t₁ t₂ : Tree} {l r : Shape} (hc : t.nnodes.toNat + (Shape.node l r).size ≤ 513)
    (h1 : ReadOk { t with nnodes := t.nnodes + 1 } t₁ l) (h2 : ReadOk t₁ t₂ r) :
    ReadOk t (t₂.set t.nnodes (Node.mkInternal (t.nnodes + 1) t₁.nnodes 0)) (.node l r) := by
  simp only [Shape.size] at hc
  have hlp := l.size_pos
  have hrp := r.size_pos
  have hn : t.nnodes.toNat < 513 := by omega
  have hsucc := nnodes_succ hn
  have hn1 : t₁.nnodes.toNat = t.nnodes.toNat + 1 + l.size := by rw [h1.nnodes]; exact congrArg (· + l.size) hsucc
  have hn2 : t₂.nnodes.toNat = t.nnodes.toNat + 1 + l.size + r.size := by rw [h2.nnodes, hn1]
  have hat : ∀ j, (t₂.set t.nnodes (Node.mkInternal (t.nnodes + 1) t₁.nnodes 0)).at j =
      if j = t.nnodes then Node.mkInternal (t.nnodes + 1) t₁.nnodes 0 else t₂.at j := fun j => at_set _ _ _ _ hn
  have hself : (t₂.set t.nnodes (Node.mkInternal (t.nnodes + 1) t₁.nnodes 0)).at t.nnodes =
      Node.mkInternal (t.nnodes + 1) t₁.nnodes 0 := by rw [hat, if_pos rfl]
  have horder1 := h1.order
  dsimp only at horder1
  rw [hsucc] at horder1
  have hin1 : ∀ j, j ∈ indices t₁ (t.nnodes + 1) l ↔ t.nnodes.toNat + 1 ≤ j.toNat ∧ j.toNat < t₁.nnodes.toNat := by
    intro j
    rw [horder1, mem_order (by omega), hn1]
  have hin2 : ∀ j, j ∈ indices t₂ t₁.nnodes r ↔ t₁.nnodes.toNat ≤ j.toNat ∧ j.toNat < t₂.nnodes.toNat := by
    intro j
    rw [h2.order, mem_order (by omega), hn2, hn1]
  have hne : ∀ j : NodeIx, t.nnodes.toNat + 1 ≤ j.toNat → j ≠ t.nnodes := fun j hj e => by rw [e] at hj; omega
  have hatl : ∀ j ∈ indices t₁ (t.nnodes + 1) l,
      (t₂.set t.nnodes (Node.mkInternal (t.nnodes + 1) t₁.nnodes 0)).at j = t₁.at j := by
    intro j hj
    rw [hin1] at hj
    rw [hat, if_neg (hne j hj.1), h2.others j (.inl hj.2)]
  have hatr : ∀ j ∈ indices t₂ t₁.nnodes r,
      (t₂.set t.nnodes (Node.mkInternal (t.nnodes + 1) t₁.nnodes 0)).at j = t₂.at j := by
    intro j hj
    rw [hin2] at hj
    rw [hat, if_neg (hne j (by omega))]
  have hcl := spells_congr hatl
  have hcr := spells_congr hatr
  have hidx : indices (t₂.set t.nnodes (Node.mkInternal (t.nnodes + 1) t₁.nnodes 0)) t.nnodes (.node l r) =
      t.nnodes :: (indices t₁ (t.nnodes + 1) l ++ indices t₂ t₁.nnodes r) := by
    rw [indices, hself]
    show _ :: indices _ (t.nnodes + 1) l ++ indices _ t₁.nnodes r = _
    rw [hcl.2, hcr.2]; rfl
  refine ⟨?_, ?_, ?_, ?_, ?_, ?_, ?_⟩
  · rw [set_nnodes, hn2, Shape.size]; omega
  · rw [set_nleaf, h2.nleaf, h1.nleaf, Shape.leafCount, BitVec.ofNat_add, BitVec.add_assoc]
  · rw [spells_node, hself]
    refine ⟨rfl, ?_, ?_⟩
    · show spells _ (t.nnodes + 1) l = true
      rw [hcl.1]; exact h1.spelled
    · show spells _ t₁.nnodes r = true
      rw [hcr.1]; exact h2.spelled
  · rw [hidx, horder1, h2.order, hn1, Shape.size, ← List.map_append]
    have e : List.range' t.nnodes.toNat (1 + l.size + r.size) =
        t.nnodes.toNat :: (List.range' (t.nnodes.toNat + 1) l.size ++ List.range' (t.nnodes.toNat + 1 + l.size) r.size) := by
      rw [show 1 + l.size + r.size = (l.size + r.size) + 1 by omega, List.range'_succ, List.range'_append_1]
    rw [e, List.map_cons, ofNat_toNat_ix]
  · rw [hidx]
    intro j hj
    simp only [List.mem_cons, List.mem_append] at hj
    rcases hj with rfl | hj | hj
    · rw [hself]; rfl
    · rw [hatl j hj]; exact h1.weights j hj
    · rw [hatr j hj]; exact h2.weights j hj
  · intro j hj
    simp only [Shape.size] at hj
    rw [hat, if_neg (fun e => by rw [e] at hj; omega), h2.others j (by omega),
      h1.others j (by dsimp only; omega)]
    exact at_congr rfl j
  · rw [set_root, h2.root, h1.root]

/-- `rd()` on the serialization of a tree reads that tree and nothing after it (rules R170, R174, R178). -/
theorem readNode_of_bits {sh : Shape} : ∀ {frames : Nat} {inp : InStream} {t : Tree} {rest : List Bool},
    inp.unread = sh.bits ++ rest → t.nnodes.toNat + sh.size ≤ 513 → sh.height < frames →
    (∀ v ∈ sh.values, v.toNat ≤ 256) →
    ∃ u, readNode frames inp t = .node t.nnodes (inp.advance sh.bits.length) u ∧ ReadOk t u sh := by
  induction sh with
  | leaf v =>
    intro frames inp t rest hb hn hf hv
    obtain ⟨k, rfl⟩ := Nat.exists_eq_succ_of_ne_zero (by omega : frames ≠ 0)
    simp only [Shape.size] at hn
    have hb' : inp.unread = [true] ++ (bitsOf 9 v.toNat ++ rest) := by simpa [Shape.bits] using hb
    have hu := unread_of_append (n := 1) rfl hb'
    have hval : BitVec.ofNat 9 (ofBits (bitsOf 9 v.toNat)) = v := by
      apply BitVec.eq_of_toNat_eq
      rw [ofBits_bitsOf, BitVec.toNat_ofNat]
      have := v.isLt
      omega
    have hv' := hv v (by simp [Shape.values])
    rw [readNode_succ, readBits_of_unread (n := 1) rfl (by omega) hb']
    dsimp only
    rw [if_neg (show t.nnodes.toNat ≠ 513 by omega), if_pos (by decide),
      readBits_of_unread (by simp) (by omega) hu, hval]
    dsimp only
    rw [if_neg (by omega)]
    refine ⟨addLeafNode v t, ?_, readOk_leaf t v (by omega)⟩
    rw [advance_advance]
    simp [Shape.bits]
  | node l r ihl ihr =>
    intro frames inp t rest hb hn hf hv
    obtain ⟨k, rfl⟩ := Nat.exists_eq_succ_of_ne_zero (by omega : frames ≠ 0)
    have hn' := hn
    simp only [Shape.size] at hn'
    simp only [Shape.height] at hf
    have hb' : inp.unread = [false] ++ (l.bits ++ (r.bits ++ rest)) := by simpa [Shape.bits] using hb
    have hu := unread_of_append (n := 1) rfl hb'
    have hsucc := nnodes_succ (t := t) (by omega)
    obtain ⟨t₁, e1, h1⟩ := ihl (frames := k) (inp := inp.advance 1) (t := { t with nnodes := t.nnodes + 1 }) hu
      (by dsimp only; omega) (by omega) (fun v h => hv v (by simp [Shape.values, h]))
    have hn1 : t₁.nnodes.toNat = t.nnodes.toNat + 1 + l.size := by rw [h1.nnodes]; exact congrArg (· + l.size) hsucc
    obtain ⟨t₂, e2, h2⟩ := ihr (frames := k) (inp := (inp.advance 1).advance l.bits.length) (t := t₁)
      (unread_of_append rfl hu) (by omega) (by omega) (fun v h => hv v (by simp [Shape.values, h]))
    refine ⟨_, ?_, readOk_node hn h1 h2⟩
    rw [readNode_succ, readBits_of_unread (n := 1) rfl (by omega) hb']
    dsimp only
    rw [if_neg (show t.nnodes.toNat ≠ 513 by omega), if_neg (by decide), e1]
    dsimp only
    rw [e2]
    dsimp only
    rw [advance_advance, advance_advance]
    have : (Shape.node l r).bits.length = 1 + l.bits.length + r.bits.length := by
      simp only [Shape.bits, List.cons_append, List.length_cons, List.length_append]; omega
    rw [this, Nat.add_assoc]

theorem readBits_unread {n : Nat} {i : InStream} {v : BitVec n} {j : InStream} (h : i.readBits n = (some v, j)) :
    j = i.advance n ∧ ∃ bs rest, bs.length = n ∧ i.unread = bs ++ rest ∧ v = BitVec.ofNat n (ofBits bs) := by
  rcases readBits_cases n i with ⟨_, h1⟩ | ⟨h2, _, h1⟩
  · rw [h1] at h; simp at h
  · rw [h1] at h
    simp only [Prod.mk.injEq, Option.some.injEq] at h
    exact ⟨h.2.symm, i.unread.take n, i.unread.drop n, by rw [List.length_take]; omega,
      (List.take_append_drop n _).symm, h.1.symm⟩

/-- `rd()` succeeds on nothing but the serialization of a tree (rule R180). -/
theorem bits_of_readNode : ∀ {frames : Nat} {inp inp' : InStream} {t u : Tree} {i : NodeIx},
    t.nnodes.toNat ≤ 513 → readNode frames inp t = .node i inp' u →
    ∃ (sh : Shape) (rest : List Bool), inp.unread = sh.bits ++ rest ∧ t.nnodes.toNat + sh.size ≤ 513 ∧ sh.height < frames ∧
      ∀ v ∈ sh.values, v.toNat ≤ 256 := by
  intro frames
  induction frames with
  | zero => intro inp inp' t u i _ h; simp [readNode] at h
  | succ frames ih =>
    intro inp inp' t u i hn h
    rw [readNode_succ] at h
    cases h1 : inp.readBits 1 with
    | mk o inp₁ =>
      rw [h1] at h
      cases o with
      | none => simp at h
      | some b =>
        obtain ⟨rfl, bs, rest, hbl, hb, rfl⟩ := readBits_unread h1
        obtain ⟨x, rfl⟩ := List.length_eq_one_iff.mp hbl
        dsimp only at h
        by_cases hcap : t.nnodes.toNat = Config.nodeCap
        · rw [if_pos hcap] at h; simp at h
        · rw [if_neg hcap] at h
          have hc : t.nnodes.toNat < 513 := lt_of_le_of_ne hn hcap
          have hu := unread_of_append (n := 1) rfl hb
          cases x with
          | true =>
            rw [if_pos (by decide)] at h
            cases h9 : (inp.advance 1).readBits 9 with
            | mk o inp₂ =>
              rw [h9] at h
              cases o with
              | none => simp at h
              | some v =>
                obtain ⟨rfl, vs, rest', hvl, hv, rfl⟩ := readBits_unread h9
                dsimp only at h
                by_cases hbad : 256 < (BitVec.ofNat 9 (ofBits vs)).toNat
                · rw [if_pos hbad] at h; simp at h
                · refine ⟨.leaf (BitVec.ofNat 9 (ofBits vs)), rest', ?_, by simp only [Shape.size]; omega,
                    by simp [Shape.height], ?_⟩
                  · have hlt : ofBits vs < 2 ^ 9 := by have := ofBits_lt vs; rwa [hvl] at this
                    rw [hb, ← hu, hv, Shape.bits, BitVec.toNat_ofNat, Nat.mod_eq_of_lt hlt, bitsOf_of_length hvl]
                    rfl
                  · intro w hw
                    simp only [Shape.values, List.mem_singleton] at hw
                    rw [hw]; omega
          | false =>
            rw [if_neg (by decide)] at h
            cases hl : readNode frames (inp.advance 1) { t with nnodes := t.nnodes + 1 } with
            | err e info inp₂ => rw [hl] at h; simp at h
            | node j inp₂ t₁ =>
              rw [hl] at h
              dsimp only at h
              cases hr : readNode frames inp₂ t₁ with
              | err e info inp₃ => rw [hr] at h; simp at h
              | node k inp₃ t₂ =>
                have hsucc := nnodes_succ hc
                obtain ⟨l, rest₁, hlb, hln, hlh, hlv⟩ := ih (by dsimp only; omega) hl
                dsimp only at hln
                obtain ⟨t₁', e1, ok1⟩ := readNode_of_bits (frames := frames) (t := { t with nnodes := t.nnodes + 1 })
                  hlb hln hlh hlv
                rw [hl] at e1
                simp only [Read.node.injEq] at e1
                obtain ⟨_, rfl, rfl⟩ := e1
                have hn1 : t₁.nnodes.toNat = t.nnodes.toNat + 1 + l.size := by
                  rw [ok1.nnodes]; exact congrArg (· + l.size) hsucc
                obtain ⟨r, rest₂, hrb, hrn, hrh, hrv⟩ := ih (by omega) hr
                refine ⟨.node l r, rest₂, ?_, by simp only [Shape.size]; omega, by simp only [Shape.height]; omega, ?_⟩
                · have hu2 := unread_of_append (n := l.bits.length) rfl hlb
                  rw [hb, ← hu, hlb, ← hu2, hrb]
                  simp [Shape.bits]
                · intro v hv
                  simp only [Shape.values, List.mem_append] at hv
                  rcases hv with hv | hv
                  · exact hlv v hv
                  · exact hrv v hv

/-- `rd()` on a serialization that is cut off runs out of data at a marker or in a value, and nothing else happens
(rule R175). -/
theorem readNode_of_cut {sh : Shape} : ∀ {frames : Nat} {inp : InStream} {t : Tree} {missing : List Bool},
    sh.bits = inp.unread ++ missing → missing ≠ [] → t.nnodes.toNat + sh.size ≤ 513 → sh.height < frames →
    (∀ v ∈ sh.values, v.toNat ≤ 256) →
    ∃ info j, readNode frames inp t = .err .prematureEndOfStream info j ∧ (info = 0 ∨ info = 1) ∧ j.eod = true ∧
      j.bytes = inp.bytes ∧ j.stall = inp.stall := by
  induction sh with
  | leaf v =>
    intro frames inp t missing hb hm hn hf hv
    obtain ⟨k, rfl⟩ := Nat.exists_eq_succ_of_ne_zero (by omega : frames ≠ 0)
    simp only [Shape.size] at hn
    rw [readNode_succ]
    cases hu : inp.unread with
    | nil =>
      rw [readBits_short (by rw [hu]; simp)]
      exact ⟨0, inp.atEnd, rfl, .inl rfl, rfl, rfl, rfl⟩
    | cons b bs =>
      rw [hu, Shape.bits, List.cons_append, List.cons.injEq] at hb
      obtain ⟨rfl, hb⟩ := hb
      have hu1 : (inp.advance 1).unread = bs := unread_of_append (n := 1) (bs := [true]) rfl hu
      rw [readBits_of_unread (n := 1) (bs := [true]) rfl (by omega) hu]
      dsimp only
      have hlen := congrArg List.length hb
      rw [length_bitsOf, List.length_append] at hlen
      have hm' : missing.length ≠ 0 := fun h => hm (List.length_eq_zero_iff.mp h)
      rw [if_neg (show t.nnodes.toNat ≠ 513 by omega), if_pos (by decide), readBits_short (by rw [hu1]; omega)]
      exact ⟨1, _, rfl, .inr rfl, rfl, rfl, rfl⟩
  | node l r ihl ihr =>
    intro frames inp t missing hb hm hn hf hv
    obtain ⟨k, rfl⟩ := Nat.exists_eq_succ_of_ne_zero (by omega : frames ≠ 0)
    simp only [Shape.size] at hn
    simp only [Shape.height] at hf
    have hsucc := nnodes_succ (t := t) (by omega)
    rw [readNode_succ]
    cases hu : inp.unread with
    | nil =>
      rw [readBits_short (by rw [hu]; simp)]
      exact ⟨0, inp.atEnd, rfl, .inl rfl, rfl, rfl, rfl⟩
    | cons b bs =>
      rw [hu, Shape.bits, List.cons_append, List.cons_append, List.cons.injEq] at hb
      obtain ⟨rfl, hb⟩ := hb
      have hu1 : (inp.advance 1).unread = bs := unread_of_append (n := 1) (bs := [false]) rfl hu
      rw [readBits_of_unread (n := 1) (bs := [false]) rfl (by omega) hu]
      dsimp only
      rw [if_neg (show t.nnodes.toNat ≠ 513 by omega), if_neg (by decide)]
      rcases List.append_eq_append_iff.mp hb with ⟨c, hc1, hc2⟩ | ⟨c, hc1, hc2⟩
      · obtain ⟨t₁, e1, h1⟩ := readNode_of_bits (sh := l) (frames := k) (inp := inp.advance 1) (t := { t with nnodes := t.nnodes + 1 })
          (by rw [hu1]; exact hc1) (by dsimp only; omega) (by omega) (fun v h => hv v (by simp [Shape.values, h]))
        have hn1 : t₁.nnodes.toNat = t.nnodes.toNat + 1 + l.size := by rw [h1.nnodes]; exact congrArg (· + l.size) hsucc
        obtain ⟨info, j, e2, hinfo, hj⟩ := ihr (frames := k) (inp := (inp.advance 1).advance l.bits.length) (t := t₁)
          (by rw [unread_of_append rfl (hu1.trans hc1)]; exact hc2) hm (by omega) (by omega)
          (fun v h => hv v (by simp [Shape.values, h]))
        rw [e1]
        dsimp only
        rw [e2]
        exact ⟨info, j, rfl, hinfo, hj⟩
      · cases c with
        | nil =>
          rw [List.append_nil] at hc1
          obtain ⟨t₁, e1, h1⟩ := readNode_of_bits (sh := l) (frames := k) (inp := inp.advance 1) (t := { t with nnodes := t.nnodes + 1 })
            (rest := []) (by rw [hu1, List.append_nil]; exact hc1.symm) (by dsimp only; omega) (by omega)
            (fun v h => hv v (by simp [Shape.values, h]))
          have hn1 : t₁.nnodes.toNat = t.nnodes.toNat + 1 + l.size := by
            rw [h1.nnodes]; exact congrArg (· + l.size) hsucc
          obtain ⟨info, j, e2, hinfo, hj⟩ := ihr (frames := k) (inp := (inp.advance 1).advance l.bits.length) (t := t₁)
            (missing := missing)
            (by rw [unread_of_append (rest := []) rfl (by rw [hu1, List.append_nil]; exact hc1.symm)]; exact hc2.symm)
            hm (by omega) (by omega) (fun v h => hv v (by simp [Shape.values, h]))
          rw [e1]
          dsimp only
          rw [e2]
          exact ⟨info, j, rfl, hinfo, hj⟩
        | cons x xs =>
          obtain ⟨info, j, e1, hinfo, hj⟩ := ihl (frames := k) (inp := inp.advance 1)
            (t := { t with nnodes := t.nnodes + 1 }) (missing := x :: xs) (by rw [hu1]; exact hc1) (by simp)
            (by dsimp only; omega) (by omega) (fun v h => hv v (by simp [Shape.values, h]))
          rw [e1]
          exact ⟨info, j, rfl, hinfo, hj⟩

/-! ## RDHDR's body -/

theorem magic_field : BitVec.ofNat 32 (ofBits (bitsOf 32 Config.magicTree.toNat)) = Config.magicTree := by
  rw [ofBits_bitsOf]; decide

/-- A tree RDHDR read from the empty memory satisfies the tree invariant (rule R180). -/
theorem treeOk_of_readOk {t u : Tree} {sh : Shape} (hn : t.nnodes = 0) (hl : t.nleaf = 0)
    (hu : ∀ i : NodeIx, t.at i = Node.invalid) (hs : sh.size ≤ 513) (h : ReadOk t u sh) :
    TreeOk { u with root := ⟨true, t.nnodes⟩ } sh := by
  have hc := fun i => spells_congr (t := u) (u := { u with root := ⟨true, t.nnodes⟩ }) (sh := sh) (i := i)
    fun j _ => at_congr rfl j
  have h0 : t.nnodes.toNat = 0 := by rw [hn]; rfl
  have hord := h.order
  rw [h0] at hord
  have hnn := h.nnodes
  rw [h0, Nat.zero_add] at hnn
  have hmem : ∀ j : NodeIx, j ∈ indices u t.nnodes sh ↔ j.toNat < sh.size := fun j => by
    rw [hord, mem_order (by omega)]; omega
  refine ⟨rfl, ?_, ?_, hnn.symm, ?_, ?_, ?_⟩
  · show spells _ t.nnodes sh = true
    rw [(hc _).1]; exact h.spelled
  · show (indices _ t.nnodes sh).Nodup
    rw [(hc _).2, hord]
    refine List.Nodup.map_on ?_ List.nodup_range'
    intro a ha b hb e
    rw [List.mem_range'_1] at ha hb
    have := congrArg BitVec.toNat e
    rw [BitVec.toNat_ofNat, BitVec.toNat_ofNat, Nat.mod_eq_of_lt (by omega), Nat.mod_eq_of_lt (by omega)] at this
    exact this
  · show sh.leafCount = u.nleaf.toNat
    have := sh.size_eq
    rw [h.nleaf, hl, show (0 : BitVec 10) = 0#10 from rfl, BitVec.zero_add, BitVec.toNat_ofNat, Nat.mod_eq_of_lt (by omega)]
  · intro i hi
    have hi' : i < sh.size := by rw [← hnn]; exact hi
    show (u.at _).valid = true
    refine valid_of_spells h.spelled _ ((hmem _).mpr ?_)
    rw [BitVec.toNat_ofNat, Nat.mod_eq_of_lt (by omega)]
    exact hi'
  · intro i h1 h2
    have h1' : sh.size ≤ i := by rw [← hnn]; exact h1
    show u.at _ = _
    rw [h.others _ (.inr (by rw [h0, BitVec.toNat_ofNat, Nat.mod_eq_of_lt (by omega)]; omega))]
    exact hu _

/-- RDHDR over the empty memory, on an input that holds the magic field and the serialization of a tree (rules R170,
R174, R178, R180). -/
theorem readHeader_of_bits {sh : Shape} {inp : InStream} {t : Tree} {rest : List Bool}
    (hb : inp.unread = bitsOf 32 Config.magicTree.toNat ++ (sh.bits ++ rest)) (hs : sh.leafCount ≤ 257)
    (hv : ∀ v ∈ sh.values, v.toNat ≤ 256) (ht : t = Tree.empty) :
    ∃ u, readHeader inp t = .node 0 (inp.advance (32 + sh.bits.length)) u ∧ TreeOk u sh ∧ u.root.index = 0 ∧
      indices u 0 sh = (List.range sh.size).map (BitVec.ofNat 10) ∧ ∀ j, (u.at j).weight = 0 := by
  have hsz := sh.size_eq
  have hht := sh.height_lt_leafCount
  obtain ⟨u, e, h⟩ := readNode_of_bits (frames := 514) (t := { t with nnodes := 0, nleaf := 0 })
    (unread_of_append (n := 32) (by simp) hb) (by simp; omega) (by omega) hv
  refine ⟨{ u with root := ⟨true, 0⟩ }, ?_, ?_, rfl, ?_, ?_⟩
  · rw [readHeader, readBits_of_unread (by simp) (by omega) hb, magic_field]
    dsimp only
    rw [if_neg (by simp), e]
    dsimp only
    rw [advance_advance]
  · exact treeOk_of_readOk rfl rfl (fun i => by show t.at i = _; rw [ht, at_empty]) (by omega) h
  · rw [(spells_congr (t := u) (u := { u with root := ⟨true, 0⟩ }) (sh := sh) (i := 0) fun j _ => at_congr rfl j).2,
      List.range_eq_range']
    exact h.order
  · intro j
    show (u.at j).weight = 0
    by_cases hj : j.toNat < sh.size
    · exact h.weights j (by rw [h.order, mem_order (by simp; omega)]; simpa using hj)
    · rw [h.others j (.inr (by simp; omega))]
      show (t.at j).weight = 0
      rw [ht, at_empty]; rfl

/-- RDHDR succeeds on nothing else (rule R180). -/
theorem bits_of_readHeader {inp inp' : InStream} {t u : Tree} {i : NodeIx} (h : readHeader inp t = .node i inp' u) :
    ∃ (sh : Shape) (rest : List Bool), inp.unread = bitsOf 32 Config.magicTree.toNat ++ (sh.bits ++ rest) ∧
      sh.leafCount ≤ 257 ∧ ∀ v ∈ sh.values, v.toNat ≤ 256 := by
  rw [readHeader] at h
  cases h1 : inp.readBits 32 with
  | mk o inp₁ =>
    rw [h1] at h
    cases o with
    | none => simp at h
    | some m =>
      obtain ⟨rfl, bs, rest, hbl, hb, rfl⟩ := readBits_unread h1
      dsimp only at h
      by_cases hm : BitVec.ofNat 32 (ofBits bs) = Config.magicTree
      · rw [if_neg (by simp [hm])] at h
        cases hr : readNode 514 (inp.advance 32) { t with nnodes := 0, nleaf := 0 } with
        | err e info inp₂ => rw [hr] at h; simp at h
        | node j inp₂ t₁ =>
          obtain ⟨sh, rest', hsb, hsn, _, hv⟩ := bits_of_readNode (by simp) hr
          have hsz := sh.size_eq
          have hsn' : sh.size ≤ 513 := by simpa using hsn
          refine ⟨sh, rest', ?_, by omega, hv⟩
          have hlt : ofBits bs < 2 ^ 32 := by have := ofBits_lt bs; rwa [hbl] at this
          have e : (BitVec.ofNat 32 (ofBits bs)).toNat = ofBits bs := by
            rw [BitVec.toNat_ofNat, Nat.mod_eq_of_lt hlt]
          rw [hb, ← hm, e, bitsOf_of_length hbl, ← hsb, unread_of_append (n := 32) hbl hb]
      · rw [if_pos hm] at h; simp at h

end Sys2Proof.Machine
end

