-- ==== Sys2Proof/Laws/Frames.lean ====
section
/-! SUPPORT. What the body of a command can change at all: tables, cursors, written bits, transient state and the
signals, never the sequencing, the flags of the dispatch, the control register or the other pins. -/

namespace Sys2Proof.Machine

/-- `t` differs from `s` at most in tables, cursors, EOD, REWOUND, written bits, transient state and signals. -/
structure Keeps (s t : State) : Prop where
  phase   : t.phase = s.phase
  busy    : t.busy = s.busy
  done    : t.done = s.done
  cmddrop : t.cmddrop = s.cmddrop
  err     : t.err = s.err
  errinfo : t.errinfo = s.errinfo
  ie      : t.ie = s.ie
  free    : t.free = s.free
  bytes   : t.inp.bytes = s.inp.bytes
  source  : t.inp.stall = s.inp.stall
  sink    : t.outp.stall = s.outp.stall
  rst     : t.port.rst = s.port.rst
  host    : t.port.host = s.port.host
  answer  : t.port.answer = s.port.answer
  pending : t.port.pending = s.port.pending
  waiting : t.waiting = s.waiting

theorem Keeps.refl (s : State) : Keeps s s :=
  ⟨rfl, rfl, rfl, rfl, rfl, rfl, rfl, rfl, rfl, rfl, rfl, rfl, rfl, rfl, rfl, rfl⟩

theorem Keeps.trans {s t u : State} (h1 : Keeps s t) (h2 : Keeps t u) : Keeps s u :=
  ⟨h2.phase.trans h1.phase, h2.busy.trans h1.busy, h2.done.trans h1.done, h2.cmddrop.trans h1.cmddrop,
    h2.err.trans h1.err, h2.errinfo.trans h1.errinfo, h2.ie.trans h1.ie, h2.free.trans h1.free,
    h2.bytes.trans h1.bytes, h2.source.trans h1.source, h2.sink.trans h1.sink, h2.rst.trans h1.rst,
    h2.host.trans h1.host, h2.answer.trans h1.answer, h2.pending.trans h1.pending,
    h2.waiting.trans h1.waiting⟩

/-- An error a body raises: raised during execution (rule R242). -/
abbrev ErrCode.InExecution (e : ErrCode) : Prop := e ≠ .noError ∧ e.atDispatch = false

/-- The end of a body keeps the frame, and its error is one raised during execution. -/
def Run.Keeping (s : State) : Run → Prop
  | .ok t => Keeps s t
  | .err e _ t => e.InExecution ∧ Keeps s t
  | .wait t => Keeps s t
  | .fault _ => True

theorem Run.Keeping.andThen {s : State} {r : Run} {f : State → Run} (h : r.Keeping s)
    (hf : ∀ t, Keeps s t → (f t).Keeping t) : (r.andThen f).Keeping s := by
  cases r with
  | ok t =>
    have ht : Keeps s t := h
    have := hf t ht
    rw [andThen_of_ok]
    cases hft : f t with
    | ok u => rw [hft] at this; exact ht.trans this
    | err e info u => rw [hft] at this; exact ⟨this.1, ht.trans this.2⟩
    | wait u => rw [hft] at this; exact ht.trans this
    | fault x => trivial
  | err e info t => exact h
  | wait t => exact h
  | fault x => trivial

theorem keeps_keepOut (n : Nat) (s : State) : Keeps s (keepOut n s) :=
  ⟨rfl, rfl, rfl, rfl, rfl, rfl, rfl, rfl, rfl, rfl, rfl, rfl, rfl, rfl, rfl, rfl⟩

theorem Run.Keeping.drain {s : State} {r : Run} (h : r.Keeping s) : (r.drain s).Keeping s := by
  rw [Run.drain]
  split
  · exact h
  · cases r with
    | ok t => rw [Run.upTo]; split; exacts [h.trans (keeps_keepOut _ t), h]
    | err e info t => rw [Run.upTo]; split; exacts [h.2.trans (keeps_keepOut _ t), h]
    | wait t => exact h.trans (keeps_keepOut _ t)
    | fault x => trivial

theorem readBits_frame (n : Nat) (i : InStream) :
    (i.readBits n).2.bytes = i.bytes ∧ (i.readBits n).2.stall = i.stall ∧ (i.readBits n).2.rewound = i.rewound := by
  rcases readBits_cases n i with ⟨_, h⟩ | ⟨_, _, h⟩ <;> rw [h] <;> exact ⟨rfl, rfl, rfl⟩

theorem countLoop_frame (fuel : Nat) (t : Tally) :
    (countLoop fuel t).1.inp.bytes = t.inp.bytes ∧ (countLoop fuel t).1.inp.stall = t.inp.stall := by
  induction fuel generalizing t with
  | zero => exact ⟨rfl, rfl⟩
  | succ k ih =>
    have h := readBits_frame 8 t.inp
    rw [countLoop]
    rcases ask_cases 8 t.inp with ⟨_, ha⟩ | ⟨_, ha⟩ <;> rw [ha]
    · exact ⟨rfl, rfl⟩
    cases hr : t.inp.readBits 8 with
    | mk o j =>
      rw [hr] at h
      cases o with
      | none => exact ⟨h.1, h.2.1⟩
      | some r =>
        dsimp only
        split
        · exact ⟨h.1, h.2.1⟩
        · exact ⟨(ih _).1.trans h.1, (ih _).2.trans h.2.1⟩

theorem countBody_keeps (s : State) : (countBody s).Keeping s := by
  have h := countLoop_frame s.inp.passReads { freq := Vector.replicate 256 0, inlen := 0, inp := s.inp }
  rw [countBody]
  split <;> rename_i t ht <;> rw [ht] at h
  · exact ⟨rfl, rfl, rfl, rfl, rfl, rfl, rfl, rfl, h.1, h.2, rfl, rfl, rfl, rfl, rfl, rfl⟩
  · exact ⟨by decide, rfl, rfl, rfl, rfl, rfl, rfl, rfl, rfl, h.1, h.2, rfl, rfl, rfl, rfl, rfl, rfl⟩
  · exact ⟨rfl, rfl, rfl, rfl, rfl, rfl, rfl, rfl, h.1, h.2, rfl, rfl, rfl, rfl, rfl, rfl⟩

theorem buildBody_keeps (s : State) : (buildBody s).Keeping s :=
  ⟨rfl, rfl, rfl, rfl, rfl, rfl, rfl, rfl, rfl, rfl, rfl, rfl, rfl, rfl, rfl, rfl⟩

theorem gencodeBody_keeps (s : State) : (gencodeBody s).Keeping s := by
  rw [gencodeBody]
  split
  · trivial
  · exact ⟨rfl, rfl, rfl, rfl, rfl, rfl, rfl, rfl, rfl, rfl, rfl, rfl, rfl, rfl, rfl, rfl⟩

theorem writeBits_stall (o : OutStream) (n v : Nat) : (o.writeBits n v).stall = o.stall := writeList_stall _ _

theorem wrhdrBody_keeps (s : State) : (wrhdrBody s).Keeping s := by
  rw [wrhdrBody]
  split
  · trivial
  · exact Run.Keeping.drain ⟨rfl, rfl, rfl, rfl, rfl, rfl, rfl, rfl, rfl, rfl, by
      rw [writeList_stall, writeBits_stall], rfl, rfl, rfl, rfl, rfl⟩

/-- The streams at the end of ENCODE's loop. -/
def Encoded.streams : Encoded → InStream × OutStream
  | .done inp outp => (inp, outp)
  | .noCode _ inp outp => (inp, outp)
  | .wait inp outp => (inp, outp)

theorem encodeLoop_frame (code : Vector Code 257) (fuel : Nat) (inp : InStream) (outp : OutStream) :
    (encodeLoop code fuel inp outp).streams.1.bytes = inp.bytes ∧
      (encodeLoop code fuel inp outp).streams.1.stall = inp.stall ∧
      (encodeLoop code fuel inp outp).streams.2.stall = outp.stall := by
  induction fuel generalizing inp outp with
  | zero => exact ⟨rfl, rfl, rfl⟩
  | succ k ih =>
    have h := readBits_frame 8 inp
    rw [encodeLoop]
    rcases ask_cases 8 inp with ⟨_, ha⟩ | ⟨_, ha⟩ <;> rw [ha]
    · exact ⟨rfl, rfl, rfl⟩
    cases hr : inp.readBits 8 with
    | mk o j =>
      rw [hr] at h
      cases o with
      | none => exact ⟨h.1, h.2.1, rfl⟩
      | some r =>
        dsimp only
        split
        · exact ⟨(ih _ _).1.trans h.1, (ih _ _).2.1.trans h.2.1, (ih _ _).2.2.trans (writeBits_stall _ _ _)⟩
        · exact ⟨h.1, h.2.1, rfl⟩

theorem encodeBody_keeps (s : State) : (encodeBody s).Keeping s := by
  have h := encodeLoop_frame s.code s.inp.passReads s.inp.rewind s.outp
  rw [encodeBody]
  apply Run.Keeping.drain
  split <;> rename_i heq <;> rw [heq] at h
  · exact ⟨rfl, rfl, rfl, rfl, rfl, rfl, rfl, rfl, h.1, h.2.1, by
      rw [flush_stall]; exact (writeBits_stall _ _ _).trans h.2.2, rfl, rfl, rfl, rfl, rfl⟩
  · exact ⟨by decide, rfl, rfl, rfl, rfl, rfl, rfl, rfl, rfl, h.1, h.2.1, h.2.2, rfl, rfl, rfl, rfl, rfl⟩
  · exact ⟨rfl, rfl, rfl, rfl, rfl, rfl, rfl, rfl, h.1, h.2.1, h.2.2, rfl, rfl, rfl, rfl, rfl⟩

theorem frame_of_inp {s : State} {inp : InStream} {tree : Tree} {trav : Transient} (h1 : inp.bytes = s.inp.bytes)
    (h2 : inp.stall = s.inp.stall) : Keeps s { s with inp := inp, tree := tree, trav := trav } :=
  ⟨rfl, rfl, rfl, rfl, rfl, rfl, rfl, rfl, h1, h2, rfl, rfl, rfl, rfl, rfl, rfl⟩

theorem tokenBody_keeps (i : Instr) (s : State) : (tokenBody i s).Keeping s := by
  cases i <;> try exact Keeps.refl s
  · exact frame_of_inp rfl rfl
  · rw [tokenBody, internalToken]
    split
    · exact ⟨by decide, rfl, rfl, rfl, rfl, rfl, rfl, rfl, rfl, rfl, rfl, rfl, rfl, rfl, rfl, rfl, rfl⟩
    · exact ⟨rfl, rfl, rfl, rfl, rfl, rfl, rfl, rfl, rfl, rfl, rfl, rfl, rfl, rfl, rfl, rfl⟩
  · rw [tokenBody, leafToken]
    split
    · exact ⟨by decide, rfl, rfl, rfl, rfl, rfl, rfl, rfl, rfl, rfl, rfl, rfl, rfl, rfl, rfl, rfl, rfl⟩
    · split
      · exact ⟨by decide, rfl, rfl, rfl, rfl, rfl, rfl, rfl, rfl, rfl, rfl, rfl, rfl, rfl, rfl, rfl, rfl⟩
      · exact ⟨rfl, rfl, rfl, rfl, rfl, rfl, rfl, rfl, rfl, rfl, rfl, rfl, rfl, rfl, rfl, rfl⟩

/-- An error found in place of a token is one of execution and leaves the input as the reads left it. -/
theorem fetchToken_bad {s : State} {e : ErrCode} {info : Word} {inp : InStream}
    (h : fetchToken s = some (.bad e info inp)) :
    e.InExecution ∧ inp.bytes = s.inp.bytes ∧ inp.stall = s.inp.stall ∧ inp.rewound = s.inp.rewound := by
  have h32 := readBits_frame 32 s.inp
  have h1 := readBits_frame 1 s.inp
  rw [fetchToken] at h
  split at h
  · simp at h
  · rw [Option.some.injEq, fetchMagic] at h
    rcases ask_cases 32 s.inp with ⟨_, ha⟩ | ⟨_, ha⟩ <;> rw [ha] at h
    · simp at h
    cases hr : s.inp.readBits 32 with
    | mk o j =>
      rw [hr] at h h32
      cases o with
      | none => simp only [Fetched.bad.injEq] at h; rw [← h.1, ← h.2.2]; exact ⟨by decide, h32⟩
      | some m =>
        dsimp only at h
        split at h
        · simp at h
        · simp only [Fetched.bad.injEq] at h; rw [← h.1, ← h.2.2]; exact ⟨by decide, h32⟩
  · rw [Option.some.injEq, fetchTree] at h
    rcases ask_cases 1 s.inp with ⟨_, ha⟩ | ⟨_, ha⟩ <;> rw [ha] at h
    · simp at h
    cases hr : s.inp.readBits 1 with
    | mk o j =>
      rw [hr] at h h1
      cases o with
      | none => simp only [Fetched.bad.injEq] at h; rw [← h.1, ← h.2.2]; exact ⟨by decide, h1⟩
      | some b =>
        dsimp only at h
        split at h
        · simp only [Fetched.bad.injEq] at h; rw [← h.1, ← h.2.2]; exact ⟨by decide, h1⟩
        · split at h
          · simp at h
          · have h9 := readBits_frame 9 j
            rcases ask_cases 9 j with ⟨_, ha⟩ | ⟨_, ha⟩ <;> rw [ha] at h
            · simp at h
            cases hr' : j.readBits 9 with
            | mk o' k =>
              rw [hr'] at h h9
              have hb := h9.1.trans h1.1
              have ha := h9.2.1.trans h1.2.1
              have hw := h9.2.2.trans h1.2.2
              cases o' with
              | none => simp only [Fetched.bad.injEq] at h; rw [← h.1, ← h.2.2]; exact ⟨by decide, hb, ha, hw⟩
              | some v =>
                dsimp only at h
                split at h
                · simp only [Fetched.bad.injEq] at h; rw [← h.1, ← h.2.2]; exact ⟨by decide, hb, ha, hw⟩
                · simp at h

theorem readToken_keeps (s : State) : (readToken s).Keeping s := by
  rw [readToken]
  cases hf : fetchToken s with
  | none => exact Keeps.refl s
  | some x =>
    cases x with
    | token i => exact tokenBody_keeps i s
    | wait => exact Keeps.refl s
    | bad e info inp =>
      have := fetchToken_bad hf
      exact ⟨this.1, rfl, rfl, rfl, rfl, rfl, rfl, rfl, rfl, this.2.1, this.2.2.1, rfl, rfl, rfl, rfl, rfl, rfl⟩

theorem readTokens_keeps (fuel : Nat) (s : State) : (readTokens fuel s).Keeping s := by
  induction fuel generalizing s with
  | zero =>
    rw [readTokens]
    split
    · exact Keeps.refl s
    · trivial
  | succ k ih =>
    rw [readTokens]
    split
    · exact Keeps.refl s
    · exact (readToken_keeps s).andThen fun t _ => ih t

theorem rdhdrBody_keeps (s : State) : (rdhdrBody s).Keeping s := by
  have h := readTokens_keeps Config.headerTokens { s with trav := { s.trav with stage := .magic } }
  rw [rdhdrBody]
  have h0 : Keeps s { s with trav := { s.trav with stage := .magic } } := frame_of_inp rfl rfl
  cases hr : readTokens Config.headerTokens { s with trav := { s.trav with stage := .magic } } with
  | ok t => rw [hr] at h; exact h0.trans h
  | err e info t => rw [hr] at h; exact ⟨h.1, h0.trans h.2⟩
  | wait t => rw [hr] at h; exact h0.trans h
  | fault f => trivial

/-- The input at the end of a descent. -/
def Descent.inp : Descent → InStream
  | .leaf _ inp => inp
  | .endOfData _ inp => inp
  | .wait _ inp => inp

theorem descend_frame (t : Tree) (fuel : Nat) (cur : NodeIx) (inp : InStream) :
    (descend t fuel cur inp).inp.bytes = inp.bytes ∧ (descend t fuel cur inp).inp.stall = inp.stall ∧
      (descend t fuel cur inp).inp.rewound = inp.rewound := by
  induction fuel generalizing cur inp with
  | zero => rw [descend]; split <;> exact ⟨rfl, rfl, rfl⟩
  | succ k ih =>
    have h := readBits_frame 1 inp
    rw [descend]
    split
    · exact ⟨rfl, rfl, rfl⟩
    · rcases ask_cases 1 inp with ⟨_, ha⟩ | ⟨_, ha⟩ <;> rw [ha]
      · exact ⟨rfl, rfl, rfl⟩
      cases hr : inp.readBits 1 with
      | mk o j =>
        rw [hr] at h
        cases o with
        | none => exact h
        | some b => exact ⟨(ih _ _).1.trans h.1, (ih _ _).2.1.trans h.2.1, (ih _ _).2.2.trans h.2.2⟩

/-- The streams at the end of DECODE's loop. -/
def Decoded.streams : Decoded → InStream × OutStream
  | .done _ inp outp => (inp, outp)
  | .endOfData _ inp outp => (inp, outp)
  | .wait _ inp outp => (inp, outp)

theorem decodeLoop_frame (t : Tree) (reads fuel : Nat) (inp : InStream) (outp : OutStream) :
    (decodeLoop t reads fuel inp outp).streams.1.bytes = inp.bytes ∧
      (decodeLoop t reads fuel inp outp).streams.1.stall = inp.stall ∧
      (decodeLoop t reads fuel inp outp).streams.2.stall = outp.stall := by
  induction fuel generalizing inp outp with
  | zero => exact ⟨rfl, rfl, rfl⟩
  | succ k ih =>
    have h := descend_frame t reads t.root.index inp
    rw [decodeLoop]
    cases hd : descend t reads t.root.index inp with
    | endOfData cur j => rw [hd] at h; exact ⟨h.1, h.2.1, rfl⟩
    | wait cur j => rw [hd] at h; exact ⟨h.1, h.2.1, rfl⟩
    | leaf cur j =>
      rw [hd] at h
      dsimp only
      split
      · exact ⟨h.1, h.2.1, rfl⟩
      · exact ⟨(ih _ _).1.trans h.1, (ih _ _).2.1.trans h.2.1, (ih _ _).2.2.trans (writeBits_stall _ _ _)⟩

theorem decodeBody_keeps (s : State) : (decodeBody s).Keeping s := by
  have h := decodeLoop_frame s.tree s.inp.descentReads s.inp.descents s.inp s.outp
  rw [decodeBody]
  split
  · exact ⟨by decide, Keeps.refl s⟩
  · apply Run.Keeping.drain
    split <;> rename_i heq <;> rw [heq] at h
    · exact ⟨rfl, rfl, rfl, rfl, rfl, rfl, rfl, rfl, h.1, h.2.1, by rw [flush_stall]; exact h.2.2, rfl, rfl, rfl, rfl, rfl⟩
    · exact ⟨by decide, rfl, rfl, rfl, rfl, rfl, rfl, rfl, rfl, h.1, h.2.1, h.2.2, rfl, rfl, rfl, rfl, rfl⟩
    · exact ⟨rfl, rfl, rfl, rfl, rfl, rfl, rfl, rfl, h.1, h.2.1, h.2.2, rfl, rfl, rfl, rfl, rfl⟩

theorem compressBody_keeps (s : State) : (compressBody s).Keeping s :=
  ((((countBody_keeps s).andThen fun t _ => buildBody_keeps t).andThen fun t _ => gencodeBody_keeps t).andThen
    fun t _ => wrhdrBody_keeps t).andThen fun t _ => encodeBody_keeps t

theorem decompressBody_keeps (s : State) : (decompressBody s).Keeping s :=
  (rdhdrBody_keeps s).andThen fun t _ => decodeBody_keeps t

end Sys2Proof.Machine
end

