-- ==== Sys2Proof/Laws/Exec.lean ====
section
/-! SUPPORT. What `exec` can answer for a command, said once for all of them: every arm but those of NOP, CLEAR and the
tokens is `issue` over a body, and a body keeps what `Keeps` lists. -/

namespace Sys2Proof.Machine

theorem bodyOf_keeps (i : Instr) (s : State) : (bodyOf i s).Keeping s := by
  cases i
  case count => exact countBody_keeps s
  case build => exact buildBody_keeps s
  case gencode => exact gencodeBody_keeps s
  case wrhdr => exact wrhdrBody_keeps s
  case encode => exact encodeBody_keeps s
  case rdhdr => exact rdhdrBody_keeps s
  case decode => exact decodeBody_keeps s
  case compress => exact compressBody_keeps s
  case decompress => exact decompressBody_keeps s
  all_goals exact Keeps.refl s

/-- The arm of a command other than NOP and CLEAR. -/
theorem exec_issue {i : Instr} (hc : i.isCommand = true) (hn : i ≠ .nop) (hl : i ≠ .clear) (s : State) :
    exec i s = issue i (bodyOf i) s := by
  cases i
  case nop => exact absurd rfl hn
  case clear => exact absurd rfl hl
  case magic => exact absurd hc (by decide)
  case internal => exact absurd hc (by decide)
  case leaf => exact absurd hc (by simp [Instr.isCommand])
  all_goals rfl

/-- How a command accepted in `s` can go on: it waits, it completes, or it raises. -/
theorem settle_bodyOf {i : Instr} {s t : State} (h : settle i s (bodyOf i s) = .next t) :
    (∃ u, bodyOf i s = .wait u ∧ Keeps s u ∧ t = hold i s u) ∨
    (∃ u, bodyOf i s = .ok u ∧ Keeps s u ∧ t = complete i u) ∨
    (∃ e info u, bodyOf i s = .err e info u ∧ e.InExecution ∧ Keeps s u ∧ t = raiseExec e info u) := by
  have hk := bodyOf_keeps i s
  rcases settle_cases i s (bodyOf i s) with ⟨u, hb, h1⟩ | ⟨u, hb, h1⟩ | ⟨e, info, u, hb, h1⟩ | ⟨f, _, h1⟩
  · rw [h1] at h; injection h with h
    rw [hb] at hk
    exact .inl ⟨u, hb, hk, h.symm⟩
  · rw [h1] at h; injection h with h
    rw [hb] at hk
    exact .inr (.inl ⟨u, hb, hk, h.symm⟩)
  · rw [h1] at h; injection h with h
    rw [hb] at hk
    exact .inr (.inr ⟨e, info, u, hb, hk.1, hk.2, h.symm⟩)
  · rw [h1] at h; cases h

/-- Everything a command other than NOP and CLEAR can do (rules R110, R112, R241). -/
inductive Executed (i : Instr) (s t : State) : Prop where
  | dropped (hb : s.busy = true) (ht : t = dropCommand s)
  | ignored (hb : s.busy = false) (he : s.err ≠ .noError) (ht : t = s)
  | outOfPhase (hb : s.busy = false) (he : s.err = .noError) (hp : s.phase ∉ legalPhases i)
      (ht : t = raise .sequenceError (commandWord i) s)
  | countHeader (hb : s.busy = false) (he : s.err = .noError) (hp : s.phase ∈ legalPhases i)
      (hm : i.headerMode = some .countHeader) (ht : t = raise .unimplemented (commandWord i) s)
  | waits (hb : s.busy = false) (he : s.err = .noError) (hp : s.phase ∈ legalPhases i)
      (hm : i.headerMode ≠ some .countHeader) (u : State) (hu : bodyOf i (accept s) = .wait u) (hk : Keeps (accept s) u)
      (ht : t = hold i (accept s) u)
  | completed (hb : s.busy = false) (he : s.err = .noError) (hp : s.phase ∈ legalPhases i) (u : State)
      (hu : bodyOf i (accept s) = .ok u) (hk : Keeps (accept s) u) (ht : t = complete i u)
  | raised (hb : s.busy = false) (he : s.err = .noError) (hp : s.phase ∈ legalPhases i) (e : ErrCode) (info : Word)
      (u : State) (hu : bodyOf i (accept s) = .err e info u) (hx : e.InExecution) (hk : Keeps (accept s) u)
      (ht : t = raiseExec e info u)

theorem exec_cases {i : Instr} {s t : State} (hc : i.isCommand = true) (hn : i ≠ .nop) (hl : i ≠ .clear)
    (h : exec i s = .next t) : Executed i s t := by
  rw [exec_issue hc hn hl] at h
  rcases issue_cases i (bodyOf i) s with ⟨a, b⟩ | ⟨a, b, c⟩ | ⟨a, b, c, d⟩ | ⟨a, b, c, d, e⟩ | ⟨a, b, c, d, e⟩
  · rw [b] at h; injection h with h; exact .dropped a h.symm
  · rw [c] at h; injection h with h; exact .ignored a b h.symm
  · rw [d] at h; injection h with h; exact .outOfPhase a b c h.symm
  · rw [e] at h; injection h with h; exact .countHeader a b c d h.symm
  · rw [e] at h
    rcases settle_bodyOf h with ⟨u, h1, h2, h3⟩ | ⟨u, h1, h2, h3⟩ | ⟨e, info, u, h1, h2, h3, h4⟩
    · exact .waits a b c d u h1 h2 h3
    · exact .completed a b c u h1 h2 h3
    · exact .raised a b c e info u h1 h2 h3 h4

theorem nextPhase_eq (i : Instr) (p : Phase) (hc : i.isCommand = true) (hn : i ≠ .nop) :
    some (nextPhase i p) = phaseAfter i := by
  cases i
  case nop => exact absurd rfl hn
  case magic => exact absurd hc (by decide)
  case internal => exact absurd hc (by decide)
  case leaf => exact absurd hc (by simp [Instr.isCommand])
  all_goals rfl

/-- Everything the collaborators' going on can do: nothing waits, or the waiting command is taken again from its
acceptance. -/
theorem goOn_cases {source : Option SourceStall} {sink : Option Nat} {s t : State} (h : goOn source sink s = .next t) :
    s.waiting = none ∧ t = moveStalls source sink s ∨
    ∃ w, s.waiting = some w ∧ settle w.cmd (moveStalls source sink (beforeCommand s))
      (bodyOf w.cmd (moveStalls source sink (beforeCommand s))) = .next t := by
  rw [goOn] at h
  split at h
  · injection h with h; exact .inl ⟨‹_›, h.symm⟩
  · exact .inr ⟨_, ‹_›, h⟩

/-! ## Tokens (log 3) -/

/-- The end of a token: the reader goes on, RDHDR is complete, or it raised. -/
theorem settleToken_cases {r : Run} {t : State} (h : settleToken r = .next t) :
    (∃ u, r = .ok u ∧ u.trav.stage ≠ .off ∧ t = u) ∨
    (∃ u, r = .ok u ∧ u.trav.stage = .off ∧ t = complete (.rdhdr .treeHeader) u) ∨
    (∃ e info u, r = .err e info u ∧ t = raiseExec e info u) ∨
    ∃ u, r = .wait u ∧ t = u := by
  cases r with
  | ok u =>
    simp only [settleToken] at h
    injection h with h
    split at h
    · rename_i hs; exact .inr (.inl ⟨u, rfl, hs, h.symm⟩)
    · rename_i hs; exact .inl ⟨u, rfl, hs, h.symm⟩
  | err e info u =>
    simp only [settleToken] at h
    injection h with h
    exact .inr (.inr (.inl ⟨e, info, u, rfl, h.symm⟩))
  | wait u =>
    simp only [settleToken] at h
    injection h with h
    exact .inr (.inr (.inr ⟨u, rfl, h.symm⟩))
  | fault f => cases h

/-- A token has no effect, or the reader stands where it is expected and takes it. -/
theorem token_cases {i : Instr} {s t : State} (hc : i.isCommand = false) (h : exec i s = .next t) :
    t = s ∨ s.trav.stage ≠ .off ∧ settleToken (tokenBody i s) = .next t := by
  cases i <;> simp only [Instr.isCommand, Bool.true_eq_false] at hc
  all_goals
    simp only [exec, execMagic, execInternal, execLeaf] at h
    split at h
    · rename_i hs
      exact .inr ⟨by rw [hs]; decide, h⟩
    · injection h with h
      exact .inl h.symm

end Sys2Proof.Machine
end

