-- ==== Sys2Proof/Laws/Bodies.lean ====
section
/-! SUPPORT. What each body that ends well leaves as it was: the tables of the other units, the streams it does not
use, and every byte that is in OUT. -/

namespace Sys2Proof.Machine

/-- `t` has the tables of `s` but for the tree. -/
structure SameTables (s t : State) : Prop where
  freq  : t.freq = s.freq
  inlen : t.inlen = s.inlen
  pq    : t.pq = s.pq
  code  : t.code = s.code

theorem SameTables.refl (s : State) : SameTables s s := ⟨rfl, rfl, rfl, rfl⟩

theorem SameTables.trans {s t u : State} (h1 : SameTables s t) (h2 : SameTables t u) : SameTables s u :=
  ⟨h2.freq.trans h1.freq, h2.inlen.trans h1.inlen, h2.pq.trans h1.pq, h2.code.trans h1.code⟩

/-! ## What is in OUT stays -/

theorem writeList_out_prefix (o : OutStream) (bs : List Bool) : o.out <+: (o.writeList bs).out := by
  induction bs generalizing o with
  | nil => exact List.prefix_rfl
  | cons b bs ih =>
    rw [writeList_cons]
    refine List.IsPrefix.trans ?_ (ih _)
    unfold OutStream.writeBit
    split <;> simp

theorem flush_out_prefix (o : OutStream) : o.out <+: o.flush.out := by
  rw [flush_eq]
  exact writeList_out_prefix _ _

/-- ENCODE's loop only writes bits. -/
theorem encodeLoop_writes (code : Vector Code 257) (fuel : Nat) (inp : InStream) (outp : OutStream) :
    ∃ bs, (encodeLoop code fuel inp outp).streams.2 = outp.writeList bs := by
  induction fuel generalizing inp outp with
  | zero => exact ⟨[], rfl⟩
  | succ k ih =>
    rw [encodeLoop]
    rcases ask_cases 8 inp with ⟨_, ha⟩ | ⟨_, ha⟩ <;> rw [ha]
    · exact ⟨[], rfl⟩
    cases hr : inp.readBits 8 with
    | mk o j =>
      cases o with
      | none => exact ⟨[], rfl⟩
      | some r =>
        dsimp only
        split
        · obtain ⟨bs, h⟩ := ih j (writeCode (codeAt code (r.zeroExtend 9)) outp)
          exact ⟨_ ++ bs, by rw [h, writeList_append]; rfl⟩
        · exact ⟨[], rfl⟩

/-- DECODE's loop only writes bits. -/
theorem decodeLoop_writes (t : Tree) (reads fuel : Nat) (inp : InStream) (outp : OutStream) :
    ∃ bs, (decodeLoop t reads fuel inp outp).streams.2 = outp.writeList bs := by
  induction fuel generalizing inp outp with
  | zero => exact ⟨[], rfl⟩
  | succ k ih =>
    rw [decodeLoop]
    split
    · exact ⟨[], rfl⟩
    · exact ⟨[], rfl⟩
    · rename_i cur inp _
      split
      · exact ⟨[], rfl⟩
      · obtain ⟨bs, h⟩ := ih inp (outp.writeBits 8 (t.at cur).sym.toNat)
        exact ⟨_ ++ bs, by rw [h, writeList_append]; rfl⟩

/-! ## REWOUND -/

theorem countLoop_rewound (fuel : Nat) (t : Tally) : (countLoop fuel t).1.inp.rewound = t.inp.rewound := by
  induction fuel generalizing t with
  | zero => rfl
  | succ k ih =>
    have h := readBits_frame 8 t.inp
    rw [countLoop]
    rcases ask_cases 8 t.inp with ⟨_, ha⟩ | ⟨_, ha⟩ <;> rw [ha]
    cases hr : t.inp.readBits 8 with
    | mk o j =>
      rw [hr] at h
      cases o with
      | none => exact h.2.2
      | some r =>
        dsimp only
        split
        · exact h.2.2
        · exact (ih _).trans h.2.2

theorem decodeLoop_rewound (t : Tree) (reads fuel : Nat) (inp : InStream) (outp : OutStream) :
    (decodeLoop t reads fuel inp outp).streams.1.rewound = inp.rewound := by
  induction fuel generalizing inp outp with
  | zero => rfl
  | succ k ih =>
    have h := descend_frame t reads t.root.index inp
    rw [decodeLoop]
    cases hd : descend t reads t.root.index inp with
    | endOfData cur j => rw [hd] at h; exact h.2.2
    | wait cur j => rw [hd] at h; exact h.2.2
    | leaf cur j =>
      rw [hd] at h
      dsimp only
      split
      · exact h.2.2
      · exact (ih _ _).trans h.2.2

/-! ## The sink -/

/-- A body that ends well over its sink ends so over a sink that accepts every byte. -/
theorem drain_ok {s u : State} {r : Run} (h : r.drain s = .ok u) : r = .ok u := by
  rw [Run.drain] at h
  split at h
  · exact h
  · cases r <;> simp only [Run.upTo] at h <;> (try split at h) <;> first | exact h | cases h

/-- The bytes a body leaves in OUT go on from those of `s`, if it ends well or waits. -/
def Run.Extends (s : State) : Run → Prop
  | .ok t => s.outp.out <+: t.outp.out
  | .err _ _ _ => True
  | .wait t => s.outp.out <+: t.outp.out
  | .fault _ => True

theorem Run.Extends.andThen {s : State} {r : Run} {f : State → Run} (h : r.Extends s)
    (hf : ∀ t, (f t).Extends t) : (r.andThen f).Extends s := by
  cases r with
  | ok t =>
    have ht : s.outp.out <+: t.outp.out := h
    have := hf t
    rw [andThen_of_ok]
    cases hft : f t with
    | ok u => rw [hft] at this; exact ht.trans this
    | err e info u => trivial
    | wait u => rw [hft] at this; exact ht.trans this
    | fault x => trivial
  | err e info t => trivial
  | wait t => exact h
  | fault x => trivial

/-- The bodies that end well, wait or raise have written some bits after those of `s`. -/
def Run.Writes (s : State) : Run → Prop
  | .ok t => s.outp.out <+: t.outp.out
  | .err _ _ t => s.outp.out <+: t.outp.out
  | .wait t => s.outp.out <+: t.outp.out
  | .fault _ => True

theorem Run.Writes.drain {s : State} {r : Run} (h : r.Writes s) : (r.drain s).Extends s := by
  have hp : ∀ {n : Nat} {t : State}, s.outp.out <+: t.outp.out →
      s.outp.out <+: (keepOut (max n s.outp.out.length) t).outp.out := fun ht =>
    List.prefix_take_iff.mpr ⟨ht, le_max_right _ _⟩
  rw [Run.drain]
  split
  · cases r <;> first | exact h | trivial
  · cases r with
    | ok t => rw [Run.upTo]; split; exacts [hp h, h]
    | err e info t => rw [Run.upTo]; split; exacts [hp h, trivial]
    | wait t => exact hp h
    | fault x => trivial

/-! ## The bodies -/

theorem countBody_frame {s u : State} (h : countBody s = .ok u) :
    u.pq = s.pq ∧ u.code = s.code ∧ u.tree = s.tree ∧ u.outp = s.outp ∧ u.inp.rewound = s.inp.rewound := by
  have hr := countLoop_rewound s.inp.passReads { freq := Vector.replicate 256 0, inlen := 0, inp := s.inp }
  rw [countBody] at h
  split at h
  · rename_i t ht
    rw [ht] at hr
    injection h with h
    subst h
    exact ⟨rfl, rfl, rfl, rfl, hr⟩
  · cases h
  · cases h

theorem buildBody_frame {s u : State} (h : buildBody s = .ok u) :
    u.freq = s.freq ∧ u.inlen = s.inlen ∧ u.code = s.code ∧ u.inp = s.inp ∧ u.outp = s.outp := by
  rw [buildBody] at h
  injection h with h
  subst h
  exact ⟨rfl, rfl, rfl, rfl, rfl⟩

theorem gencodeBody_frame {s u : State} (h : gencodeBody s = .ok u) :
    u.freq = s.freq ∧ u.inlen = s.inlen ∧ u.pq = s.pq ∧ u.tree = s.tree ∧ u.inp = s.inp ∧ u.outp = s.outp := by
  rw [gencodeBody] at h
  split at h
  · cases h
  · injection h with h
    subst h
    exact ⟨rfl, rfl, rfl, rfl, rfl, rfl⟩

theorem wrhdrBody_frame {s u : State} (h : wrhdrBody s = .ok u) :
    SameTables s u ∧ u.tree = s.tree ∧ u.inp = s.inp ∧ s.outp.out <+: u.outp.out := by
  rw [wrhdrBody] at h
  split at h
  · cases h
  · have h := drain_ok h
    injection h with h
    subst h
    exact ⟨⟨rfl, rfl, rfl, rfl⟩, rfl, rfl, (writeList_out_prefix _ _).trans (writeList_out_prefix _ _)⟩

/-- ENCODE that ends well has written some bits and flushed. -/
theorem encodeBody_frame {s u : State} (h : encodeBody s = .ok u) :
    ∃ bs inp, u = { signalRewind s with inp := inp, outp := (s.outp.writeList bs).flush } ∧
      inp.bytes = s.inp.bytes := by
  have hw := encodeLoop_writes s.code s.inp.passReads s.inp.rewind s.outp
  have hf := encodeLoop_frame s.code s.inp.passReads s.inp.rewind s.outp
  rw [encodeBody] at h
  replace h := drain_ok h
  split at h
  · rename_i inp outp hh
    rw [hh] at hw hf
    injection h with h
    subst h
    obtain ⟨bs, hbs⟩ := hw
    have hbs : outp = s.outp.writeList bs := hbs
    refine ⟨bs ++ codeBitList (codeAt s.code Config.eos), inp, ?_, hf.1⟩
    rw [writeList_append, ← hbs]
    rfl
  · cases h
  · cases h

/-- DECODE that ends well has written some bits and flushed. -/
theorem decodeBody_frame {s u : State} (h : decodeBody s = .ok u) :
    ∃ bs inp trav, u = { s with inp := inp, outp := (s.outp.writeList bs).flush, trav := trav } ∧
      inp.bytes = s.inp.bytes ∧ inp.rewound = s.inp.rewound := by
  have hw := decodeLoop_writes s.tree s.inp.descentReads s.inp.descents s.inp s.outp
  have hf := decodeLoop_frame s.tree s.inp.descentReads s.inp.descents s.inp s.outp
  have hr := decodeLoop_rewound s.tree s.inp.descentReads s.inp.descents s.inp s.outp
  rw [decodeBody] at h
  split at h
  · cases h
  · replace h := drain_ok h
    split at h
    · rename_i cur inp outp hh
      rw [hh] at hw hf hr
      injection h with h
      subst h
      obtain ⟨bs, hbs⟩ := hw
      have hbs : outp = s.outp.writeList bs := hbs
      exact ⟨bs, inp, _, by rw [← hbs], hf.1, hr⟩
    · cases h
    · cases h

theorem tokenBody_frame {i : Instr} {s u : State} (h : tokenBody i s = .ok u) :
    SameTables s u ∧ u.outp = s.outp ∧ u.inp.rewound = s.inp.rewound := by
  cases i <;> simp only [tokenBody] at h
  all_goals try (injection h with h; subst h; exact ⟨⟨rfl, rfl, rfl, rfl⟩, rfl, rfl⟩)
  · rw [internalToken] at h
    split at h
    · cases h
    · injection h with h
      subst h
      exact ⟨⟨rfl, rfl, rfl, rfl⟩, rfl, rfl⟩
  · rw [leafToken] at h
    split at h
    · cases h
    · split at h
      · cases h
      · injection h with h
        subst h
        exact ⟨⟨rfl, rfl, rfl, rfl⟩, rfl, rfl⟩

theorem readTokens_frame {fuel : Nat} {s u : State} (h : readTokens fuel s = .ok u) :
    SameTables s u ∧ u.outp = s.outp ∧ u.inp.rewound = s.inp.rewound := by
  induction fuel generalizing s u with
  | zero =>
    rw [readTokens] at h
    split at h
    · injection h with h
      subst h
      exact ⟨SameTables.refl s, rfl, rfl⟩
    · cases h
  | succ k ih =>
    rw [readTokens] at h
    split at h
    · injection h with h
      subst h
      exact ⟨SameTables.refl s, rfl, rfl⟩
    · obtain ⟨v, hv, h⟩ := andThen_ok h
      have a := ih h
      have b : SameTables s v ∧ v.outp = s.outp ∧ v.inp.rewound = s.inp.rewound := by
        rw [readToken] at hv
        split at hv
        · injection hv with h
          subst h
          exact ⟨SameTables.refl s, rfl, rfl⟩
        · cases hv
        · cases hv
        · exact tokenBody_frame hv
      exact ⟨b.1.trans a.1, a.2.1.trans b.2.1, a.2.2.trans b.2.2⟩

theorem rdhdrBody_frame {s u : State} (h : rdhdrBody s = .ok u) :
    SameTables s u ∧ u.outp = s.outp ∧ u.inp.rewound = s.inp.rewound := by
  have := readTokens_frame h
  exact ⟨⟨this.1.freq, this.1.inlen, this.1.pq, this.1.code⟩, this.2⟩

/-! ## A body that waits -/

/-- COUNT that waits has written nothing and sent no signal. -/
theorem countBody_wait {s u : State} (h : countBody s = .wait u) : u.outp = s.outp ∧ u.port = s.port := by
  rw [countBody] at h
  split at h <;> cases h
  exact ⟨rfl, rfl⟩

/-- A token never waits by itself. -/
theorem tokenBody_not_wait (i : Instr) (s u : State) : tokenBody i s ≠ .wait u := by
  cases i <;> simp only [tokenBody, magicToken, internalToken, leafToken, ne_eq, reduceCtorEq, not_false_eq_true] <;>
    repeat (split <;> try simp)

/-- REWOUND stays, however the body ends. -/
def Run.KeepsRewound (s : State) : Run → Prop
  | .ok t => t.inp.rewound = s.inp.rewound
  | .err _ _ t => t.inp.rewound = s.inp.rewound
  | .wait t => t.inp.rewound = s.inp.rewound
  | .fault _ => True

theorem Run.KeepsRewound.andThen {s : State} {r : Run} {f : State → Run} (h : r.KeepsRewound s)
    (hf : ∀ t, (f t).KeepsRewound t) : (r.andThen f).KeepsRewound s := by
  cases r with
  | ok t =>
    have ht : t.inp.rewound = s.inp.rewound := h
    have := hf t
    rw [andThen_of_ok]
    cases hft : f t <;> rw [hft] at this
    · exact Eq.trans this ht
    · exact Eq.trans this ht
    · exact Eq.trans this ht
    · trivial
  | err e info t => exact h
  | wait t => exact h
  | fault x => trivial

theorem Run.KeepsRewound.drain {s : State} {r : Run} (h : r.KeepsRewound s) : (r.drain s).KeepsRewound s := by
  rw [Run.drain]
  split
  · exact h
  · cases r with
    | ok t => rw [Run.upTo]; split; exacts [h, h]
    | err e info t => rw [Run.upTo]; split; exacts [h, h]
    | wait t => exact h
    | fault x => trivial

theorem tokenBody_rewound (i : Instr) (s : State) : (tokenBody i s).KeepsRewound s := by
  cases i <;> try exact rfl
  · rw [tokenBody, internalToken]
    split <;> exact rfl
  · rw [tokenBody, leafToken]
    split
    · exact rfl
    · split <;> exact rfl

theorem readTokens_rewound (fuel : Nat) (s : State) : (readTokens fuel s).KeepsRewound s := by
  induction fuel generalizing s with
  | zero =>
    rw [readTokens]
    split
    · exact rfl
    · trivial
  | succ k ih =>
    rw [readTokens]
    split
    · exact rfl
    · refine Run.KeepsRewound.andThen ?_ ih
      rw [readToken]
      cases hf : fetchToken s with
      | none => exact rfl
      | some x =>
        cases x with
        | token i => exact tokenBody_rewound i s
        | bad e info inp => exact (fetchToken_bad hf).2.2.2
        | wait => exact rfl

/-- No body but ENCODE's rewinds (rule R67). -/
theorem bodyOf_rewound {i : Instr} (he : i ≠ .encode) (hc : ∀ hm, i ≠ .compress hm) (s : State) :
    (bodyOf i s).KeepsRewound s := by
  have hdec : ∀ s, (decodeBody s).KeepsRewound s := by
    intro s
    have hr := decodeLoop_rewound s.tree s.inp.descentReads s.inp.descents s.inp s.outp
    rw [decodeBody]
    split
    · exact rfl
    · apply Run.KeepsRewound.drain
      split <;> rename_i heq <;> rw [heq] at hr <;> exact hr
  cases i
  case encode => exact absurd rfl he
  case compress hm => exact absurd rfl (hc hm)
  case count =>
    have hr := countLoop_rewound s.inp.passReads { freq := Vector.replicate 256 0, inlen := 0, inp := s.inp }
    show (countBody s).KeepsRewound s
    rw [countBody]
    split <;> rename_i t ht <;> rw [ht] at hr <;> exact hr
  case gencode =>
    show (gencodeBody s).KeepsRewound s
    rw [gencodeBody]
    split
    · trivial
    · exact rfl
  case wrhdr =>
    show (wrhdrBody s).KeepsRewound s
    rw [wrhdrBody]
    split
    · trivial
    · exact Run.KeepsRewound.drain (r := .ok _) rfl
  case rdhdr => exact readTokens_rewound _ { s with trav := { s.trav with stage := .magic } }
  case decode => exact hdec s
  case decompress =>
    exact Run.KeepsRewound.andThen (readTokens_rewound _ { s with trav := { s.trav with stage := .magic } }) hdec
  all_goals exact rfl

theorem tokenBody_port {i : Instr} {s u : State} (h : tokenBody i s = .ok u) : u.port = s.port := by
  cases i <;> simp only [tokenBody] at h
  all_goals try (injection h with h; subst h; rfl)
  · rw [internalToken] at h
    split at h
    · cases h
    · injection h with h; subst h; rfl
  · rw [leafToken] at h
    split at h
    · cases h
    · split at h
      · cases h
      · injection h with h; subst h; rfl

theorem readTokens_wait {fuel : Nat} {s u : State} (h : readTokens fuel s = .wait u) :
    u.outp = s.outp ∧ u.port = s.port := by
  induction fuel generalizing s with
  | zero =>
    rw [readTokens] at h
    split at h <;> cases h
  | succ k ih =>
    rw [readTokens] at h
    split at h
    · cases h
    · rw [readToken] at h
      split at h
      · exact ih h
      · cases h
      · cases h; exact ⟨rfl, rfl⟩
      · rename_i i _
        cases hb : tokenBody i s with
        | ok v =>
          rw [hb] at h
          have := ih h
          exact ⟨this.1.trans (tokenBody_frame hb).2.1, this.2.trans (tokenBody_port hb)⟩
        | err e info v => rw [hb] at h; cases h
        | wait v => exact absurd hb (tokenBody_not_wait i s v)
        | fault x => rw [hb] at h; cases h

/-- RDHDR that waits has written nothing and sent no signal. -/
theorem rdhdrBody_wait {s u : State} (h : rdhdrBody s = .wait u) : u.outp = s.outp ∧ u.port = s.port := by
  have := readTokens_wait (s := { s with trav := { s.trav with stage := .magic } }) h
  exact this

theorem wrhdrBody_extends (s : State) : (wrhdrBody s).Extends s := by
  rw [wrhdrBody]
  split
  · trivial
  · exact Run.Writes.drain (r := .ok _) ((writeList_out_prefix _ _).trans (writeList_out_prefix _ _))

theorem encodeBody_extends (s : State) : (encodeBody s).Extends s := by
  have hp : s.outp.out <+: (encodeLoop s.code s.inp.passReads s.inp.rewind s.outp).streams.2.out := by
    obtain ⟨bs, hbs⟩ := encodeLoop_writes s.code s.inp.passReads s.inp.rewind s.outp
    rw [hbs]
    exact writeList_out_prefix _ _
  rw [encodeBody]
  apply Run.Writes.drain
  split <;> rename_i heq <;> rw [heq] at hp
  · exact (hp.trans (writeList_out_prefix _ _)).trans (flush_out_prefix _)
  · exact hp
  · exact hp

theorem decodeBody_extends (s : State) : (decodeBody s).Extends s := by
  have hp : s.outp.out <+: (decodeLoop s.tree s.inp.descentReads s.inp.descents s.inp s.outp).streams.2.out := by
    obtain ⟨bs, hbs⟩ := decodeLoop_writes s.tree s.inp.descentReads s.inp.descents s.inp s.outp
    rw [hbs]
    exact writeList_out_prefix _ _
  rw [decodeBody]
  split
  · trivial
  · apply Run.Writes.drain
    split <;> rename_i heq <;> rw [heq] at hp
    · exact hp.trans (flush_out_prefix _)
    · exact hp
    · exact hp

theorem countBody_extends (s : State) : (countBody s).Extends s := by
  rw [countBody]
  split <;> first | exact List.prefix_rfl | trivial

theorem buildBody_extends (s : State) : (buildBody s).Extends s := List.prefix_rfl

theorem gencodeBody_extends (s : State) : (gencodeBody s).Extends s := by
  rw [gencodeBody]
  split <;> first | exact List.prefix_rfl | trivial

theorem rdhdrBody_extends (s : State) : (rdhdrBody s).Extends s := by
  cases h : rdhdrBody s with
  | ok u =>
    show s.outp.out <+: u.outp.out
    rw [(rdhdrBody_frame h).2.1]
  | err e info u => trivial
  | wait u =>
    show s.outp.out <+: u.outp.out
    rw [(rdhdrBody_wait h).1]
  | fault x => trivial

/-- No body takes back what the sink has been given (rule R69). -/
theorem bodyOf_extends (i : Instr) (s : State) : (bodyOf i s).Extends s := by
  cases i
  case count => exact countBody_extends s
  case gencode => exact gencodeBody_extends s
  case wrhdr => exact wrhdrBody_extends s
  case encode => exact encodeBody_extends s
  case rdhdr => exact rdhdrBody_extends s
  case decode => exact decodeBody_extends s
  case compress =>
    exact ((((countBody_extends s).andThen buildBody_extends).andThen gencodeBody_extends).andThen
      wrhdrBody_extends).andThen encodeBody_extends
  case decompress => exact (rdhdrBody_extends s).andThen decodeBody_extends
  all_goals exact List.prefix_rfl

/-! ## An error raised during execution -/

theorem not_defined_raiseExec {e : ErrCode} {info : Word} {u : State} (h : e.InExecution) :
    ¬ Defined (raiseExec e info u) := by
  rintro (h1 | h1)
  · exact h.1 h1
  · rw [show (raiseExec e info u).err = e from rfl, h.2] at h1
    exact absurd h1 (by decide)

end Sys2Proof.Machine
end

