-- ==== Sys2Proof/Laws/Queue.lean ====
section
/-! SUPPORT. The priority queue (rules R135 to R138, R148): the key order is strict and total, insertion keeps the list
sorted and adds one entry, and the first entry is the least. -/

namespace Sys2Proof.Machine

/-- The key order of rule R135 on numbers. -/
theorem before_iff (a b : PQEntry) :
    a.before b = true ↔
      a.weight.toNat < b.weight.toNat ∨ a.weight = b.weight ∧ a.index.toNat < b.index.toNat := by
  simp [PQEntry.before, Config.tieBefore, BitVec.lt_def]

theorem before_trans {a b c : PQEntry} (h1 : a.before b = true) (h2 : b.before c = true) : a.before c = true := by
  rw [before_iff] at *
  rcases h1 with h1 | ⟨e1, h1⟩ <;> rcases h2 with h2 | ⟨e2, h2⟩
  · exact .inl (by omega)
  · exact .inl (by rw [← e2]; exact h1)
  · exact .inl (by rw [e1]; exact h2)
  · exact .inr ⟨e1.trans e2, by omega⟩

/-- Of two entries with different indices one comes first (rule R135). -/
theorem before_total {a b : PQEntry} (h : a.index ≠ b.index) : a.before b = true ∨ b.before a = true := by
  have hi : a.index.toNat ≠ b.index.toNat := fun e => h (BitVec.eq_of_toNat_eq e)
  simp only [before_iff]
  by_cases hw : a.weight = b.weight
  · rw [hw]; simp; omega
  · have : a.weight.toNat ≠ b.weight.toNat := fun e => hw (BitVec.eq_of_toNat_eq e)
    omega

/-- `PQInsert` adds one entry and removes none (rule R136). -/
theorem pqInsert_perm (e : PQEntry) (q : List PQEntry) : (pqInsert e q).Perm (e :: q) := by
  induction q with
  | nil => exact List.Perm.refl _
  | cons f fs ih =>
    rw [pqInsert]
    split
    · exact List.Perm.refl _
    · exact (List.Perm.cons f ih).trans (List.Perm.swap e f fs)

@[simp] theorem mem_pqInsert {e f : PQEntry} {q : List PQEntry} : f ∈ pqInsert e q ↔ f = e ∨ f ∈ q := by
  rw [(pqInsert_perm e q).mem_iff, List.mem_cons]

@[simp] theorem length_pqInsert (e : PQEntry) (q : List PQEntry) : (pqInsert e q).length = q.length + 1 := by
  rw [(pqInsert_perm e q).length_eq, List.length_cons]

/-- Insertion keeps the queue sorted (log 14). -/
theorem pqInsert_queued {e : PQEntry} {q : List PQEntry} (hq : Queued q) (he : ∀ f ∈ q, f.index ≠ e.index) :
    Queued (pqInsert e q) := by
  induction q with
  | nil => simp [pqInsert, Queued]
  | cons f fs ih =>
    obtain ⟨h1, h2⟩ := List.pairwise_cons.mp hq
    rw [pqInsert]
    split
    · rename_i hb
      refine List.pairwise_cons.mpr ⟨fun g hg => ?_, hq⟩
      rcases List.mem_cons.mp hg with rfl | hg
      · exact hb
      · exact before_trans hb (h1 g hg)
    · rename_i hb
      have hf : f.before e = true := (before_total (he f (by simp))).resolve_right hb
      refine List.pairwise_cons.mpr ⟨fun g hg => ?_, ih h2 fun g hg => he g (by simp [hg])⟩
      rcases mem_pqInsert.mp hg with rfl | hg
      · exact hf
      · exact h1 g hg

/-- `PQRemoveMin` removes the entry that comes before every other one (rule R137). -/
theorem pqRemoveMin_least {q rest : List PQEntry} {e : PQEntry} (hq : Queued q)
    (h : pqRemoveMin q = some (e, rest)) : q = e :: rest ∧ (∀ f ∈ rest, e.before f = true) ∧ Queued rest := by
  cases q with
  | nil => simp [pqRemoveMin] at h
  | cons f fs =>
    simp only [pqRemoveMin, Option.some.injEq, Prod.mk.injEq] at h
    obtain ⟨rfl, rfl⟩ := h
    exact ⟨rfl, (List.pairwise_cons.mp hq).1, (List.pairwise_cons.mp hq).2⟩

end Sys2Proof.Machine
end

