-- ==== Sys2Proof/Laws/Builder.lean ====
section
/-! SUPPORT. BUILD (rules R139 to R147): the forest its loops keep, where the leaves stand, and what every merge made. -/

namespace Sys2Proof.Machine

/-- NODE[NNODES] <- n; NNODES <- NNODES + 1. -/
def Tree.append (t : Tree) (n : Node) : Tree := { t.set t.nnodes n with nnodes := t.nnodes + 1 }

theorem append_nnodes {t : Tree} (n : Node) (h : t.nnodes.toNat < 513) :
    (t.append n).nnodes.toNat = t.nnodes.toNat + 1 := by
  have h1 : (1 : NodeIx).toNat = 1 := rfl
  show (t.nnodes + 1).toNat = _
  rw [BitVec.toNat_add, h1]
  omega

@[simp] theorem append_nleaf (t : Tree) (n : Node) : (t.append n).nleaf = t.nleaf := rfl
@[simp] theorem append_root (t : Tree) (n : Node) : (t.append n).root = t.root := rfl

theorem at_append {t : Tree} (n : Node) (i : NodeIx) (h : t.nnodes.toNat < 513) :
    (t.append n).at i = if i = t.nnodes then n else t.at i :=
  (at_congr (t := t.append n) (u := t.set t.nnodes n) rfl i).trans (at_set t t.nnodes i n h)

theorem at_append_below {t : Tree} (n : Node) {i : NodeIx} (h : t.nnodes.toNat < 513)
    (hi : i.toNat < t.nnodes.toNat) : (t.append n).at i = t.at i := by
  rw [at_append n i h, if_neg (fun e => by rw [e] at hi; omega)]

/-- The entries below NNODES are a forest of the trees `ps`, each entry in one of them, and the other entries are
invalid (rules R24, R25). -/
structure Parts (t : Tree) (ps : List (NodeIx × Shape)) : Prop where
  spelled : ∀ p ∈ ps, spells t p.1 p.2 = true
  once    : (ps.flatMap fun p => indices t p.1 p.2).Nodup
  below   : ∀ p ∈ ps, ∀ j ∈ indices t p.1 p.2, j.toNat < t.nnodes.toNat
  total   : (ps.map fun p => p.2.size).sum = t.nnodes.toNat
  used    : ∀ i : Nat, i < t.nnodes.toNat → (t.at (BitVec.ofNat 10 i)).valid = true
  unused  : ∀ i : Nat, t.nnodes.toNat ≤ i → i < 513 → t.at (BitVec.ofNat 10 i) = Node.invalid

theorem Parts.perm {t : Tree} {ps qs : List (NodeIx × Shape)} (h : Parts t ps) (hp : ps.Perm qs) : Parts t qs where
  spelled p hm := h.spelled p (hp.mem_iff.mpr hm)
  once := (hp.flatMap_right _).nodup_iff.mp h.once
  below p hm := h.below p (hp.mem_iff.mpr hm)
  total := by rw [← h.total]; exact ((hp.map _).sum_eq).symm
  used := h.used
  unused := h.unused

theorem toNat_ofNat_ix {i : Nat} (h : i < 513) : (BitVec.ofNat 10 i).toNat = i := by
  rw [BitVec.toNat_ofNat]; omega

theorem ofNat_ne_nnodes {t : Tree} {i : Nat} (hi : i < 513) (hne : i ≠ t.nnodes.toNat) :
    BitVec.ofNat 10 i ≠ t.nnodes := by
  intro e
  apply hne
  rw [← e, toNat_ofNat_ix hi]

/-- Used and unused entries after one more node. -/
theorem Parts.used_append {t : Tree} {ps : List (NodeIx × Shape)} (h : Parts t ps) {n : Node}
    (hn : n.valid = true) (hc : t.nnodes.toNat < 513) :
    (∀ i : Nat, i < (t.append n).nnodes.toNat → ((t.append n).at (BitVec.ofNat 10 i)).valid = true) ∧
    (∀ i : Nat, (t.append n).nnodes.toNat ≤ i → i < 513 → (t.append n).at (BitVec.ofNat 10 i) = Node.invalid) := by
  rw [append_nnodes n hc]
  constructor
  · intro i hi
    by_cases e : i = t.nnodes.toNat
    · rw [at_append n _ hc, if_pos (by rw [e]; simp), hn]
    · rw [at_append n _ hc, if_neg (ofNat_ne_nnodes (by omega) e)]
      exact h.used i (by omega)
  · intro i hi h513
    rw [at_append n _ hc, if_neg (ofNat_ne_nnodes h513 (by omega))]
    exact h.unused i (by omega) h513

/-- The trees of a forest are the same after one more node. -/
theorem Parts.old_append {t : Tree} {ps : List (NodeIx × Shape)} (h : Parts t ps) (n : Node)
    (hc : t.nnodes.toNat < 513) {p : NodeIx × Shape} (hp : p ∈ ps) :
    spells (t.append n) p.1 p.2 = true ∧ indices (t.append n) p.1 p.2 = indices t p.1 p.2 := by
  have := spells_congr (t := t) (u := t.append n) (sh := p.2) (i := p.1)
    fun j hj => at_append_below n hc (h.below p hp j hj)
  exact ⟨by rw [this.1]; exact h.spelled p hp, this.2⟩

theorem Parts.nnodes_notMem {t : Tree} {ps : List (NodeIx × Shape)} (h : Parts t ps) {p : NodeIx × Shape}
    (hp : p ∈ ps) : t.nnodes ∉ indices t p.1 p.2 := fun hm => by
  have := h.below p hp _ hm
  omega

/-- One more leaf. -/
theorem Parts.leaf {t : Tree} {ps : List (NodeIx × Shape)} (h : Parts t ps) (v : Sym) (w : Weight)
    (hc : t.nnodes.toNat < 513) :
    Parts (t.append (Node.mkLeaf v w)) ((t.nnodes, .leaf v) :: ps) := by
  have hold := fun p hp => h.old_append (Node.mkLeaf v w) hc (p := p) hp
  have hflat : (ps.flatMap fun p => indices (t.append (Node.mkLeaf v w)) p.1 p.2)
      = ps.flatMap fun p => indices t p.1 p.2 :=
    List.flatMap_congr fun p hp => (hold p hp).2
  refine ⟨?_, ?_, ?_, ?_, (h.used_append rfl hc).1, (h.used_append rfl hc).2⟩
  · intro p hp
    rcases List.mem_cons.mp hp with rfl | hp
    · rw [spells_leaf, at_append _ _ hc, if_pos rfl]; rfl
    · exact (hold p hp).1
  · rw [List.flatMap_cons, hflat]
    refine List.nodup_append.mpr ⟨by simp [indices], h.once, ?_⟩
    intro a ha b hb
    simp only [indices, List.mem_singleton] at ha
    subst ha
    obtain ⟨p, hp, hj⟩ := List.mem_flatMap.mp hb
    exact fun e => h.nnodes_notMem hp (e ▸ hj)
  · rw [append_nnodes _ hc]
    intro p hp j hj
    rcases List.mem_cons.mp hp with rfl | hp
    · simp only [indices, List.mem_singleton] at hj
      rw [hj]; omega
    · rw [(hold p hp).2] at hj
      have := h.below p hp j hj
      omega
  · rw [append_nnodes _ hc, List.map_cons, List.sum_cons, h.total, Shape.size]
    omega

/-- One internal node over two trees of the forest. -/
theorem Parts.merge {t : Tree} {a b : NodeIx} {sa sb : Shape} {ps : List (NodeIx × Shape)}
    (h : Parts t ((a, sa) :: (b, sb) :: ps)) (w : Weight) (hc : t.nnodes.toNat < 513) :
    Parts (t.append (Node.mkInternal a b w)) ((t.nnodes, .node sa sb) :: ps) := by
  have hold := fun p hp => h.old_append (Node.mkInternal a b w) hc (p := p) hp
  have ha := hold (a, sa) (by simp)
  have hb := hold (b, sb) (by simp)
  have hat : (t.append (Node.mkInternal a b w)).at t.nnodes = Node.mkInternal a b w := by
    rw [at_append _ _ hc, if_pos rfl]
  have hflat : (ps.flatMap fun p => indices (t.append (Node.mkInternal a b w)) p.1 p.2)
      = ps.flatMap fun p => indices t p.1 p.2 :=
    List.flatMap_congr fun p hp => (hold p (by simp [hp])).2
  have hidx : indices (t.append (Node.mkInternal a b w)) t.nnodes (.node sa sb)
      = t.nnodes :: (indices t a sa ++ indices t b sb) := by
    rw [indices, hat]
    show _ :: indices _ a sa ++ indices _ b sb = _
    rw [ha.2, hb.2]; rfl
  have honce := h.once
  rw [List.flatMap_cons, List.flatMap_cons, ← List.append_assoc] at honce
  refine ⟨?_, ?_, ?_, ?_, (h.used_append rfl hc).1, (h.used_append rfl hc).2⟩
  · intro p hp
    rcases List.mem_cons.mp hp with rfl | hp
    · rw [spells_node, hat]; exact ⟨rfl, ha.1, hb.1⟩
    · exact (hold p (by simp [hp])).1
  · rw [List.flatMap_cons, hflat]
    show (indices _ t.nnodes (.node sa sb) ++ _).Nodup
    rw [hidx, List.cons_append, List.nodup_cons]
    refine ⟨?_, honce⟩
    intro hm
    simp only [List.mem_append, List.mem_flatMap] at hm
    rcases hm with (hm | hm) | ⟨p, hp, hm⟩
    · exact h.nnodes_notMem (p := (a, sa)) (by simp) hm
    · exact h.nnodes_notMem (p := (b, sb)) (by simp) hm
    · exact h.nnodes_notMem (p := p) (by simp [hp]) hm
  · rw [append_nnodes _ hc]
    intro p hp j hj
    rcases List.mem_cons.mp hp with rfl | hp
    · rw [hidx] at hj
      simp only [List.mem_cons, List.mem_append] at hj
      rcases hj with rfl | hj | hj
      · omega
      · have := h.below (a, sa) (by simp) j hj; omega
      · have := h.below (b, sb) (by simp) j hj; omega
    · rw [(hold p (by simp [hp])).2] at hj
      have := h.below p (by simp [hp]) j hj
      omega
  · have ht := h.total
    simp only [List.map_cons, List.sum_cons] at ht ⊢
    rw [append_nnodes _ hc, Shape.size]
    omega

/-! ## The forest behind the queue -/

/-- The parts of a queue whose entry with index `i` stands for the tree `f i`. -/
def partsOf (f : NodeIx → Shape) (q : List PQEntry) : List (NodeIx × Shape) := q.map fun e => (e.index, f e.index)

/-- What BUILD's loops keep: the queue is sorted, its entries are the roots of a forest of all nodes, carrying their
weights, and the leaf values are `vals`. -/
structure Forest (b : Builder) (f : NodeIx → Shape) (vals : List Sym) : Prop where
  queued : Queued b.pq
  weight : ∀ e ∈ b.pq, e.weight = (b.tree.at e.index).weight
  parts  : Parts b.tree (partsOf f b.pq)
  values : (b.pq.flatMap fun e => (f e.index).values).Perm vals
  merged : ∀ i : NodeIx, i.toNat < b.tree.nnodes.toNat → (b.tree.at i).leaf = false → MergeOk b.tree i
  waiting : ∀ k : NodeIx, k.toNat < b.tree.nnodes.toNat → ¬ mergedBefore b.tree b.tree.nnodes k →
    ∃ e ∈ b.pq, e.index = k
  free   : ∀ e ∈ b.pq, ¬ mergedBefore b.tree b.tree.nnodes e.index

theorem self_mem_indices (t : Tree) (i : NodeIx) (sh : Shape) : i ∈ indices t i sh := by
  cases sh <;> simp [indices]

theorem Forest.index_lt {b : Builder} {f : NodeIx → Shape} {vals : List Sym} (h : Forest b f vals) {e : PQEntry}
    (he : e ∈ b.pq) : e.index.toNat < b.tree.nnodes.toNat :=
  h.parts.below (e.index, f e.index) (by simpa [partsOf] using ⟨e, he, rfl, rfl⟩) _ (self_mem_indices _ _ _)

/-- Nodes and queue entries together are twice the leaves (rule R146). -/
theorem Forest.count {b : Builder} {f : NodeIx → Shape} {vals : List Sym} (h : Forest b f vals) :
    b.tree.nnodes.toNat + b.pq.length = 2 * vals.length := by
  have key : ∀ q : List PQEntry, ((partsOf f q).map fun p => p.2.size).sum + q.length
      = 2 * (q.flatMap fun e => (f e.index).values).length := by
    intro q
    induction q with
    | nil => rfl
    | cons e es ih =>
      have := (f e.index).size_eq
      simp only [partsOf, List.map_cons, List.sum_cons, List.length_cons, List.flatMap_cons, List.length_append,
        Shape.length_values] at ih ⊢
      omega
  rw [← h.parts.total, key, h.values.length_eq]

/-- What was merged before a node stays so when a later node is appended. -/
theorem mergedBefore_append {t : Tree} {i : NodeIx} (n : Node) (k : NodeIx) (hc : t.nnodes.toNat < 513)
    (hi : i.toNat ≤ t.nnodes.toNat) : mergedBefore (t.append n) i k ↔ mergedBefore t i k := by
  constructor
  · rintro ⟨j, hj, hl, hk⟩
    rw [at_append_below n hc (by omega)] at hl hk
    exact ⟨j, hj, hl, hk⟩
  · rintro ⟨j, hj, hl, hk⟩
    refine ⟨j, hj, ?_⟩
    rw [at_append_below n hc (by omega)]
    exact ⟨hl, hk⟩

theorem entryOf_append {t : Tree} (n : Node) {k : NodeIx} (hc : t.nnodes.toNat < 513)
    (hk : k.toNat < t.nnodes.toNat) : entryOf (t.append n) k = entryOf t k := by
  rw [entryOf, at_append_below n hc hk, entryOf]

/-- A merge record stays true when a later node is appended. -/
theorem MergeOk.append {t : Tree} {i : NodeIx} (h : MergeOk t i) (n : Node) (hc : t.nnodes.toNat < 513)
    (hi : i.toNat < t.nnodes.toNat) : MergeOk (t.append n) i := by
  have e := at_append_below n hc hi
  have hl : (t.at i).left.toNat < t.nnodes.toNat := by have := h.left; omega
  have hr : (t.at i).right.toNat < t.nnodes.toNat := by have := h.right; omega
  constructor
  · rw [e]; exact h.left
  · rw [e]; exact h.right
  · rw [e, at_append_below n hc hl, at_append_below n hc hr]; exact h.weight
  · rw [e, mergedBefore_append n _ hc (by omega)]; exact h.leftFree
  · rw [e, mergedBefore_append n _ hc (by omega)]; exact h.rightFree
  · rw [e, entryOf_append n hc hl, entryOf_append n hc hr]; exact h.order
  · intro k hk
    rw [e, mergedBefore_append n k hc (by omega), entryOf_append n hc hr, entryOf_append n hc (by omega)]
    exact h.least k hk

theorem addNode_tree (n : Node) (b : Builder) : (addNode n b).tree = b.tree.append n := rfl

theorem addNode_pq (n : Node) (b : Builder) : (addNode n b).pq = pqInsert ⟨n.weight, b.tree.nnodes⟩ b.pq := rfl

theorem partsOf_update {f : NodeIx → Shape} {i : NodeIx} {sh : Shape} {q : List PQEntry}
    (h : ∀ e ∈ q, e.index ≠ i) : partsOf (Function.update f i sh) q = partsOf f q := by
  apply List.map_congr_left
  intro e he
  rw [Function.update_of_ne (h e he)]

theorem values_update {f : NodeIx → Shape} {i : NodeIx} {sh : Shape} {q : List PQEntry}
    (h : ∀ e ∈ q, e.index ≠ i) :
    (q.flatMap fun e => (Function.update f i sh e.index).values) = q.flatMap fun e => (f e.index).values := by
  apply List.flatMap_congr
  intro e he
  rw [Function.update_of_ne (h e he)]

theorem lt_of_ne_nnodes {t : Tree} {k : NodeIx} (hk : k.toNat < t.nnodes.toNat + 1) (h : k ≠ t.nnodes) :
    k.toNat < t.nnodes.toNat := by
  have : k.toNat ≠ t.nnodes.toNat := fun eq => h (BitVec.eq_of_toNat_eq eq)
  omega

theorem mergedBefore_succ {t : Tree} {k : NodeIx} (n : Node) (hc : t.nnodes.toNat < 513)
    (h : mergedBefore t t.nnodes k) : mergedBefore (t.append n) (t.append n).nnodes k := by
  obtain ⟨j, hj, hl, hk⟩ := h
  refine ⟨j, by rw [append_nnodes n hc]; omega, ?_⟩
  rw [at_append_below n hc hj]
  exact ⟨hl, hk⟩

/-- A node is no child of an earlier one: the children of a merged node are below it. -/
theorem not_mergedBefore_of_le {t : Tree} {k : NodeIx}
    (h : ∀ i : NodeIx, i.toNat < t.nnodes.toNat → (t.at i).leaf = false → MergeOk t i) (hk : t.nnodes.toNat ≤ k.toNat) :
    ¬ mergedBefore t t.nnodes k := by
  rintro ⟨j, hj, hl, hc⟩
  have hm := h j hj hl
  have h1 := hm.left
  have h2 := hm.right
  rcases hc with rfl | rfl <;> omega

/-- What becomes merged when a node is appended: its two children. -/
theorem mergedBefore_of_append {t : Tree} {n : Node} {k : NodeIx} (hc : t.nnodes.toNat < 513)
    (h : mergedBefore (t.append n) (t.append n).nnodes k) :
    mergedBefore t t.nnodes k ∨ n.leaf = false ∧ (n.left = k ∨ n.right = k) := by
  obtain ⟨j, hj, hl, hk⟩ := h
  rw [append_nnodes _ hc] at hj
  by_cases e : j = t.nnodes
  · rw [at_append _ _ hc, if_pos e] at hl hk
    exact .inr ⟨hl, hk⟩
  · have hlt := lt_of_ne_nnodes hj e
    rw [at_append_below _ hc hlt] at hl hk
    exact .inl ⟨j, hlt, hl, hk⟩

/-- Entries of a sorted queue that carry their nodes' weights have different indices. -/
theorem Forest.index_ne {b : Builder} {f : NodeIx → Shape} {vals : List Sym} (h : Forest b f vals) {e e' : PQEntry}
    (he : e ∈ b.pq) (he' : e' ∈ b.pq) (hb : e.before e' = true) : e'.index ≠ e.index := by
  intro hi
  have hw : e' = e := by
    cases e; cases e'
    simp only at hi
    have h1 := h.weight _ he
    have h2 := h.weight _ he'
    simp only [hi] at h1 h2 ⊢
    simp [h1, h2]
  rw [hw] at hb
  simp [PQEntry.before, Config.tieBefore] at hb

/-- The forest behind the empty queue. -/
theorem forest_empty {t : Tree} (hn : t.nnodes = 0) (hu : ∀ i : NodeIx, t.at i = Node.invalid) (f : NodeIx → Shape) :
    Forest ⟨t, []⟩ f [] where
  queued := List.Pairwise.nil
  weight := by simp
  parts :=
    { spelled := by simp [partsOf]
      once := by simp [partsOf]
      below := by simp [partsOf]
      total := by simp [partsOf, hn]
      used := by simp [hn]
      unused := fun i _ _ => hu _ }
  values := by simp
  merged := by simp [hn]
  waiting := by simp [hn]
  free := by simp

/-- One more leaf in the queue (rules R139, R140). -/
theorem Forest.addLeaf {b : Builder} {f : NodeIx → Shape} {vals : List Sym} (h : Forest b f vals) (v : Sym)
    (w : Weight) (hc : b.tree.nnodes.toNat < 513) :
    Forest (addNode (Node.mkLeaf v w) b) (Function.update f b.tree.nnodes (.leaf v)) (vals ++ [v]) := by
  have hne : ∀ e ∈ b.pq, e.index ≠ b.tree.nnodes := fun e he eq => by
    have := h.index_lt he; rw [eq] at this; omega
  have hperm := pqInsert_perm ⟨w, b.tree.nnodes⟩ b.pq
  have hnew : (b.tree.append (Node.mkLeaf v w)).at b.tree.nnodes = Node.mkLeaf v w := by
    rw [at_append _ _ hc, if_pos rfl]
  refine ⟨?_, ?_, ?_, ?_, ?_, ?_, ?_⟩
  · rw [addNode_pq]; exact pqInsert_queued h.queued hne
  · rw [addNode_pq, addNode_tree]
    intro e he
    rcases mem_pqInsert.mp he with rfl | he
    · rw [hnew]
    · rw [at_append_below _ hc (h.index_lt he)]; exact h.weight e he
  · rw [addNode_tree, addNode_pq]
    refine (h.parts.leaf v w hc).perm ?_
    have := (hperm.map fun e => (e.index, Function.update f b.tree.nnodes (.leaf v) e.index)).symm
    rw [List.map_cons, Function.update_self] at this
    have hsame := partsOf_update (f := f) (sh := .leaf v) hne
    unfold partsOf at hsame ⊢
    rwa [hsame] at this
  · rw [addNode_pq]
    refine (hperm.flatMap_right _).trans ?_
    rw [List.flatMap_cons, Function.update_self, values_update hne]
    exact (List.perm_append_comm (l₁ := [v])).trans (h.values.append_right [v])
  · rw [addNode_tree, append_nnodes _ hc]
    intro i hi hl
    by_cases e : i = b.tree.nnodes
    · rw [e, hnew] at hl; simp [Node.mkLeaf] at hl
    · have hlt : i.toNat < b.tree.nnodes.toNat := by
        have : i.toNat ≠ b.tree.nnodes.toNat := fun eq => e (BitVec.eq_of_toNat_eq eq)
        omega
      rw [at_append_below _ hc hlt] at hl
      exact (h.merged i hlt hl).append _ hc hlt
  · rw [addNode_tree, addNode_pq, append_nnodes _ hc]
    intro k hk hm
    by_cases e : k = b.tree.nnodes
    · exact ⟨_, mem_pqInsert.mpr (.inl rfl), e.symm⟩
    · have hlt := lt_of_ne_nnodes hk e
      obtain ⟨f, hf, he⟩ := h.waiting k hlt fun hb => hm (mergedBefore_succ _ hc hb)
      exact ⟨f, mem_pqInsert.mpr (.inr hf), he⟩
  · rw [addNode_tree, addNode_pq]
    intro e he hm
    rcases mergedBefore_of_append hc hm with hm | ⟨hl, _⟩
    · rcases mem_pqInsert.mp he with rfl | he
      · exact not_mergedBefore_of_le h.merged (le_refl _) hm
      · exact h.free e he hm
    · exact absurd hl (by simp [Node.mkLeaf])

/-- One merge (rules R141, R142). -/
theorem Forest.merge {t : Tree} {e₁ e₂ : PQEntry} {q : List PQEntry} {f : NodeIx → Shape} {vals : List Sym}
    (h : Forest ⟨t, e₁ :: e₂ :: q⟩ f vals) (hc : t.nnodes.toNat < 513) :
    Forest (addNode (mergeNode t e₁.index e₂.index) ⟨t, q⟩)
      (Function.update f t.nnodes (.node (f e₁.index) (f e₂.index))) vals := by
  have h1 : e₁.index.toNat < t.nnodes.toNat := h.index_lt (by simp)
  have h2 : e₂.index.toNat < t.nnodes.toNat := h.index_lt (by simp)
  have hq : ∀ e ∈ q, e.index.toNat < t.nnodes.toNat := fun e he => h.index_lt (by simp [he])
  have hne : ∀ e ∈ q, e.index ≠ t.nnodes := fun e he eq => by have := hq e he; rw [eq] at this; omega
  have hqq := (List.pairwise_cons.mp h.queued)
  have hperm := pqInsert_perm ⟨(mergeNode t e₁.index e₂.index).weight, t.nnodes⟩ q
  have hnew : (t.append (mergeNode t e₁.index e₂.index)).at t.nnodes = mergeNode t e₁.index e₂.index := by
    rw [at_append _ _ hc, if_pos rfl]
  have hl1 : ((t.append (mergeNode t e₁.index e₂.index)).at t.nnodes).left = e₁.index := by rw [hnew]; rfl
  have hr1 : ((t.append (mergeNode t e₁.index e₂.index)).at t.nnodes).right = e₂.index := by rw [hnew]; rfl
  have hin : ((t.append (mergeNode t e₁.index e₂.index)).at t.nnodes).leaf = false := by rw [hnew]; rfl
  have hent : ∀ e ∈ e₁ :: e₂ :: q, entryOf t e.index = e := fun e he => by
    have hw : e.weight = (t.at e.index).weight := h.weight e he
    rw [entryOf, ← hw]
  refine ⟨?_, ?_, ?_, ?_, ?_, ?_, ?_⟩
  · rw [addNode_pq]; exact pqInsert_queued (List.pairwise_cons.mp hqq.2).2 hne
  · rw [addNode_pq, addNode_tree]
    intro e he
    rcases mem_pqInsert.mp he with rfl | he
    · rw [hnew]
    · rw [at_append_below _ hc (hq e he)]; exact h.weight e (by simp [he])
  · rw [addNode_tree, addNode_pq]
    have hm : Parts t ((e₁.index, f e₁.index) :: (e₂.index, f e₂.index) :: partsOf f q) := h.parts
    refine (hm.merge ((t.at e₁.index).weight + (t.at e₂.index).weight) hc).perm ?_
    have := (hperm.map fun e =>
      (e.index, Function.update f t.nnodes (.node (f e₁.index) (f e₂.index)) e.index)).symm
    rw [List.map_cons, Function.update_self] at this
    have hsame := partsOf_update (f := f) (sh := .node (f e₁.index) (f e₂.index)) hne
    unfold partsOf at hsame ⊢
    rwa [hsame] at this
  · rw [addNode_pq]
    refine (hperm.flatMap_right _).trans ?_
    rw [List.flatMap_cons, Function.update_self, values_update hne]
    have := h.values
    simp only [List.flatMap_cons] at this
    rw [Shape.values, List.append_assoc]
    exact this
  · rw [addNode_tree, append_nnodes _ hc]
    intro i hi hl
    show MergeOk (t.append _) i
    by_cases e : i = t.nnodes
    · subst e
      constructor
      · rw [hl1]; exact h1
      · rw [hr1]; exact h2
      · rw [hl1, hr1, at_append_below _ hc h1, at_append_below _ hc h2, hnew]; rfl
      · rw [hl1, mergedBefore_append _ _ hc (le_refl _)]; exact h.free e₁ (by simp)
      · rw [hr1, mergedBefore_append _ _ hc (le_refl _)]; exact h.free e₂ (by simp)
      · rw [hl1, hr1, entryOf_append _ hc h1, entryOf_append _ hc h2, hent e₁ (by simp), hent e₂ (by simp)]
        exact hqq.1 e₂ (by simp)
      · intro k hk hkl hkr hm
        rw [hl1] at hkl
        rw [hr1] at hkr
        rw [hr1, entryOf_append _ hc h2, entryOf_append _ hc hk, hent e₂ (by simp)]
        obtain ⟨e, he, rfl⟩ := h.waiting k hk fun hb => hm ((mergedBefore_append _ k hc (le_refl _)).mpr hb)
        rw [hent e he]
        simp only [List.mem_cons] at he
        rcases he with rfl | rfl | he
        · exact absurd rfl hkl
        · exact absurd rfl hkr
        · exact (List.pairwise_cons.mp hqq.2).1 e he
    · have hlt : i.toNat < t.nnodes.toNat := by
        have : i.toNat ≠ t.nnodes.toNat := fun eq => e (BitVec.eq_of_toNat_eq eq)
        have hi' : i.toNat < t.nnodes.toNat + 1 := hi
        omega
      have hl' : (t.at i).leaf = false := by rw [← at_append_below (mergeNode t e₁.index e₂.index) hc hlt]; exact hl
      exact (h.merged i hlt hl').append _ hc hlt
  · rw [addNode_tree, addNode_pq]
    intro k hk hm
    have hk' : k.toNat < t.nnodes.toNat + 1 := by rw [← append_nnodes _ hc]; exact hk
    by_cases e : k = t.nnodes
    · exact ⟨_, mem_pqInsert.mpr (.inl rfl), e.symm⟩
    · obtain ⟨f, hf, he⟩ := h.waiting k (lt_of_ne_nnodes hk' e) fun hb => hm (mergedBefore_succ _ hc hb)
      have hnot : ∀ c, c = e₁.index ∨ c = e₂.index → k ≠ c := fun c hc' hkc => hm
        ⟨t.nnodes, by show _ < (t.append _).nnodes.toNat; rw [append_nnodes _ hc]; omega, hin, by
          rw [hl1, hr1, hkc]; exact hc'.imp Eq.symm Eq.symm⟩
      rcases List.mem_cons.mp hf with rfl | hf
      · exact absurd he.symm (hnot _ (.inl rfl))
      · rcases List.mem_cons.mp hf with rfl | hf
        · exact absurd he.symm (hnot _ (.inr rfl))
        · exact ⟨f, mem_pqInsert.mpr (.inr hf), he⟩
  · rw [addNode_tree, addNode_pq]
    intro e he hm
    rcases mergedBefore_of_append hc hm with hm | ⟨_, hk⟩
    · rcases mem_pqInsert.mp he with rfl | he
      · exact not_mergedBefore_of_le h.merged (le_refl _) hm
      · exact h.free e (by simp [he]) hm
    · have hk : e₁.index = e.index ∨ e₂.index = e.index := hk
      rcases mem_pqInsert.mp he with rfl | he
      · rcases hk with hk | hk
        · exact absurd (congrArg BitVec.toNat hk) (Nat.ne_of_lt h1)
        · exact absurd (congrArg BitVec.toNat hk) (Nat.ne_of_lt h2)
      · rcases hk with hk | hk
        · exact h.index_ne (e := e₁) (by simp) (by simp [he]) (hqq.1 e (by simp [he])) hk.symm
        · exact h.index_ne (e := e₂) (by simp) (by simp [he]) ((List.pairwise_cons.mp hqq.2).1 e he) hk.symm

end Sys2Proof.Machine
end

