-- ==== Sys2Proof/Laws/Build.lean ====
section
/-! SUPPORT. BUILD as a whole (rules R139 to R147): the leaf loop, the merge loop, and what the finished tables are. -/

namespace Sys2Proof.Machine

/-! ## The leaf loop -/

theorem usedSymbols_succ (freq : Vector Weight 256) (n : Nat) :
    usedSymbols freq (n + 1) = usedSymbols freq n + if freqAt freq n = 0 then 0 else 1 := by
  rw [usedSymbols, List.range_succ, List.countP_append, List.countP_singleton]
  by_cases h : freqAt freq n = 0 <;> simp [h, usedSymbols]

theorem usedValues_succ (freq : Vector Weight 256) (n : Nat) :
    usedValues freq (n + 1) = usedValues freq n ++ if freqAt freq n = 0 then [] else [BitVec.ofNat 9 n] := by
  rw [usedValues, List.range_succ, List.filter_append, List.map_append]
  by_cases h : freqAt freq n = 0
  · simp [h, usedValues]
  · rw [if_neg h, usedValues, List.filter_cons, if_pos (by simpa using h)]
    rfl

theorem length_usedValues (freq : Vector Weight 256) (n : Nat) :
    (usedValues freq n).length = usedSymbols freq n := by
  rw [usedValues, List.length_map, usedSymbols, List.countP_eq_length_filter]

theorem usedSymbols_le (freq : Vector Weight 256) (n : Nat) : usedSymbols freq n ≤ n := by
  have := List.countP_le_length (p := fun s => freqAt freq s != 0) (l := List.range n)
  rwa [List.length_range] at this

theorem usedSymbols_mono (freq : Vector Weight 256) {m n : Nat} (h : m ≤ n) :
    usedSymbols freq m ≤ usedSymbols freq n := by
  induction h with
  | refl => exact le_refl _
  | step _ ih => rw [usedSymbols_succ]; omega

/-- A symbol with a count has its place below the next one's. -/
theorem usedSymbols_lt (freq : Vector Weight 256) {s n : Nat} (h : s < n) (hs : freqAt freq s ≠ 0) :
    usedSymbols freq s < usedSymbols freq n := by
  have := usedSymbols_mono freq (show s + 1 ≤ n from h)
  rw [usedSymbols_succ, if_neg hs] at this
  omega

/-- A forest is the same whatever NLEAF and ROOT say. -/
theorem Forest.congr {b c : Builder} {f : NodeIx → Shape} {vals : List Sym} (h : Forest b f vals)
    (hn : c.tree.node = b.tree.node) (hc : c.tree.nnodes = b.tree.nnodes) (hq : c.pq = b.pq) : Forest c f vals := by
  have ha : ∀ i, c.tree.at i = b.tree.at i := at_congr hn
  have hs := fun i sh => spells_congr (t := b.tree) (u := c.tree) (sh := sh) (i := i) fun j _ => ha j
  have hm : ∀ i k, mergedBefore c.tree i k ↔ mergedBefore b.tree i k := fun i k => by simp only [mergedBefore, ha]
  have he : ∀ k, entryOf c.tree k = entryOf b.tree k := fun k => by simp only [entryOf, ha]
  refine ⟨by rw [hq]; exact h.queued, ?_, ⟨?_, ?_, ?_, ?_, ?_, ?_⟩, by rw [hq]; exact h.values, ?_, ?_, ?_⟩
  · rw [hq]; intro e hm; rw [ha]; exact h.weight e hm
  · rw [hq]; intro p hp; rw [(hs p.1 p.2).1]; exact h.parts.spelled p hp
  · rw [hq]; simp only [(hs _ _).2]; exact h.parts.once
  · rw [hq, hc]; simp only [(hs _ _).2]; exact h.parts.below
  · rw [hq, hc]; exact h.parts.total
  · rw [hc]; simp only [ha]; exact h.parts.used
  · rw [hc]; simp only [ha]; exact h.parts.unused
  · rw [hc]
    intro i hi hl
    rw [ha] at hl
    have := h.merged i hi hl
    exact ⟨by rw [ha]; exact this.left, by rw [ha]; exact this.right, by simp only [ha]; exact this.weight,
      by rw [ha, hm]; exact this.leftFree, by rw [ha, hm]; exact this.rightFree, by rw [ha, he, he]; exact this.order, by simp only [ha, he, hm]; exact this.least⟩
  · rw [hc, hq]; simp only [hm]; exact h.waiting
  · rw [hc, hq]; simp only [hm]; exact h.free

/-- What the leaf loop has done after the first `n` symbols (rule R139). -/
structure LeavesOk (freq : Vector Weight 256) (n : Nat) (b : Builder) : Prop where
  forest : ∃ f, Forest b f (usedValues freq n)
  nnodes : b.tree.nnodes.toNat = usedSymbols freq n
  placed : ∀ s, s < n → freqAt freq s ≠ 0 →
    b.tree.at (BitVec.ofNat 10 (usedSymbols freq s)) = Node.mkLeaf (BitVec.ofNat 9 s) (freqAt freq s)
  leaves : ∀ i : NodeIx, i.toNat < b.tree.nnodes.toNat → (b.tree.at i).leaf = true

theorem leavesOk_addNode {freq : Vector Weight 256} {n : Nat} {b : Builder} (h : LeavesOk freq n b) (v : Sym)
    (w : Weight) (hn : n ≤ 256) :
    (∃ f, Forest (addNode (Node.mkLeaf v w) b) f (usedValues freq n ++ [v])) ∧
    (addNode (Node.mkLeaf v w) b).tree.nnodes.toNat = usedSymbols freq n + 1 ∧
    (∀ s, s < n → freqAt freq s ≠ 0 →
      (addNode (Node.mkLeaf v w) b).tree.at (BitVec.ofNat 10 (usedSymbols freq s)) =
        Node.mkLeaf (BitVec.ofNat 9 s) (freqAt freq s)) ∧
    (addNode (Node.mkLeaf v w) b).tree.at (BitVec.ofNat 10 (usedSymbols freq n)) = Node.mkLeaf v w ∧
    (∀ i : NodeIx, i.toNat < (addNode (Node.mkLeaf v w) b).tree.nnodes.toNat →
      ((addNode (Node.mkLeaf v w) b).tree.at i).leaf = true) := by
  have hle := usedSymbols_le freq n
  have hc : b.tree.nnodes.toNat < 513 := by rw [h.nnodes]; omega
  obtain ⟨f, hf⟩ := h.forest
  rw [addNode_tree]
  refine ⟨⟨_, hf.addLeaf v w hc⟩, by rw [append_nnodes _ hc, h.nnodes], ?_, ?_, ?_⟩
  · intro s hs h0
    have hlt := usedSymbols_lt freq hs h0
    rw [at_append_below _ hc (by rw [toNat_ofNat_ix (by omega), h.nnodes]; exact hlt)]
    exact h.placed s hs h0
  · rw [at_append _ _ hc, if_pos]
    apply BitVec.eq_of_toNat_eq
    rw [toNat_ofNat_ix (by omega), h.nnodes]
  · rw [append_nnodes _ hc]
    intro i hi
    by_cases e : i = b.tree.nnodes
    · rw [e, at_append _ _ hc, if_pos rfl]; rfl
    · rw [at_append_below _ hc (lt_of_ne_nnodes hi e)]
      exact h.leaves i (lt_of_ne_nnodes hi e)

theorem leavesOk_fold {freq : Vector Weight 256} {b : Builder} (h : LeavesOk freq 0 b) {n : Nat} (hn : n ≤ 256) :
    LeavesOk freq n ((List.range n).foldl (addSymbolLeaf freq) b) := by
  induction n with
  | zero => exact h
  | succ n ih =>
    have hp := ih (by omega)
    rw [List.range_succ, List.foldl_append, List.foldl_cons, List.foldl_nil]
    by_cases h0 : freqAt freq n = 0
    · rw [addSymbolLeaf, if_pos h0]
      refine ⟨?_, ?_, ?_, hp.leaves⟩
      · rw [usedValues_succ, if_pos h0, List.append_nil]; exact hp.forest
      · rw [usedSymbols_succ, if_pos h0]; exact hp.nnodes
      · intro s hs hs0
        rcases Nat.lt_succ_iff_lt_or_eq.mp hs with hs | rfl
        · exact hp.placed s hs hs0
        · exact absurd h0 hs0
    · rw [addSymbolLeaf, if_neg h0]
      have ha := leavesOk_addNode hp (BitVec.ofNat 9 n) (freqAt freq n) (by omega)
      refine ⟨?_, ?_, ?_, ha.2.2.2.2⟩
      · rw [usedValues_succ, if_neg h0]; exact ha.1
      · rw [usedSymbols_succ, if_neg h0]; exact ha.2.1
      · intro s hs hs0
        rcases Nat.lt_succ_iff_lt_or_eq.mp hs with hs | rfl
        · exact ha.2.2.1 s hs hs0
        · exact ha.2.2.2.1

/-- The leaves of BUILD: the used symbols in ascending order, then the sentinel (rules R139, R140, R146). -/
theorem buildLeaves_spec (freq : Vector Weight 256) {t : Tree} (hu : ∀ i : NodeIx, t.at i = Node.invalid) :
    (∃ f, Forest (buildLeaves freq t) f (usedValues freq 256 ++ [Config.eos])) ∧
    (buildLeaves freq t).tree.nnodes.toNat = usedSymbols freq 256 + 1 ∧
    (buildLeaves freq t).tree.nleaf = (buildLeaves freq t).tree.nnodes ∧
    (∀ s, s < 256 → freqAt freq s ≠ 0 →
      (buildLeaves freq t).tree.at (BitVec.ofNat 10 (usedSymbols freq s)) =
        Node.mkLeaf (BitVec.ofNat 9 s) (freqAt freq s)) ∧
    (buildLeaves freq t).tree.at (BitVec.ofNat 10 (usedSymbols freq 256)) =
      Node.mkLeaf Config.eos Config.eosWeight ∧
    (∀ i : NodeIx, i.toNat < (buildLeaves freq t).tree.nnodes.toNat →
      ((buildLeaves freq t).tree.at i).leaf = true) := by
  have h0 : LeavesOk freq 0 { tree := { t with nnodes := 0 }, pq := [] } :=
    { forest := ⟨fun _ => .leaf 0, forest_empty (t := { t with nnodes := 0 }) rfl (fun i => hu i) _⟩
      nnodes := rfl
      placed := by omega
      leaves := by intro i hi; exact absurd hi (by simp) }
  have hl := leavesOk_addNode (leavesOk_fold h0 (le_refl 256)) Config.eos Config.eosWeight (le_refl 256)
  refine ⟨?_, hl.2.1, rfl, hl.2.2.1, hl.2.2.2.1, hl.2.2.2.2⟩
  obtain ⟨f, hf⟩ := hl.1
  exact ⟨f, hf.congr rfl rfl rfl⟩

/-! ## The merge loop -/

theorem mergeLoop_merge (fuel : Nat) (t : Tree) (e₁ e₂ : PQEntry) (q : List PQEntry) :
    mergeLoop (fuel + 1) ⟨t, e₁ :: e₂ :: q⟩ = mergeLoop fuel (addNode (mergeNode t e₁.index e₂.index) ⟨t, q⟩) := rfl

theorem mergeLoop_one (fuel : Nat) (t : Tree) (e : PQEntry) : mergeLoop fuel ⟨t, [e]⟩ = ⟨t, [e]⟩ := by
  cases fuel <;> rfl

/-- What the merge loop leaves (rules R141, R143): one entry, the last node created; the nodes it found are unchanged
and the ones it made are internal. -/
structure Merged (b b' : Builder) (vals : List Sym) : Prop where
  forest : ∃ f, Forest b' f vals
  single : ∃ e, b'.pq = [e] ∧ e.index.toNat + 1 = b'.tree.nnodes.toNat
  below  : ∀ i : NodeIx, i.toNat < b.tree.nnodes.toNat → b'.tree.at i = b.tree.at i
  above  : ∀ i : NodeIx, b.tree.nnodes.toNat ≤ i.toNat → i.toNat < b'.tree.nnodes.toNat →
    (b'.tree.at i).leaf = false
  grows  : b.tree.nnodes.toNat ≤ b'.tree.nnodes.toNat
  nleaf  : b'.tree.nleaf = b.tree.nleaf

theorem mergeLoop_spec {vals : List Sym} (hv : vals.length ≤ 257) :
    ∀ (fuel : Nat) (b : Builder) (f : NodeIx → Shape), Forest b f vals → b.pq.length ≤ fuel + 1 →
      (∃ e, b.pq = [e] ∧ e.index.toNat + 1 = b.tree.nnodes.toNat) ∨ 2 ≤ b.pq.length →
      Merged b (mergeLoop fuel b) vals := by
  intro fuel
  induction fuel with
  | zero =>
    intro b f hf hl hs
    rcases hs with hs | hs
    · exact ⟨⟨f, hf⟩, hs, fun _ _ => rfl, fun i h1 h2 => absurd h1 (by rw [mergeLoop] at h2; omega), le_refl _, rfl⟩
    · omega
  | succ fuel ih =>
    rintro ⟨t, q⟩ f hf hl hs
    match q, hf, hl, hs with
    | [], _, _, hs => rcases hs with ⟨e, he, _⟩ | hs <;> simp at *
    | [e], hf, _, hs =>
      rw [mergeLoop_one]
      refine ⟨⟨f, hf⟩, ?_, fun _ _ => rfl, fun i h1 h2 => absurd h1 (by omega), le_refl _, rfl⟩
      rcases hs with hs | hs
      · exact hs
      · simp at hs
    | e₁ :: e₂ :: q, hf, hl, _ =>
      have hcount := hf.count
      have hc : t.nnodes.toNat < 513 := by
        simp only [List.length_cons] at hcount
        omega
      rw [mergeLoop_merge]
      have hm := ih _ _ (hf.merge hc) (by rw [addNode_pq, length_pqInsert]; simp at hl ⊢; omega) (by
        cases q with
        | nil =>
          left
          refine ⟨_, rfl, ?_⟩
          rw [addNode_tree, append_nnodes _ hc]
        | cons e q => right; rw [addNode_pq, length_pqInsert]; simp)
      have hn : (addNode (mergeNode t e₁.index e₂.index) ⟨t, q⟩).tree.nnodes.toNat = t.nnodes.toNat + 1 := by
        rw [addNode_tree, append_nnodes _ hc]
      refine ⟨hm.forest, hm.single, ?_, ?_, ?_, hm.nleaf⟩
      · intro i hi
        rw [hm.below i (by rw [hn]; exact Nat.lt_succ_of_lt hi), addNode_tree, at_append_below _ hc hi]
      · intro i h1 h2
        by_cases e : i = t.nnodes
        · rw [hm.below i (by rw [hn, e]; omega), addNode_tree, at_append _ _ hc, if_pos e]; rfl
        · refine hm.above i ?_ h2
          rw [hn]
          have : i.toNat ≠ t.nnodes.toNat := fun eq => e (BitVec.eq_of_toNat_eq eq)
          have : t.nnodes.toNat ≤ i.toNat := h1
          omega
      · have := hm.grows
        rw [hn] at this
        show t.nnodes.toNat ≤ _
        omega

/-! ## BUILD's tables -/

theorem eos_notMem_usedValues (freq : Vector Weight 256) (n : Nat) (hn : n ≤ 256) : Config.eos ∉ usedValues freq n := by
  rw [usedValues, List.mem_map]
  rintro ⟨s, hs, he⟩
  have h1 := List.mem_range.mp (List.mem_filter.mp hs).1
  have := congrArg BitVec.toNat he
  rw [BitVec.toNat_ofNat] at this
  have h2 : Config.eos.toNat = 256 := rfl
  omega

theorem usedValues_nodup (freq : Vector Weight 256) (n : Nat) (hn : n ≤ 256) : (usedValues freq n).Nodup := by
  refine List.Nodup.map_on ?_ (List.nodup_range.filter _)
  intro a ha b hb e
  have h1 := List.mem_range.mp (List.mem_filter.mp ha).1
  have h2 := List.mem_range.mp (List.mem_filter.mp hb).1
  have := congrArg BitVec.toNat e
  rw [BitVec.toNat_ofNat, BitVec.toNat_ofNat] at this
  omega

theorem usedValues_lt {freq : Vector Weight 256} {n : Nat} {v : Sym} (hn : n ≤ 256) (h : v ∈ usedValues freq n) :
    v.toNat < n := by
  rw [usedValues, List.mem_map] at h
  obtain ⟨s, hs, rfl⟩ := h
  have h1 := List.mem_range.mp (List.mem_filter.mp hs).1
  rw [BitVec.toNat_ofNat]
  omega

/-- What BUILD leaves over an empty node memory (rules R139 to R147). -/
structure BuildOk (freq : Vector Weight 256) (b : Builder) : Prop where
  tree   : ∃ sh, BuiltOk b.tree sh ∧ sh.values.Perm (usedValues freq 256 ++ [Config.eos])
  queue  : b.pq = [entryOf b.tree b.tree.root.index]
  nnodes : b.tree.nnodes.toNat = 2 * usedSymbols freq 256 + 1
  nleaf  : b.tree.nleaf.toNat = usedSymbols freq 256 + 1
  placed : ∀ s, s < 256 → freqAt freq s ≠ 0 →
    b.tree.at (BitVec.ofNat 10 (usedSymbols freq s)) = Node.mkLeaf (BitVec.ofNat 9 s) (freqAt freq s)
  sentinel : b.tree.at (BitVec.ofNat 10 (usedSymbols freq 256)) = Node.mkLeaf Config.eos Config.eosWeight
  low    : ∀ i : NodeIx, i.toNat ≤ usedSymbols freq 256 → (b.tree.at i).leaf = true
  high   : ∀ i : NodeIx, usedSymbols freq 256 < i.toNat → i.toNat < b.tree.nnodes.toNat → (b.tree.at i).leaf = false
  merged : ∀ i : NodeIx, i.toNat < b.tree.nnodes.toNat → (b.tree.at i).leaf = false → MergeOk b.tree i

theorem setRoot_spec {freq : Vector Weight 256} {c m : Builder}
    (hn : c.tree.nnodes.toNat = usedSymbols freq 256 + 1)
    (hl : c.tree.nleaf = c.tree.nnodes)
    (hp : ∀ s, s < 256 → freqAt freq s ≠ 0 →
      c.tree.at (BitVec.ofNat 10 (usedSymbols freq s)) = Node.mkLeaf (BitVec.ofNat 9 s) (freqAt freq s))
    (hs : c.tree.at (BitVec.ofNat 10 (usedSymbols freq 256)) = Node.mkLeaf Config.eos Config.eosWeight)
    (hleaf : ∀ i : NodeIx, i.toNat < c.tree.nnodes.toNat → (c.tree.at i).leaf = true)
    (hm : Merged c m (usedValues freq 256 ++ [Config.eos])) : BuildOk freq (setRoot m) := by
  have hd := usedSymbols_le freq 256
  have hlen : (usedValues freq 256 ++ [Config.eos]).length = usedSymbols freq 256 + 1 := by
    rw [List.length_append, length_usedValues]; rfl
  obtain ⟨g, hg⟩ := hm.forest
  replace hg : Forest (setRoot m) g _ := hg.congr rfl rfl rfl
  obtain ⟨e, he, hlast⟩ := hm.single
  have hroot : (setRoot m).tree.root = ⟨true, e.index⟩ := by
    show (⟨true, rootIndex m.pq⟩ : Root) = _
    rw [he]; rfl
  have hat : ∀ i, (setRoot m).tree.at i = m.tree.at i :=
    fun _ => rfl
  have hnn : (setRoot m).tree.nnodes = m.tree.nnodes := rfl
  have hq : (setRoot m).pq = [e] := he
  have hc2 := hg.count
  rw [hlen, hq, List.length_singleton] at hc2
  have hvals : ((g e.index).values).Perm (usedValues freq 256 ++ [Config.eos]) := by
    have := hg.values
    rw [hq] at this
    simpa using this
  have hparts := hg.parts
  rw [hq] at hparts
  have hnl : (setRoot m).tree.nleaf.toNat = usedSymbols freq 256 + 1 := by
    show m.tree.nleaf.toNat = _
    rw [hm.nleaf, hl, hn]
  refine ⟨⟨g e.index, ?_, hvals⟩, ?_, by omega, hnl, ?_, ?_, ?_, ?_, hg.merged⟩
  · refine ⟨⟨by rw [hroot], ?_, ?_, ?_, ?_, hparts.used, hparts.unused⟩, ?_, ?_, ?_, ?_⟩
    · rw [hroot]; exact hparts.spelled (e.index, g e.index) (by simp [partsOf])
    · rw [hroot]
      have := hparts.once
      simpa [partsOf] using this
    · have := hparts.total
      simpa [partsOf] using this
    · rw [hnl, ← Shape.length_values, hvals.length_eq, hlen]
    · refine hvals.nodup_iff.mpr (List.nodup_append.mpr ⟨usedValues_nodup freq 256 (le_refl _), by simp, ?_⟩)
      intro a ha b hb eq
      rw [List.mem_singleton] at hb
      exact eos_notMem_usedValues freq 256 (le_refl _) (by rw [← hb, ← eq]; exact ha)
    · rw [hvals.mem_iff]; simp
    · intro v hv
      rw [hvals.mem_iff, List.mem_append, List.mem_singleton] at hv
      rcases hv with hv | rfl
      · exact le_of_lt (usedValues_lt (le_refl _) hv)
      · exact le_refl _
    · rw [hroot]; exact hlast
  · rw [hroot]
    rw [hq, entryOf, ← hg.weight e (by rw [hq]; simp)]
  · intro s h1 h2
    have := usedSymbols_lt freq h1 h2
    rw [hat, hm.below _ (by rw [hn, toNat_ofNat_ix (by omega)]; omega)]
    exact hp s h1 h2
  · rw [hat, hm.below _ (by rw [hn, toNat_ofNat_ix (by omega)]; omega)]
    exact hs
  · intro i hi
    rw [hat, hm.below i (by omega)]
    exact hleaf i (by omega)
  · intro i h1 h2
    exact hm.above i (by omega) h2

theorem buildTree_spec (freq : Vector Weight 256) {t : Tree} (hu : ∀ i : NodeIx, t.at i = Node.invalid) :
    BuildOk freq (buildTree freq t) := by
  obtain ⟨⟨f, hf⟩, hn, hl, hp, hs, hleaf⟩ := buildLeaves_spec freq hu
  have hd := usedSymbols_le freq 256
  have hlen : (usedValues freq 256 ++ [Config.eos]).length = usedSymbols freq 256 + 1 := by
    rw [List.length_append, length_usedValues]; rfl
  unfold buildTree
  generalize buildLeaves freq t = c at hf hn hl hp hs hleaf ⊢
  have hcount := hf.count
  rw [hlen, hn] at hcount
  refine setRoot_spec hn hl hp hs hleaf (mergeLoop_spec (by rw [hlen]; omega) _ c f hf (by unfold mergePasses; omega) ?_)
  by_cases h2 : 2 ≤ c.pq.length
  · exact .inr h2
  · left
    obtain ⟨e, he⟩ := List.length_eq_one_iff.mp (show c.pq.length = 1 by omega)
    refine ⟨e, he, ?_⟩
    have := hf.index_lt (e := e) (by rw [he]; simp)
    omega

/-- BUILD's body on an empty node memory. -/
theorem buildBody_spec (s : State) (ht : s.tree = Tree.empty) :
    ∃ t q, buildBody s = .ok { s with tree := t, pq := q } ∧ BuildOk s.freq ⟨t, q⟩ :=
  ⟨_, _, rfl, buildTree_spec s.freq (by rw [ht]; exact at_empty)⟩

end Sys2Proof.Machine
end

