-- ==== Sys2Proof/Laws/Macro.lean ====
section
/-! SUPPORT. The whole operations (rules R205 to R215): what COMPRESS's body leaves on a fresh session, and what
DECOMPRESS's body reads from it. -/

namespace Sys2Proof.Machine

/-! ## The bytes of the input and the leaves of the tree -/

theorem zeroExtend_byte (r : Byte) : (r.zeroExtend 9 : Sym) = BitVec.ofNat 9 r.toNat := by
  apply BitVec.eq_of_toNat_eq
  have := r.isLt
  rw [BitVec.toNat_ofNat, Nat.mod_eq_of_lt (by omega)]
  simp [BitVec.toNat_setWidth]
  omega

theorem toNat_zeroExtend_byte (r : Byte) : (r.zeroExtend 9 : Sym).toNat = r.toNat := by
  have := r.isLt
  rw [zeroExtend_byte, BitVec.toNat_ofNat, Nat.mod_eq_of_lt (by omega)]

/-- A byte that was counted has a leaf (rules R129, R139). -/
theorem mem_usedValues {freq : Vector Weight 256} {r : Byte} (h : freqAt freq r.toNat ≠ 0) :
    (r.zeroExtend 9 : Sym) ∈ usedValues freq 256 := by
  rw [usedValues, List.mem_map]
  exact ⟨r.toNat, List.mem_filter.mpr ⟨List.mem_range.mpr r.isLt, by simpa using h⟩, (zeroExtend_byte r).symm⟩

theorem freqAt_ne_zero_of_mem {freq : Vector Weight 256} {bytes : List Byte}
    (h : ∀ b : Byte, (freqAt freq b.toNat).toNat = bytes.count b) {r : Byte} (hr : r ∈ bytes) :
    freqAt freq r.toNat ≠ 0 := by
  intro e
  have := h r
  rw [e] at this
  exact absurd this.symm (Nat.ne_of_gt (List.count_pos_iff.mpr hr))

/-- The depth of a leaf of a tree in the memory is at most 256 (rule R159). -/
theorem path_le {t : Tree} {sh : Shape} (h : TreeOk t sh) {x : Sym × List Bool} (hx : x ∈ sh.paths) :
    x.2.length ≤ 256 := by
  have h1 := Shape.length_path_le hx
  have h2 := height_of_treeOk h (nnodes_le_of_treeOk h)
  have : Config.walkFrames = 257 := rfl
  omega

/-- The code of a leaf's symbol is its path (rules R27, R28). -/
theorem code_of_leaf {t : Tree} {sh : Shape} {code : Vector Code 257} (h : TreeOk t sh) (hc : CodesOk code sh)
    {v : Sym} (hv : v ∈ sh.values) : (v, codeBitList (codeAt code v)) ∈ sh.paths ∧ (codeAt code v).valid = true := by
  obtain ⟨p, hp⟩ := Shape.exists_path hv
  have e : codeAt code v = codeOfPath p := hc.spelled _ hp
  rw [e, codeBitList_codeOfPath (path_le h hp)]
  exact ⟨hp, rfl⟩

/-- The symbols and paths of an input's bytes. -/
def pathsOfBytes (code : Vector Code 257) (bytes : List Byte) : List (Sym × List Bool) :=
  bytes.map fun r => (r.zeroExtend 9, codeBitList (codeOfByte code r))

@[simp] theorem emittedBytes_pathsOfBytes (code : Vector Code 257) (bytes : List Byte) :
    emittedBytes (pathsOfBytes code bytes) = bytes := by
  rw [emittedBytes, pathsOfBytes, List.map_map]
  conv_rhs => rw [← List.map_id bytes]
  apply List.map_congr_left
  intro r _
  apply BitVec.eq_of_toNat_eq
  have := r.isLt
  show (BitVec.setWidth 8 (r.zeroExtend 9)).toNat = _
  rw [BitVec.toNat_setWidth, toNat_zeroExtend_byte]
  exact Nat.mod_eq_of_lt this

theorem bodyBits_pathsOfBytes (code : Vector Code 257) (bytes : List Byte) :
    bodyBits (pathsOfBytes code bytes) = bytes.flatMap fun r => codeBitList (codeOfByte code r) := by
  rw [bodyBits, pathsOfBytes, List.flatMap_map]

/-! ## COMPRESS -/

/-- COMPRESS's body at the start of a session (rule R205). -/
theorem compressBody_spec (s : State) (ha : Answering s) (hp : s.inp.ipos = 0) (hl : s.inp.bytes.length ≤ Config.maxLen)
    (ht : s.tree = Tree.empty) :
    ∃ freq inlen t q code sh, compressBody s =
        .ok { signalRewind s with
          freq := freq, inlen := inlen, tree := t, pq := q, code := code,
          inp := { s.inp with ipos := 8 * s.inp.bytes.length, eod := true, rewound := true },
          outp := (s.outp.writeList (streamBits sh code s.inp.bytes)).flush,
          trav := { s.trav with path := 0, pathLen := 0 } } ∧
      (∀ b : Byte, (freqAt freq b.toNat).toNat = s.inp.bytes.count b) ∧ inlen.toNat = s.inp.bytes.length ∧
      BuildOk freq ⟨t, q⟩ ∧ BuiltOk t sh ∧ sh.values.Perm (usedValues freq 256 ++ [Config.eos]) ∧ CodesOk code sh := by
  obtain ⟨freq, inlen, hcount, hf, hi⟩ := (countBody_spec s hp ha.1).1 hl
  obtain ⟨t, q, hbuild, hb⟩ := buildBody_spec
    { s with freq := freq, inlen := inlen, inp := { s.inp with ipos := 8 * s.inp.bytes.length, eod := true } } ht
  obtain ⟨sh, hsh, hperm⟩ := hb.tree
  have hht := height_of_treeOk hsh.toTreeOk (nnodes_le_of_treeOk hsh.toTreeOk)
  refine ⟨freq, inlen, t, q, _, sh, ?_, hf, hi, hb, hsh, hperm,
    codesOk_recordPaths hsh.different hsh.symbols (Vector.replicate 257 Code.invalid)⟩
  rw [compressBody, hcount, andThen_of_ok, hbuild, andThen_of_ok, gencodeBody_of_tree hsh.spelled hht, andThen_of_ok,
    wrhdrBody_of_tree hsh.spelled hht, drain_answering (by exact ha.2), andThen_of_ok, encodeBody_done _ (by exact ha.1),
    drain_answering (by simpa using ha.2)]
  · dsimp only
    rw [← writeList_append]
    rfl
  · intro r hr
    have hc := codesOk_recordPaths hsh.different hsh.symbols (Vector.replicate 257 Code.invalid)
    refine (code_of_leaf hsh.toTreeOk hc ?_).2
    rw [hperm.mem_iff]
    exact List.mem_append_left _ (mem_usedValues (freqAt_ne_zero_of_mem hf hr))

/-! ## DECOMPRESS -/

/-- DECOMPRESS's body at the start of a session, on the serialization of a tree with a sentinel and a body of its
leaves (rules R206, R170, R195). -/
theorem decompressBody_spec (s : State) (ha : Answering s) {sh : Shape} {xs : List (Sym × List Bool)} {p rest : List Bool}
    (ht : s.tree = Tree.empty)
    (hb : s.inp.unread = bitsOf 32 Config.magicTree.toNat ++ (sh.bits ++ (bodyBits xs ++ (p ++ rest))))
    (hs : sh.leafCount ≤ 257) (hv : ∀ v ∈ sh.values, v.toNat ≤ 256) (he : (Config.eos, p) ∈ sh.paths)
    (hx : Emitted sh xs) (hc : s.outp.Coherent) (ho : s.outp.opos % 8 = 0) :
    ∃ t j, decompressBody s =
        .ok { s with
          inp := s.inp.advance (32 + sh.bits.length + ((bodyBits xs).length + p.length)), tree := t,
          outp := { s.outp with opos := s.outp.opos + 8 * xs.length, out := s.outp.out ++ emittedBytes xs },
          trav := { s.trav with stage := .off, stack := [], cur := j } } ∧
      TreeOk t sh ∧ t.root.index = 0 ∧ indices t 0 sh = (List.range sh.size).map (BitVec.ofNat 10) ∧
      ∀ i, (t.at i).weight = 0 := by
  obtain ⟨t, hr, hok, hroot, hidx, hw⟩ := readHeader_of_bits hb hs hv ht
  have hbody := rdhdrBody_readHeader s ha.1
  rw [hr] at hbody
  dsimp only at hbody
  have hu : (s.inp.advance (32 + sh.bits.length)).unread = bodyBits xs ++ (p ++ rest) := by
    rw [← List.append_assoc] at hb
    exact unread_of_append (by simp) hb
  obtain ⟨j, hd⟩ := decodeBody_done
    (s := { s with
      inp := s.inp.advance (32 + sh.bits.length), tree := t, trav := { s.trav with stage := .off, stack := [] } })
    ha.1 hok.spelled he hx hu hc ho
  refine ⟨t, j, ?_, hok, hroot, hidx, hw⟩
  rw [decompressBody, hbody, andThen_of_ok, hd, drain_answering (by exact ha.2), advance_advance]

end Sys2Proof.Machine
end

