-- ==== Sys2Proof/Laws/Invariant.lean ====
section
/-! SUPPORT. The parts of the run invariant: what it depends on, and what it gives in each phase. -/

namespace Sys2Proof.Machine

/-- `t` has the tables and streams of `s`; where its source and sink stop may differ. -/
structure SameData (s t : State) : Prop where
  phase : t.phase = s.phase
  freq  : t.freq = s.freq
  inlen : t.inlen = s.inlen
  tree  : t.tree = s.tree
  pq    : t.pq = s.pq
  code  : t.code = s.code
  inp   : t.inp = { s.inp with stall := t.inp.stall }
  outp  : t.outp = { s.outp with stall := t.outp.stall }

theorem Counted.congr {s t : State} (h : Counted s) (hf : t.freq = s.freq) (hl : t.inlen = s.inlen)
    (hb : t.inp.bytes = s.inp.bytes) : Counted t :=
  ⟨by rw [hf, hb]; exact h.each, by rw [hl, hb]; exact h.total, by rw [hb]; exact h.bound⟩

theorem SameData.beforeCommand {s t : State} (h : SameData s t) (hw : t.waiting = s.waiting) :
    SameData (Machine.beforeCommand s) (Machine.beforeCommand t) := by
  unfold Machine.beforeCommand
  rw [hw]
  cases s.waiting with
  | none => exact h
  | some w => exact ⟨h.phase, h.freq, h.inlen, h.tree, h.pq, h.code, h.inp, by dsimp only; rw [h.outp]⟩

/-- What the tables and streams hold depends on tables, streams and PHASE alone. -/
theorem phaseHolds_congr {s t : State} (h : SameData s t) (hp : PhaseHolds s) : PhaseHolds t := by
  have hb : t.inp.bytes = s.inp.bytes := by rw [h.inp]
  have hx : t.inp.ipos = s.inp.ipos := by rw [h.inp]
  have hw : t.outp.written = s.outp.written := by rw [h.outp]; rfl
  have ho : t.outp.opos = s.outp.opos := by rw [h.outp]
  have hc : Counted s → Counted t := fun x => x.congr h.freq h.inlen hb
  have hi : NothingIn s → NothingIn t := fun x => by
    have e : t.inp = { s.inp with stall := t.inp.stall } := h.inp
    unfold NothingIn at x ⊢
    rw [e, x]; rfl
  have hn : NothingOut s → NothingOut t := fun x => by
    have e : t.outp = { s.outp with stall := t.outp.stall } := h.outp
    unfold NothingOut at x ⊢
    rw [e, x]; rfl
  unfold PhaseHolds at *
  rw [h.phase]
  cases hph : s.phase <;> rw [hph] at hp <;> dsimp only at hp ⊢ <;>
    simp only [NotCounted, NoCodes, RootQueued, UsedLeaves, h.freq, h.inlen, h.tree, h.pq, h.code, hx, hw, ho]
  · exact ⟨hp.1, hp.2.1, hp.2.2.1, hp.2.2.2.1, hi hp.2.2.2.2.1, hn hp.2.2.2.2.2⟩
  · exact ⟨hc hp.1, hp.2.1, hp.2.2.1, hp.2.2.2.1, hn hp.2.2.2.2⟩
  · exact ⟨hc hp.1, hp.2.1, hp.2.2.1, hp.2.2.2.1, hn hp.2.2.2.2⟩
  · exact ⟨hc hp.1, hp.2.1, hp.2.2.1, hn hp.2.2.2⟩
  · exact ⟨hc hp.1, hp.2⟩
  · exact ⟨hc hp.1, hp.2⟩
  · exact ⟨hp.1, hp.2.1, hp.2.2.1, hp.2.2.2.1, hp.2.2.2.2.1, hn hp.2.2.2.2.2⟩
  · exact hp

/-- While no command runs none waits. -/
theorem RunInv.not_waiting {s : State} (hi : RunInv s) (hb : s.busy = false) : s.waiting = none := by
  have := hi.flags.waits
  rw [hb] at this
  simpa using this

/-- While no command runs the invariant is about the state itself. -/
theorem RunInv.at_rest {s : State} (hi : RunInv s) (hb : s.busy = false) : beforeCommand s = s :=
  beforeCommand_of_none (hi.not_waiting hb)

/-- The invariant survives a change of the pins, of CTRL, of CMDDROP, of the free counter and of where source and sink
stop. -/
theorem RunInv.congr {s t : State} (hi : RunInv s) (h : SameData s t) (hb : t.busy = s.busy) (hd : t.done = s.done)
    (he : t.err = s.err) (hn : t.errinfo = s.errinfo) (hv : t.trav = s.trav) (hw : t.waiting = s.waiting) :
    RunInv t where
  flags :=
    { info := by rw [he, hn]; exact hi.flags.info
      doneIdle := by rw [hd, hb, he]; exact hi.flags.doneIdle
      busyClean := by rw [hb, he]; exact hi.flags.busyClean
      transient := by rw [hv]; exact hi.flags.transient
      waits := by rw [hw, hb]; exact hi.flags.waits }
  waiting := by
    unfold WaitingLegal
    rw [hw, h.phase]
    exact hi.waiting
  packer hx := by
    have e : (beforeCommand t).outp = { (beforeCommand s).outp with stall := (beforeCommand t).outp.stall } :=
      (h.beforeCommand hw).outp
    rw [e]
    exact hi.packer (by unfold Defined at *; rwa [he] at hx)
  phase hx := phaseHolds_congr (h.beforeCommand hw) (hi.phase (by unfold Defined at *; rwa [he] at hx))

/-- A session that has just begun meets the invariant (rule R45). -/
theorem runInv_fresh {s : State} (hp : s.phase = .idle) (hb : s.busy = false) (hd : s.done = false)
    (he : s.err = .noError) (hn : s.errinfo = 0) (hf : NotCounted s) (ht : s.tree = Tree.empty) (hq : s.pq = [])
    (hc : NoCodes s) (hi : NothingIn s) (ho : NothingOut s) (hv : s.trav = Transient.empty)
    (hw : s.waiting = none) : RunInv s where
  flags :=
    { info := fun _ => hn
      doneIdle := fun h => by rw [hd] at h; exact absurd h (by decide)
      busyClean := fun _ => he
      transient := hv
      waits := by rw [hw, hb]; rfl }
  waiting := fun w h => by rw [hw] at h; cases h
  packer _ := by
    rw [beforeCommand_of_none hw]
    have h : s.outp = OutStream.fresh s.outp.stall := ho
    rw [h]
    constructor <;> simp [OutStream.fresh]
  phase _ := by
    rw [beforeCommand_of_none hw]
    unfold PhaseHolds
    rw [hp]
    exact ⟨hf, ht, hq, hc, hi, ho⟩

/-- An idle engine in phase `p`: what the tables and streams hold. -/
theorem RunInv.holds {s : State} {p : Phase} (hi : RunInv s) (hr : Ready p s) : PhaseHolds s := by
  have := hi.phase (.inl hr.2.1)
  rwa [hi.at_rest hr.1] at this

/-- An idle engine's packer agrees with its cursor. -/
theorem RunInv.coherent {s : State} (hi : RunInv s) (hb : s.busy = false) (hd : Defined s) : s.outp.Coherent := by
  have := hi.packer hd
  rwa [hi.at_rest hb] at this

/-- In phase IDLE nothing has been read, written or counted (rules R29, R45). -/
theorem RunInv.idle {s : State} (hi : RunInv s) (hb : s.busy = false) (he : Defined s) (hp : s.phase = .idle) :
    NotCounted s ∧ s.tree = Tree.empty ∧ s.pq = [] ∧ NoCodes s ∧ NothingIn s ∧ NothingOut s := by
  have h := hi.phase he
  rw [hi.at_rest hb] at h
  unfold PhaseHolds at h
  rwa [hp] at h

end Sys2Proof.Machine
end

