-- ==== Sys2Proof/Laws/PerInstr.lean ====
section
/-! SUPPORT. Facts stated for every instruction, one lemma for each constructor of Instr. Family `RoundTrip`: a
well-formed instruction is read back from its encoding (rules R91, R96 to R98). -/

namespace Sys2Proof.Laws.RoundTrip

/-- Decoding the encoding of a well-formed instruction gives the instruction. -/
def Statement (i : Instr) : Prop := i.wellFormed = true → decode (encode i) = .ok i

theorem nop : Statement .nop := fun _ => by decide
theorem clear : Statement .clear := fun _ => by decide
theorem count : Statement .count := fun _ => by decide
theorem build : Statement .build := fun _ => by decide
theorem gencode : Statement .gencode := fun _ => by decide
theorem wrhdr (hm : HeaderMode) : Statement (.wrhdr hm) := fun _ => by cases hm <;> decide
theorem encode : Statement .encode := fun _ => by decide
theorem rdhdr (hm : HeaderMode) : Statement (.rdhdr hm) := fun _ => by cases hm <;> decide
theorem decode : Statement .decode := fun _ => by decide
theorem compress (hm : HeaderMode) : Statement (.compress hm) := fun _ => by cases hm <;> decide
theorem decompress (hm : HeaderMode) : Statement (.decompress hm) := fun _ => by cases hm <;> decide
theorem magic : Statement .magic := fun _ => by decide
theorem internal : Statement .internal := fun _ => by decide

/-- The nine value bits are read back whole (rule R98). -/
theorem leaf (v : Sym) : Statement (.leaf v) := by
  intro h
  have hv : v.toNat ≤ 256 := by simpa [Instr.wellFormed] using h
  have e : BitVec.ofNat 9 (ofBits (bitsOf 9 v.toNat)) = v := by
    apply BitVec.eq_of_toNat_eq
    rw [ofBits_bitsOf, BitVec.toNat_ofNat]
    have := v.isLt
    omega
  have ht : (bitsOf 9 v.toNat).take 9 = bitsOf 9 v.toNat := List.take_of_length_le (by simp)
  have hd : (bitsOf 9 v.toNat).drop 9 = [] := List.drop_of_length_le (by simp)
  simp [Sys2Proof.encode, Sys2Proof.decode, decodeToken, ht, hd, e, Nat.not_lt.mpr hv]

end Sys2Proof.Laws.RoundTrip
end

