-- ==== Sys2Proof/Laws/Waits.lean ====
section
/-! SUPPORT. Waiting for the collaborators (rules R74, R272, R273): no body waits when both answer, a body that ends
does what it does then, and where a body waits for a source or a sink that stops. -/

namespace Sys2Proof.Machine

/-! ## Nobody waits for collaborators that answer -/

/-- The body has ended, or the model has stopped. -/
def Run.Ends : Run → Prop
  | .ok _ => True
  | .err _ _ _ => True
  | .wait _ => False
  | .fault _ => True

theorem Run.Ends.andThen {s : State} {r : Run} {f : State → Run} (h : r.Ends) (hk : r.Keeping s) (ha : Answering s)
    (hf : ∀ t, Answering t → (f t).Ends) : (r.andThen f).Ends := by
  cases r with
  | ok t =>
    have hk : Keeps s t := hk
    exact hf t ⟨hk.source.trans ha.1, hk.sink.trans ha.2⟩
  | err e info t => trivial
  | wait t => exact h
  | fault x => trivial

theorem countLoop_ends (fuel : Nat) (t : Tally) (ha : t.inp.stall = none) : (countLoop fuel t).2 ≠ .wait := by
  induction fuel generalizing t with
  | zero => simp [countLoop]
  | succ k ih =>
    have h := readBits_frame 8 t.inp
    rw [countLoop, ask_answering ha]
    cases hr : t.inp.readBits 8 with
    | mk o j =>
      rw [hr] at h
      cases o with
      | none => simp
      | some r =>
        dsimp only
        split
        · simp
        · exact ih _ (h.2.1.trans ha)

theorem encodeLoop_ends (code : Vector Code 257) (fuel : Nat) (inp : InStream) (outp : OutStream)
    (ha : inp.stall = none) (i : InStream) (o : OutStream) : encodeLoop code fuel inp outp ≠ .wait i o := by
  induction fuel generalizing inp outp with
  | zero => simp [encodeLoop]
  | succ k ih =>
    have h := readBits_frame 8 inp
    rw [encodeLoop, ask_answering ha]
    cases hr : inp.readBits 8 with
    | mk x j =>
      rw [hr] at h
      cases x with
      | none => simp
      | some r =>
        dsimp only
        split
        · exact ih _ _ (h.2.1.trans ha)
        · simp

theorem descend_ends (t : Tree) (fuel : Nat) (cur : NodeIx) (inp : InStream) (ha : inp.stall = none) (c : NodeIx)
    (i : InStream) : descend t fuel cur inp ≠ .wait c i := by
  induction fuel generalizing cur inp with
  | zero => rw [descend]; split <;> simp
  | succ k ih =>
    have h := readBits_frame 1 inp
    rw [descend]
    split
    · simp
    · rw [ask_answering ha]
      cases hr : inp.readBits 1 with
      | mk o j =>
        rw [hr] at h
        cases o with
        | none => simp
        | some b => exact ih _ _ (h.2.1.trans ha)

theorem decodeLoop_ends (t : Tree) (reads fuel : Nat) (inp : InStream) (outp : OutStream) (ha : inp.stall = none)
    (c : NodeIx) (i : InStream) (o : OutStream) : decodeLoop t reads fuel inp outp ≠ .wait c i o := by
  induction fuel generalizing inp outp with
  | zero => simp [decodeLoop]
  | succ k ih =>
    have h := descend_frame t reads t.root.index inp
    rw [decodeLoop]
    cases hd : descend t reads t.root.index inp with
    | endOfData cur j => simp
    | wait cur j => exact absurd hd (descend_ends t reads t.root.index inp ha cur j)
    | leaf cur j =>
      rw [hd] at h
      dsimp only
      split
      · simp
      · exact ih _ _ (h.2.1.trans ha)

/-- A header is found or refused when its source answers. -/
theorem fetchToken_ends {s : State} (ha : s.inp.stall = none) : fetchToken s ≠ some .wait := by
  rw [fetchToken]
  split
  · simp
  · rw [fetchMagic, ask_answering ha]
    cases s.inp.readBits 32 with
    | mk o j =>
      cases o with
      | none => simp
      | some m => dsimp only; split <;> simp
  · have h1 := readBits_frame 1 s.inp
    rw [fetchTree, ask_answering ha]
    cases hr : s.inp.readBits 1 with
    | mk o j =>
      rw [hr] at h1
      cases o with
      | none => simp
      | some b =>
        dsimp only
        split
        · simp
        · split
          · simp
          · rw [ask_answering (h1.2.1.trans ha)]
            cases j.readBits 9 with
            | mk o' k =>
              cases o' with
              | none => simp
              | some v => dsimp only; split <;> simp

theorem readToken_ends {s : State} (ha : s.inp.stall = none) : (readToken s).Ends := by
  rw [readToken]
  cases hf : fetchToken s with
  | none => trivial
  | some x =>
    cases x with
    | bad e info inp => trivial
    | wait => exact absurd hf (fetchToken_ends ha)
    | token i =>
      show (tokenBody i s).Ends
      cases hb : tokenBody i s with
      | wait u => exact absurd hb (tokenBody_not_wait i s u)
      | ok u => trivial
      | err e info u => trivial
      | fault x => trivial

theorem readTokens_ends (fuel : Nat) {s : State} (ha : Answering s) : (readTokens fuel s).Ends := by
  induction fuel generalizing s with
  | zero => rw [readTokens]; split <;> trivial
  | succ k ih =>
    rw [readTokens]
    split
    · trivial
    · exact (readToken_ends ha.1).andThen (readToken_keeps s) ha fun t ht => ih ht

theorem countBody_ends {s : State} (ha : Answering s) : (countBody s).Ends := by
  have h := countLoop_ends s.inp.passReads { freq := Vector.replicate 256 0, inlen := 0, inp := s.inp } ha.1
  rw [countBody]
  split <;> rename_i heq
  · trivial
  · trivial
  · rw [heq] at h; exact absurd rfl h

theorem gencodeBody_ends (s : State) : (gencodeBody s).Ends := by rw [gencodeBody]; split <;> trivial

theorem wrhdrBody_ends {s : State} (ha : Answering s) : (wrhdrBody s).Ends := by
  rw [wrhdrBody]
  split
  · trivial
  · rw [drain_answering ha.2]; trivial

theorem encodeBody_ends {s : State} (ha : Answering s) : (encodeBody s).Ends := by
  rw [encodeBody, drain_answering ha.2]
  split <;> rename_i heq
  · trivial
  · trivial
  · exact absurd heq (encodeLoop_ends s.code s.inp.passReads s.inp.rewind s.outp ha.1 _ _)

theorem rdhdrBody_ends {s : State} (ha : Answering s) : (rdhdrBody s).Ends :=
  readTokens_ends (s := { s with trav := { s.trav with stage := .magic } }) _ ha

theorem decodeBody_ends {s : State} (ha : Answering s) : (decodeBody s).Ends := by
  rw [decodeBody]
  split
  · trivial
  · rw [drain_answering ha.2]
    split <;> rename_i heq
    · trivial
    · trivial
    · exact absurd heq (decodeLoop_ends s.tree s.inp.descentReads s.inp.descents s.inp s.outp ha.1 _ _ _)

/-- With collaborators that answer every body ends (rule R272). -/
theorem bodyOf_ends (i : Instr) {s : State} (ha : Answering s) : (bodyOf i s).Ends := by
  cases i
  case count => exact countBody_ends ha
  case gencode => exact gencodeBody_ends s
  case wrhdr => exact wrhdrBody_ends ha
  case encode => exact encodeBody_ends ha
  case rdhdr => exact rdhdrBody_ends ha
  case decode => exact decodeBody_ends ha
  case compress =>
    exact Run.Ends.andThen (s := s)
      (Run.Ends.andThen (s := s)
        (Run.Ends.andThen (s := s)
          (Run.Ends.andThen (s := s) (countBody_ends ha) (countBody_keeps s) ha fun _ _ => trivial)
          ((countBody_keeps s).andThen fun t _ => buildBody_keeps t) ha fun t _ => gencodeBody_ends t)
        (((countBody_keeps s).andThen fun t _ => buildBody_keeps t).andThen fun t _ => gencodeBody_keeps t) ha
        fun _ => wrhdrBody_ends)
      ((((countBody_keeps s).andThen fun t _ => buildBody_keeps t).andThen fun t _ => gencodeBody_keeps t).andThen
        fun t _ => wrhdrBody_keeps t) ha fun _ => encodeBody_ends
  case decompress => exact (rdhdrBody_ends ha).andThen (rdhdrBody_keeps s) ha fun _ => decodeBody_ends
  all_goals trivial

/-! ## A body that ends has asked only what was answered -/

/-- The stream with a source that answers every request. -/
def InStream.answering (i : InStream) : InStream := { i with stall := none }

/-- The state with collaborators that answer. -/
def answering (s : State) : State :=
  { s with inp := s.inp.answering, outp := { s.outp with stall := none } }

/-- The run is `r`, the one with collaborators that answer, or it waits. -/
def Run.Follows (r : Run) : Run → Prop
  | .ok t => r = .ok (answering t)
  | .err e info t => r = .err e info (answering t)
  | .wait _ => True
  | .fault f => r = .fault f

theorem Run.Follows.andThen {a r : Run} {f : State → Run} (h : r.Follows a)
    (hf : ∀ t, (f (answering t)).Follows (f t)) : (r.andThen f).Follows (a.andThen f) := by
  cases a with
  | ok t => have e : r = .ok (answering t) := h; rw [e]; exact hf t
  | err e info t => have e' : r = .err e info (answering t) := h; rw [e']; rfl
  | wait t => trivial
  | fault x => have e : r = .fault x := h; rw [e]; rfl

/-- A run over a sink that stops is the run itself, or waits (rule R74). -/
theorem drain_cases (s : State) (r : Run) : r.drain s = r ∨ ∃ u, r.drain s = .wait u := by
  rw [Run.drain]
  split
  · exact .inl rfl
  · cases r with
    | ok t => rw [Run.upTo]; split; exacts [.inr ⟨_, rfl⟩, .inl rfl]
    | err e info t => rw [Run.upTo]; split; exacts [.inr ⟨_, rfl⟩, .inl rfl]
    | wait t => exact .inr ⟨_, rfl⟩
    | fault x => exact .inl rfl

theorem Run.Follows.drain {a r : Run} (h : r.Follows a) (s : State) : (r.drain (answering s)).Follows (a.drain s) := by
  rw [drain_answering (s := answering s) rfl]
  rcases drain_cases s a with e | ⟨u, e⟩ <;> rw [e]
  · exact h
  · trivial

theorem ask_readBits_answering {n : Nat} {i : InStream} :
    i.answering.ask n = some ((i.readBits n).1, (i.readBits n).2.answering) := by
  rw [ask_answering (by rfl)]
  unfold InStream.readBits
  by_cases h : i.ipos + n > 8 * i.bytes.length
  · rw [if_pos h, if_pos (by exact h)]; rfl
  · rw [if_neg h, if_neg (by exact h)]; rfl

/-- COUNT's work with a source that answers. -/
def Tally.answering (t : Tally) : Tally := { t with inp := t.inp.answering }

theorem countLoop_answering (fuel : Nat) (t : Tally) :
    (countLoop fuel t).2 = .wait ∨
      countLoop fuel t.answering = ((countLoop fuel t).1.answering, (countLoop fuel t).2) := by
  induction fuel generalizing t with
  | zero => exact .inr rfl
  | succ k ih =>
    rw [countLoop, countLoop, show t.answering.inp = t.inp.answering from rfl, ask_readBits_answering]
    rcases ask_cases 8 t.inp with ⟨_, ha⟩ | ⟨_, ha⟩ <;> rw [ha]
    · exact .inl rfl
    cases t.inp.readBits 8 with
    | mk o j =>
      cases o with
      | none => exact .inr rfl
      | some r =>
        dsimp only
        rw [show t.answering.inlen = t.inlen from rfl]
        by_cases hl : t.inlen.toNat = Config.maxLen
        · rw [if_pos hl, if_pos hl]
          exact .inr rfl
        · rw [if_neg hl, if_neg hl]
          exact ih ⟨bumpFreq t.freq r, t.inlen + 1, j⟩

/-- The end of ENCODE's loop with collaborators that answer. -/
def Encoded.Follows (r : Encoded) : Encoded → Prop
  | .done i o => r = .done i.answering { o with stall := none }
  | .noCode b i o => r = .noCode b i.answering { o with stall := none }
  | .wait _ _ => True

theorem writeList_answering (o : OutStream) (bs : List Bool) :
    ({ o with stall := none } : OutStream).writeList bs = { o.writeList bs with stall := none } := by
  induction bs generalizing o with
  | nil => rfl
  | cons b bs ih =>
    rw [writeList_cons, writeList_cons, ← ih]
    congr 1
    unfold OutStream.writeBit
    by_cases h : (o.opos + 1) % 8 = 0
    · rw [if_pos h, if_pos (by exact h)]
    · rw [if_neg h, if_neg (by exact h)]

theorem flush_answering (o : OutStream) :
    ({ o with stall := none } : OutStream).flush = { o.flush with stall := none } := by
  rw [flush_eq, flush_eq, writeList_answering]

theorem encodeLoop_answering (code : Vector Code 257) (fuel : Nat) (inp : InStream) (outp : OutStream) :
    (encodeLoop code fuel inp.answering { outp with stall := none }).Follows (encodeLoop code fuel inp outp) := by
  induction fuel generalizing inp outp with
  | zero => rfl
  | succ k ih =>
    rw [encodeLoop, encodeLoop, ask_readBits_answering]
    rcases ask_cases 8 inp with ⟨_, ha⟩ | ⟨_, ha⟩ <;> rw [ha]
    · trivial
    cases inp.readBits 8 with
    | mk o j =>
      cases o with
      | none => rfl
      | some r =>
        dsimp only
        split
        · have := ih j (writeCode (codeAt code (r.zeroExtend 9)) outp)
          rwa [writeCode, OutStream.writeBits, ← writeList_answering] at this
        · rfl

/-- The end of a descent with a source that answers. -/
def Descent.Follows (r : Descent) : Descent → Prop
  | .leaf c i => r = .leaf c i.answering
  | .endOfData c i => r = .endOfData c i.answering
  | .wait _ _ => True

theorem descend_answering (t : Tree) (fuel : Nat) (cur : NodeIx) (inp : InStream) :
    (descend t fuel cur inp.answering).Follows (descend t fuel cur inp) := by
  induction fuel generalizing cur inp with
  | zero => rw [descend, descend]; split <;> rfl
  | succ k ih =>
    rw [descend, descend]
    split
    · rfl
    · rw [ask_readBits_answering]
      rcases ask_cases 1 inp with ⟨_, ha⟩ | ⟨_, ha⟩ <;> rw [ha]
      · trivial
      cases inp.readBits 1 with
      | mk o j =>
        cases o with
        | none => rfl
        | some b => exact ih _ _

/-- The end of DECODE's outer loop with collaborators that answer. -/
def Decoded.Follows (r : Decoded) : Decoded → Prop
  | .done c i o => r = .done c i.answering { o with stall := none }
  | .endOfData c i o => r = .endOfData c i.answering { o with stall := none }
  | .wait _ _ _ => True

theorem decodeLoop_answering (t : Tree) (reads fuel : Nat) (inp : InStream) (outp : OutStream) :
    (decodeLoop t reads fuel inp.answering { outp with stall := none }).Follows (decodeLoop t reads fuel inp outp) := by
  induction fuel generalizing inp outp with
  | zero => rfl
  | succ k ih =>
    have h := descend_answering t reads t.root.index inp
    rw [decodeLoop, decodeLoop]
    cases hd : descend t reads t.root.index inp with
    | wait c j => trivial
    | endOfData c j =>
      rw [hd] at h
      have h : _ = Descent.endOfData _ _ := h
      rw [h]; rfl
    | leaf c j =>
      rw [hd] at h
      have h : _ = Descent.leaf _ _ := h
      rw [h]
      dsimp only
      split
      · rfl
      · have := ih j (outp.writeBits 8 (t.at c).sym.toNat)
        rwa [OutStream.writeBits, ← writeList_answering] at this

theorem countBody_answering (s : State) : (countBody (answering s)).Follows (countBody s) := by
  have h := countLoop_answering s.inp.passReads { freq := Vector.replicate 256 0, inlen := 0, inp := s.inp }
  rw [countBody, countBody]
  cases hx : countLoop s.inp.passReads { freq := Vector.replicate 256 0, inlen := 0, inp := s.inp } with
  | mk t e =>
    rw [hx] at h
    rcases h with h | h
    · have h : e = .wait := h
      subst h; trivial
    · have h : countLoop (answering s).inp.passReads
          { freq := Vector.replicate 256 0, inlen := 0, inp := (answering s).inp } = (t.answering, e) := h
      rw [h]
      cases e <;> first | rfl | trivial

theorem buildBody_answering (s : State) : (buildBody (answering s)).Follows (buildBody s) := rfl

theorem gencodeBody_answering (s : State) : (gencodeBody (answering s)).Follows (gencodeBody s) := by
  rw [gencodeBody, gencodeBody, show (answering s).tree = s.tree from rfl]
  generalize walkTree s.tree _ _ _ = w
  cases w <;> rfl

theorem wrhdrBody_answering (s : State) : (wrhdrBody (answering s)).Follows (wrhdrBody s) := by
  rw [wrhdrBody, wrhdrBody, show (answering s).tree = s.tree from rfl]
  generalize emitTree s.tree _ _ = w
  cases w with
  | none => rfl
  | some bs =>
    refine Run.Follows.drain ?_ s
    show Run.ok _ = Run.ok _
    simp only [answering, OutStream.writeBits, writeList_answering]

theorem encodeBody_answering (s : State) : (encodeBody (answering s)).Follows (encodeBody s) := by
  have h := encodeLoop_answering s.code s.inp.passReads s.inp.rewind s.outp
  rw [encodeBody, encodeBody]
  refine Run.Follows.drain ?_ s
  cases hx : encodeLoop s.code s.inp.passReads s.inp.rewind s.outp with
  | done i o =>
    rw [hx] at h
    have h : encodeLoop (answering s).code (answering s).inp.passReads (answering s).inp.rewind (answering s).outp =
      .done i.answering { o with stall := none } := h
    rw [h]
    show Run.ok _ = Run.ok _
    simp only [writeCode, OutStream.writeBits, writeList_answering, flush_answering]
    rfl
  | noCode r i o =>
    rw [hx] at h
    have h : encodeLoop (answering s).code (answering s).inp.passReads (answering s).inp.rewind (answering s).outp =
      .noCode r i.answering { o with stall := none } := h
    rw [h]; rfl
  | wait i o => trivial

theorem decodeBody_answering (s : State) : (decodeBody (answering s)).Follows (decodeBody s) := by
  have h := decodeLoop_answering s.tree s.inp.descentReads s.inp.descents s.inp s.outp
  rw [decodeBody, decodeBody, show rootNode (answering s).tree = rootNode s.tree from rfl]
  by_cases hr : ((rootNode s.tree).leaf && (rootNode s.tree).sym != Config.eos) = true
  · rw [if_pos hr, if_pos hr]; rfl
  · rw [if_neg hr, if_neg hr]
    refine Run.Follows.drain ?_ s
    cases hx : decodeLoop s.tree s.inp.descentReads s.inp.descents s.inp s.outp with
    | done c i o =>
      rw [hx] at h
      have h : decodeLoop (answering s).tree (answering s).inp.descentReads (answering s).inp.descents (answering s).inp
        (answering s).outp = .done c i.answering { o with stall := none } := h
      rw [h]
      show Run.ok _ = Run.ok _
      simp only [flush_answering]
      rfl
    | endOfData c i o =>
      rw [hx] at h
      have h : decodeLoop (answering s).tree (answering s).inp.descentReads (answering s).inp.descents (answering s).inp
        (answering s).outp = .endOfData c i.answering { o with stall := none } := h
      rw [h]; rfl
    | wait c i o => trivial

theorem tokenBody_answering (i : Instr) (s : State) : (tokenBody i (answering s)).Follows (tokenBody i s) := by
  cases i <;> try exact rfl
  · rw [tokenBody, tokenBody, internalToken, internalToken, show (answering s).tree = s.tree from rfl]
    split <;> rfl
  · rw [tokenBody, tokenBody, leafToken, leafToken, show (answering s).tree = s.tree from rfl]
    split
    · rfl
    · split <;> rfl

theorem readToken_answering (s : State) : (readToken (answering s)).Follows (readToken s) := by
  have key : fetchToken s = some .wait ∨
      (∃ e info j, fetchToken s = some (.bad e info j) ∧
        fetchToken (answering s) = some (.bad e info j.answering)) ∨
      fetchToken (answering s) = fetchToken s ∧ ∀ e info j, fetchToken s ≠ some (.bad e info j) := by
    rw [fetchToken, fetchToken, show (answering s).trav.stage = s.trav.stage from rfl]
    cases s.trav.stage with
    | off => exact .inr (.inr ⟨rfl, by simp⟩)
    | magic =>
      dsimp only
      rw [fetchMagic, fetchMagic, show (answering s).inp = s.inp.answering from rfl, ask_readBits_answering]
      rcases ask_cases 32 s.inp with ⟨_, ha⟩ | ⟨_, ha⟩ <;> rw [ha]
      · exact .inl rfl
      cases s.inp.readBits 32 with
      | mk o j =>
        cases o with
        | none => exact .inr (.inl ⟨_, _, _, rfl, rfl⟩)
        | some m =>
          dsimp only
          split
          · exact .inr (.inr ⟨rfl, by simp⟩)
          · exact .inr (.inl ⟨_, _, _, rfl, rfl⟩)
    | tree =>
      dsimp only
      rw [fetchTree, fetchTree, show (answering s).inp = s.inp.answering from rfl, ask_readBits_answering]
      rcases ask_cases 1 s.inp with ⟨_, ha⟩ | ⟨_, ha⟩ <;> rw [ha]
      · exact .inl rfl
      cases s.inp.readBits 1 with
      | mk o j =>
        cases o with
        | none => exact .inr (.inl ⟨_, _, _, rfl, rfl⟩)
        | some b =>
          dsimp only
          rw [show (answering s).tree = s.tree from rfl]
          split
          · exact .inr (.inl ⟨_, _, _, rfl, rfl⟩)
          · split
            · exact .inr (.inr ⟨rfl, by simp⟩)
            · rw [ask_readBits_answering]
              rcases ask_cases 9 j with ⟨_, ha⟩ | ⟨_, ha⟩ <;> rw [ha]
              · exact .inl rfl
              cases j.readBits 9 with
              | mk o k =>
                cases o with
                | none => exact .inr (.inl ⟨_, _, _, rfl, rfl⟩)
                | some v =>
                  dsimp only
                  split
                  · exact .inr (.inl ⟨_, _, _, rfl, rfl⟩)
                  · exact .inr (.inr ⟨rfl, by simp⟩)
  rw [readToken, readToken]
  rcases key with h | ⟨e, info, j, h, h'⟩ | ⟨h, h'⟩
  · rw [h]; trivial
  · rw [h, h']; rfl
  · rw [h]
    cases hf : fetchToken s with
    | none => rfl
    | some x =>
      cases x with
      | wait => trivial
      | bad e info j => exact absurd hf (h' e info j)
      | token i => exact tokenBody_answering i s

theorem readTokens_answering (fuel : Nat) (s : State) :
    (readTokens fuel (answering s)).Follows (readTokens fuel s) := by
  induction fuel generalizing s with
  | zero =>
    rw [readTokens, readTokens, show (answering s).trav = s.trav from rfl]
    split <;> rfl
  | succ k ih =>
    rw [readTokens, readTokens, show (answering s).trav = s.trav from rfl]
    split
    · rfl
    · exact (readToken_answering s).andThen ih

/-- A body that ends does what it does when source and sink answer every request. -/
theorem bodyOf_answering (i : Instr) (s : State) : (bodyOf i (answering s)).Follows (bodyOf i s) := by
  cases i
  case count => exact countBody_answering s
  case gencode => exact gencodeBody_answering s
  case wrhdr => exact wrhdrBody_answering s
  case encode => exact encodeBody_answering s
  case rdhdr => exact readTokens_answering _ { s with trav := { s.trav with stage := .magic } }
  case decode => exact decodeBody_answering s
  case compress =>
    exact ((((countBody_answering s).andThen buildBody_answering).andThen gencodeBody_answering).andThen
      wrhdrBody_answering).andThen encodeBody_answering
  case decompress =>
    exact (readTokens_answering Config.headerTokens { s with trav := { s.trav with stage := .magic } }).andThen
      decodeBody_answering
  all_goals exact rfl

/-! ## Where a pass waits for the source -/

/-- At a byte boundary a read waits exactly when the source has served the bytes before it and no more. -/
theorem blocks_byte {inp : InStream} {before after : List Byte} {k : Nat} (hb : inp.bytes = before ++ after)
    (hp : inp.ipos = 8 * before.length) (hs : inp.stall = some ⟨inp.rewound, k⟩) (hk : before.length ≤ k) :
    inp.blocks 8 = decide (k = before.length) := by
  have h1 : (8 * before.length + 7) / 8 = before.length := by omega
  have hr : inp.requests 8 = before.length + 1 := by
    rw [InStream.requests, hp, hb, List.length_append]
    cases after with
    | nil => rw [if_pos (by simp)]; simp
    | cons r rs => rw [if_neg (by simp; omega)]; omega
  rw [InStream.blocks, hs]
  simp only [beq_self_eq_true, Bool.true_and, hp, hr, h1, decide_eq_decide]
  omega

/-- A pass never waits for a source that stops in the other pass. -/
theorem ask_other_pass {n : Nat} {inp : InStream} {p : SourceStall} (hs : inp.stall = some p)
    (hp : p.rewound ≠ inp.rewound) : inp.ask n = some (inp.readBits n) := by
  simp [InStream.ask, InStream.blocks, hs, hp]

/-- COUNT's loop over a source that stops in its pass waits exactly when it has a request to make that the source does
not serve: one for each byte it takes and one more (rules R125, R128, R273). -/
theorem countLoop_stalled {k : Nat} {before after : List Byte} {t : Tally} {fuel : Nat}
    (hb : t.inp.bytes = before ++ after) (hp : t.inp.ipos = 8 * before.length) (ht : Tallied t before)
    (hm : before.length ≤ Config.maxLen) (hf : after.length < fuel) (hs : t.inp.stall = some ⟨t.inp.rewound, k⟩)
    (hk : before.length ≤ k) :
    (countLoop fuel t).2 = .wait ↔ k < min (before.length + after.length) Config.maxLen + 1 := by
  induction after generalizing before t fuel with
  | nil =>
    obtain ⟨j, rfl⟩ := Nat.exists_eq_succ_of_ne_zero (by simp at hf; omega : fuel ≠ 0)
    have hbl := blocks_byte hb hp hs hk
    rw [countLoop, InStream.ask, hbl, readBits_byte hb hp]
    by_cases e : k = before.length
    · simp [e, hm]
    · simp [e]; omega
  | cons r rs ih =>
    obtain ⟨j, rfl⟩ := Nat.exists_eq_succ_of_ne_zero (by omega : fuel ≠ 0)
    have hbl := blocks_byte hb hp hs hk
    rw [countLoop, InStream.ask, hbl, readBits_byte hb hp]
    by_cases e : k = before.length
    · simp [e, hm]
    · simp only [e, decide_false, Bool.false_eq_true, ↓reduceIte]
      by_cases hmax : before.length = Config.maxLen
      · rw [if_pos (by rw [ht.total, hmax])]
        simp; omega
      · rw [if_neg (by rw [ht.total]; exact hmax)]
        have hlt : before.length < Config.maxLen := lt_of_le_of_ne hm hmax
        have step := ih (before := before ++ [r])
          (t := { freq := bumpFreq t.freq r, inlen := t.inlen + 1, inp := t.inp.advance 8 }) (fuel := j)
          (by simp [hb]) (by simp [hp]; omega) (ht.bump r _ hlt) (by simp; omega) (by simpa using hf) hs
          (by simp; omega)
        rw [step, show (before ++ [r]).length + rs.length = before.length + (r :: rs).length by simp; omega]

/-- ENCODE's loop likewise: L + 1 requests, when every byte has a code (rules R185, R273). -/
theorem encodeLoop_stalled {code : Vector Code 257} {k : Nat} {after : List Byte} :
    ∀ {fuel : Nat} {before : List Byte} {inp : InStream} {outp : OutStream}, inp.bytes = before ++ after → inp.ipos = 8 * before.length →
    after.length < fuel → inp.stall = some ⟨inp.rewound, k⟩ → before.length ≤ k →
    (∀ r ∈ after, (codeOfByte code r).valid = true) →
    (k < before.length + after.length + 1 → ∃ i o, encodeLoop code fuel inp outp = .wait i o) ∧
    (before.length + after.length + 1 ≤ k → ∃ i o, encodeLoop code fuel inp outp = .done i o) := by
  induction after with
  | nil =>
    intro fuel before inp outp hb hp hf hs hk _
    obtain ⟨j, rfl⟩ := Nat.exists_eq_succ_of_ne_zero (by omega : fuel ≠ 0)
    rw [encodeLoop, InStream.ask, blocks_byte hb hp hs hk, readBits_byte hb hp]
    by_cases e : k = before.length
    · simp [e]
    · simp [e]; omega
  | cons r rs ih =>
    intro fuel before inp outp hb hp hf hs hk hv
    obtain ⟨j, rfl⟩ := Nat.exists_eq_succ_of_ne_zero (by omega : fuel ≠ 0)
    rw [encodeLoop, InStream.ask, blocks_byte hb hp hs hk, readBits_byte hb hp]
    by_cases e : k = before.length
    · simp [e]
    · simp only [e, decide_false, Bool.false_eq_true, ↓reduceIte]
      rw [if_pos (hv r (by simp))]
      have step := ih (fuel := j) (before := before ++ [r]) (inp := inp.advance 8)
        (outp := writeCode (codeAt code (r.zeroExtend 9)) outp) (by simp [hb]) (by simp [hp]; omega)
        (by simpa using hf) hs (by simp; omega) fun x hx => hv x (by simp [hx])
      rwa [show (before ++ [r]).length + rs.length = before.length + (r :: rs).length by simp; omega] at step

/-! ## What a body that waits has signalled -/

/-- However a body ends, these are the signals sent so far (rules R67, R74). -/
def Run.Signals (sig : List Signal) : Run → Prop
  | .ok t => t.port.signals = sig
  | .err _ _ t => t.port.signals = sig
  | .wait t => t.port.signals = sig
  | .fault _ => True

theorem encodeBody_signals (s : State) : (encodeBody s).Signals (s.port.signals ++ [.inRewind]) := by
  have hd : ∀ r : Run, r.Signals (s.port.signals ++ [.inRewind]) →
      (r.drain s).Signals (s.port.signals ++ [.inRewind]) := by
    intro r h
    rw [Run.drain]
    split
    · exact h
    · cases r with
      | ok t => rw [Run.upTo]; split; exacts [h, h]
      | err e info t => rw [Run.upTo]; split; exacts [h, h]
      | wait t => exact h
      | fault x => trivial
  rw [encodeBody]
  apply hd
  split <;> exact rfl

end Sys2Proof.Machine
end

