-- ==== Sys2Proof/Laws/Words.lean ====
section
/-! SUPPORT. The fields of a command word (rules R90 to R93): a word is its OP, its bit 8 and its bits 31:9, and the
mask of a row that takes HM ignores bit 8 alone. -/

namespace Sys2Proof

/-- The three fields make up the word (rule R90). -/
theorem word_fields (w : Word) :
    w.toNat = (w.extractLsb' 0 8).toNat + 256 * (w.getLsbD 8).toNat + 512 * (w.extractLsb' 9 23).toNat := by
  have hb : (w.getLsbD 8).toNat = w.toNat / 256 % 2 := by
    rw [BitVec.getLsbD, Nat.testBit_eq_decide_div_mod_eq, show (2 : Nat) ^ 8 = 256 from rfl]
    rcases Nat.mod_two_eq_zero_or_one (w.toNat / 256) with h | h <;> rw [h] <;> rfl
  have := w.isLt
  rw [hb, BitVec.extractLsb'_toNat, BitVec.extractLsb'_toNat, Nat.shiftRight_eq_div_pow, Nat.shiftRight_eq_div_pow]
  omega

/-- Words with the same fields are the same word. -/
theorem word_ext {v w : Word} (h0 : v.extractLsb' 0 8 = w.extractLsb' 0 8) (h8 : v.getLsbD 8 = w.getLsbD 8)
    (h9 : v.extractLsb' 9 23 = w.extractLsb' 9 23) : v = w := by
  apply BitVec.eq_of_toNat_eq
  rw [word_fields v, word_fields w, h0, h8, h9]

theorem getLsbD_hmMask {k : Nat} (hk : k < 32) : (0xFFFFFEFF : Word).getLsbD k = !decide (k = 8) := by
  have : ∀ k, k < 32 → (0xFFFFFEFF : Word).getLsbD k = !decide (k = 8) := by decide
  exact this k hk

/-- Under the mask that leaves out HM two words agree exactly when they agree outside bit 8 (rules R91, R92). -/
theorem and_hmMask_eq_iff (v w : Word) :
    v &&& 0xFFFFFEFF = w &&& 0xFFFFFEFF ↔
      v.extractLsb' 0 8 = w.extractLsb' 0 8 ∧ v.extractLsb' 9 23 = w.extractLsb' 9 23 := by
  constructor
  · intro h
    have hk : ∀ k, k < 32 → k ≠ 8 → v.getLsbD k = w.getLsbD k := by
      intro k hk h8
      have := congrArg (fun x => x.getLsbD k) h
      simpa only [BitVec.getLsbD_and, getLsbD_hmMask hk, h8, decide_false, Bool.not_false, Bool.and_true] using this
    constructor
    · apply BitVec.eq_of_getLsbD_eq
      intro i hi
      simp only [BitVec.getLsbD_extractLsb', hi, decide_true, Bool.true_and]
      exact hk _ (by omega) (by omega)
    · apply BitVec.eq_of_getLsbD_eq
      intro i hi
      simp only [BitVec.getLsbD_extractLsb', hi, decide_true, Bool.true_and]
      exact hk _ (by omega) (by omega)
  · rintro ⟨h0, h9⟩
    apply BitVec.eq_of_getLsbD_eq
    intro k hk
    rw [BitVec.getLsbD_and, BitVec.getLsbD_and, getLsbD_hmMask hk]
    by_cases h8 : k = 8
    · simp [h8]
    · congr 1
      by_cases hlt : k < 8
      · have := congrArg (fun x => x.getLsbD k) h0
        simpa only [BitVec.getLsbD_extractLsb', hlt, decide_true, Bool.true_and, Nat.zero_add] using this
      · have := congrArg (fun x => x.getLsbD (k - 9)) h9
        simp only [BitVec.getLsbD_extractLsb', show k - 9 < 23 by omega, decide_true, Bool.true_and] at this
        rwa [show 9 + (k - 9) = k by omega] at this

/-- OP, bit 8 and bits 31:9 of a command's word. -/
theorem fields_ofNat (n : Nat) (b : Bool) (h : n < 256) :
    (BitVec.ofNat 32 (n + 256 * b.toNat) : Word).extractLsb' 0 8 = BitVec.ofNat 8 n ∧
      (BitVec.ofNat 32 (n + 256 * b.toNat) : Word).getLsbD 8 = b ∧
      (BitVec.ofNat 32 (n + 256 * b.toNat) : Word).extractLsb' 9 23 = 0 := by
  have hb : b.toNat < 2 := by cases b <;> simp
  have hm : (n + 256 * b.toNat) % 2 ^ 32 = n + 256 * b.toNat := Nat.mod_eq_of_lt (by omega)
  refine ⟨?_, ?_, ?_⟩
  · apply BitVec.eq_of_toNat_eq
    rw [BitVec.extractLsb'_toNat, BitVec.toNat_ofNat, BitVec.toNat_ofNat, hm]
    rw [Nat.shiftRight_eq_div_pow]
    omega
  · rw [BitVec.getLsbD, BitVec.toNat_ofNat, hm, Nat.testBit_eq_decide_div_mod_eq]
    cases b
    · simp only [Bool.toNat_false, Nat.mul_zero, Nat.add_zero, decide_eq_false_iff_not]; omega
    · simp only [Bool.toNat_true, Nat.mul_one, decide_eq_true_eq]; omega
  · apply BitVec.eq_of_toNat_eq
    rw [BitVec.extractLsb'_toNat, BitVec.toNat_ofNat, hm, Nat.shiftRight_eq_div_pow]
    show _ = (0 : Nat)
    omega

end Sys2Proof
end

