-- ==== Sys2Proof/Laws/Steps.lean ====
section
/-! SUPPORT. One step: whose turn it is, what the reader finds at the cursor, and what a ready command's body makes of
the whole command. -/

namespace Sys2Proof.Machine

theorem step_host {s : State} (h : AtHostPort s) : step s = hostTurn s := by
  rw [step, if_neg (by rw [h.1]; decide)]

/-- The reader off is not at work. -/
theorem readerActive_off {s : State} (h : s.trav.stage = .off) : readerActive s = false := by
  rw [readerActive, fetchToken, h]

/-- Inside a header the reader is at work while its source answers. -/
theorem step_reader {s : State} (h : s.trav.stage ≠ .off) (ha : s.inp.stall = none) : step s = readerTurn s := by
  rw [step, readerActive, if_pos]
  cases hf : fetchToken s with
  | none => rw [fetchToken] at hf; split at hf <;> simp_all
  | some x =>
    cases x with
    | wait => exact absurd hf (fetchToken_ends ha)
    | token i => rfl
    | bad e info inp => rfl

theorem writeCmd_ok {w : Word} {i : Instr} {s : State} (h : decodeWord w = .ok i) : writeCmd w s = exec i s := by
  rw [writeCmd, h]

theorem writeCmd_illegal {w : Word} {s : State} (h : ∀ i, decodeWord w ≠ .ok i) :
    writeCmd w s = .next (issueIllegal w s) := by
  rw [writeCmd]
  cases hd : decodeWord w with
  | ok i => exact absurd hd (h i)
  | error e => rfl

/-- A whole field at the cursor is read back. -/
theorem readBits_field {n : Nat} {i : InStream} {m : BitVec n} {rest : List Bool} (h0 : 0 < n)
    (h : i.unread = bitsOf n m.toNat ++ rest) : i.readBits n = (some m, i.advance n) := by
  rw [readBits_of_unread (by simp) h0 h, ofBits_bitsOf]
  congr 2
  apply BitVec.eq_of_toNat_eq
  rw [BitVec.toNat_ofNat, Nat.mod_mod, Nat.mod_eq_of_lt m.isLt]

theorem readBits_one {i : InStream} {b : Bool} {rest : List Bool} (h : i.unread = b :: rest) :
    i.readBits 1 = (some (BitVec.ofBool b), i.advance 1) := by
  rw [readBits_of_unread (bs := [b]) (by simp) (by omega) (by simpa using h)]
  cases b <;> rfl

/-- A command word keeps the opcode map: what it decodes to is a command. -/
theorem isCommand_of_decode {w : Word} {i : Instr} (h : decodeWord w = .ok i) : i.isCommand = true := by
  unfold decodeWord at h
  split at h
  · cases h
  · split at h
    · cases h
    · rename_i j hj
      split at h
      · cases h
      · injection h with h
        subst h
        unfold commandOf at hj
        repeat (split at hj; · (injection hj with hj; subst hj; rfl))
        cases hj

/-- A ready command whose body ends well completes. -/
theorem exec_completes {i : Instr} {p : Phase} {s u : State} (hr : Ready p s) (hc : i.isCommand = true)
    (hn : i ≠ .nop) (hcl : i ≠ .clear) (hl : p ∈ legalPhases i) (hm : i.headerMode ≠ some .countHeader)
    (hb : bodyOf i (accept s) = .ok u) : exec i s = .next (complete i u) := by
  rw [exec_issue hc hn hcl]
  exact issue_completes hr hl hm hb

/-- A ready command whose body raises ends in the error. -/
theorem exec_raises {i : Instr} {p : Phase} {s u : State} {e : ErrCode} {info : Word} (hr : Ready p s)
    (hc : i.isCommand = true) (hn : i ≠ .nop) (hcl : i ≠ .clear) (hl : p ∈ legalPhases i)
    (hm : i.headerMode ≠ some .countHeader) (hb : bodyOf i (accept s) = .err e info u) :
    exec i s = .next (raiseExec e info u) := by
  rw [exec_issue hc hn hcl]
  exact issue_raises hr hl hm hb

end Sys2Proof.Machine
end

