-- ==== Sys2Proof/Tests/Slice0.lean ====
section
/-! SUPPORT. Tests of single steps, with results from spec/95_test_vectors.md and spec/opcode_table.json, and for each
statement a named state that meets its hypotheses. -/

namespace Sys2Proof.Tests

set_option Elab.async false

open Sys2Proof.Machine

/-! ## Well-formed instructions -/

theorem test_leaf_257_is_ill_formed : (Instr.leaf 257).wellFormed = false := by decide
theorem test_leaf_511_is_ill_formed : (Instr.leaf 511).wellFormed = false := by decide
theorem test_leaf_256_is_well_formed : (Instr.leaf 256).wellFormed = true := by decide

/-! ## Decoding: words written out from rules R91, R96 and R97 -/

theorem test_decode_nop : decodeWord 0b00000000000000000000000000000000 = .ok .nop := by decide
theorem test_decode_clear : decodeWord 0b00000000000000000000000000000001 = .ok .clear := by decide
theorem test_decode_count : decodeWord 0b00000000000000000000000000010000 = .ok .count := by decide
theorem test_decode_build : decodeWord 0b00000000000000000000000000010001 = .ok .build := by decide
theorem test_decode_gencode : decodeWord 0b00000000000000000000000000010010 = .ok .gencode := by decide
theorem test_decode_wrhdr : decodeWord 0b00000000000000000000000000010011 = .ok (.wrhdr .treeHeader) := by decide
theorem test_decode_wrhdr_hm : decodeWord 0b00000000000000000000000100010011 = .ok (.wrhdr .countHeader) := by decide
theorem test_decode_encode : decodeWord 0b00000000000000000000000000010100 = .ok .encode := by decide
theorem test_decode_rdhdr : decodeWord 0b00000000000000000000000000100000 = .ok (.rdhdr .treeHeader) := by decide
theorem test_decode_decode : decodeWord 0b00000000000000000000000000100001 = .ok .decode := by decide
theorem test_decode_compress : decodeWord 0b00000000000000000000000000110000 = .ok (.compress .treeHeader) := by decide
theorem test_decode_decompress : decodeWord 0b00000000000000000000000000110001 = .ok (.decompress .treeHeader) := by
  decide
theorem test_decode_decompress_hm : decodeWord 0b00000000000000000000000100110001 = .ok (.decompress .countHeader) := by
  decide
theorem test_decode_magic : decode (.magicField 0xFACE8201) = .ok .magic := by decide
theorem test_decode_counts_magic : decode (.magicField 0xFACE8202) = .error (.notMagic 0xFACE8202) := by decide
theorem test_decode_internal : decode (.treeBits [false]) = .ok .internal := by decide
theorem test_decode_leaf_5 :
    decode (.treeBits [true, false, false, false, false, false, false, true, false, true]) = .ok (.leaf 5) := by decide
theorem test_decode_leaf_eos :
    decode (.treeBits [true, true, false, false, false, false, false, false, false, false]) = .ok (.leaf 256) := by decide
theorem test_decode_leaf_300 :
    decode (.treeBits [true, true, false, false, true, false, true, true, false, false]) = .error (.reservedLeaf 300) := by
  decide

/-- Rows 3 to 6 of table T1. -/
theorem test_decode_illegal :
    decodeWord 0x00000100 = .error (.headerModeNotTaken 0x100) ∧
    decodeWord 0x00000110 = .error (.headerModeNotTaken 0x110) ∧
    decodeWord 0x00000002 = .error (.unknownOpcode 2) ∧
    decodeWord 0x80000010 = .error (.reservedBits 0x80000010) := by decide

theorem test_table_words :
    decodeTableWord 32 0x31 = some (.decompress .treeHeader) ∧ decodeTableWord 32 0xFACE8201 = some .magic ∧
    decodeTableWord 8 0 = some .internal ∧ decodeTableWord 16 0x200 = some (.leaf 0) := by decide

/-- No word matches two rows of the opcode map. -/
theorem test_rows_do_not_overlap :
    commandRows.Pairwise fun a b => a.pattern &&& b.mask ≠ b.pattern &&& a.mask := by decide

/-! ## States: the input 41 41 41 (row 3 of tables T2 to T7) in every phase -/

/-- What a next state shows. -/
def view {α : Type} (f : State → α) : Host.Outcome State Fault Refusal → Option α
  | .next s => some (f s)
  | .fault _ => none
  | .refused _ => none

/-- Two states agree: the tables compared entry by entry as lists, the rest field by field. -/
def agree (s t : State) : Bool :=
  decide (s.freq.toList = t.freq.toList) && decide (s.tree.node.toList = t.tree.node.toList) &&
  decide (s.code.toList = t.code.toList) &&
  decide ((s.tree.nnodes, s.tree.nleaf, s.tree.root, s.inlen, s.pq, s.phase) =
    (t.tree.nnodes, t.tree.nleaf, t.tree.root, t.inlen, t.pq, t.phase)) &&
  decide ((s.busy, s.done, s.cmddrop, s.err, s.errinfo, s.ie) = (t.busy, t.done, t.cmddrop, t.err, t.errinfo, t.ie)) &&
  decide ((s.inp, s.outp, s.trav, s.waiting, s.port, s.free) =
    (t.inp, t.outp, t.trav, t.waiting, t.port, t.free))

theorem eq_of_agree {s t : State} (h : agree s t = true) : s = t := by
  simp only [agree, Bool.and_eq_true, decide_eq_true_eq, Prod.mk.injEq, Vector.toList_inj] at h
  cases s with | mk _ _ tree => cases t with | mk _ _ tree' => cases tree; cases tree'; simp_all

/-- The outcome is this next state. -/
def reaches (t : State) : Host.Outcome State Fault Refusal → Bool
  | .next s => agree s t
  | .fault _ => false
  | .refused _ => false

theorem next_of_reaches {o : Host.Outcome State Fault Refusal} {t : State} (h : reaches t o = true) : o = .next t := by
  cases o with
  | next s => exact congrArg _ (eq_of_agree h)
  | fault f => exact absurd h (by simp [reaches])
  | refused r => exact absurd h (by simp [reaches])

def idleWith (bytes : List Byte) : State := { State.reset with inp := InStream.fresh bytes none }

def aaa : List Byte := [0x41, 0x41, 0x41]

def streamAaa : List Byte := [0xFA, 0xCE, 0x82, 0x01, 0x60, 0x12, 0x0F, 0x00]

def countedAaa : State :=
  { idleWith aaa with
    freq := (Vector.replicate 256 0).setIfInBounds 0x41 3, inlen := 3,
    inp := { bytes := aaa, stall := none, ipos := 24, eod := true, rewound := false },
    phase := .counted, done := true }

def treeAaa : Tree :=
  { ((Tree.empty.set 0 (Node.mkLeaf 0x41 3)).set 1 (Node.mkLeaf 256 1)).set 2 (Node.mkInternal 1 0 4) with
    nnodes := 3, nleaf := 2, root := ⟨true, 2⟩ }

def shapeAaa : Shape := .node (.leaf 256) (.leaf 0x41)

def codeAaa : Vector Code 257 :=
  ((Vector.replicate 257 Code.invalid).setIfInBounds 0x41 ⟨true, 1, 1⟩).setIfInBounds 256 ⟨true, 1, 0⟩

def builtAaa : State := { countedAaa with tree := treeAaa, pq := [⟨4, 2⟩], phase := .built }

def codedAaa : State := { builtAaa with code := codeAaa, phase := .coded }

def hdrwrAaa : State :=
  { codedAaa with
    outp := { stall := none, opos := 53, obuf := [false, false, false, false, true],
              out := [0xFA, 0xCE, 0x82, 0x01, 0x60, 0x12] },
    phase := .hdrwr }

def encdoneAaa : State :=
  { hdrwrAaa with
    inp := { bytes := aaa, stall := none, ipos := 24, eod := true, rewound := true },
    outp := { stall := none, opos := 64, obuf := [], out := streamAaa },
    phase := .encdone,
    port := { State.reset.port with signals := [.inRewind] } }

/-- Row 3 of table T5: the tree RDHDR numbers in preorder, with weight 0. -/
def readTreeAaa : Tree :=
  { ((Tree.empty.set 0 (Node.mkInternal 1 2 0)).set 1 (Node.mkLeaf 256 0)).set 2 (Node.mkLeaf 0x41 0) with
    nnodes := 3, nleaf := 2, root := ⟨true, 0⟩ }

def hdrrdAaa : State :=
  { idleWith streamAaa with
    inp := { bytes := streamAaa, stall := none, ipos := 53, eod := false, rewound := false },
    tree := readTreeAaa, phase := .hdrrd, done := true }

/-! ## One step of each command -/

/-- Row 2 of table T1. -/
theorem test_nop : exec .nop builtAaa = .next builtAaa := rfl

/-- Row 19 of table T1. -/
theorem test_clear_status : view statusWord (exec .clear encdoneAaa) = some 0 := by decide +kernel
theorem test_clear_tables :
    view (fun s => (freqAt s.freq 0x41, s.tree.nnodes, s.outp.opos)) (exec .clear encdoneAaa) = some (0, 0, 0) := by
  decide +kernel

/-- Row 3 of table T2. -/
theorem test_count_aaa : exec .count (idleWith aaa) = .next countedAaa := next_of_reaches (by decide +kernel)

/-- Row 1 of table T2. -/
theorem test_count_scenario :
    view (fun s => (freqAt s.freq 0, freqAt s.freq 1, freqAt s.freq 3, s.inlen, s.inp.ipos, statusWord s))
      (exec .count (idleWith [0, 0, 0, 0, 1, 2])) = some (4, 1, 0, 6, 0x30, 0x10A) := by decide +kernel

/-- Row 3 of table T3. -/
theorem test_build_aaa : exec .build countedAaa = .next builtAaa := next_of_reaches (by decide +kernel)

/-- COUNT's tables in row 1 of table T2. -/
def countedScenario : State :=
  { countedAaa with
    freq := (((Vector.replicate 256 0).setIfInBounds 0 4).setIfInBounds 1 1).setIfInBounds 2 1, inlen := 6 }

/-- Row 1 of table T3: the register images of NODE[4] to NODE[6] and ROOT, where the tie-break decides. -/
theorem test_build_scenario :
    view (fun s => (readReg s (.nodeA 4), readReg s (.nodeA 5), readReg s (.nodeA 6), readReg s (.nodeW 5), readReg s .root))
      (exec .build countedScenario) = some (0x80100800, 0x80301000, 0x80500000, 3, 0x80000006) := by decide +kernel

/-- Row 3 of table T4. -/
theorem test_gencode_aaa : exec .gencode builtAaa = .next codedAaa := next_of_reaches (by decide +kernel)

/-- Row 3 of table T5. -/
theorem test_wrhdr_aaa : exec (.wrhdr .treeHeader) codedAaa = .next hdrwrAaa := next_of_reaches (by decide +kernel)

/-- Row 13 of table T1. -/
theorem test_wrhdr_count_header :
    view (fun s => (s.err, s.errinfo, statusWord s)) (exec (.wrhdr .countHeader) codedAaa) =
      some (.unimplemented, 0x113, 0x30C) := by decide +kernel

/-- Row 3 of table T6. -/
theorem test_encode_aaa : exec .encode hdrwrAaa = .next encdoneAaa := next_of_reaches (by decide +kernel)

/-- Row 3 of table T5. -/
theorem test_rdhdr_aaa : exec (.rdhdr .treeHeader) (idleWith streamAaa) = .next hdrrdAaa := next_of_reaches (by decide +kernel)

/-- Row 13 of table T5. -/
theorem test_rdhdr_cut :
    view (fun s => (s.err, s.errinfo, s.inp.eod, s.phase)) (exec (.rdhdr .treeHeader) (idleWith [0xFA, 0xCE, 0x82, 0x01, 0xC0]))
      = some (.prematureEndOfStream, 1, true, .idle) := by decide +kernel

/-- Row 3 of table T8 after RDHDR. -/
theorem test_decode_aaa :
    view (fun s => (s.outp.out, s.inp.ipos, statusWord s)) (exec .decode hdrrdAaa) = some (aaa, 57, 0x702) := by
  decide +kernel

/-- Row 1 of table T7. -/
theorem test_compress_scenario :
    view (fun s => (s.outp.out, statusWord s)) (exec (.compress .treeHeader) (idleWith [0, 0, 0, 0, 1, 2])) =
      some ([0xFA, 0xCE, 0x82, 0x01, 0x30, 0x04, 0x03, 0x01, 0x40, 0x1E, 0x98], 0x51A) := by decide +kernel

/-- Row 7 of table T7. -/
theorem test_compress_abracadabra :
    view (fun s => s.outp.out)
      (exec (.compress .treeHeader) (idleWith [0x61, 0x62, 0x72, 0x61, 0x63, 0x61, 0x64, 0x61, 0x62, 0x72, 0x61])) =
      some [0xFA, 0xCE, 0x82, 0x01, 0x4C, 0x26, 0x01, 0x31, 0x27, 0x24, 0xC7, 0x32, 0x2E, 0x73, 0xD7, 0x20] := by
  decide +kernel

/-- Row 8 of table T6. -/
theorem test_decompress_trailing :
    view (fun s => (s.outp.out, s.inp.ipos, statusWord s)) (exec (.decompress .treeHeader)
      (idleWith [0xFA, 0xCE, 0x82, 0x01, 0x30, 0x04, 0x03, 0x01, 0x40, 0x1E, 0x98, 0xAA, 0x55])) =
      some ([0, 0, 0, 0, 1, 2], 87, 0x702) := by decide +kernel

/-- Row 13 of table T6: under DECOMPRESS STATUS is 0x004. -/
theorem test_decompress_root_leaf :
    view (fun s => (s.err, s.errinfo, statusWord s))
      (exec (.decompress .treeHeader) (idleWith [0xFA, 0xCE, 0x82, 0x01, 0x81, 0x40])) =
      some (.rootLeafNotSentinel, 5, 0x004) := by decide +kernel

/-! ## One step of each token (log 3) -/

theorem test_magic_token :
    view (fun s => (s.inp.ipos, s.trav.stage)) (step (State.reset.withFetchWord 32 0xFACE8201)) = some (32, .tree) := by
  decide +kernel

theorem test_internal_token :
    view (fun s => (s.inp.ipos, s.tree.nnodes, s.trav.stack)) (step (State.reset.withFetchWord 8 0)) =
      some (1, 1, [⟨0, none⟩]) := by decide +kernel

/-- Row 2 of table T5: a tree that is one leaf. -/
theorem test_leaf_token :
    view (fun s => (readReg s (.nodeA 0), readReg s .root, s.phase, s.done)) (step (State.reset.withFetchWord 16 0x300)) =
      some (0xC0000100, 0x80000000, .hdrrd, true) := by decide +kernel

/-! ## The host port -/

/-- Row 22 of table T1. -/
theorem test_write_ctrl :
    view (fun s => readReg s .ctrl) (hostWrite 0x0008 0xF 0xFFFFFFFF State.reset) = some 1 := by decide +kernel

/-- Row 1 of table T4: addresses and images of the code table. -/
theorem test_read_code :
    (hostRead 0x3104 0xF codedAaa).port.answer = .data 0x80000001 ∧
    (hostRead 0x4820 0xF codedAaa).port.answer = .data 1 ∧
    (hostRead 0x3400 0xF codedAaa).port.answer = .data 0x80000001 := by decide +kernel

/-! ## The states above meet the run invariant -/

theorem runInv_idle (bytes : List Byte) : RunInv (idleWith bytes) :=
  runInv_fresh rfl rfl rfl rfl rfl ⟨rfl, rfl⟩ rfl rfl rfl rfl rfl rfl rfl

theorem ready_idle (bytes : List Byte) : Ready .idle (idleWith bytes) := ⟨rfl, rfl, rfl, rfl, rfl⟩

/-- FREQ and INLEN of 41 41 41. -/
theorem counted_aaa {s : State} (hf : s.freq = countedAaa.freq) (hl : s.inlen = 3) (hb : s.inp.bytes = aaa) :
    Counted s := by
  constructor
  · rw [hf, hb]; decide +kernel
  · rw [hl, hb]; decide
  · rw [hb]; decide

theorem at_treeAaa (i : NodeIx) :
    treeAaa.at i = if i = 2 then Node.mkInternal 1 0 4 else if i = 1 then Node.mkLeaf 256 1
      else if i = 0 then Node.mkLeaf 0x41 3 else Node.invalid := by
  show (((Tree.empty.set 0 (Node.mkLeaf 0x41 3)).set 1 (Node.mkLeaf 256 1)).set 2 (Node.mkInternal 1 0 4)).at i = _
  rw [at_set _ _ _ _ (by decide), at_set _ _ _ _ (by decide), at_set _ _ _ _ (by decide), at_empty]

theorem at_readTreeAaa (i : NodeIx) :
    readTreeAaa.at i = if i = 2 then Node.mkLeaf 0x41 0 else if i = 1 then Node.mkLeaf 256 0
      else if i = 0 then Node.mkInternal 1 2 0 else Node.invalid := by
  show (((Tree.empty.set 0 (Node.mkInternal 1 2 0)).set 1 (Node.mkLeaf 256 0)).set 2 (Node.mkLeaf 0x41 0)).at i = _
  rw [at_set _ _ _ _ (by decide), at_set _ _ _ _ (by decide), at_set _ _ _ _ (by decide), at_empty]

/-- Entries from 3 on are none of the three. -/
theorem ofNat_ne {i k : Nat} (h : 3 ≤ i) (hi : i < 513) (hk : k < 3) : BitVec.ofNat 10 i ≠ BitVec.ofNat 10 k := by
  intro e
  have := congrArg BitVec.toNat e
  rw [BitVec.toNat_ofNat, BitVec.toNat_ofNat, Nat.mod_eq_of_lt (by omega), Nat.mod_eq_of_lt (by omega)] at this
  omega

theorem ofNat_ne_two {i : Nat} (h : 3 ≤ i) (hi : i < 513) : ¬ BitVec.ofNat 10 i = (2 : NodeIx) :=
  ofNat_ne h hi (k := 2) (by decide)

theorem ofNat_ne_one {i : Nat} (h : 3 ≤ i) (hi : i < 513) : ¬ BitVec.ofNat 10 i = (1 : NodeIx) :=
  ofNat_ne h hi (k := 1) (by decide)

theorem ofNat_ne_zero {i : Nat} (h : 3 ≤ i) (hi : i < 513) : ¬ BitVec.ofNat 10 i = (0 : NodeIx) :=
  ofNat_ne h hi (k := 0) (by decide)

theorem builtOk_aaa : BuiltOk treeAaa shapeAaa where
  rootValid := rfl
  spelled := by decide +kernel
  once := by decide +kernel
  nodes := rfl
  leaves := rfl
  used := fun i hi => by
    have h : ∀ i, i < 3 → (treeAaa.at (BitVec.ofNat 10 i)).valid = true := by decide +kernel
    exact h i hi
  unused := fun i h1 h2 => by
    have h1 : 3 ≤ i := h1
    rw [at_treeAaa, if_neg (ofNat_ne_two h1 h2), if_neg (ofNat_ne_one h1 h2), if_neg (ofNat_ne_zero h1 h2)]
  different := by decide
  sentinel := by decide
  symbols := by decide
  rootLast := rfl

theorem treeOk_readAaa : TreeOk readTreeAaa shapeAaa where
  rootValid := rfl
  spelled := by decide +kernel
  once := by decide +kernel
  nodes := rfl
  leaves := rfl
  used := fun i hi => by
    have h : ∀ i, i < 3 → (readTreeAaa.at (BitVec.ofNat 10 i)).valid = true := by decide +kernel
    exact h i hi
  unused := fun i h1 h2 => by
    have h1 : 3 ≤ i := h1
    rw [at_readTreeAaa, if_neg (ofNat_ne_two h1 h2), if_neg (ofNat_ne_one h1 h2), if_neg (ofNat_ne_zero h1 h2)]

theorem codesOk_aaa : CodesOk codeAaa shapeAaa where
  spelled := by decide +kernel
  absent := by decide +kernel

theorem usedLeaves_aaa {s : State} (hf : s.freq = countedAaa.freq) : UsedLeaves s shapeAaa := by
  have h : usedValues countedAaa.freq 256 = [0x41] := by decide +kernel
  rw [UsedLeaves, hf, h]
  exact List.Perm.swap _ _ _

/-- The flags of a completed command. -/
theorem flags_done {s : State} (hb : s.busy = false) (he : s.err = .noError) (hn : s.errinfo = 0)
    (hv : s.trav = Transient.empty) (hw : s.waiting = none) : FlagsHold s where
  info := fun _ => hn
  doneIdle := fun _ => ⟨hb, he⟩
  busyClean := fun _ => he
  transient := hv
  waits := by rw [hw, hb]; rfl

theorem runInv_counted : RunInv countedAaa where
  flags := flags_done rfl rfl rfl rfl rfl
  waiting := fun _ h => by cases h
  packer := fun _ => by constructor <;> decide
  phase := fun _ => ⟨counted_aaa rfl rfl rfl, rfl, rfl, rfl, rfl⟩

theorem runInv_built : RunInv builtAaa where
  flags := flags_done rfl rfl rfl rfl rfl
  waiting := fun _ h => by cases h
  packer := fun _ => by constructor <;> decide
  phase := fun _ => ⟨counted_aaa rfl rfl rfl, ⟨shapeAaa, builtOk_aaa, usedLeaves_aaa rfl⟩, by decide +kernel, rfl, rfl⟩

theorem runInv_coded : RunInv codedAaa where
  flags := flags_done rfl rfl rfl rfl rfl
  waiting := fun _ h => by cases h
  packer := fun _ => by constructor <;> decide
  phase := fun _ => ⟨counted_aaa rfl rfl rfl, ⟨shapeAaa, builtOk_aaa, usedLeaves_aaa rfl, codesOk_aaa⟩, by decide +kernel, rfl⟩

theorem runInv_hdrwr : RunInv hdrwrAaa where
  flags := flags_done rfl rfl rfl rfl rfl
  waiting := fun _ h => by cases h
  packer := fun _ => by constructor <;> decide
  phase := fun _ =>
    ⟨counted_aaa rfl rfl rfl, ⟨shapeAaa, builtOk_aaa, usedLeaves_aaa rfl, codesOk_aaa, by decide +kernel⟩, by decide +kernel⟩

theorem runInv_encdone : RunInv encdoneAaa where
  flags := flags_done rfl rfl rfl rfl rfl
  waiting := fun _ h => by cases h
  packer := fun _ => by constructor <;> decide
  phase := fun _ => ⟨counted_aaa rfl rfl rfl, ⟨shapeAaa, builtOk_aaa, usedLeaves_aaa rfl, codesOk_aaa⟩, by decide +kernel, rfl⟩

theorem runInv_hdrrd : RunInv hdrrdAaa where
  flags := flags_done rfl rfl rfl rfl rfl
  waiting := fun _ h => by cases h
  packer := fun _ => by constructor <;> decide
  phase := fun _ => ⟨⟨rfl, rfl⟩, ⟨shapeAaa, treeOk_readAaa, rfl⟩, rfl, rfl, rfl, rfl⟩

/-! ## Witnesses: states that meet the hypotheses of the statements, clause by clause -/

theorem not_ok {w : Word} {e : DecodeError} (h : decodeWord w = .error e) : ∀ i, decodeWord w ≠ .ok i := by
  intro i hi
  rw [h] at hi
  cases hi

/-- The machine with something for the host to do next. -/
def hostDoing (ops : List HostOp) (s : State) : State := { s with port := { s.port with host := ops } }

/-- An error of dispatch is pending in phase IDLE (row 7 of table T1). -/
def sequenceErrorState : State :=
  { State.reset with
    err := .sequenceError, errinfo := 0x11,
    port := { State.reset.port with signals := [.outAbort] } }

theorem test_build_in_idle : exec .build State.reset = .next sequenceErrorState := by rfl

/-- COUNT waits for the second byte. -/
def busyState : State :=
  { idleWith aaa with
    inp := InStream.fresh aaa (some ⟨false, 1⟩), busy := true,
    waiting := some { cmd := .count, out := [], signals := [] } }

/-- The header reader stands inside a header. -/
def readerAt (stage : Stage) (nnodes : NodeIx) (bytes : List Byte) : State :=
  { idleWith bytes with
    busy := true, tree := { Tree.empty with nnodes := nnodes },
    trav := { Transient.empty with stage := stage } }

theorem witness_CommandWordsMatchTheOpcodeMap :
    ⟨0xFFFFFEFF, 0x00000031, .decompress .treeHeader, .decompress .countHeader⟩ ∈ commandRows ∧
      decodeWord 0x131 = .ok (.decompress .countHeader) := by decide

theorem witness_AnyOtherWordIsIllegal :
    (∀ i, decodeWord 0x00000200 ≠ .ok i) ∧ (∀ i, decodeWord 0x00000002 ≠ .ok i) ∧
      (∀ i, decodeWord 0x00000110 ≠ .ok i) ∧ State.reset.busy = false ∧ State.reset.err = .noError :=
  ⟨not_ok (e := .reservedBits 0x200) (by decide), not_ok (e := .unknownOpcode 2) (by decide),
    not_ok (e := .headerModeNotTaken 0x110) (by decide), rfl, rfl⟩

theorem witness_DecodingInvertsEncoding :
    (Instr.leaf 256).wellFormed = true ∧ decode (.command 0x120) = .ok (.rdhdr .countHeader) := by decide

theorem witness_TreeTokensAreReadFromTheHead :
    (256 : Sym).toNat ≤ 256 ∧ 256 < (257 : Sym).toNat ∧ (List.replicate 8 true).length < 9 := by decide

theorem witness_StepRunsTheCommandWritten :
    AtHostPort (hostDoing [.write 0x0000 0xF 0x10] State.reset) ∧
      (hostDoing [.write 0x0000 0xF 0x10] State.reset).port.host = [.write 0x0000 0xF 0x10] ∧
      decodeWord 0x10 = .ok .count := ⟨⟨rfl, rfl⟩, rfl, by decide⟩

theorem witness_StepRunsTheTokenAtTheCursor :
    (readerAt .magic 0 [0xFA, 0xCE, 0x82, 0x01]).inp.unread = tokenBits .magic ++ [] ∧
      (readerAt .tree 512 [0x7F]).inp.unread = tokenBits .internal ++ List.replicate 7 true ∧
      (readerAt .tree 512 [0xC0, 0x00]).inp.unread = tokenBits (.leaf 256) ++ List.replicate 6 false ∧
      (readerAt .tree 512 []).trav.stage = .tree ∧ (readerAt .tree 512 []).tree.nnodes.toNat ≠ 513 ∧
      (256 : Sym).toNat ≤ 256 ∧ (readerAt .tree 512 []).inp.stall = none := by decide +kernel

theorem witness_HeaderTokensAddUpToRdhdr : Ready .idle (idleWith streamAaa) := ready_idle _

/-- Busy; error pending with CLEAR and with another word; illegal; NOP; wrong phase; counts header; a command that
completes. -/
theorem witness_DispatchChecksInOrder :
    busyState.busy = true ∧
      (sequenceErrorState.busy = false ∧ sequenceErrorState.err ≠ .noError) ∧
      (∀ i, decodeWord 0x00000100 ≠ .ok i) ∧ decodeWord 0x00000000 = .ok .nop ∧
      (decodeWord 0x11 = .ok .build ∧ State.reset.phase ∉ legalPhases .build) ∧
      (decodeWord 0x130 = .ok (.compress .countHeader) ∧ State.reset.phase ∈ legalPhases (.compress .countHeader)) ∧
      (countedAaa.busy = false ∧ countedAaa.err = .noError ∧ countedAaa.phase ∈ legalPhases .build ∧
        Answering countedAaa ∧ exec .build countedAaa = .next builtAaa) :=
  ⟨rfl, ⟨rfl, by decide⟩, not_ok (e := .headerModeNotTaken 0x100) (by decide), by decide, by decide, by decide, rfl, rfl,
    by decide, ⟨rfl, rfl⟩, test_build_aaa⟩

/-- The source stops here. -/
def withSource (p : SourceStall) (s : State) : State := { s with inp := { s.inp with stall := some p } }

/-- The sink stops here. -/
def withSink (n : Nat) (s : State) : State := { s with outp := { s.outp with stall := some n } }

/-- COUNT makes four requests for three bytes (rules R66, R273). -/
theorem test_count_waits :
    view (fun t => t.busy) (exec .count (withSource ⟨false, 3⟩ (idleWith aaa))) = some true ∧
    view (fun t => t.busy) (exec .count (withSource ⟨false, 4⟩ (idleWith aaa))) = some false := by decide +kernel

/-- ENCODE rewinds before it asks (rule R186), and has written 54 bits when it waits for the second byte. -/
theorem test_encode_waits :
    view (fun t => (t.busy, t.port.signals, t.outp.out)) (exec .encode (withSource ⟨true, 1⟩ hdrwrAaa)) =
      some (true, [.inRewind], [0xFA, 0xCE, 0x82, 0x01, 0x60, 0x12]) := by decide +kernel

/-- The header of row 3 of table T5 is 53 bits, six whole bytes. -/
theorem test_wrhdr_waits :
    view (fun t => (t.busy, t.outp.out)) (exec (.wrhdr .treeHeader) (withSink 5 codedAaa)) =
      some (true, [0xFA, 0xCE, 0x82, 0x01, 0x60]) ∧
    view (fun t => t.busy) (exec (.wrhdr .treeHeader) (withSink 6 codedAaa)) = some false := by decide +kernel

/-- ENCODE waits after the rewind, and a command has been dropped meanwhile. -/
def encodingState : State :=
  { withSource ⟨true, 1⟩ hdrwrAaa with
    busy := true, done := false, cmddrop := true, port := { State.reset.port with signals := [.inRewind] },
    waiting := some { cmd := .encode, out := hdrwrAaa.outp.out, signals := [] } }

/-- The source goes on: row 3 of table T6, with CMDDROP. -/
theorem test_encode_goes_on :
    view (fun t => (t.outp.out, statusWord t, t.port.signals)) (hostStep (.goOn none none) encodingState) =
      some (streamAaa, 0x53A, [.inRewind]) := by decide +kernel

theorem runInv_withSource (p : SourceStall) {s : State} (h : RunInv s) : RunInv (withSource p s) :=
  h.congr ⟨rfl, rfl, rfl, rfl, rfl, rfl, rfl, rfl⟩ rfl rfl rfl rfl rfl rfl

theorem runInv_withSink (n : Nat) {s : State} (h : RunInv s) : RunInv (withSink n s) :=
  h.congr ⟨rfl, rfl, rfl, rfl, rfl, rfl, rfl, rfl⟩ rfl rfl rfl rfl rfl rfl

/-- Collaborators that answer; a source that stops in the first pass or in the second; a sink that stops in the
header. -/
theorem witness_AcceptedCommandsFinishOrWait :
    (RunInv builtAaa ∧ builtAaa.busy = false ∧ builtAaa.err = .noError ∧ builtAaa.phase ∈ legalPhases .gencode ∧
      Answering builtAaa) ∧
    (RunInv (withSource ⟨false, 3⟩ (idleWith aaa)) ∧ (withSource ⟨false, 3⟩ (idleWith aaa)).phase ∈ legalPhases .count ∧
      3 < min aaa.length (2 ^ 32 - 2) + 1) ∧
    (RunInv (withSource ⟨true, 1⟩ hdrwrAaa) ∧ (withSource ⟨true, 1⟩ hdrwrAaa).phase ∈ legalPhases .encode ∧
      (withSource ⟨true, 1⟩ hdrwrAaa).outp.stall = none) ∧
    (RunInv (withSink 5 codedAaa) ∧ (withSink 5 codedAaa).phase ∈ legalPhases (.wrhdr .treeHeader) ∧
      5 < (31 + 11 * (withSink 5 codedAaa).tree.nleaf.toNat) / 8) :=
  ⟨⟨runInv_built, rfl, rfl, by decide, rfl, rfl⟩, ⟨runInv_withSource _ (runInv_idle _), by decide, by decide⟩,
    ⟨runInv_withSource _ runInv_hdrwr, by decide, rfl⟩, ⟨runInv_withSink _ runInv_coded, by decide, by decide⟩⟩

theorem witness_WrongPhaseRaisesSequenceError :
    State.reset.busy = false ∧ State.reset.err = .noError ∧ State.reset.phase ∉ legalPhases .build ∧
      codedAaa.phase ∉ legalPhases (.compress .countHeader) := by decide

theorem witness_CountHeaderIsUnimplemented :
    codedAaa.phase ∈ legalPhases (.wrhdr .countHeader) ∧ State.reset.phase ∈ legalPhases (.rdhdr .countHeader) ∧
      State.reset.phase ∈ legalPhases (.compress .countHeader) ∧
      State.reset.phase ∈ legalPhases (.decompress .countHeader) ∧ codedAaa.busy = false ∧ codedAaa.err = .noError := by
  decide

theorem witness_NopChangesNothing : builtAaa.busy = false ∧ busyState.busy = true ∧ State.reset.err = .noError ∧
    State.reset.busy = false ∧ (0x100 : Word).extractLsb' 0 8 = 0 ∧ (0x100 : Word) ≠ 0 := by
  decide

theorem witness_ClearStartsANewSession :
    (attachStreams ⟨aaa, some ⟨true, 2⟩, some 5⟩ builtAaa).port.pending = some ⟨aaa, some ⟨true, 2⟩, some 5⟩ ∧
      (attachStreams ⟨aaa, some ⟨true, 2⟩, some 5⟩ builtAaa).busy = false ∧ builtAaa.port.pending = none ∧ busyState.busy = true :=
  ⟨rfl, rfl, rfl, rfl⟩

theorem witness_ErrorsAreSticky :
    sequenceErrorState.busy = false ∧ sequenceErrorState.err ≠ .noError ∧ (0x10 : Word) ≠ 0x00000001 ∧
      exec .count sequenceErrorState = .next sequenceErrorState := ⟨rfl, by decide, by decide, rfl⟩

theorem runInv_sequenceError (ops : List HostOp) : RunInv (hostDoing ops sequenceErrorState) where
  flags :=
    { info := fun h => absurd (show sequenceErrorState.err = .noError from h) (by decide)
      doneIdle := fun h => absurd (show sequenceErrorState.done = true from h) (by decide)
      busyClean := fun h => absurd (show sequenceErrorState.busy = true from h) (by decide)
      transient := rfl
      waits := rfl }
  waiting := fun _ h => by cases h
  packer := fun _ => show sequenceErrorState.outp.Coherent by decide
  phase := fun _ => ⟨⟨rfl, rfl⟩, rfl, rfl, rfl, rfl, rfl⟩

/-- The error stays on an ignored command; CLEAR ends it. -/
theorem witness_ErrorsEndWithClearOrReset :
    RunInv (hostDoing [.write 0x0000 0xF 0x10] sequenceErrorState) ∧
      RunInv (hostDoing [.write 0x0000 0xF 0x1] sequenceErrorState) ∧
      RunInv (hostDoing [.rst true] sequenceErrorState) ∧
      sequenceErrorState.err ≠ .noError ∧
      (¬ EndsSession (hostDoing [.write 0x0000 0xF 0x10] sequenceErrorState) ∧
        EndsSession (hostDoing [.write 0x0000 0xF 0x1] sequenceErrorState) ∧
        EndsSession (hostDoing [.rst true] sequenceErrorState)) ∧
      view (fun t => t.err) (step (hostDoing [.write 0x0000 0xF 0x10] sequenceErrorState)) = some .sequenceError ∧
      view (fun t => t.err) (step (hostDoing [.write 0x0000 0xF 0x1] sequenceErrorState)) = some .noError ∧
      view (fun t => t.err) (step (hostDoing [.rst true] sequenceErrorState)) = some .noError :=
  ⟨runInv_sequenceError _, runInv_sequenceError _, runInv_sequenceError _, by decide,
    ⟨by rintro ⟨rest, ⟨-, h⟩ | h⟩ <;> simp [hostDoing] at h, ⟨[], .inl ⟨rfl, rfl⟩⟩, ⟨[], .inr rfl⟩⟩, rfl, rfl, rfl⟩

/-- The last 32 bits of an input, and one more than it has. -/
theorem witness_ReadBitsTakesTheBitsAtTheCursor :
    (InStream.fresh streamAaa none).ipos + 64 ≤ 8 * (InStream.fresh streamAaa none).bytes.length ∧
      8 * (InStream.fresh streamAaa none).bytes.length < (InStream.fresh streamAaa none).ipos + 65 := by decide

theorem witness_WriteBitsAppendsBits : hdrwrAaa.outp.Coherent := by constructor <;> decide

theorem witness_FlushCompletesTheLastByte :
    hdrwrAaa.outp.Coherent ∧ encdoneAaa.outp.Coherent ∧ encdoneAaa.outp.opos % 8 = 0 := by
  refine ⟨?_, ?_, ?_⟩
  · constructor <;> decide
  · constructor <;> decide
  · decide

/-- Equal weights, and weights that differ. -/
theorem witness_QueueGrantsTheLeastEntry :
    Queued [⟨1, 1⟩, ⟨1, 2⟩, ⟨4, 0⟩] ∧ (∀ f ∈ [(⟨1, 1⟩ : PQEntry), ⟨1, 2⟩, ⟨4, 0⟩], f.index ≠ (⟨1, 3⟩ : PQEntry).index) := by
  refine ⟨?_, by decide⟩
  simp [Queued, PQEntry.before, Config.tieBefore]

/-- The longest input COUNT accepts, and one byte more. -/
theorem witness_CountMakesTheHistogram :
    (RunInv (idleWith (List.replicate (2 ^ 32 - 2) 0)) ∧ Ready .idle (idleWith (List.replicate (2 ^ 32 - 2) 0)) ∧
      (idleWith (List.replicate (2 ^ 32 - 2) 0)).inp.bytes.length ≤ 2 ^ 32 - 2) ∧
    (RunInv (idleWith (List.replicate (2 ^ 32 - 1) 0)) ∧ Ready .idle (idleWith (List.replicate (2 ^ 32 - 1) 0)) ∧
      2 ^ 32 - 2 < (idleWith (List.replicate (2 ^ 32 - 1) 0)).inp.bytes.length) :=
  ⟨⟨runInv_idle _, ready_idle _, le_of_eq (List.length_replicate ..)⟩,
    ⟨runInv_idle _, ready_idle _, by
      show 2 ^ 32 - 2 < (List.replicate (2 ^ 32 - 1) (0 : Byte)).length
      rw [List.length_replicate]; decide⟩⟩

theorem ready_counted : Ready .counted countedAaa := ⟨rfl, rfl, rfl, rfl, rfl⟩
theorem ready_built : Ready .built builtAaa := ⟨rfl, rfl, rfl, rfl, rfl⟩
theorem ready_coded : Ready .coded codedAaa := ⟨rfl, rfl, rfl, rfl, rfl⟩
theorem ready_hdrwr : Ready .hdrwr hdrwrAaa := ⟨rfl, rfl, rfl, rfl, rfl⟩
theorem ready_hdrrd : Ready .hdrrd hdrrdAaa := ⟨rfl, rfl, rfl, rfl, rfl⟩

theorem witness_BuildPlacesEveryNode :
    RunInv countedAaa ∧ Ready .counted countedAaa ∧ freqAt countedAaa.freq 0x41 ≠ 0 ∧ (0x41 < 256) :=
  ⟨runInv_counted, ready_counted, by decide +kernel, by decide⟩

theorem witness_BuildMergesTheTwoLightest :
    RunInv countedAaa ∧ Ready .counted countedAaa ∧ exec .build countedAaa = .next builtAaa ∧
      (2 : NodeIx).toNat < builtAaa.tree.nnodes.toNat ∧ (builtAaa.tree.at 2).leaf = false :=
  ⟨runInv_counted, ready_counted, test_build_aaa, by decide, by decide +kernel⟩

theorem witness_WeightsAreExactSums :
    RunInv countedAaa ∧ Ready .counted countedAaa ∧ exec .build countedAaa = .next builtAaa ∧
      (builtAaa.tree.at builtAaa.tree.root.index).weight.toNat = 4 ∧ (builtAaa.tree.at 2).leaf = false :=
  ⟨runInv_counted, ready_counted, test_build_aaa, by decide +kernel, by decide +kernel⟩

theorem witness_GencodeRecordsEveryPath : Ready .built builtAaa ∧ BuiltOk builtAaa.tree shapeAaa :=
  ⟨ready_built, builtOk_aaa⟩

/-- In each of the three phases. -/
theorem witness_CodesArePrefixFree :
    (RunInv codedAaa ∧ codedAaa.err = .noError ∧ codedAaa.phase = .coded) ∧
      (RunInv hdrwrAaa ∧ hdrwrAaa.phase = .hdrwr) ∧ (RunInv encdoneAaa ∧ encdoneAaa.phase = .encdone) ∧
      (0x41 : Sym) ≠ 256 ∧ (codeAt codedAaa.code 0x41).valid = true ∧ (codeAt codedAaa.code 256).valid = true :=
  ⟨⟨runInv_coded, rfl, rfl⟩, ⟨runInv_hdrwr, rfl⟩, ⟨runInv_encdone, rfl⟩, by decide, by decide +kernel, by decide +kernel⟩

theorem witness_CodesFillTheTree :
    RunInv builtAaa ∧ Ready .built builtAaa ∧ exec .gencode builtAaa = .next codedAaa :=
  ⟨runInv_built, ready_built, test_gencode_aaa⟩

theorem witness_WrhdrAppendsTheHeader :
    Ready .coded codedAaa ∧ TreeOk codedAaa.tree shapeAaa ∧ codedAaa.outp.Coherent :=
  ⟨ready_coded, builtOk_aaa.toTreeOk, by constructor <;> decide⟩

/-- A header that is read, and one that is not. -/
theorem witness_RdhdrIsTheRecursiveReader : Ready .idle (idleWith streamAaa) ∧ Ready .idle (idleWith []) :=
  ⟨ready_idle _, ready_idle _⟩

theorem bits_streamAaa : (idleWith streamAaa).inp.bits =
    bitsOf 32 0xFACE8201 ++ shapeAaa.bits ++ [true, true, true, false, false, false, false, false, false, false, false] := by
  decide +kernel

theorem witness_RdhdrReadsBackTheTree :
    RunInv (idleWith streamAaa) ∧ Ready .idle (idleWith streamAaa) ∧
      (idleWith streamAaa).inp.bits = bitsOf 32 0xFACE8201 ++ shapeAaa.bits ++
        [true, true, true, false, false, false, false, false, false, false, false] ∧
      shapeAaa.leafCount ≤ 257 ∧ ∀ v ∈ shapeAaa.values, v.toNat ≤ 256 :=
  ⟨runInv_idle _, ready_idle _, bits_streamAaa, by decide, by decide⟩

/-- The counts constant, and an input of three bytes. -/
theorem witness_WrongMagicIsAFormatError :
    (RunInv (idleWith [0xFA, 0xCE, 0x82, 0x02]) ∧ Ready .idle (idleWith [0xFA, 0xCE, 0x82, 0x02]) ∧
      (idleWith [0xFA, 0xCE, 0x82, 0x02]).inp.bits = bitsOf 32 (0xFACE8202 : Word).toNat ++ [] ∧
      (0xFACE8202 : Word) ≠ 0xFACE8201) ∧
    (RunInv (idleWith [0xFA, 0xCE, 0x82]) ∧ Ready .idle (idleWith [0xFA, 0xCE, 0x82]) ∧
      (idleWith [0xFA, 0xCE, 0x82]).inp.bytes.length < 4) :=
  ⟨⟨runInv_idle _, ready_idle _, by decide +kernel, by decide⟩, ⟨runInv_idle _, ready_idle _, by decide⟩⟩

/-- No bit left; a 514th node; eight value bits of nine; the value 257. -/
theorem witness_HeaderErrorsInOrder :
    (readerAt .tree 3 []).trav.stage = .tree ∧ (readerAt .tree 3 []).inp.stall = none ∧
      (readerAt .tree 3 []).inp.unread = [] ∧
      ((readerAt .tree 513 [0x80]).inp.unread ≠ [] ∧ (readerAt .tree 513 [0x80]).tree.nnodes.toNat = 513) ∧
      ((readerAt .tree 512 [0xC0]).inp.unread = true :: [true, false, false, false, false, false, false] ∧
        (readerAt .tree 512 [0xC0]).tree.nnodes.toNat ≠ 513) ∧
      ((readerAt .tree 512 [0xC0, 0x40]).inp.unread =
        true :: (bitsOf 9 (257 : Sym).toNat ++ [false, false, false, false, false, false]) ∧ 256 < (257 : Sym).toNat) := by
  decide +kernel

theorem witness_MagicAndInternalTokensAdvanceTheReader :
    (readerAt .magic 0 []).trav.stage = .magic ∧ State.reset.trav.stage ≠ .magic ∧
      ((readerAt .tree 512 []).trav.stage = .tree ∧ (readerAt .tree 512 []).tree.nnodes.toNat ≠ 513) ∧
      ((readerAt .tree 513 []).tree.nnodes.toNat = 513) ∧ State.reset.trav.stage ≠ .tree := by decide

/-- A leaf that is the whole tree, one that is a left child, and one that completes its parent. -/
theorem witness_LeafTokenClosesSubtrees :
    ((readerAt .tree 0 []).trav.stage = .tree ∧ (readerAt .tree 0 []).tree.nnodes.toNat ≠ 513 ∧
      (256 : Sym).toNat ≤ 256 ∧ (closeSubtree 0 Tree.empty []).2.2 = true) ∧
      (closeSubtree 1 Tree.empty [⟨0, none⟩]).2.2 = false ∧ (closeSubtree 2 Tree.empty [⟨0, some 1⟩]).2.2 = true ∧
      256 < (257 : Sym).toNat ∧ (readerAt .tree 513 []).tree.nnodes.toNat = 513 ∧ State.reset.trav.stage ≠ .tree := by
  decide +kernel

theorem witness_EncodeWritesTheBody :
    Ready .hdrwr hdrwrAaa ∧ hdrwrAaa.outp.Coherent ∧ ∀ r ∈ hdrwrAaa.inp.bytes, (codeOfByte hdrwrAaa.code r).valid = true :=
  ⟨ready_hdrwr, by constructor <;> decide, by decide +kernel⟩

/-- The source replays another input on the second pass: the byte 42 has no code. -/
def changedState : State := { hdrwrAaa with inp := { hdrwrAaa.inp with bytes := [0x41, 0x42, 0x41] } }

theorem witness_ByteWithoutACodeRaisesNoCode :
    Ready .hdrwr changedState ∧ changedState.inp.bytes = [0x41] ++ 0x42 :: [0x41] ∧
      (∀ x ∈ [(0x41 : Byte)], (codeOfByte changedState.code x).valid = true) ∧
      (codeOfByte changedState.code 0x42).valid = false :=
  ⟨⟨rfl, rfl, rfl, rfl, rfl⟩, rfl, by decide +kernel, by decide +kernel⟩

theorem emitted_aaa : Emitted shapeAaa [(0x41, [true]), (0x41, [true]), (0x41, [true])] := by
  unfold Emitted
  decide

theorem witness_DecodeEmitsUpToTheSentinel :
    Ready .hdrrd hdrrdAaa ∧ TreeOk hdrrdAaa.tree shapeAaa ∧ (Config.eos, [false]) ∈ shapeAaa.paths ∧
      Emitted shapeAaa [(0x41, [true]), (0x41, [true]), (0x41, [true])] ∧
      hdrrdAaa.inp.unread = bodyBits [(0x41, [true]), (0x41, [true]), (0x41, [true])] ++ [false] ++
        [false, false, false, false, false, false, false] ∧
      hdrrdAaa.outp.Coherent ∧ hdrrdAaa.outp.opos % 8 = 0 :=
  ⟨ready_hdrrd, treeOk_readAaa, by decide, emitted_aaa, by decide +kernel, by constructor <;> decide, by decide⟩

/-- The stream without its last byte. -/
def cutState : State := { hdrrdAaa with inp := { hdrrdAaa.inp with bytes := streamAaa.take 7 } }

theorem witness_EndOfDataInTheBody :
    Ready .hdrrd cutState ∧ TreeOk cutState.tree (.node (.leaf 256) (.leaf 0x41)) ∧
      Emitted (.node (.leaf 256) (.leaf 0x41)) [(0x41, [true]), (0x41, [true]), (0x41, [true])] ∧
      cutState.inp.unread = bodyBits [(0x41, [true]), (0x41, [true]), (0x41, [true])] ++ [] ∧
      ∀ x ∈ (Shape.node (.leaf 256) (.leaf 0x41)).paths, ¬ x.2 <+: [] :=
  ⟨⟨rfl, rfl, rfl, rfl, rfl⟩, treeOk_readAaa, emitted_aaa, by decide +kernel, by decide⟩

def rootLeafState : State :=
  { hdrrdAaa with
    tree := { Tree.empty.set 0 (Node.mkLeaf 5 0) with nnodes := 1, nleaf := 1, root := ⟨true, 0⟩ } }

theorem witness_RootLeafMustBeTheSentinel :
    Ready .hdrrd rootLeafState ∧ (rootLeafState.tree.at rootLeafState.tree.root.index).leaf = true ∧
      (rootLeafState.tree.at rootLeafState.tree.root.index).sym ≠ 256 :=
  ⟨⟨rfl, rfl, rfl, rfl, rfl⟩, by decide +kernel, by decide +kernel⟩

theorem test_decompress_aaa :
    view (fun s => (result s, s.phase)) (exec (.decompress .treeHeader) (idleWith streamAaa)) =
      some (some (.output aaa), .decdone) := by decide +kernel

theorem witness_WholeOperationsAreTheirPhases :
    Ready .idle (idleWith aaa) ∧ exec .count (idleWith aaa) = .next countedAaa ∧ countedAaa.phase = .counted ∧
      exec .build countedAaa = .next builtAaa ∧ exec .gencode builtAaa = .next codedAaa ∧
      exec (.wrhdr .treeHeader) codedAaa = .next hdrwrAaa ∧ exec .encode hdrwrAaa = .next encdoneAaa ∧
      encdoneAaa.phase = .encdone ∧ Ready .idle (idleWith streamAaa) ∧
      exec (.rdhdr .treeHeader) (idleWith streamAaa) = .next hdrrdAaa ∧ hdrrdAaa.phase = .hdrrd ∧
      view (fun s => s.phase) (exec .decode hdrrdAaa) = some .decdone :=
  ⟨ready_idle _, test_count_aaa, rfl, test_build_aaa, test_gencode_aaa, test_wrhdr_aaa, test_encode_aaa, rfl,
    ready_idle _, test_rdhdr_aaa, rfl, by decide +kernel⟩

theorem witness_CompressWritesTheStream :
    RunInv (idleWith aaa) ∧ Ready .idle (idleWith aaa) ∧ (idleWith aaa).inp.bytes.length ≤ 2 ^ 32 - 2 :=
  ⟨runInv_idle _, ready_idle _, by decide⟩

theorem witness_DecompressReadsTheStream :
    RunInv (idleWith streamAaa) ∧ Ready .idle (idleWith streamAaa) ∧
      (idleWith streamAaa).inp.bits = bitsOf 32 0xFACE8201 ++ shapeAaa.bits ++
        bodyBits [(0x41, [true]), (0x41, [true]), (0x41, [true])] ++ [false] ++
        [false, false, false, false, false, false, false] ∧
      shapeAaa.leafCount ≤ 257 ∧ (∀ v ∈ shapeAaa.values, v.toNat ≤ 256) ∧ (Config.eos, [false]) ∈ shapeAaa.paths ∧
      Emitted shapeAaa [(0x41, [true]), (0x41, [true]), (0x41, [true])] :=
  ⟨runInv_idle _, ready_idle _, by decide +kernel, by decide, by decide, by decide, emitted_aaa⟩

theorem test_compress_aaa : exec (.compress .treeHeader) (idleWith aaa) = .next encdoneAaa :=
  next_of_reaches (by decide +kernel)

/-- With a byte appended to the stream; and an input that is one byte too long. -/
theorem witness_RoundTripReproducesTheInput :
    (RunInv (idleWith aaa) ∧ Ready .idle (idleWith aaa) ∧ (idleWith aaa).inp.bytes.length ≤ 2 ^ 32 - 2 ∧
      exec (.compress .treeHeader) (idleWith aaa) = .next encdoneAaa ∧ result encdoneAaa = some (.output streamAaa) ∧
      RunInv (idleWith (streamAaa ++ [0x99])) ∧ Ready .idle (idleWith (streamAaa ++ [0x99])) ∧
      (idleWith (streamAaa ++ [0x99])).inp.bytes = streamAaa ++ [0x99]) ∧
    2 ^ 32 - 2 < (idleWith (List.replicate (2 ^ 32 - 1) 0)).inp.bytes.length :=
  ⟨⟨runInv_idle _, ready_idle _, by decide, test_compress_aaa, by decide, runInv_idle _, ready_idle _, rfl⟩,
    witness_CountMakesTheHistogram.2.2.2⟩

theorem witness_EmptyInputRoundTrips :
    RunInv (idleWith []) ∧ Ready .idle (idleWith []) ∧ (idleWith []).inp.bytes = [] ∧
      RunInv (idleWith [0xFA, 0xCE, 0x82, 0x01, 0xC0, 0x00]) ∧ Ready .idle (idleWith [0xFA, 0xCE, 0x82, 0x01, 0xC0, 0x00]) :=
  ⟨runInv_idle _, ready_idle _, rfl, runInv_idle _, ready_idle _⟩

/-- One byte, two bytes, and the longest input. -/
theorem witness_SingleSymbolInputHasOneBitCodes :
    RunInv (idleWith (List.replicate 1 0x41)) ∧ RunInv (idleWith (List.replicate 2 0x41)) ∧
      RunInv (idleWith (List.replicate (2 ^ 32 - 2) 0x41)) ∧ Ready .idle (idleWith (List.replicate (2 ^ 32 - 2) 0x41)) ∧
      (idleWith (List.replicate (2 ^ 32 - 2) 0x41)).inp.bytes = List.replicate (2 ^ 32 - 2) 0x41 ∧ 1 ≤ 2 ^ 32 - 2 :=
  ⟨runInv_idle _, runInv_idle _, runInv_idle _, ready_idle _, rfl, by decide⟩

/-- The fourth byte altered; the stream cut to 3 bytes and to 7. -/
theorem witness_CorruptionIsDetected :
    RunInv (idleWith aaa) ∧ Ready .idle (idleWith aaa) ∧
      exec (.compress .treeHeader) (idleWith aaa) = .next encdoneAaa ∧ result encdoneAaa = some (.output streamAaa) ∧
      streamAaa = [0xFA, 0xCE, 0x82, 0x01] ++ [0x60, 0x12, 0x0F, 0x00] ∧
      ([0xFA, 0xCE, 0x82, 0x00] : List Byte) ≠ [0xFA, 0xCE, 0x82, 0x01] ∧
      RunInv (idleWith ([0xFA, 0xCE, 0x82, 0x00] ++ [0x60, 0x12, 0x0F, 0x00])) ∧
      RunInv (idleWith (streamAaa.take 3)) ∧ RunInv (idleWith (streamAaa.take 7)) ∧
      Ready .idle (idleWith (streamAaa.take 7)) ∧ 7 < streamAaa.length :=
  ⟨runInv_idle _, ready_idle _, test_compress_aaa, by decide, rfl, by decide, runInv_idle _, runInv_idle _,
    runInv_idle _, ready_idle _, by decide⟩

theorem witness_ExecutionErrorLeavesThisDefined :
    ErrCode.noCode ≠ .noError ∧ ErrCode.formatError ≠ .noError ∧ ErrCode.prematureEndOfStream ≠ .noError ∧
      ErrCode.formatError ≠ .lengthOverflow ∧ ErrCode.formatError ≠ .noCode := by decide

/-- An error raised at dispatch, and one raised during execution. -/
theorem witness_EveryErrorStopsTheEngine :
    exec .build State.reset = .next sequenceErrorState ∧ sequenceErrorState.err ≠ State.reset.err ∧
      view (fun t => t.err) (exec (.rdhdr .treeHeader) (idleWith [])) = some .formatError :=
  ⟨test_build_in_idle, by decide, by decide +kernel⟩

theorem witness_InterruptFollowsItsCause :
    AtHostPort (hostDoing [.write 0x0008 0xF 1] countedAaa) ∧ (1 : Word).getLsbD 0 = true ∧ countedAaa.done = true ∧
      AtHostPort (hostDoing [.write 0x0008 0xF 0] countedAaa) ∧ (0 : Word).getLsbD 0 = false :=
  ⟨⟨rfl, rfl⟩, by decide, rfl, ⟨rfl, rfl⟩, by decide⟩

theorem witness_TablesHaveOneWriter :
    exec .gencode builtAaa = .next codedAaa ∧ Defined codedAaa ∧ exec .build State.reset = .next sequenceErrorState ∧
      Defined sequenceErrorState := ⟨test_gencode_aaa, .inl rfl, test_build_in_idle, .inr rfl⟩

theorem witness_StreamsHaveTheirUsers :
    exec (.wrhdr .treeHeader) codedAaa = .next hdrwrAaa ∧ Defined hdrwrAaa ∧ exec .build countedAaa = .next builtAaa ∧
      Defined builtAaa := ⟨test_wrhdr_aaa, .inl rfl, test_build_aaa, .inl rfl⟩

theorem witness_PhaseMovesOnlyAtCompletion :
    exec .build countedAaa = .next builtAaa ∧ builtAaa.phase ≠ countedAaa.phase ∧
      view (fun t => t.phase) (exec .clear builtAaa) = some .idle ∧
      view (fun t => t.phase) (exec (.leaf 256) (readerAt .tree 0 [0xC0, 0x00])) = some .hdrrd :=
  ⟨test_build_aaa, by decide, rfl, by decide +kernel⟩

/-- ENCODE waits in a run, and the source is about to go on. -/
theorem runInv_encoding : RunInv (hostDoing [.goOn none none] encodingState) where
  flags := ⟨fun _ => rfl, by decide, fun _ => rfl, rfl, rfl⟩
  waiting := by intro w hw; cases hw; decide
  packer _ := by constructor <;> decide
  phase _ := ⟨counted_aaa rfl rfl rfl, ⟨shapeAaa, builtOk_aaa, usedLeaves_aaa rfl, codesOk_aaa, by decide +kernel⟩, by decide +kernel⟩

/-- A step of an idle engine, and one in which a waiting command goes on. -/
theorem witness_StepsKeepTheInvariant :
    (RunInv State.reset ∧ step State.reset = .next State.reset) ∧
      RunInv (hostDoing [.goOn none none] encodingState) ∧
      view (fun t => t.busy) (step (hostDoing [.goOn none none] encodingState)) = some false :=
  ⟨⟨runInv_idle [], rfl⟩, runInv_encoding, by decide +kernel⟩

theorem witness_NoStepOfARunStops : RunInv (idleWith aaa) := runInv_idle _

theorem witness_RegisterMapIsOneToOne : regAt 0x601C = some (.codeBits 256 7) ∧ 0x601C % 4 = 0 := by decide

/-- The first and last node, the first and last code, the last bit of a word, a command word with HM, and a state of a
run with tables to bound. -/
theorem witness_RegisterFieldsAreInPlace :
    (builtAaa.tree.at (BitVec.ofNat 10 (0 : Fin 513).val) = Node.mkLeaf 0x41 3 ∧
      builtAaa.tree.at (BitVec.ofNat 10 (512 : Fin 513).val) = Node.invalid ∧
      codeAt builtAaa.code (BitVec.ofNat 9 (0 : Fin 257).val) = Code.invalid ∧
      codeAt builtAaa.code (BitVec.ofNat 9 (256 : Fin 257).val) = Code.invalid ∧ 31 < 32) ∧
    decodeWord 0x00000131 = .ok (.decompress .countHeader) ∧ RunInv builtAaa ∧ Defined builtAaa ∧
      builtAaa.err ≠ .lengthOverflow ∧ builtAaa.err ≠ .noCode :=
  ⟨by decide +kernel, by decide, runInv_built, .inl rfl, by decide, by decide⟩

/-- The cursors and the counts of a session that is through (rules R33, R37): the input's 24 bits, the output's 64. -/
theorem test_read_scalars :
    readReg encdoneAaa .iposl = 24 ∧ readReg encdoneAaa .iposh = 0 ∧ readReg encdoneAaa .oposl = 64 ∧
      readReg encdoneAaa .nnodes = 3 ∧ readReg encdoneAaa .nleaf = 2 ∧ readReg encdoneAaa .inlen = 3 := by
  decide +kernel

/-- A narrow read; a misaligned one; one of an idle engine; one of a busy engine. -/
theorem witness_ReadsChangeNothing :
    AtHostPort (hostDoing [.read 0x0004 0x1] countedAaa) ∧ AtHostPort (hostDoing [.read 0x0006 0xF] countedAaa) ∧
      AtHostPort (hostDoing [.read 0x0004 0xF] countedAaa) ∧ countedAaa.busy = false ∧
      AtHostPort (hostDoing [.read 0x0038 0xF] busyState) ∧ busyState.busy = true ∧
      (0x1 : BitVec 4) ≠ 0xF ∧ (0x0006 : RegAddr).toNat % 4 ≠ 0 :=
  ⟨⟨rfl, rfl⟩, ⟨rfl, rfl⟩, ⟨rfl, rfl⟩, rfl, ⟨rfl, rfl⟩, rfl, by decide, by simp⟩

/-- A narrow write to CMD; a misaligned one; one to STATUS and one to an unmapped address. -/
theorem witness_OnlyCmdAndCtrlAreWritable :
    AtHostPort (hostDoing [.write 0x0000 0x1 1] countedAaa) ∧ AtHostPort (hostDoing [.write 0x0002 0xF 1] countedAaa) ∧
      AtHostPort (hostDoing [.write 0x0004 0xF 1] countedAaa) ∧ AtHostPort (hostDoing [.write 0x7FFC 0xF 1] countedAaa) ∧
      (0x0004 : RegAddr).toNat % 4 = 0 ∧ (0x0004 : RegAddr) ≠ 0x0000 ∧ (0x0004 : RegAddr) ≠ 0x0008 :=
  ⟨⟨rfl, rfl⟩, ⟨rfl, rfl⟩, ⟨rfl, rfl⟩, ⟨rfl, rfl⟩, by decide, by decide, by decide⟩

/-- Raised while a command runs, and while none does; an access while it is high. -/
theorem witness_ResetPinGivesTheResetState :
    (hostDoing [.rst true] busyState).trav.stage = .off ∧ (hostDoing [.rst true] busyState).busy = true ∧
      (hostDoing [.rst true] countedAaa).busy = false ∧
      (setResetPin true (hostDoing [.read 0x0004 0xF] countedAaa)).port.rst = true ∧
      (setResetPin true (hostDoing [.read 0x0004 0xF] countedAaa)).port.host = [.read 0x0004 0xF] := by decide

end Sys2Proof.Tests
end

/-! PROOFS. The state after reset (rule R45): the invariant of a run holds there, and every row of the table of reset
values reads as the table says. -/

namespace Sys2Proof.Machine

/-- The base case of the invariant: reset begins a session. -/
theorem runInv_reset : RunInv State.reset :=
  runInv_fresh (hp := rfl) (hb := rfl) (hd := rfl) (he := rfl) (hn := rfl) (hf := ⟨rfl, rfl⟩) (ht := rfl) (hq := rfl)
    (hc := rfl) (hi := rfl) (ho := rfl) (hv := rfl) (hw := rfl)

@[simp] theorem freqAt_reset (v : Nat) : freqAt State.reset.freq v = 0 := freqAt_replicate v

@[simp] theorem treeAt_reset (i : NodeIx) : State.reset.tree.at i = Node.invalid := at_empty i

@[simp] theorem codeAt_reset (v : Sym) : codeAt State.reset.code v = Code.invalid := codeAt_replicate v

/-- No flag of STATUS is set after reset. -/
@[simp] theorem readReg_status_reset : readReg State.reset .status = 0 := by decide

/-- No error is pending after reset. -/
@[simp] theorem errf_reset : errf State.reset = false := (errf_eq_false _).2 rfl

/-- Reset leaves the interrupt off: CTRL.IE is 0. -/
@[simp] theorem irq_reset : irq State.reset = false := by
  have hie : State.reset.ie = false := rfl
  rw [irq, hie, Bool.false_and]

/-- Settles O55: the base case of the invariant, the three tables entry by entry, and the remaining rows of the table
of reset values, which the definition of the reset state states. -/
theorem resetMeetsTheInvariant : Obligations.ResetMeetsTheInvariant := by
  unfold Obligations.ResetMeetsTheInvariant
  refine ⟨runInv_reset, fun v _ => freqAt_reset v, ?inlen, treeAt_reset, ?nnodes, ?nleaf, ?root, ?pq, codeAt_reset,
    ?phase, ?busy, ?done, ?eod, ?rewound, ?cmddrop, ?err, errf_reset, ?errinfo, ?ie, ?ipos, ?opos, ?obuf, ?trav,
    readReg_status_reset, ?id, ?magict, ?magicc, irq_reset⟩
  all_goals rfl

end Sys2Proof.Machine

/-! PROOFS. The stream primitives bit by bit (rules R65, R66, R69, R70): the bits of a field are the bits of a number,
most significant first. -/

namespace Sys2Proof.Machine

/-! ## The bits of a field -/

/-- `bitsOf` as the spec writes it: v[n-1] first, v[0] last (rules R65, R69). -/
theorem bitsOf_eq_map (n v : Nat) : bitsOf n v = (List.range n).map fun j => v.testBit (n - 1 - j) := by
  induction n with
  | zero => rfl
  | succ n ih =>
    have hshift : ∀ j, v.testBit (n - (j + 1)) = v.testBit (n - 1 - j) := fun j => by congr 1; omega
    rw [bitsOf_succ, ih, List.range_succ_eq_map]
    simp [Function.comp_def, hshift]

theorem getD_bitsOf {n j : Nat} (v : Nat) (h : j < n) : (bitsOf n v).getD j false = v.testBit (n - 1 - j) := by
  simp [bitsOf_eq_map, List.getD_eq_getElem?_getD, h]

/-- The number `n` bits spell has the first of them as its most significant bit (rule R65). -/
theorem getLsbD_ofNat_ofBits {n j : Nat} {bs : List Bool} (hl : bs.length = n) (h : j < n) :
    (BitVec.ofNat n (ofBits bs)).getLsbD (n - 1 - j) = bs.getD j false := by
  have hj : n - 1 - j < n := by omega
  rw [BitVec.getLsbD_ofNat, decide_eq_true hj, Bool.true_and, ← getD_bitsOf _ h, bitsOf_of_length hl]

/-! ## ReadBits -/

/-- Unread bit `j` is bit `ipos + j` of the input (rules R64, R65). -/
theorem getD_unread {i : InStream} {j : Nat} (h : i.ipos + j < 8 * i.bytes.length) :
    i.unread.getD j false = (i.bytes.getD ((i.ipos + j) / 8) 0).getLsbD (7 - (i.ipos + j) % 8) := by
  rw [← bitsOfBytes_getD _ _ h]
  simp [InStream.unread, InStream.bits, List.getD_eq_getElem?_getD]

/-- The field `ReadBits(n)` takes, bit by bit (rule R65). -/
theorem getLsbD_field {n j : Nat} {i : InStream} (hn : i.ipos + n ≤ 8 * i.bytes.length) (hj : j < n) :
    (BitVec.ofNat n (ofBits (i.unread.take n))).getLsbD (n - 1 - j) =
      (i.bytes.getD ((i.ipos + j) / 8) 0).getLsbD (7 - (i.ipos + j) % 8) := by
  have hl : (i.unread.take n).length = n := by rw [List.length_take, length_unread]; omega
  rw [getLsbD_ofNat_ofBits hl hj, ← getD_unread (by omega)]
  simp [List.getD_eq_getElem?_getD, hj]

/-- Settles O17: of the two results of `ReadBits(n)` the cursor decides which one holds, and the field's bits are the
unread ones, in order. -/
theorem readBitsTakesTheBitsAtTheCursor : Obligations.ReadBitsTakesTheBitsAtTheCursor := by
  unfold Obligations.ReadBitsTakesTheBitsAtTheCursor
  intro n i
  rcases readBits_cases n i with ⟨hshort, hr⟩ | ⟨-, hfits, hr⟩
  · rw [length_unread] at hshort
    exact ⟨fun hn => by omega, fun _ => hr⟩
  · exact ⟨fun hn => ⟨_, hr, fun j hj => getLsbD_field hn hj⟩, fun hn => by omega⟩

/-! ## WriteBits -/

/-- In OUT, the first bit written to a byte is its bit 7 (rule R69). -/
theorem getLsbD_out {o : OutStream} {k : Nat} (h : k < 8 * o.out.length) :
    (o.out.getD (k / 8) 0).getLsbD (7 - k % 8) = o.written.getD k false := by
  rw [OutStream.written, List.getD_append _ _ _ _ (by simpa using h), bitsOfBytes_getD _ _ h]

/-- Settles O18: `WriteBits(n, v)` writes the list v[n-1] .. v[0] to the packer, which stays coherent, appends it to
what was written, and only adds to OUT. -/
theorem writeBitsAppendsBits : Obligations.WriteBitsAppendsBits := by
  unfold Obligations.WriteBitsAppendsBits
  intro o n v ho
  obtain ⟨hcoherent, hwritten⟩ := writeList_coherent ho (bitsOf n v)
  have hopos : (o.writeBits n v).opos = o.opos + n := by
    rw [OutStream.writeBits, writeList_opos, length_bitsOf]
  have happend : (o.writeBits n v).written = o.written ++ (List.range n).map fun j => v.testBit (n - 1 - j) := by
    rw [OutStream.writeBits, hwritten, bitsOf_eq_map]
  have hzero : o.writeBits 0 v = o := rfl
  exact ⟨hcoherent, hopos, happend, fun k hk => getLsbD_out hk, writeList_out_prefix o (bitsOf n v), hzero⟩

end Sys2Proof.Machine

/-! PROOFS. The opcode map (rules R90 to R93): what decodes is a row of the table, under the row's mask. A row is its
opcode and whether it takes HM; its match and mask say the same about the three fields of a word. -/

namespace Sys2Proof.Machine

/-! ## Rows -/

/-- The command of a row whose word has `b` in bit 8. -/
def CommandRow.command (row : CommandRow) (b : Bool) : Instr := if b then row.countHeader else row.treeHeader

/-- OP of a row (rule R90). -/
def CommandRow.opcode (row : CommandRow) : BitVec 8 := row.pattern.extractLsb' 0 8

/-- Whether a row takes HM (rule R92). -/
def CommandRow.takesHeaderMode (row : CommandRow) : Bool := row.countHeader.headerMode.isSome

/-- A row's match has OP alone: HM and bits 31:9 are 0 in it. -/
theorem pattern_fields : ∀ row ∈ commandRows,
    row.pattern.getLsbD 8 = false ∧ row.pattern.extractLsb' 9 23 = 0 ∧ row.pattern &&& 0xFFFFFEFF = row.pattern := by
  decide

/-- A row's mask leaves out HM exactly when the row takes it. -/
theorem mask_eq : ∀ row ∈ commandRows,
    row.mask = if row.takesHeaderMode then 0xFFFFFEFF else BitVec.allOnes 32 := by decide

/-- A command takes HM when its row does, whatever is in bit 8. -/
theorem headerMode_command : ∀ row ∈ commandRows, ∀ b,
    (row.command b).headerMode.isSome = row.takesHeaderMode := by decide

/-- No two rows have a command in common. -/
theorem command_injective : ∀ row ∈ commandRows, ∀ row' ∈ commandRows, ∀ b,
    row.command b = row'.command b → row = row' := by decide

/-- The opcodes of rule R91's table. -/
theorem opcodes_eq : commandRows.map CommandRow.opcode =
    [0x00#8, 0x01, 0x10, 0x11, 0x12, 0x13, 0x14, 0x20, 0x21, 0x30, 0x31] := by decide

/-- The opcodes that take HM (rule R92). -/
theorem takesHeaderMode_iff : ∀ row ∈ commandRows,
    row.takesHeaderMode = true ↔ row.opcode ∈ [0x13#8, 0x20, 0x30, 0x31] := by decide

/-- A word matches a row under its mask when it has the row's OP, 0 in bits 31:9, and 0 in bit 8 unless the row takes
HM. -/
theorem matches_iff {row : CommandRow} (hrow : row ∈ commandRows) (w : Word) :
    w &&& row.mask = row.pattern ↔
      w.extractLsb' 0 8 = row.opcode ∧ w.extractLsb' 9 23 = 0 ∧ (w.getLsbD 8 = true → row.takesHeaderMode = true) := by
  obtain ⟨hp8, hp9, hp⟩ := pattern_fields row hrow
  rw [mask_eq row hrow]
  cases row.takesHeaderMode with
  | true =>
    have hagree := and_hmMask_eq_iff w row.pattern
    rw [hp, hp9] at hagree
    simpa [CommandRow.opcode] using hagree
  | false =>
    rw [if_neg (by decide), BitVec.and_allOnes]
    constructor
    · rintro rfl
      exact ⟨rfl, hp9, by rw [hp8]; nofun⟩
    · rintro ⟨h0, h9, h8⟩
      have hb : w.getLsbD 8 = false := by simpa using h8
      exact word_ext h0 (hb.trans hp8.symm) (h9.trans hp9.symm)

/-! ## Decoding -/

/-- `commandOf` knows the opcodes of the table and no others. -/
theorem commandOf_eq_none_iff (op : BitVec 8) (hm : HeaderMode) :
    commandOf op hm = none ↔ op ∉ commandRows.map CommandRow.opcode := by
  rw [opcodes_eq]
  simp [commandOf, ite_eq_iff]

theorem commandOf_opcode : ∀ row ∈ commandRows, ∀ b,
    commandOf row.opcode (headerModeOf b) = some (row.command b) := by decide

/-- `commandOf` reads rule R91's table by OP. -/
theorem commandOf_eq_some_iff {op : BitVec 8} {b : Bool} {i : Instr} :
    commandOf op (headerModeOf b) = some i ↔ ∃ row ∈ commandRows, op = row.opcode ∧ i = row.command b := by
  constructor
  · intro hc
    have hop : op ∈ commandRows.map CommandRow.opcode := by
      by_contra hn
      rw [(commandOf_eq_none_iff op _).2 hn] at hc
      cases hc
    obtain ⟨row, hrow, rfl⟩ := List.mem_map.1 hop
    rw [commandOf_opcode row hrow] at hc
    exact ⟨row, hrow, rfl, (Option.some.inj hc).symm⟩
  · rintro ⟨row, hrow, rfl, rfl⟩
    exact commandOf_opcode row hrow b

/-- The three checks of `decodeWord` on a word it accepts. -/
theorem decodeWord_eq_ok_iff {w : Word} {i : Instr} :
    decodeWord w = .ok i ↔ w.extractLsb' 9 23 = 0 ∧
      commandOf (w.extractLsb' 0 8) (headerModeOf (w.getLsbD 8)) = some i ∧
      (w.getLsbD 8 = true → i.headerMode.isSome = true) := by
  unfold decodeWord
  by_cases h9 : w.extractLsb' 9 23 = 0
  · rw [if_neg (not_not.2 h9)]
    generalize w.getLsbD 8 = b
    cases commandOf (w.extractLsb' 0 8) (headerModeOf b) with
    | none => simp
    | some j =>
      cases b with
      | false => simp [h9]
      | true =>
        cases hm : j.headerMode with
        | none =>
          have hnone : j = i → i.headerMode = none := fun hj => hj ▸ hm
          simpa [h9, hm] using hnone
        | some m =>
          have hsome : j = i → i.headerMode.isSome = true := fun hj => hj ▸ (by rw [hm]; rfl)
          simpa [h9, hm] using hsome
  · rw [if_pos h9]
    exact ⟨nofun, fun ⟨hzero, _⟩ => absurd hzero h9⟩

/-- A word decodes to a command exactly when it matches a row, to the command of that row. -/
theorem decodeWord_eq_ok_iff_matches {w : Word} {i : Instr} :
    decodeWord w = .ok i ↔ ∃ row ∈ commandRows, w &&& row.mask = row.pattern ∧ i = row.command (w.getLsbD 8) := by
  rw [decodeWord_eq_ok_iff, commandOf_eq_some_iff]
  constructor
  · rintro ⟨h9, ⟨row, hrow, h0, rfl⟩, h8⟩
    rw [headerMode_command row hrow] at h8
    exact ⟨row, hrow, (matches_iff hrow w).2 ⟨h0, h9, h8⟩, rfl⟩
  · rintro ⟨row, hrow, hw, rfl⟩
    obtain ⟨h0, h9, h8⟩ := (matches_iff hrow w).1 hw
    rw [headerMode_command row hrow]
    exact ⟨h9, ⟨row, hrow, h0, rfl⟩, h8⟩

/-- Settles O1: what decodes is the command of a row the word matches, and no two rows have a command in common. -/
theorem commandWordsMatchTheOpcodeMap : Obligations.CommandWordsMatchTheOpcodeMap := by
  unfold Obligations.CommandWordsMatchTheOpcodeMap
  refine ⟨fun row hrow w => ⟨fun hd => ?_, fun hw => ?_⟩, fun w i hd => decodeWord_eq_ok_iff_matches.1 hd⟩
  · obtain ⟨row', hrow', hw, hc⟩ := decodeWord_eq_ok_iff_matches.1 hd
    rwa [command_injective row hrow row' hrow' _ hc]
  · exact decodeWord_eq_ok_iff_matches.2 ⟨row, hrow, hw, rfl⟩

/-! ## Illegal words -/

/-- The legal words, field by field (rules R91 to R93). -/
theorem exists_decodeWord_eq_ok_iff (w : Word) :
    (∃ i, decodeWord w = .ok i) ↔
      w.extractLsb' 0 8 ∈ [0x00#8, 0x01, 0x10, 0x11, 0x12, 0x13, 0x14, 0x20, 0x21, 0x30, 0x31] ∧
        w.extractLsb' 9 23 = 0 ∧ (w.getLsbD 8 = true → w.extractLsb' 0 8 ∈ [0x13#8, 0x20, 0x30, 0x31]) := by
  rw [← opcodes_eq, List.mem_map]
  constructor
  · rintro ⟨i, hd⟩
    obtain ⟨row, hrow, hw, -⟩ := decodeWord_eq_ok_iff_matches.1 hd
    obtain ⟨h0, h9, h8⟩ := (matches_iff hrow w).1 hw
    rw [takesHeaderMode_iff row hrow, ← h0] at h8
    exact ⟨⟨row, hrow, h0.symm⟩, h9, h8⟩
  · rintro ⟨⟨row, hrow, h0⟩, h9, h8⟩
    rw [← h0, ← takesHeaderMode_iff row hrow] at h8
    exact ⟨_, decodeWord_eq_ok_iff_matches.2 ⟨row, hrow, (matches_iff hrow w).2 ⟨h0.symm, h9, h8⟩, rfl⟩⟩

/-- An illegal word written to an idle engine with no error pending raises IllegalCommand (rules R110, R234). -/
theorem writeCmd_raises_illegalCommand {w : Word} {s : State} (h : ∀ i, decodeWord w ≠ .ok i) (hb : s.busy = false)
    (he : s.err = .noError) : writeCmd w s = .next (raise .illegalCommand w s) := by
  rw [writeCmd_illegal h]
  rcases issueIllegal_cases w s with ⟨hbusy, -⟩ | ⟨-, herr, -⟩ | ⟨-, -, hr⟩
  · exact absurd hbusy (by simp [hb])
  · exact absurd he herr
  · rw [hr]

/-- Settles O2: the illegal words are those that fail a condition on the fields of a legal one, and the write to CMD
ends in `raise`. -/
theorem anyOtherWordIsIllegal : Obligations.AnyOtherWordIsIllegal := by
  unfold Obligations.AnyOtherWordIsIllegal
  refine ⟨fun w => ?_, fun w s h hb he => writeCmd_raises_illegalCommand h hb he⟩
  rw [← not_exists, exists_decodeWord_eq_ok_iff]
  simp only [not_and_or, Classical.not_imp]

end Sys2Proof.Machine

/-! PROOFS. NOP (rule R113): its arm has the two ends of rule R110's step 1, and of the words with its opcode only the
one with every reserved bit 0 is a command. -/

namespace Sys2Proof.Machine

/-- NOP while BUSY is dropped (rule R110 step 1). -/
theorem exec_nop_of_busy {s : State} (hb : s.busy = true) : exec .nop s = .next (dropCommand s) :=
  congrArg Host.Outcome.next (if_pos hb)

/-- NOP is no state change while nothing runs, whatever ERR holds (rule R113). -/
theorem exec_nop_of_not_busy {s : State} (hb : s.busy = false) : exec .nop s = .next s :=
  congrArg Host.Outcome.next (if_neg (by simp [hb]))

/-- NOP takes no HM, so the one command word with its opcode is 0 (rules R91, R92). -/
theorem eq_zero_of_opcode_eq_zero {w : Word} {i : Instr} (hop : w.extractLsb' 0 8 = 0) (hd : decodeWord w = .ok i) :
    w = 0 := by
  obtain ⟨-, h9, h8⟩ := (exists_decodeWord_eq_ok_iff w).1 ⟨i, hd⟩
  have hbit : w.getLsbD 8 = false := by
    rw [hop] at h8
    exact Bool.eq_false_iff.2 (mt h8 (by decide))
  exact word_ext hop hbit h9

/-- Settles O13: NOP's arm at either value of BUSY, and a word with a reserved bit set beside opcode 0 decodes to
nothing, so that its write to CMD ends in `raise`. -/
theorem nopChangesNothing : Obligations.NopChangesNothing := by
  unfold Obligations.NopChangesNothing
  refine fun s => ⟨exec_nop_of_not_busy, exec_nop_of_busy, by decide, fun w hop hw hb he => ?_⟩
  exact writeCmd_raises_illegalCommand (fun _ hd => hw (eq_zero_of_opcode_eq_zero hop hd)) hb he

end Sys2Proof.Machine

/-! PROOFS. The priority queue (rules R135 to R138): the order's asymmetry, and that a queue with an entry answers
`PQRemoveMin`; the rest stands in the queue's laws. -/

namespace Sys2Proof.Machine

/-- No entry comes before itself (rule R135). -/
theorem not_before_self (a : PQEntry) : ¬ a.before a = true := by
  rw [before_iff]
  omega

/-- Entries with different indices are comparable in exactly one direction (rules R135, R138). -/
theorem before_iff_not_before {a b : PQEntry} (h : a.index ≠ b.index) : a.before b = true ↔ ¬ b.before a = true :=
  ⟨fun hab hba => not_before_self a (before_trans hab hba), (before_total h).resolve_right⟩

/-- `PQRemoveMin` answers on every queue that holds an entry (rule R137's precondition). -/
theorem exists_pqRemoveMin_eq_some {q : List PQEntry} (h : q ≠ []) : ∃ e rest, pqRemoveMin q = some (e, rest) := by
  cases q with
  | nil => exact absurd rfl h
  | cons e rest => exact ⟨e, rest, rfl⟩

/-- Settles O20: the order is the one on numbers and total on distinct indices, insertion into a sorted queue keeps it
sorted and adds its entry, and the entry removed from a sorted queue is its head, so the least. -/
theorem queueGrantsTheLeastEntry : Obligations.QueueGrantsTheLeastEntry := by
  unfold Obligations.QueueGrantsTheLeastEntry
  refine ⟨before_iff, fun _ _ => before_iff_not_before, fun q e hq he => ⟨pqInsert_queued hq he, pqInsert_perm e q⟩,
    fun q hq hne => ?_⟩
  obtain ⟨e, rest, hrem⟩ := exists_pqRemoveMin_eq_some hne
  obtain ⟨hcons, hleast, hrest⟩ := pqRemoveMin_least hq hrem
  exact ⟨e, rest, hrem, .of_eq hcons, hrest, hleast⟩

end Sys2Proof.Machine

/-! PROOFS. GENCODE (rules R155 to R161): its arm on a finished tree, which symbols the table of a tree's codes holds,
and the Kraft sum of a full binary tree, along its recursion and read off the table. -/

namespace Sys2Proof.Machine

/-! ## GENCODE's arm -/

/-- In phase BUILT the node memory holds a finished tree (rule R146). -/
theorem RunInv.exists_builtOk {s : State} (hi : RunInv s) (hr : Ready .built s) : ∃ sh, BuiltOk s.tree sh := by
  have hholds := hi.holds hr
  obtain ⟨-, -, hphase, -⟩ := hr
  rw [PhaseHolds, hphase] at hholds
  obtain ⟨-, ⟨sh, hsh, -⟩, -⟩ := hholds
  exact ⟨sh, hsh⟩

/-- GENCODE on a finished tree leaves the codes of the tree and changes nothing else (rules R155, R158). -/
theorem exec_gencode_of_builtOk {s : State} {sh : Shape} (hr : Ready .built s) (hsh : BuiltOk s.tree sh) :
    ∃ code, exec .gencode s = .next { s with
        code := code, phase := .coded, done := true, trav := Transient.empty } ∧ CodesOk code sh := by
  have hdepth := height_of_treeOk hsh.toTreeOk (nnodes_le_of_treeOk hsh.toTreeOk)
  have hbusy : s.busy = false := hr.1
  refine ⟨_, ?_, codesOk_recordPaths hsh.different hsh.symbols (Vector.replicate 257 Code.invalid)⟩
  rw [exec_completes (i := .gencode) hr (by decide) (by decide) (by decide) (by decide) (by decide)
    (gencodeBody_of_tree (s := accept s) hsh.spelled hdepth)]
  simp only [complete, accept, nextPhase, ← hbusy]

/-- Settles O25: GENCODE's arm gives the codes of the tree, and each is read back as its path because no leaf of a tree
in the memory is deeper than 256. -/
theorem gencodeRecordsEveryPath : Obligations.GencodeRecordsEveryPath := by
  unfold Obligations.GencodeRecordsEveryPath
  intro s sh hr hsh
  obtain ⟨code, hexec, hspelled, habsent⟩ := exec_gencode_of_builtOk hr hsh
  refine ⟨code, hexec, fun x hx => ⟨hspelled x hx, ?_⟩, habsent⟩
  rw [hspelled x hx, codeBitList_codeOfPath (path_le hsh.toTreeOk hx)]

/-! ## The valid entries of the table -/

/-- A symbol has a code exactly when it has a leaf (rules R28, R158). -/
theorem CodesOk.valid_iff {code : Vector Code 257} {sh : Shape} (hc : CodesOk code sh) (v : Sym) :
    (codeAt code v).valid = true ↔ v ∈ sh.values := by
  constructor
  · intro hv
    by_contra hmem
    rw [hc.absent v hmem] at hv
    exact absurd hv (by decide)
  · intro hmem
    obtain ⟨p, hp⟩ := Shape.exists_path hmem
    rw [hc.spelled _ hp]
    rfl

/-- No code of a tree begins another one: equal paths belong to one leaf (rules R161, R209). -/
theorem not_codeBitList_prefix {t : Tree} {sh : Shape} {code : Vector Code 257} (ht : TreeOk t sh)
    (hc : CodesOk code sh) {u v : Sym} (hne : u ≠ v) (hu : (codeAt code u).valid = true)
    (hv : (codeAt code v).valid = true) : ¬ codeBitList (codeAt code u) <+: codeBitList (codeAt code v) := by
  intro hprefix
  have hpu := (code_of_leaf ht hc ((hc.valid_iff u).mp hu)).1
  have hpv := (code_of_leaf ht hc ((hc.valid_iff v).mp hv)).1
  exact hne (congrArg Prod.fst (Shape.paths_not_begin hpu hpv hprefix))

/-- The table's indices, as the symbols they stand for. -/
def tableSymbols : List Sym := (List.range 257).map (BitVec.ofNat 9)

/-- The symbols whose table entry is valid, in ascending order. -/
def codedSymbols (code : Vector Code 257) : List Sym := tableSymbols.filter fun v => (codeAt code v).valid

theorem nodup_tableSymbols : tableSymbols.Nodup := by
  refine List.nodup_range.map_on fun a ha b hb hab => ?_
  have ha := List.mem_range.mp ha
  have hb := List.mem_range.mp hb
  have := congrArg BitVec.toNat hab
  simp only [BitVec.toNat_ofNat] at this
  omega

theorem mem_tableSymbols {v : Sym} (h : v.toNat ≤ 256) : v ∈ tableSymbols :=
  List.mem_map.mpr ⟨v.toNat, List.mem_range.mpr (by omega), by simp⟩

theorem mem_codedSymbols {code : Vector Code 257} {v : Sym} :
    v ∈ codedSymbols code ↔ v ∈ tableSymbols ∧ (codeAt code v).valid = true := List.mem_filter

theorem nodup_codedSymbols (code : Vector Code 257) : (codedSymbols code).Nodup := nodup_tableSymbols.filter _

/-- Each leaf of the tree stands once among the coded symbols, and nothing else does (rule R161). -/
theorem codedSymbols_perm_values {code : Vector Code 257} {sh : Shape} (hc : CodesOk code sh) (hd : sh.values.Nodup)
    (hs : ∀ v ∈ sh.values, v.toNat ≤ 256) : (codedSymbols code).Perm sh.values := by
  refine (List.perm_ext_iff_of_nodup (nodup_codedSymbols code) hd).mpr fun v => ?_
  rw [mem_codedSymbols, hc.valid_iff v]
  exact ⟨And.right, fun hv => ⟨mem_tableSymbols (hs v hv), hv⟩⟩

/-- Counting the valid entries counts the coded symbols. -/
theorem countP_valid_eq_length (code : Vector Code 257) :
    (List.range 257).countP (fun v => (codeAt code (BitVec.ofNat 9 v)).valid) = (codedSymbols code).length := by
  rw [codedSymbols, ← List.countP_eq_length_filter, tableSymbols, List.countP_map]
  rfl

/-! ## The Kraft sum -/

/-- The share of a code in the Kraft sum, scaled by 2^256 (rule R161). -/
def kraftWeight (c : Code) : Nat := 2 ^ (256 - c.len.toNat)

/-- The sum over the valid entries of the table is the sum over the coded symbols. -/
theorem sum_valid_eq_sum_codedSymbols (code : Vector Code 257) :
    ((List.range 257).map fun v =>
      if (codeAt code (BitVec.ofNat 9 v)).valid then 2 ^ (256 - (codeAt code (BitVec.ofNat 9 v)).len.toNat) else 0).sum
      = ((codedSymbols code).map fun v => kraftWeight (codeAt code v)).sum := by
  have hsplit := List.sum_map_ite (fun v : Sym => (codeAt code v).valid = true)
    (fun v => kraftWeight (codeAt code v)) (fun _ => 0) tableSymbols
  simpa [tableSymbols, codedSymbols, kraftWeight, Function.comp_def] using hsplit

/-- Kraft's equality for a full binary tree: a node's two subtrees share its part in halves (rules R24, R161). -/
theorem Shape.sum_two_pow_paths (sh : Shape) {n : Nat} (h : sh.height ≤ n) :
    (sh.paths.map fun x => 2 ^ (n - x.2.length)).sum = 2 ^ n := by
  induction sh generalizing n with
  | leaf v => simp [Shape.paths]
  | node l r hl hr =>
    obtain ⟨k, rfl⟩ : ∃ k, n = k + 1 := ⟨n - 1, by simp only [Shape.height] at h; omega⟩
    simp only [Shape.height] at h
    have hl := hl (n := k) (by omega)
    have hr := hr (n := k) (by omega)
    simp only [Shape.paths, List.map_append, List.map_map, Function.comp_def, List.sum_append, List.length_cons,
      Nat.add_sub_add_right, hl, hr]
    omega

/-- A path of at most 256 bits has the share 2^(256 - length). -/
theorem kraftWeight_codeOfPath {p : List Bool} (h : p.length ≤ 256) :
    kraftWeight (codeOfPath p) = 2 ^ (256 - p.length) := by
  have hlen : (codeOfPath p).len.toNat = p.length := by
    rw [codeOfPath, BitVec.toNat_ofNat, Nat.mod_eq_of_lt (by omega)]
  rw [kraftWeight, hlen]

/-- The codes of a tree's leaves fill the code space (rule R161). -/
theorem sum_kraftWeight_values {t : Tree} {sh : Shape} {code : Vector Code 257} (ht : TreeOk t sh)
    (hc : CodesOk code sh) : (sh.values.map fun v => kraftWeight (codeAt code v)).sum = 2 ^ 256 := by
  have hheight : sh.height ≤ 256 := Nat.lt_succ_iff.mp (height_of_treeOk ht (nnodes_le_of_treeOk ht))
  have hweight : ∀ x ∈ sh.paths, kraftWeight (codeAt code x.1) = 2 ^ (256 - x.2.length) := fun x hx => by
    rw [hc.spelled x hx, kraftWeight_codeOfPath (path_le ht hx)]
  rw [← sh.map_fst_paths, List.map_map, ← sh.sum_two_pow_paths hheight]
  exact congrArg List.sum (List.map_congr_left hweight)

/-- Settles O27: the valid entries are the leaves, each once, so that they are counted by NLEAF and summed along the
tree; that no code begins another one is that of the paths. -/
theorem codesFillTheTree : Obligations.CodesFillTheTree := by
  unfold Obligations.CodesFillTheTree
  intro s t hi hr hexec
  obtain ⟨sh, hsh⟩ := hi.exists_builtOk hr
  obtain ⟨code, hcoded, hc⟩ := exec_gencode_of_builtOk hr hsh
  rw [hcoded] at hexec
  cases hexec
  have hperm := codedSymbols_perm_values hc hsh.different hsh.symbols
  refine ⟨⟨sh, hsh, hc⟩, ?count, (hc.valid_iff 256).mpr hsh.sentinel,
    fun _ _ => not_codeBitList_prefix hsh.toTreeOk hc, ?kraft⟩
  case count =>
    rw [countP_valid_eq_length, hperm.length_eq, sh.length_values]
    exact hsh.leaves
  case kraft =>
    rw [sum_valid_eq_sum_codedSymbols, (hperm.map _).sum_eq]
    exact sum_kraftWeight_values hsh.toTreeOk hc

end Sys2Proof.Machine

/-! PROOFS. DECODE (rules R195 to R200): its arm on a body that reaches the sentinel's leaf and on a body that ends
before the next leaf, from what the laws of the codec say of its body. -/

namespace Sys2Proof.Machine

/-! ## The sentinel -/

/-- Settles O37: the body reaches the sentinel's leaf right after the emitted symbols' paths, whatever bits follow, and
completion drops CUR, the only transient value a descent leaves. -/
theorem decodeEmitsUpToTheSentinel : Obligations.DecodeEmitsUpToTheSentinel := by
  unfold Obligations.DecodeEmitsUpToTheSentinel
  intro s sh xs p rest hr hsh heos hx hunread hcoh haligned
  have ⟨hbusy, _, _, hsource, hsink⟩ := hr
  rw [List.append_assoc] at hunread
  obtain ⟨cur, hbody⟩ := decodeBody_done (s := accept s) hsource hsh.spelled heos hx hunread hcoh haligned
  rw [drain_answering (s := accept s) hsink] at hbody
  rw [exec_completes (i := .decode) hr (by decide) (by decide) (by decide) (by decide) (by decide) hbody]
  simp only [complete, accept, nextPhase, InStream.advance, Nat.add_assoc, ← hbusy]

/-! ## End of data -/

/-- How far a command had come does not outlive its error: acceptance, the read cursor, what was written and the
transient state are overwritten or left unspecified, and of the output only the sink's stop is kept (rules R35, R241,
R242). -/
theorem raiseExec_progress (e : ErrCode) (info : Word) {s : State} {busy done : Bool} {ipos : Nat} {outp : OutStream}
    {trav : Transient} (hsink : outp.stall = s.outp.stall) :
    raiseExec e info { s with
      busy := busy, done := done, inp := { s.inp with ipos := ipos }, outp := outp, trav := trav } =
      raiseExec e info s := by
  simp only [raiseExec, raise, leaveUnspecified, hsink]

/-- Settles O38: the body raises with EOD = 1 at the first descent the input does not carry to a leaf, and the raise
keeps nothing else of how far it had come. -/
theorem endOfDataInTheBody : Obligations.EndOfDataInTheBody := by
  unfold Obligations.EndOfDataInTheBody
  intro s l r xs q hr hsh hx hunread hcut
  have ⟨_, _, _, hans⟩ := hr
  obtain ⟨ipos, outp, cur, hbody, hsink⟩ :=
    decodeBody_cut (s := accept s) hans hsh.spelled (fun _ => Shape.noConfusion) hx hcut hunread
  rw [exec_raises (i := .decode) hr (by decide) (by decide) (by decide) (by decide) (by decide) hbody]
  exact congrArg Host.Outcome.next
    (raiseExec_progress .prematureEndOfStream 2 (s := { s with inp := { s.inp with eod := true } }) hsink)

end Sys2Proof.Machine

/-! PROOFS. The codes of a run (rule R209): in each phase with codes the table is that of the tree in the node memory,
also while a command waits. -/

namespace Sys2Proof.Machine

/-- In the phases with codes the table holds the paths of the tree in the node memory (rules R28, R158). -/
theorem PhaseHolds.exists_codesOk {s : State} (h : PhaseHolds s)
    (hp : s.phase = .coded ∨ s.phase = .hdrwr ∨ s.phase = .encdone) :
    ∃ sh, TreeOk s.tree sh ∧ CodesOk s.code sh := by
  rw [PhaseHolds] at h
  rcases hp with hphase | hphase | hphase <;> rw [hphase] at h
  · obtain ⟨-, ⟨sh, hbuilt, -, hcodes⟩, -⟩ := h
    exact ⟨sh, hbuilt.toTreeOk, hcodes⟩
  · obtain ⟨-, ⟨sh, hbuilt, -, hcodes, -⟩, -⟩ := h
    exact ⟨sh, hbuilt.toTreeOk, hcodes⟩
  · obtain ⟨-, ⟨sh, hbuilt, -, hcodes⟩, -⟩ := h
    exact ⟨sh, hbuilt.toTreeOk, hcodes⟩

/-- Tree and codes while a command waits are those it was accepted with (rule R9, log 4). -/
theorem RunInv.exists_codesOk {s : State} (hi : RunInv s) (he : s.err = .noError)
    (hp : s.phase = .coded ∨ s.phase = .hdrwr ∨ s.phase = .encdone) :
    ∃ sh, TreeOk s.tree sh ∧ CodesOk s.code sh := by
  simpa using (hi.phase (.inl he)).exists_codesOk (by simpa using hp)

/-- Settles O26: the codes are the paths of one tree, and no path of a tree begins another one. -/
theorem codesArePrefixFree : Obligations.CodesArePrefixFree := by
  unfold Obligations.CodesArePrefixFree
  intro s hi he hp u v
  obtain ⟨sh, htree, hcodes⟩ := hi.exists_codesOk he hp
  exact not_codeBitList_prefix htree hcodes

end Sys2Proof.Machine

/-! PROOFS. Whole sessions (rules R205 to R212): what COMPRESS leaves of an input, what DECOMPRESS makes of a stream,
and that the second takes back what the first has written. -/

namespace Sys2Proof.Machine

/-! ## Results -/

/-- A session whose last data command completed without an error gives its output (rule R81). -/
theorem result_complete {i : Instr} {s : State} (he : s.err = .noError)
    (hp : nextPhase i s.phase = .encdone ∨ nextPhase i s.phase = .decdone) :
    result (complete i s) = some (.output s.outp.out) := by
  rcases hp with hp | hp <;> simp [result, he, hp]

/-- A session that ended in an error gives the error (rule R242). -/
theorem result_raiseExec {e : ErrCode} (he : e ≠ .noError) (info : Word) (s : State) :
    result (raiseExec e info s) = some (.error e info) := by
  simp [result, raiseExec, he]

/-! ## The start of a session -/

/-- A session before its first data command: no tree, both cursors at 0 and nothing written (rules R29, R45). -/
structure AtStart (s : State) : Prop where
  tree     : s.tree = Tree.empty
  ipos     : s.inp.ipos = 0
  opos     : s.outp.opos = 0
  out      : s.outp.out = []
  coherent : s.outp.Coherent

theorem RunInv.atStart {s : State} (hi : RunInv s) (hr : Ready .idle s) : AtStart s := by
  obtain ⟨hbusy, herr, hphase, -⟩ := hr
  obtain ⟨-, htree, -, -, hin, hout⟩ := hi.idle hbusy (.inl herr) hphase
  exact ⟨htree, congrArg InStream.ipos hin, congrArg OutStream.opos hout, congrArg OutStream.out hout,
    hi.coherent hbusy (.inl herr)⟩

/-- A stream written in a session so far without output, with its pad (rules R69, R71). -/
theorem AtStart.bitsOfBytes_flush {s : State} (h : AtStart s) (bs : List Bool) :
    bitsOfBytes (s.outp.writeList bs).flush.out = bs ++ List.replicate (padLength bs.length) false := by
  have hobuf : s.outp.obuf = [] := List.length_eq_zero_iff.mp (by rw [h.coherent.1, h.opos])
  have hwritten : s.outp.written = [] := by rw [OutStream.written, h.out, hobuf, bitsOfBytes_nil, List.append_nil]
  obtain ⟨hcoherent, happend⟩ := writeList_coherent h.coherent bs
  obtain ⟨-, -, -, hflush⟩ := flush_coherent hcoherent
  rw [hflush, happend, hwritten, writeList_opos, h.opos, List.nil_append, Nat.zero_add]

/-! ## COMPRESS -/

/-- What COMPRESS has left of an input: its counts, the tree `sh` of the counted symbols, the tree's codes, and the
stream with its pad (rules R95, R129, R146, R158, R205). -/
structure Compressed (bytes : List Byte) (sh : Shape) (t : State) : Prop where
  counts : ∀ b : Byte, (freqAt t.freq b.toNat).toNat = bytes.count b
  tree   : BuiltOk t.tree sh
  leaves : UsedLeaves t sh
  codes  : CodesOk t.code sh
  stream : bitsOfBytes t.outp.out = streamBits sh t.code bytes ++
    List.replicate (padLength (streamBits sh t.code bytes).length) false

/-- COMPRESS at the start of a session, on an input that is not too long (rule R205). -/
theorem exec_compress_compressed {s : State} (hi : RunInv s) (hr : Ready .idle s)
    (hl : s.inp.bytes.length ≤ Config.maxLen) :
    ∃ t sh, exec (.compress .treeHeader) s = .next t ∧ result t = some (.output t.outp.out) ∧
      Compressed s.inp.bytes sh t := by
  have hstart := hi.atStart hr
  have ⟨_, herr, _, hans⟩ := hr
  obtain ⟨freq, inlen, t, q, code, sh, hbody, hcounts, -, -, hbuilt, hleaves, hcodes⟩ :=
    compressBody_spec (accept s) hans hstart.ipos hl hstart.tree
  exact ⟨_, sh, exec_completes (i := .compress .treeHeader) hr (by decide) (by decide) (by decide) (by decide)
    (by decide) hbody, result_complete herr (.inl rfl), hcounts, hbuilt, hleaves, hcodes, hstart.bitsOfBytes_flush _⟩

/-- COUNT's error is COMPRESS's (rules R128, R207). -/
theorem compressBody_tooLong {s : State} (hp : s.inp.ipos = 0) (ha : s.inp.stall = none)
    (hl : Config.maxLen < s.inp.bytes.length) : ∃ u, compressBody s = .err .lengthOverflow 0 u := by
  obtain ⟨freq, inlen, inp, hcount, -⟩ := (countBody_spec s hp ha).2 hl
  refine ⟨{ s with freq := freq, inlen := inlen, inp := inp }, ?_⟩
  simp only [compressBody, hcount, andThen_of_err]

/-- COMPRESS of an input longer than MAXLEN raises LengthOverflow (rule R128). -/
theorem exec_compress_tooLong {s : State} (hi : RunInv s) (hr : Ready .idle s)
    (hl : Config.maxLen < s.inp.bytes.length) :
    ∃ t, exec (.compress .treeHeader) s = .next t ∧ result t = some (.error .lengthOverflow 0) := by
  have ⟨_, _, _, hsource, _⟩ := hr
  obtain ⟨u, hbody⟩ := compressBody_tooLong (s := accept s) (hi.atStart hr).ipos hsource hl
  exact ⟨_, exec_raises (i := .compress .treeHeader) hr (by decide) (by decide) (by decide) (by decide)
    (by decide) hbody, result_raiseExec (by decide) 0 u⟩

/-! ## DECOMPRESS -/

/-- DECOMPRESS at the start of a session, on a stream of the format with anything after it (rules R101, R206). -/
theorem exec_decompress_stream {s : State} {sh : Shape} {xs : List (Sym × List Bool)} {p rest : List Bool}
    (hi : RunInv s) (hr : Ready .idle s)
    (hb : s.inp.bits = bitsOf 32 Config.magicTree.toNat ++ (sh.bits ++ (bodyBits xs ++ (p ++ rest))))
    (hs : sh.leafCount ≤ 257) (hv : ∀ v ∈ sh.values, v.toNat ≤ 256) (he : (Config.eos, p) ∈ sh.paths)
    (hx : Emitted sh xs) :
    ∃ t, exec (.decompress .treeHeader) s = .next t ∧ result t = some (.output (emittedBytes xs)) ∧
      t.inp.ipos = 32 + sh.bits.length + ((bodyBits xs).length + p.length) := by
  have hstart := hi.atStart hr
  have ⟨_, herr, _, hans⟩ := hr
  have hunread : s.inp.unread = s.inp.bits := by rw [InStream.unread, hstart.ipos, List.drop_zero]
  obtain ⟨t, j, hbody, -⟩ := decompressBody_spec (accept s) hans hstart.tree (hunread.trans hb) hs hv he hx
    hstart.coherent (by rw [accept_outp, hstart.opos])
  refine ⟨_, exec_completes (i := .decompress .treeHeader) hr (by decide) (by decide) (by decide) (by decide)
    (by decide) hbody, ?output, ?cursor⟩
  case output =>
    rw [result_complete (by exact herr) (.inr rfl)]
    simp only [accept_outp, hstart.out, List.nil_append]
  case cursor => simp only [complete_inp, advance_ipos, accept_inp, hstart.ipos, Nat.zero_add]

/-! ## The round trip -/

/-- A built tree has at most 257 leaves, since it has at most 513 nodes (rules R24, R97). -/
theorem leafCount_le_of_treeOk {t : Tree} {sh : Shape} (h : TreeOk t sh) : sh.leafCount ≤ 257 := by
  have hcap := nnodes_le_of_treeOk h
  have hnodes := h.nodes
  have hsize := sh.size_eq
  omega

/-- The bytes of a compressed input are symbols of the tree, each with its path (rules R185, R190). -/
theorem Compressed.emitted {bytes : List Byte} {sh : Shape} {t : State} (h : Compressed bytes sh t) :
    Emitted sh (pathsOfBytes t.code bytes) := by
  intro x hx
  obtain ⟨r, hr, rfl⟩ := List.mem_map.mp hx
  have hused := mem_usedValues (freqAt_ne_zero_of_mem h.counts hr)
  have hleaf : (r.zeroExtend 9 : Sym) ∈ sh.values := h.leaves.mem_iff.mpr (List.mem_append_left _ hused)
  exact ⟨(code_of_leaf h.tree.toTreeOk h.codes hleaf).1, by simpa only [toNat_zeroExtend_byte] using r.isLt⟩

/-- DECOMPRESS of the stream COMPRESS has written gives the input again, whatever bytes follow (rules R198, R208). -/
theorem Compressed.exec_decompress {bytes more : List Byte} {sh : Shape} {t s : State} (h : Compressed bytes sh t)
    (hi : RunInv s) (hr : Ready .idle s) (hb : s.inp.bytes = t.outp.out ++ more) :
    ∃ t', exec (.decompress .treeHeader) s = .next t' ∧ result t' = some (.output bytes) := by
  have hbits : s.inp.bits = bitsOf 32 Config.magicTree.toNat ++ (sh.bits ++ (bodyBits (pathsOfBytes t.code bytes) ++
      (codeBitList (codeAt t.code Config.eos) ++
        (List.replicate (padLength (streamBits sh t.code bytes).length) false ++ bitsOfBytes more)))) := by
    rw [InStream.bits, hb, bitsOfBytes_append, h.stream, bodyBits_pathsOfBytes]
    simp only [streamBits, List.append_assoc]
  obtain ⟨t', hexec, hresult, -⟩ := exec_decompress_stream hi hr hbits (leafCount_le_of_treeOk h.tree.toTreeOk)
    h.tree.symbols (code_of_leaf h.tree.toTreeOk h.codes h.tree.sentinel).1 h.emitted
  exact ⟨t', hexec, by rw [hresult, emittedBytes_pathsOfBytes]⟩

/-- Settles O43: what COMPRESS leaves is a stream of the format over the paths of the input's bytes, which DECOMPRESS
reads up to the sentinel; on an input too long COUNT raises. -/
theorem roundTripReproducesTheInput : Obligations.RoundTripReproducesTheInput := by
  unfold Obligations.RoundTripReproducesTheInput
  refine fun s hi hr => ⟨fun hl => ?fits, exec_compress_tooLong hi hr⟩
  case fits =>
    obtain ⟨t, sh, hexec, hresult, hc⟩ := exec_compress_compressed hi hr hl
    exact ⟨t, t.outp.out, hexec, hresult, fun s' more hi' hr' hb => hc.exec_decompress hi' hr' hb⟩

/-! ## The empty input -/

/-- With no counts there is no symbol but the sentinel (rules R139, R144). -/
theorem usedValues_eq_nil {freq : Vector Weight 256} {n : Nat} (h : ∀ k, k < n → freqAt freq k = 0) :
    usedValues freq n = [] := by
  rw [usedValues, List.map_eq_nil_iff, List.filter_eq_nil_iff]
  intro k hk
  simp [h k (List.mem_range.mp hk)]

/-- A tree with one value is its leaf. -/
theorem Shape.eq_leaf_of_values {sh : Shape} {v : Sym} (h : sh.values = [v]) : sh = .leaf v := by
  cases sh with
  | leaf w => rw [List.singleton_inj.mp h]
  | node l r =>
    have hcount : (Shape.node l r).leafCount = 1 := by rw [← Shape.length_values, h, List.length_singleton]
    have hl := l.leafCount_pos
    have hr := r.leafCount_pos
    rw [Shape.leafCount] at hcount
    omega

/-- The tree of the empty input is the sentinel's leaf (rule R144). -/
theorem Compressed.shape_of_nil {sh : Shape} {t : State} (h : Compressed [] sh t) : sh = .leaf Config.eos := by
  have hzero : ∀ k, k < 256 → freqAt t.freq k = 0 := fun k hk => by
    have hcount := h.counts (BitVec.ofNat 8 k)
    rw [BitVec.toNat_ofNat, Nat.mod_eq_of_lt hk, List.count_nil] at hcount
    exact BitVec.eq_of_toNat_eq hcount
  have hleaves : sh.values.Perm (usedValues t.freq 256 ++ [Config.eos]) := h.leaves
  rw [usedValues_eq_nil hzero] at hleaves
  exact Shape.eq_leaf_of_values (List.perm_singleton.mp hleaves)

/-- The code of a tree's only leaf has no bits: its path is empty (rules R27, R144). -/
theorem codeBitList_of_leaf {code : Vector Code 257} {v : Sym} (h : CodesOk code (.leaf v)) :
    codeBitList (codeAt code v) = [] := by
  rw [h.spelled (v, []) (by simp [Shape.paths]), codeBitList_codeOfPath (by simp)]

/-- The six bytes of the empty input's stream (rule R212). -/
def emptyStream : List Byte := [0xFA, 0xCE, 0x82, 0x01, 0xC0, 0x00]

/-- Their bits are the magic, the sentinel's leaf and the pad (rule R212). -/
theorem bitsOfBytes_emptyStream : bitsOfBytes emptyStream =
    bitsOf 32 Config.magicTree.toNat ++ ((Shape.leaf Config.eos).bits ++ List.replicate 6 false) := by decide

/-- COMPRESS of the empty input leaves these bytes (rule R212). -/
theorem Compressed.out_of_nil {sh : Shape} {t : State} (h : Compressed [] sh t) : t.outp.out = emptyStream := by
  obtain rfl := h.shape_of_nil
  have hbits : streamBits (.leaf Config.eos) t.code [] =
      bitsOf 32 Config.magicTree.toNat ++ (Shape.leaf Config.eos).bits := by
    rw [streamBits, codeBitList_of_leaf h.codes, List.flatMap_nil, List.append_nil, List.append_nil]
  have hlength : (bitsOf 32 Config.magicTree.toNat ++ (Shape.leaf Config.eos).bits).length = 42 := by decide
  have hpad : padLength 42 = 6 := by decide
  refine bitsOfBytes_injective ?_
  rw [h.stream, hbits, hlength, hpad, bitsOfBytes_emptyStream, List.append_assoc]

/-- Settles O44: the tree of no counts is the sentinel's leaf, whose path is empty, so the stream has no body and
DECOMPRESS stops right after the tree. -/
theorem emptyInputRoundTrips : Obligations.EmptyInputRoundTrips := by
  unfold Obligations.EmptyInputRoundTrips
  refine fun s hi hr => ⟨fun hb => ?compress, fun hb => ?decompress⟩
  case compress =>
    obtain ⟨t, sh, hexec, hresult, hc⟩ := exec_compress_compressed hi hr (by simp [hb])
    rw [hb] at hc
    exact ⟨t, hexec, by rw [hresult, hc.out_of_nil, emptyStream]⟩
  case decompress =>
    have hbits : s.inp.bits = bitsOf 32 Config.magicTree.toNat ++
        ((Shape.leaf Config.eos).bits ++ (bodyBits [] ++ ([] ++ List.replicate 6 false))) := by
      rw [InStream.bits, hb]
      exact bitsOfBytes_emptyStream
    exact exec_decompress_stream hi hr hbits (by decide) (by decide) (by decide) nofun

end Sys2Proof.Machine

/-! PROOFS. Errors (rules R233 to R249): which checks raise at dispatch, why a pending error stays until CLEAR or reset,
and the interrupt that follows it. -/

namespace Sys2Proof.Machine

/-! ## Errors raised at dispatch -/

/-- NOP and CLEAR are legal in every phase (rule R111). -/
theorem not_nop_nor_clear_of_notMem_legalPhases {i : Instr} {p : Phase} (h : p ∉ legalPhases i) :
    i ≠ .nop ∧ i ≠ .clear := by
  constructor <;> rintro rfl <;> exact h (by cases p <;> decide)

/-- Step 5 of rule R110. -/
theorem exec_of_notMem_legalPhases {i : Instr} {s : State} (hc : i.isCommand = true) (hb : s.busy = false)
    (he : s.err = .noError) (hp : s.phase ∉ legalPhases i) :
    exec i s = .next (raise .sequenceError (commandWord i) s) := by
  obtain ⟨hnop, hclear⟩ := not_nop_nor_clear_of_notMem_legalPhases hp
  rw [exec_issue hc hnop hclear]
  simpa [hb, he, hp] using issue_cases i (bodyOf i) s

/-- A command that takes HM is a command other than NOP and CLEAR (rule R92). -/
theorem isCommand_of_headerMode {i : Instr} {hm : HeaderMode} (h : i.headerMode = some hm) :
    i.isCommand = true ∧ i ≠ .nop ∧ i ≠ .clear := by
  cases i with
  | wrhdr | rdhdr | compress | decompress => exact ⟨rfl, nofun, nofun⟩
  | _ => cases h

/-- Step 6 of rule R110. -/
theorem exec_of_countHeader {i : Instr} {s : State} (hm : i.headerMode = some .countHeader) (hb : s.busy = false)
    (he : s.err = .noError) (hp : s.phase ∈ legalPhases i) :
    exec i s = .next (raise .unimplemented (commandWord i) s) := by
  obtain ⟨hc, hnop, hclear⟩ := isCommand_of_headerMode hm
  rw [exec_issue hc hnop hclear]
  simpa [hb, he, hp, hm] using issue_cases i (bodyOf i) s

/-- Settles O11: the command gets as far as step 5 of rule R110. -/
theorem wrongPhaseRaisesSequenceError : Obligations.WrongPhaseRaisesSequenceError := by
  unfold Obligations.WrongPhaseRaisesSequenceError
  exact fun i s hc hb he hp => exec_of_notMem_legalPhases hc hb he hp

/-- The four words of rule R233 are those of commands that ask for a counts header. -/
theorem headerMode_and_commandWord_of_countHeader : ∀ x ∈ [(Instr.wrhdr .countHeader, 0x00000113#32),
    (.rdhdr .countHeader, 0x00000120), (.compress .countHeader, 0x00000130), (.decompress .countHeader, 0x00000131)],
    x.1.headerMode = some .countHeader ∧ commandWord x.1 = x.2 := by decide

/-- Settles O12: each of the four commands gets as far as step 6 of rule R110, with its own word. -/
theorem countHeaderIsUnimplemented : Obligations.CountHeaderIsUnimplemented := by
  unfold Obligations.CountHeaderIsUnimplemented
  intro i w s hx hb he hp
  obtain ⟨hm, hw⟩ : i.headerMode = some .countHeader ∧ commandWord i = w :=
    headerMode_and_commandWord_of_countHeader (i, w) hx
  rw [exec_of_countHeader hm hb he hp, hw]
  rfl

/-! ## A root leaf that is not the sentinel -/

/-- DECODE looks at the root before it reads (rule R201). -/
theorem decodeBody_of_rootLeaf {s : State} (hl : (s.tree.at s.tree.root.index).leaf = true)
    (hv : (s.tree.at s.tree.root.index).sym ≠ Config.eos) :
    decodeBody s = .err .rootLeafNotSentinel ((s.tree.at s.tree.root.index).sym.zeroExtend 32) s :=
  if_pos (by simpa [rootNode, hl] using hv)

/-- Settles O39: the body raises in the accepted state, and acceptance does not outlive the error. -/
theorem rootLeafMustBeTheSentinel : Obligations.RootLeafMustBeTheSentinel := by
  unfold Obligations.RootLeafMustBeTheSentinel
  intro s hr hl hv
  rw [exec_raises (i := .decode) hr (by decide) (by decide) (by decide) (by decide) (by decide)
    (decodeBody_of_rootLeaf (s := accept s) hl hv)]
  exact congrArg Host.Outcome.next (raiseExec_progress _ _ rfl)

/-! ## A pending error at CMD -/

/-- While an error is pending no command but CLEAR does anything (rules R110 step 2, R113). -/
theorem exec_of_error {i : Instr} {s : State} (hc : i.isCommand = true) (hl : i ≠ .clear) (hb : s.busy = false)
    (he : s.err ≠ .noError) : exec i s = .next s := by
  by_cases hn : i = .nop
  · rw [hn, exec_nop_of_not_busy hb]
  · rw [exec_issue hc hn hl]
    simpa [hb, he] using issue_cases i (bodyOf i) s

/-- CLEAR has one word (rule R91). -/
theorem eq_one_of_decodeWord_eq_clear {w : Word} (h : decodeWord w = .ok .clear) : w = 0x00000001 := by
  have hmatch : w &&& BitVec.allOnes 32 = 0x00000001 :=
    (commandWordsMatchTheOpcodeMap.1 ⟨0xFFFFFFFF, 0x00000001, .clear, .clear⟩ (by decide) w).1 (by simpa using h)
  rwa [BitVec.and_allOnes] at hmatch

/-- While an error is pending a write to CMD of any word but CLEAR's does nothing (rule R243). -/
theorem writeCmd_of_error {w : Word} {s : State} (hw : w ≠ 0x00000001) (hb : s.busy = false) (he : s.err ≠ .noError) :
    writeCmd w s = .next s := by
  cases hd : decodeWord w with
  | ok i =>
    rw [writeCmd_ok hd]
    exact exec_of_error (isCommand_of_decode hd) (fun hi => hw (eq_one_of_decodeWord_eq_clear (hi ▸ hd))) hb he
  | error e =>
    rw [writeCmd_illegal (by simp [hd])]
    simpa [hb, he] using issueIllegal_cases w s

/-- Settles O15: every word but CLEAR's ends at step 2 of rule R110, and so does every command. -/
theorem errorsAreSticky : Obligations.ErrorsAreSticky := by
  unfold Obligations.ErrorsAreSticky
  refine fun s hb he => ⟨fun w hw => writeCmd_of_error hw hb he, fun i t hc hl h => ?_⟩
  rw [exec_of_error hc hl hb he] at h
  cases h
  exact ⟨rfl, rfl⟩

/-! ## Writes at the host port -/

/-- CMD is at offset 0 alone (rule R37). -/
theorem eq_zero_of_regAt_eq_cmd {a : Nat} (h4 : a % 4 = 0) (h : regAt a = some .cmd) : a = 0 := by
  have hscalar : a < 0x0400 := by
    by_contra hge
    rw [regAt, if_neg hge] at h
    split_ifs at h <;> cases h
  have hfirst : scalarRegs[0]? = scalarRegs[a / 4]? := by
    rw [regAt, if_pos hscalar] at h
    rw [h]
    rfl
  have hzero : 0 = a / 4 := (List.getElem?_inj (l := scalarRegs) (by decide) (by decide)).1 hfirst
  omega

/-- Of the registers CMD alone does anything else than store CTRL.IE (rules R42 a, R115). -/
theorem writeReg_of_ne_cmd {r : Reg} (hr : r ≠ .cmd) (w : Word) (s : State) :
    ∃ ie, writeReg r w s = .next { s with ie := ie } := by
  cases r with
  | cmd => exact absurd rfl hr
  | ctrl => exact ⟨_, rfl⟩
  | _ => exact ⟨s.ie, rfl⟩

/-- What a write can do (rules R42, R62): it is a legal access to CMD, or it changes the answer and CTRL alone. -/
theorem hostWrite_cases (a : RegAddr) (be : BitVec 4) (w : Word) (s : State) :
    a = 0x0000 ∧ be = 0xF ∧ hostWrite a be w s = writeCmd w (answer .ack s) ∨
    ∃ x ie, hostWrite a be w s = .next { answer x s with ie := ie } := by
  unfold hostWrite
  split_ifs with hlegal
  · exact .inr ⟨.err, s.ie, rfl⟩
  · cases hreg : regAt a.toNat with
    | none => exact .inr ⟨.ack, s.ie, rfl⟩
    | some r =>
      by_cases hr : r = .cmd
      · subst hr
        obtain ⟨hbe, h4⟩ : be = 0xF ∧ a.toNat % 4 = 0 := by simpa [legalAccess] using hlegal
        exact .inl ⟨BitVec.eq_of_toNat_eq (eq_zero_of_regAt_eq_cmd h4 hreg), hbe, rfl⟩
      · obtain ⟨ie, hie⟩ := writeReg_of_ne_cmd hr w (answer .ack s)
        exact .inr ⟨.ack, ie, hie⟩

/-- A legal access to CMD issues its word (rule R110). -/
theorem hostWrite_cmd (w : Word) (s : State) : hostWrite 0x0000 0xF w s = writeCmd w (answer .ack s) := rfl

/-- A legal access to CTRL stores IE (rule R38). -/
theorem hostWrite_ctrl (w : Word) (s : State) :
    hostWrite 0x0008 0xF w s = .next { answer .ack s with ie := w.getLsbD 0 } := rfl

/-- With `rst` low a write at the head of the queue reaches the port (rule R61). -/
theorem hostTurn_write {s : State} {a : RegAddr} {be : BitVec 4} {w : Word} {rest : List HostOp}
    (hrst : s.port.rst = false) (h : s.port.host = .write a be w :: rest) :
    hostTurn s = hostWrite a be w { s with port := { s.port with host := rest } } := by
  rw [hostTurn, h]
  exact if_neg (by simp [hrst])

/-! ## The interrupt -/

/-- Rule R248. -/
theorem irq_eq_true_iff (s : State) : irq s = true ↔ s.ie = true ∧ (s.done = true ∨ s.err ≠ .noError) := by
  rw [irq, Bool.and_eq_true, Bool.or_eq_true, errf_eq_true]

/-- Settles O49: the write reaches CTRL whatever BUSY and ERR are, and `irq` is computed from the new IE. -/
theorem interruptFollowsItsCause : Obligations.InterruptFollowsItsCause := by
  unfold Obligations.InterruptFollowsItsCause
  refine ⟨irq_eq_true_iff, fun s w rest hs hw => ⟨_, ?_, rfl, fun hie => ?_, fun hie hcause => ?_⟩⟩
  · rw [step_host hs, hostTurn_write hs.2 hw, hostWrite_ctrl]
    rfl
  · rw [irq, hie, Bool.false_and]
  · exact (irq_eq_true_iff _).2 ⟨hie, hcause⟩

/-! ## The end of an error -/

/-- A new session, whatever ended the last one (rules R45, R114, R261): no error, PHASE IDLE, empty tables and a new
stream pair. -/
def SessionStarted (t : State) : Prop :=
  t.err = .noError ∧ t.errinfo = 0 ∧ t.phase = .idle ∧ NotCounted t ∧ t.tree = Tree.empty ∧ t.pq = [] ∧ NoCodes t ∧
    ∃ (bytes : List Byte) (source : Option SourceStall) (sink : Option Nat),
      t.inp = InStream.fresh bytes source ∧ t.outp = OutStream.fresh sink

theorem sessionStarted_newSession (ie : Bool) (s : State) (port : Port) :
    SessionStarted { newSession ie s with port := port } :=
  ⟨rfl, rfl, rfl, ⟨rfl, rfl⟩, rfl, rfl, rfl, _, _, _, rfl, rfl⟩

theorem sessionStarted_clearSession (s : State) : SessionStarted (clearSession s) := sessionStarted_newSession _ _ _

theorem sessionStarted_setResetPin (s : State) : SessionStarted (setResetPin true s) := sessionStarted_newSession _ _ _

/-- CLEAR's word written while nothing runs clears the session, also with an error pending (rule R114). -/
theorem writeCmd_clear {s : State} (hb : s.busy = false) : writeCmd 0x00000001 s = .next (clearSession s) := by
  rw [writeCmd_ok (i := .clear) (by decide)]
  exact congrArg Host.Outcome.next (if_neg (by simp [hb]))

/-- The two acts that end a session do so while nothing runs. -/
theorem sessionStarted_of_endsSession {s t : State} (hends : EndsSession s) (hb : s.busy = false)
    (h : hostTurn s = .next t) : SessionStarted t := by
  obtain ⟨rest, ⟨hrst, hop⟩ | hop⟩ := hends
  · rw [hostTurn_write hrst hop, hostWrite_cmd, writeCmd_clear (by simpa using hb)] at h
    cases h
    exact sessionStarted_clearSession _
  · rw [hostTurn, hop] at h
    cases h
    exact sessionStarted_setResetPin _

/-- `t` shows the error of `s` (rule R31). -/
abbrev SameError (s t : State) : Prop := t.err = s.err ∧ t.errinfo = s.errinfo

/-- A read leaves ERR and ERRINFO as they are. -/
theorem sameError_hostRead (a : RegAddr) (be : BitVec 4) (s : State) : SameError s (hostRead a be s) := by
  unfold hostRead
  split
  · exact ⟨rfl, rfl⟩
  · split
    · exact ⟨rfl, rfl⟩
    · split <;> exact ⟨rfl, rfl⟩

/-- Attaching a stream pair leaves ERR and ERRINFO as they are. -/
theorem sameError_attachStreams (p : Streams) (s : State) : SameError s (attachStreams p s) := by
  unfold attachStreams
  split <;> exact ⟨rfl, rfl⟩

/-- A write that is not CLEAR's to CMD leaves a pending error as it is (rule R243). -/
theorem sameError_of_hostWrite {a : RegAddr} {be : BitVec 4} {w : Word} {s t : State} (hb : s.busy = false)
    (he : s.err ≠ .noError) (hclear : ¬ (a = 0x0000 ∧ be = 0xF ∧ w = 0x00000001)) (h : hostWrite a be w s = .next t) :
    SameError s t := by
  rcases hostWrite_cases a be w s with ⟨ha, hbe, hw⟩ | ⟨x, ie, hw⟩ <;> rw [hw] at h
  · rw [writeCmd_of_error (s := answer .ack s) (fun hword => hclear ⟨ha, hbe, hword⟩) hb he] at h
    cases h
    exact ⟨rfl, rfl⟩
  · cases h
    exact ⟨rfl, rfl⟩

/-- No act but CLEAR's write and the raising of `rst` changes a pending error, while nothing runs. -/
theorem sameError_of_hostStep {op : HostOp} {s t : State} (hb : s.busy = false) (hwait : s.waiting = none)
    (he : s.err ≠ .noError) (hclear : s.port.rst = false → op ≠ .write 0x0000 0xF 0x00000001)
    (hraise : op ≠ .rst true) (h : hostStep op s = .next t) : SameError s t := by
  cases op with
  | read a be =>
    cases h
    split
    · exact ⟨rfl, rfl⟩
    · exact sameError_hostRead a be s
  | write a be w =>
    simp only [hostStep] at h
    split at h
    next =>
      cases h
      exact ⟨rfl, rfl⟩
    next hrst =>
      refine sameError_of_hostWrite hb he ?_ h
      rintro ⟨rfl, rfl, rfl⟩
      exact hclear (by simpa using hrst) rfl
  | rst level =>
    cases level with
    | true => exact absurd rfl hraise
    | false =>
      cases h
      exact ⟨rfl, rfl⟩
  | attach p =>
    cases h
    exact sameError_attachStreams p s
  | goOn source sink =>
    rcases goOn_cases h with ⟨-, rfl⟩ | ⟨w, hw, -⟩
    · exact ⟨rfl, rfl⟩
    · exact absurd (hwait.symm.trans hw) nofun

/-- The host's turn leaves a pending error as it is unless it ends the session. -/
theorem sameError_of_not_endsSession {s t : State} (hends : ¬ EndsSession s) (hb : s.busy = false)
    (hwait : s.waiting = none) (he : s.err ≠ .noError) (h : hostTurn s = .next t) : SameError s t := by
  cases hop : s.port.host with
  | nil =>
    rw [hostTurn, hop] at h
    cases h
    exact ⟨rfl, rfl⟩
  | cons op rest =>
    rw [hostTurn, hop] at h
    refine sameError_of_hostStep (s := { s with port := { s.port with host := rest } }) hb hwait he
      (fun hrst hclear => hends ⟨rest, .inl ⟨hrst, hclear ▸ hop⟩⟩) (fun hraise => hends ⟨rest, .inr (hraise ▸ hop)⟩) h

/-- With an error pending no command runs (rule R31). -/
theorem RunInv.not_busy_of_error {s : State} (hi : RunInv s) (he : s.err ≠ .noError) : s.busy = false :=
  Bool.eq_false_iff.2 (mt hi.flags.busyClean he)

/-- In a run every step is the host's: no header is left half read (rule R35). -/
theorem RunInv.step_eq_hostTurn {s : State} (hi : RunInv s) : step s = hostTurn s := by
  have hreader : readerActive s = false := readerActive_off (by rw [hi.flags.transient]; rfl)
  rw [step, if_neg (by simp [hreader])]

/-- Settles O16: with an error pending nothing runs or waits, so the step is an act of the host or the platform, and two
acts alone can change ERR. -/
theorem errorsEndWithClearOrReset : Obligations.ErrorsEndWithClearOrReset := by
  unfold Obligations.ErrorsEndWithClearOrReset
  intro s t hi he h
  have hb := hi.not_busy_of_error he
  rw [hi.step_eq_hostTurn] at h
  exact ⟨fun hends => sameError_of_not_endsSession hends hb (hi.not_waiting hb) he h,
    fun hends => sessionStarted_of_endsSession hends hb h⟩

end Sys2Proof.Machine

/-! PROOFS. The encoding both ways (rules R91, R96 to R98): an image is that of the one instruction it decodes to. -/

namespace Sys2Proof.Machine

/-! ## Command words -/

/-- Which commands of the table ask for a counts header: those of the rows that take HM, with HM = 1. -/
theorem headerMode_command_eq_countHeader : ∀ row ∈ commandRows, ∀ b,
    (row.command b).headerMode = some .countHeader ↔ b = true ∧ row.takesHeaderMode = true := by decide

/-- Bit 8 of a command word is its HM (rules R90, R92). -/
theorem getLsbD_eight_iff {w : Word} {i : Instr} (h : decodeWord w = .ok i) :
    w.getLsbD 8 = true ↔ i.headerMode = some .countHeader := by
  obtain ⟨row, hrow, hw, rfl⟩ := decodeWord_eq_ok_iff_matches.1 h
  obtain ⟨-, -, h8⟩ := (matches_iff hrow w).1 hw
  rw [headerMode_command_eq_countHeader row hrow]
  exact ⟨fun hb => ⟨hb, h8 hb⟩, And.left⟩

/-- No command has two words (rule R91). -/
theorem decodeWord_injective {v w : Word} {i : Instr} (hv : decodeWord v = .ok i) (hw : decodeWord w = .ok i) :
    v = w := by
  have h8 : v.getLsbD 8 = w.getLsbD 8 := by
    rw [Bool.eq_iff_iff, getLsbD_eight_iff hv, getLsbD_eight_iff hw]
  obtain ⟨row, hrow, hmv, hi⟩ := decodeWord_eq_ok_iff_matches.1 hv
  obtain ⟨row', hrow', hmw, hi'⟩ := decodeWord_eq_ok_iff_matches.1 hw
  obtain rfl := command_injective row hrow row' hrow' (w.getLsbD 8) (by rw [← hi', hi, h8])
  obtain ⟨hv0, hv9, -⟩ := (matches_iff hrow v).1 hmv
  obtain ⟨hw0, hw9, -⟩ := (matches_iff hrow w).1 hmw
  exact word_ext (hv0.trans hw0.symm) h8 (hv9.trans hw9.symm)

/-- A command's image is its word. -/
theorem encode_eq_command {i : Instr} (h : i.isCommand = true) : encode i = .command (commandWord i) := by
  cases i with
  | magic | internal | leaf => cases h
  | _ => rfl

/-! ## Tokens -/

/-- A 0 is the marker of an internal node (rule R97). -/
theorem decodeToken_internal (rest : List Bool) : decodeToken (false :: rest) = .ok (.internal, rest) := rfl

/-- Nine bits after a leaf marker are the leaf's value, reserved above 256 (rule R98). -/
theorem decodeToken_leafMarker (v : Sym) (rest : List Bool) :
    decodeToken (true :: bitsOf 9 v.toNat ++ rest) =
      if 256 < v.toNat then .error (.reservedLeaf v) else .ok (.leaf v, rest) := by
  have hlong : ¬ (bitsOf 9 v.toNat ++ rest).length < 9 := by simp
  have hvalue : BitVec.ofNat 9 (ofBits ((bitsOf 9 v.toNat ++ rest).take 9)) = v := by
    rw [List.take_left' (length_bitsOf 9 _), ofBits_bitsOf, Nat.mod_eq_of_lt v.isLt, BitVec.ofNat_toNat,
      BitVec.setWidth_eq]
  rw [List.cons_append, decodeToken, if_neg hlong]
  simp only [hvalue, List.drop_left' (length_bitsOf 9 _)]

/-- What `decodeToken` accepts begins with the token it gives. -/
theorem eq_append_of_decodeToken {bs rest : List Bool} {i : Instr} (h : decodeToken bs = .ok (i, rest)) :
    i.wellFormed = true ∧ encode i = .treeBits (tokenBits i) ∧ bs = tokenBits i ++ rest := by
  match bs with
  | [] => cases h
  | false :: bs =>
    cases h
    exact ⟨rfl, rfl, rfl⟩
  | true :: bs =>
    by_cases hshort : bs.length < 9
    · rw [decodeToken, if_pos hshort] at h
      cases h
    · obtain ⟨v, hv⟩ : ∃ v : Sym, bitsOf 9 v.toNat = bs.take 9 := by
        have hl : (bs.take 9).length = 9 := by rw [List.length_take]; omega
        refine ⟨BitVec.ofNat 9 (ofBits (bs.take 9)), ?_⟩
        have hlt := ofBits_lt (bs.take 9)
        rw [hl] at hlt
        rw [BitVec.toNat_ofNat, Nat.mod_eq_of_lt hlt, bitsOf_of_length hl]
      have hbs : true :: bs = true :: bitsOf 9 v.toNat ++ bs.drop 9 := by
        rw [List.cons_append, hv, List.take_append_drop]
      rw [hbs, decodeToken_leafMarker] at h
      split_ifs at h with hres
      cases h
      exact ⟨by simpa [Instr.wellFormed] using hres, rfl, hbs⟩

/-- Every instruction with a place in the encoding is read back (rules R91, R96 to R98). -/
theorem decode_encode (i : Instr) : i.wellFormed = true → decode (encode i) = .ok i := by
  cases i with
  | nop => exact Laws.RoundTrip.nop
  | clear => exact Laws.RoundTrip.clear
  | count => exact Laws.RoundTrip.count
  | build => exact Laws.RoundTrip.build
  | gencode => exact Laws.RoundTrip.gencode
  | wrhdr hm => exact Laws.RoundTrip.wrhdr hm
  | encode => exact Laws.RoundTrip.encode
  | rdhdr hm => exact Laws.RoundTrip.rdhdr hm
  | decode => exact Laws.RoundTrip.decode
  | compress hm => exact Laws.RoundTrip.compress hm
  | decompress hm => exact Laws.RoundTrip.decompress hm
  | magic => exact Laws.RoundTrip.magic
  | internal => exact Laws.RoundTrip.internal
  | leaf v => exact Laws.RoundTrip.leaf v

/-- Every command is well formed. -/
theorem wellFormed_of_isCommand {i : Instr} (h : i.isCommand = true) : i.wellFormed = true := by
  cases i with
  | leaf => cases h
  | _ => rfl

/-- The word of a command decodes to it. -/
theorem decodeWord_commandWord {i : Instr} (h : i.isCommand = true) : decodeWord (commandWord i) = .ok i := by
  have hd := decode_encode i (wellFormed_of_isCommand h)
  rwa [encode_eq_command h] at hd

/-- A word that decodes is the word of its command. -/
theorem commandWord_of_decodeWord {w : Word} {i : Instr} (h : decodeWord w = .ok i) : commandWord i = w :=
  decodeWord_injective (decodeWord_commandWord (isCommand_of_decode h)) h

/-- What decodes is well formed, and its image is what was decoded. -/
theorem encode_of_decode {x : Image} {i : Instr} (h : decode x = .ok i) : i.wellFormed = true ∧ encode i = x := by
  cases x with
  | command w =>
    have hc := isCommand_of_decode h
    exact ⟨wellFormed_of_isCommand hc, by rw [encode_eq_command hc, commandWord_of_decodeWord h]⟩
  | magicField w =>
    simp only [decode, decodeMagic] at h
    split_ifs at h with hw
    cases h
    exact ⟨rfl, by rw [hw]; rfl⟩
  | treeBits bs =>
    cases hd : decodeToken bs with
    | error e => simp [decode, hd] at h
    | ok x =>
      obtain ⟨j, rest⟩ := x
      cases rest with
      | cons => simp [decode, hd] at h
      | nil =>
        obtain rfl : j = i := by simpa [decode, hd] using h
        obtain ⟨hwf, henc, hbs⟩ := eq_append_of_decodeToken hd
        exact ⟨hwf, by rw [henc, hbs, List.append_nil]⟩

/-- Settles O3: each constructor is read back from its image, and what decodes has one image, since a word is fixed by
its row and its HM, and a token's bits by its value. -/
theorem decodingInvertsEncoding : Obligations.DecodingInvertsEncoding := by
  unfold Obligations.DecodingInvertsEncoding
  exact ⟨decode_encode, fun _ _ => encode_of_decode⟩

/-- Settles O4: the marker decides the token, and the nine bits after a leaf marker spell its value. -/
theorem treeTokensAreReadFromTheHead : Obligations.TreeTokensAreReadFromTheHead := by
  unfold Obligations.TreeTokensAreReadFromTheHead
  refine ⟨?tokens, fun v rest hv => by rw [decodeToken_leafMarker, if_pos hv], fun rest hl => ?short⟩
  case tokens =>
    rintro i rest (rfl | ⟨v, rfl, hv⟩)
    · exact decodeToken_internal rest
    · exact (decodeToken_leafMarker v rest).trans (if_neg (by omega))
  case short => rw [decodeToken, if_pos hl]

/-- Settles O5: six command words and two tokens, each by evaluation. -/
theorem writtenOutWordsDecode : Obligations.WrittenOutWordsDecode := by
  unfold Obligations.WrittenOutWordsDecode
  decide

end Sys2Proof.Machine

/-! PROOFS. Single steps and acts of the host (rules R37, R42, R60 to R63, R71, R90, R114, R241, R260 to R262). -/

namespace Sys2Proof.Machine

/-! ## Flush -/

/-- Settles O19: Flush writes the pad, which is empty at a byte boundary and else fills the last byte. -/
theorem flushCompletesTheLastByte : Obligations.FlushCompletesTheLastByte := by
  unfold Obligations.FlushCompletesTheLastByte
  intro o ho
  obtain ⟨hcoherent, haligned, hobuf, hbits⟩ := flush_coherent ho
  exact ⟨flush_aligned, haligned, hobuf, hcoherent.2, hbits⟩

/-! ## An error raised during execution -/

/-- With an error pending `irq` follows CTRL.IE (rules R241, R248). -/
theorem irq_of_error {s : State} (he : s.err ≠ .noError) : irq s = s.ie := by
  rw [irq, (errf_eq_true s).2 he, Bool.or_true, Bool.and_true]

/-- STATUS reads the flags as the reads and the rewind left them but after the two errors that leave them open (rules
R30, R242, log 6). -/
theorem status_flags_closed {s : State} (hl : s.err ≠ .lengthOverflow) (hn : s.err ≠ .noCode) :
    statusEod s = s.inp.eod ∧ statusRewound s = s.inp.rewound := by
  have hclosed : s.err.leavesFlagsOpen = false := by
    rw [Bool.eq_false_iff, Ne, leavesFlagsOpen_iff]
    exact not_or.2 ⟨hl, hn⟩
  exact ⟨statusEod_closed hclosed, statusRewound_closed hclosed⟩

/-- Settles O47: `raiseExec` is `raise` on the state with its unspecified parts overwritten. -/
theorem executionErrorLeavesThisDefined : Obligations.ExecutionErrorLeavesThisDefined := by
  unfold Obligations.ExecutionErrorLeavesThisDefined
  rintro e info s t he rfl
  exact ⟨rfl, rfl, (errf_eq_true _).2 he, rfl, rfl, rfl, rfl, rfl, irq_of_error he, rfl, rfl, rfl, rfl,
    fun hl hn => status_flags_closed (s := raiseExec e info s) hl hn⟩

/-! ## CLEAR -/

/-- CLEAR while BUSY is dropped (rule R110 step 1). -/
theorem exec_clear_of_busy {s : State} (hb : s.busy = true) : exec .clear s = .next (dropCommand s) :=
  congrArg Host.Outcome.next (if_pos hb)

/-- CLEAR while nothing runs begins a session (rule R114). -/
theorem exec_clear_of_not_busy {s : State} (hb : s.busy = false) : exec .clear s = .next (clearSession s) :=
  congrArg Host.Outcome.next (if_neg (by simp [hb]))

/-- With neither DONE nor ERRF the interrupt is low (rule R248). -/
theorem irq_of_quiet {s : State} (hd : s.done = false) (he : s.err = .noError) : irq s = false := by
  rw [irq, hd, (errf_eq_false s).2 he, Bool.or_false, Bool.and_false]

/-- A pair attached for the next session is its pair (rule R263, log 10). -/
theorem nextStreams_of_pending {s : State} {p : Streams} (h : s.port.pending = some p) : nextStreams s = p := by
  rw [nextStreams, h, Option.getD_some]

/-- Settles O14: the session CLEAR begins has the reset values, and its stream pair is `nextStreams`. -/
theorem clearStartsANewSession : Obligations.ClearStartsANewSession := by
  unfold Obligations.ClearStartsANewSession
  refine fun s => ⟨fun hb => ?cleared, exec_clear_of_busy⟩
  case cleared =>
    refine ⟨(nextStreams s).bytes, (nextStreams s).source, (nextStreams s).sink, clearSession s,
      exec_clear_of_not_busy hb, rfl, irq_of_quiet rfl rfl, fun p hp => ?_⟩
    rw [nextStreams_of_pending hp]
    exact ⟨rfl, rfl, rfl⟩

/-! ## The register map -/

/-- The scalar registers stand at the multiples of 4 from 0 (rule R37). -/
theorem addr_scalarRegs : ∀ k : Fin 17, scalarRegs[k].addr = 4 * k.val := by decide

/-- The address of a mapped register is the one it was found at (rule R37). -/
theorem addr_of_regAt {a : Nat} {r : Reg} (h4 : a % 4 = 0) (h : regAt a = some r) : r.addr = a := by
  unfold regAt at h
  split_ifs at h
  case pos =>
    obtain ⟨hk, rfl⟩ := List.getElem?_eq_some_iff.1 h
    have haddr : scalarRegs[a / 4].addr = 4 * (a / 4) := addr_scalarRegs ⟨a / 4, hk⟩
    omega
  all_goals
    cases h
    simp only [Reg.addr]
    omega

/-- A frequency counter's register (rule R37). -/
theorem regAt_freq (v : Fin 256) : regAt (Reg.freq v).addr = some (.freq v) := by
  generalize ha : (Reg.freq v).addr = a
  rw [Reg.addr] at ha
  have hv : (a - 0x0400) / 4 = v.val := by omega
  rw [regAt, if_neg (by omega), dif_pos (by omega)]
  simp only [hv]

/-- A node's first register (rule R37). -/
theorem regAt_nodeA (i : Fin 513) : regAt (Reg.nodeA i).addr = some (.nodeA i) := by
  generalize ha : (Reg.nodeA i).addr = a
  rw [Reg.addr] at ha
  have hi : (a - 0x1000) / 8 = i.val := by omega
  rw [regAt, if_neg (by omega), dif_neg (by omega), if_neg (by omega), dif_pos (by omega), if_pos (by omega)]
  simp only [hi]

/-- A node's second register (rule R37). -/
theorem regAt_nodeW (i : Fin 513) : regAt (Reg.nodeW i).addr = some (.nodeW i) := by
  generalize ha : (Reg.nodeW i).addr = a
  rw [Reg.addr] at ha
  have hi : (a - 0x1000) / 8 = i.val := by omega
  rw [regAt, if_neg (by omega), dif_neg (by omega), if_neg (by omega), dif_pos (by omega), if_neg (by omega)]
  simp only [hi]

/-- The register of a code's length (rule R37). -/
theorem regAt_codeLen (v : Fin 257) : regAt (Reg.codeLen v).addr = some (.codeLen v) := by
  generalize ha : (Reg.codeLen v).addr = a
  rw [Reg.addr] at ha
  have hv : (a - 0x3000) / 4 = v.val := by omega
  rw [regAt, if_neg (by omega), dif_neg (by omega), if_neg (by omega), dif_neg (by omega), if_neg (by omega),
    dif_pos (by omega)]
  simp only [hv]

/-- The register of a word of a code's bits (rule R37). -/
theorem regAt_codeBits (v : Fin 257) (w : Fin 8) : regAt (Reg.codeBits v w).addr = some (.codeBits v w) := by
  generalize ha : (Reg.codeBits v w).addr = a
  rw [Reg.addr] at ha
  have hv : (a - 0x4000) / 32 = v.val := by omega
  have hw : (a - 0x4000) / 4 % 8 = w.val := by omega
  rw [regAt, if_neg (by omega), dif_neg (by omega), if_neg (by omega), dif_neg (by omega), if_neg (by omega),
    dif_neg (by omega), if_neg (by omega), dif_pos (by omega)]
  simp only [hv, hw]

/-- Each register is found at its address (rule R37). -/
theorem regAt_addr (r : Reg) : regAt r.addr = some r := by
  cases r with
  | freq v => exact regAt_freq v
  | nodeA i => exact regAt_nodeA i
  | nodeW i => exact regAt_nodeW i
  | codeLen v => exact regAt_codeLen v
  | codeBits v w => exact regAt_codeBits v w
  | _ => rfl

/-- Every address is a multiple of 4 in the window of 15 address bits (rules R6, R37). -/
theorem addr_in_window (r : Reg) : r.addr < 0x8000 ∧ r.addr % 4 = 0 := by
  cases r with
  | freq | nodeA | nodeW | codeLen | codeBits =>
    simp only [Reg.addr]
    omega
  | _ => decide

/-- Settles O56: each range of the map lists its registers at fixed distances, so that an index is read back from its
address. -/
theorem registerMapIsOneToOne : Obligations.RegisterMapIsOneToOne := by
  unfold Obligations.RegisterMapIsOneToOne
  exact ⟨fun r => ⟨(addr_in_window r).1, (addr_in_window r).2, regAt_addr r⟩, fun _ _ => addr_of_regAt⟩

/-! ## Acts of the host -/

/-- With the header reader not at work the step is the host's, whatever `rst` is (log 3). -/
theorem step_of_reader_idle {s : State} (h : readerActive s = false) : step s = hostTurn s :=
  if_neg (by simp [h])

/-- The act at the head of the queue is taken from it. -/
theorem hostTurn_cons {s : State} {op : HostOp} {rest : List HostOp} (h : s.port.host = op :: rest) :
    hostTurn s = hostStep op { s with port := { s.port with host := rest } } := by
  rw [hostTurn, h]

/-- The one legal access is 32 bits wide at a multiple of 4 (rule R62). -/
theorem legalAccess_iff (a : RegAddr) (be : BitVec 4) : legalAccess a be = true ↔ be = 0xF ∧ a.toNat % 4 = 0 := by
  simp [legalAccess]

theorem legalAccess_eq_false {a : RegAddr} {be : BitVec 4} (h : be ≠ 0xF ∨ a.toNat % 4 ≠ 0) :
    legalAccess a be = false := by
  rw [Bool.eq_false_iff, Ne, legalAccess_iff, not_and_or]
  exact h

/-- An access that is not legal is refused (rule R62). -/
theorem hostRead_illegal {a : RegAddr} {be : BitVec 4} {s : State} (h : be ≠ 0xF ∨ a.toNat % 4 ≠ 0) :
    hostRead a be s = answer .err s :=
  if_pos (by rw [legalAccess_eq_false h]; rfl)

theorem hostWrite_illegal {a : RegAddr} {be : BitVec 4} {w : Word} {s : State} (h : be ≠ 0xF ∨ a.toNat % 4 ≠ 0) :
    hostWrite a be w s = .next (answer .err s) :=
  if_pos (by rw [legalAccess_eq_false h]; rfl)

/-- A legal read at an unmapped address gives 0 (rule R42 b). -/
theorem hostRead_unmapped {a : RegAddr} {s : State} (h4 : a.toNat % 4 = 0) (h : regAt a.toNat = none) :
    hostRead a 0xF s = answer (.data 0) s := by
  rw [hostRead, (legalAccess_iff a 0xF).2 ⟨rfl, h4⟩, h]
  rfl

/-- A legal read of a register while nothing runs gives what it holds (rule R42). -/
theorem hostRead_register {a : RegAddr} {r : Reg} {s : State} (h4 : a.toNat % 4 = 0) (h : regAt a.toNat = some r)
    (hb : s.busy = false) : hostRead a 0xF s = answer (.data (readReg s r)) s := by
  rw [hostRead, (legalAccess_iff a 0xF).2 ⟨rfl, h4⟩, h, hb]
  rfl

/-- A legal read of a register while BUSY = 1 gives a value that `busyRead` allows (rule R42 d). -/
theorem hostRead_busy {a : RegAddr} {r : Reg} {s : State} (h4 : a.toNat % 4 = 0) (h : regAt a.toNat = some r)
    (hb : s.busy = true) : ∃ free k, hostRead a 0xF s = { answer (.data (busyRead s free r)) s with free := k } := by
  rw [hostRead, (legalAccess_iff a 0xF).2 ⟨rfl, h4⟩, h, hb]
  cases r with
  | id | magict | magicc => exact ⟨0, s.free, rfl⟩
  | _ => exact ⟨_, _, rfl⟩

/-- STATUS reads with BUSY = 1 while a command runs, whatever else it reads (rule R42 d). -/
theorem getLsbD_zero_busyRead_status (s : State) (free : Word) : (busyRead s free .status).getLsbD 0 = true := by
  simp [busyRead]

/-- A read answers with something and changes nothing but the model's own counter (rules R42, R63, log 7). -/
theorem hostRead_cases (a : RegAddr) (be : BitVec 4) (s : State) :
    ∃ ans k, hostRead a be s = { answer ans s with free := k } ∧
      (be ≠ 0xF ∨ a.toNat % 4 ≠ 0 → ans = .err) ∧
      (be = 0xF → a.toNat % 4 = 0 → s.busy = false → ans = .data (((regAt a.toNat).map (readReg s)).getD 0)) ∧
      (be = 0xF → a.toNat % 4 = 0 → s.busy = true →
        ∃ v, ans = .data v ∧ ∀ r, regAt a.toNat = some r → ∃ free, v = busyRead s free r) ∧
      (s.busy = false → k = s.free) := by
  by_cases hlegal : be = 0xF ∧ a.toNat % 4 = 0
  · obtain ⟨rfl, h4⟩ := hlegal
    have hcontra : ¬ ((0xF : BitVec 4) ≠ 0xF ∨ a.toNat % 4 ≠ 0) := by simp [h4]
    cases hreg : regAt a.toNat with
    | none =>
      exact ⟨_, s.free, hostRead_unmapped h4 hreg, fun h => absurd h hcontra, fun _ _ _ => rfl,
        fun _ _ _ => ⟨0, rfl, nofun⟩, fun _ => rfl⟩
    | some r =>
      cases hb : s.busy with
      | false =>
        exact ⟨_, s.free, hostRead_register h4 hreg hb, fun h => absurd h hcontra, fun _ _ _ => rfl, nofun,
          fun _ => rfl⟩
      | true =>
        obtain ⟨free, k, hread⟩ := hostRead_busy h4 hreg hb
        refine ⟨_, k, hread, fun h => absurd h hcontra, nofun, fun _ _ _ => ⟨_, rfl, fun r' hr' => ?_⟩, nofun⟩
        obtain rfl := Option.some.inj hr'
        exact ⟨free, rfl⟩
  · have hbad : be ≠ 0xF ∨ a.toNat % 4 ≠ 0 := not_and_or.1 hlegal
    exact ⟨.err, s.free, hostRead_illegal hbad, fun _ => rfl, fun h h4 => absurd ⟨h, h4⟩ hlegal,
      fun h h4 => absurd ⟨h, h4⟩ hlegal, fun _ => rfl⟩

/-- With `rst` low a read at the head of the queue reaches the port (rule R61). -/
theorem hostTurn_read {s : State} {a : RegAddr} {be : BitVec 4} {rest : List HostOp} (hrst : s.port.rst = false)
    (h : s.port.host = .read a be :: rest) :
    hostTurn s = .next (hostRead a be { s with port := { s.port with host := rest } }) := by
  rw [hostTurn_cons h]
  exact congrArg Host.Outcome.next (if_neg (by simp [hrst]))

/-- Reading a register does not look at the pins. -/
theorem readReg_port (s : State) (port : Port) (r : Reg) : readReg { s with port := port } r = readReg s r := by
  cases r <;> rfl

theorem busyRead_port (s : State) (port : Port) (free : Word) (r : Reg) :
    busyRead { s with port := port } free r = busyRead s free r := by
  cases r <;> rfl

/-- Settles O58: a read is an answer, and only STATUS and the constants are defined while BUSY = 1. -/
theorem readsChangeNothing : Obligations.ReadsChangeNothing := by
  unfold Obligations.ReadsChangeNothing
  intro s a be rest hs hread
  obtain ⟨ans, k, hcases, hbad, hidle, hbusy, hfree⟩ :=
    hostRead_cases a be { s with port := { s.port with host := rest } }
  refine ⟨ans, k, ?step, hbad, fun hbe h4 hb => ?_, fun hbe h4 hb => ?_, hfree⟩
  case step =>
    rw [step_host hs, hostTurn_read hs.2 hread, hcases]
    rfl
  · rw [hidle hbe h4 hb, funext (readReg_port s _)]
  · obtain ⟨v, hv, hreg⟩ := hbusy hbe h4 hb
    refine ⟨v, hv, ?_, ?_, ?_, ?_⟩ <;> rintro rfl
    · obtain ⟨free, rfl⟩ := hreg .status rfl
      exact getLsbD_zero_busyRead_status _ free
    · obtain ⟨free, rfl⟩ := hreg .id rfl
      rfl
    · obtain ⟨free, rfl⟩ := hreg .magict rfl
      rfl
    · obtain ⟨free, rfl⟩ := hreg .magicc rfl
      rfl

/-- The registers that are neither CMD nor CTRL are not writable (rule R42 a). -/
theorem writeReg_readOnly {r : Reg} (hcmd : r ≠ .cmd) (hctrl : r ≠ .ctrl) (w : Word) (s : State) :
    writeReg r w s = .next s := by
  cases r with
  | cmd => exact absurd rfl hcmd
  | ctrl => exact absurd rfl hctrl
  | _ => rfl

/-- A legal write outside CMD and CTRL is acknowledged and ignored (rule R42 a, b). -/
theorem hostWrite_ignored {a : RegAddr} {w : Word} {s : State} (h4 : a.toNat % 4 = 0) (h0 : a ≠ 0x0000)
    (h8 : a ≠ 0x0008) : hostWrite a 0xF w s = .next (answer .ack s) := by
  rw [hostWrite, (legalAccess_iff a 0xF).2 ⟨rfl, h4⟩]
  cases hreg : regAt a.toNat with
  | none => rfl
  | some r =>
    have haddr := addr_of_regAt h4 hreg
    refine writeReg_readOnly ?_ ?_ w (answer .ack s) <;> rintro rfl
    · exact h0 (BitVec.eq_of_toNat_eq haddr.symm)
    · exact h8 (BitVec.eq_of_toNat_eq haddr.symm)

/-- Settles O59: a refused write ends in the answer, and a legal one reaches a register that is not writable, or none. -/
theorem onlyCmdAndCtrlAreWritable : Obligations.OnlyCmdAndCtrlAreWritable := by
  unfold Obligations.OnlyCmdAndCtrlAreWritable
  intro s a be w rest hs hwrite
  rw [step_host hs, hostTurn_write hs.2 hwrite]
  refine ⟨fun hbad => hostWrite_illegal hbad, ?_⟩
  rintro rfl h4 h0 h8
  exact hostWrite_ignored h4 h0 h8

/-- Settles O60: raising `rst` begins a session with CTRL cleared, and while `rst` is high an access is answered by
nothing. -/
theorem resetPinGivesTheResetState : Obligations.ResetPinGivesTheResetState := by
  unfold Obligations.ResetPinGivesTheResetState
  intro s rest hreader
  rw [step_of_reader_idle hreader]
  refine ⟨fun hop => ⟨_, _, _, by rw [hostTurn_cons hop]; rfl⟩, fun op hrst hop haccess => ?_⟩
  rw [hostTurn_cons hop]
  rcases haccess with ⟨a, be, rfl⟩ | ⟨a, be, w, rfl⟩
  · exact congrArg Host.Outcome.next (if_pos hrst)
  · exact if_pos hrst

/-- Settles O6: the write reaches CMD, and its word decodes to the command. -/
theorem stepRunsTheCommandWritten : Obligations.StepRunsTheCommandWritten := by
  unfold Obligations.StepRunsTheCommandWritten
  intro s w rest i hs hwrite hd
  rw [step_host hs, hostTurn_write hs.2 hwrite, hostWrite_cmd, writeCmd_ok hd]
  rfl

end Sys2Proof.Machine

/-! PROOFS. The header reader (rules R96 to R98, R170 to R180): what it finds at the cursor, its tokens as steps of their
own (log 3), and RDHDR as those steps put together. -/

namespace Sys2Proof.Machine

/-! ## What the reader finds -/

theorem fetchToken_of_magic {s : State} (h : s.trav.stage = .magic) : fetchToken s = some (fetchMagic s) := by
  rw [fetchToken, h]

theorem fetchToken_of_tree {s : State} (h : s.trav.stage = .tree) : fetchToken s = some (fetchTree s) := by
  rw [fetchToken, h]

/-- A whole field where the magic field is expected (rules R171, R172). -/
theorem fetchMagic_field {s : State} {m : Word} {rest : List Bool} (ha : s.inp.stall = none)
    (hu : s.inp.unread = bitsOf 32 m.toNat ++ rest) :
    fetchMagic s =
      if m = Config.magicTree then .token .magic else .bad .formatError m (s.inp.advance 32) := by
  rw [fetchMagic, ask_answering ha, readBits_field (by decide) hu]

/-- End of data where a marker is expected (rule R175). -/
theorem fetchTree_end {s : State} (ha : s.inp.stall = none) (hu : s.inp.unread = []) :
    fetchTree s = .bad .prematureEndOfStream 0 s.inp.atEnd := by
  rw [fetchTree, ask_answering ha, readBits_short (by rw [hu]; decide)]

/-- A marker with 513 nodes read (rule R177). -/
theorem fetchTree_full {s : State} (ha : s.inp.stall = none) (hu : s.inp.unread ≠ []) (hn : s.tree.nnodes.toNat = 513) :
    fetchTree s = .bad .treeTooLarge 513 (s.inp.advance 1) := by
  obtain ⟨b, rest, hbits⟩ := List.exists_cons_of_ne_nil hu
  rw [fetchTree, ask_answering ha, readBits_one hbits]
  exact if_pos hn

/-- The marker of an internal node (rule R97). -/
theorem fetchTree_internal {s : State} {rest : List Bool} (ha : s.inp.stall = none)
    (hu : s.inp.unread = false :: rest) (hn : s.tree.nnodes.toNat ≠ 513) : fetchTree s = .token .internal := by
  rw [fetchTree, ask_answering ha, readBits_one hu]
  exact (if_neg hn).trans (if_pos rfl)

/-- After a leaf marker the reader asks for nine bits (rules R97, R98). -/
theorem fetchTree_leafMarker {s : State} {rest : List Bool} (ha : s.inp.stall = none)
    (hu : s.inp.unread = true :: rest) (hn : s.tree.nnodes.toNat ≠ 513) :
    fetchTree s =
      match (s.inp.advance 1).readBits 9 with
      | (none, inp) => .bad .prematureEndOfStream 1 inp
      | (some v, inp) => if 256 < v.toNat then .bad .badLeafValue (v.zeroExtend 32) inp else .token (.leaf v) := by
  rw [fetchTree, ask_answering ha, readBits_one hu]
  dsimp only
  rw [if_neg hn, if_neg (by decide), ask_answering (by exact ha)]
  rcases (s.inp.advance 1).readBits 9 with ⟨_ | v, inp⟩ <;> rfl

/-- The unread bits after a marker. -/
theorem unread_after_marker {i : InStream} {b : Bool} {rest : List Bool} (hu : i.unread = b :: rest) :
    (i.advance 1).unread = rest :=
  unread_of_append (bs := [b]) rfl hu

/-- Fewer than nine bits after a leaf marker (rule R176). -/
theorem fetchTree_valueCut {s : State} {rest : List Bool} (ha : s.inp.stall = none)
    (hu : s.inp.unread = true :: rest) (hn : s.tree.nnodes.toNat ≠ 513) (hl : rest.length < 9) :
    fetchTree s = .bad .prematureEndOfStream 1 (s.inp.advance 1).atEnd := by
  rw [fetchTree_leafMarker ha hu hn, readBits_short (by rw [unread_after_marker hu]; exact hl)]

/-- Nine bits after a leaf marker are a leaf's value, reserved above 256 (rules R98, R176). -/
theorem fetchTree_value {s : State} {v : Sym} {rest : List Bool} (ha : s.inp.stall = none)
    (hu : s.inp.unread = true :: (bitsOf 9 v.toNat ++ rest)) (hn : s.tree.nnodes.toNat ≠ 513) :
    fetchTree s =
      if 256 < v.toNat then .bad .badLeafValue (v.zeroExtend 32) ((s.inp.advance 1).advance 9)
      else .token (.leaf v) := by
  rw [fetchTree_leafMarker ha hu hn, readBits_field (by decide) (unread_after_marker hu)]

/-! ## The reader's step -/

/-- An error found in place of a token ends the step (rule R241). -/
theorem step_of_bad {s : State} {e : ErrCode} {info : Word} {inp : InStream} (hs : s.trav.stage ≠ .off)
    (ha : s.inp.stall = none) (hf : fetchToken s = some (.bad e info inp)) :
    step s = .next (raiseExec e info { s with inp := inp }) := by
  rw [step_reader hs ha, readerTurn, hf]

/-- A token found is executed (log 3). -/
theorem step_of_token {s : State} {i : Instr} (hs : s.trav.stage ≠ .off) (ha : s.inp.stall = none)
    (hf : fetchToken s = some (.token i)) : step s = exec i s := by
  rw [step_reader hs ha, readerTurn, hf]

/-- Settles O7: the reader finds the token that stands at the cursor. -/
theorem stepRunsTheTokenAtTheCursor : Obligations.StepRunsTheTokenAtTheCursor := by
  unfold Obligations.StepRunsTheTokenAtTheCursor
  rintro s i rest ha hu (⟨hs, rfl⟩ | ⟨hs, hn, rfl | ⟨v, rfl, hv⟩⟩)
  · refine step_of_token (by simp [hs]) ha ?_
    rw [fetchToken_of_magic hs, fetchMagic_field ha hu, if_pos rfl]
  · refine step_of_token (by simp [hs]) ha ?_
    rw [fetchToken_of_tree hs, fetchTree_internal ha hu hn]
  · refine step_of_token (by simp [hs]) ha ?_
    rw [fetchToken_of_tree hs, fetchTree_value ha hu hn, if_neg (by omega)]

/-- Settles O32: the four errors at a node, each where the reader looks for it; how far the cursor had come does not
outlive the error. -/
theorem headerErrorsInOrder : Obligations.HeaderErrorsInOrder := by
  unfold Obligations.HeaderErrorsInOrder
  intro s hs ha
  have hstage : s.trav.stage ≠ .off := by simp [hs]
  refine ⟨fun hu => ?marker, fun hu hn => ?full, fun bs hu hn => ⟨fun hl => ?value, fun v rest hbs hv => ?reserved⟩⟩
  case marker =>
    rw [step_of_bad hstage ha ((fetchToken_of_tree hs).trans (congrArg some (fetchTree_end ha hu)))]
    rfl
  case full =>
    rw [step_of_bad hstage ha ((fetchToken_of_tree hs).trans (congrArg some (fetchTree_full ha hu hn)))]
    rfl
  case value =>
    rw [step_of_bad hstage ha ((fetchToken_of_tree hs).trans (congrArg some (fetchTree_valueCut ha hu hn hl)))]
    rfl
  case reserved =>
    rw [hbs] at hu
    have hf := fetchTree_value ha hu hn
    rw [if_pos hv] at hf
    rw [step_of_bad hstage ha ((fetchToken_of_tree hs).trans (congrArg some hf))]
    rfl

/-! ## The tokens' arms -/

theorem exec_magic_of_magic {s : State} (h : s.trav.stage = .magic) : exec .magic s = settleToken (magicToken s) :=
  if_pos h

theorem exec_internal_of_tree {s : State} (h : s.trav.stage = .tree) :
    exec .internal s = settleToken (internalToken s) := if_pos h

theorem exec_leaf_of_tree {s : State} (v : Sym) (h : s.trav.stage = .tree) :
    exec (.leaf v) s = settleToken (leafToken v s) := if_pos h

/-- An INTERNAL token with room for its node (rule R170). -/
theorem internalToken_of_room {s : State} (hn : s.tree.nnodes.toNat ≠ 513) :
    internalToken s = .ok { s with
      inp := s.inp.advance 1, tree := { s.tree with nnodes := s.tree.nnodes + 1 },
      trav := { s.trav with stack := ⟨s.tree.nnodes, none⟩ :: s.trav.stack } } := if_neg hn

/-- An INTERNAL token as a 514th node (rule R177). -/
theorem internalToken_of_full {s : State} (hn : s.tree.nnodes.toNat = 513) :
    internalToken s = .err .treeTooLarge 513 { s with inp := s.inp.advance 1 } := if_pos hn

/-- A LEAF token as a 514th node (rule R177). -/
theorem leafToken_of_full {s : State} (v : Sym) (hn : s.tree.nnodes.toNat = 513) :
    leafToken v s = .err .treeTooLarge 513 { s with inp := s.inp.advance 1 } := if_pos hn

/-- A LEAF token with a reserved value (rule R176). -/
theorem leafToken_of_reserved {s : State} {v : Sym} (hn : s.tree.nnodes.toNat ≠ 513) (hv : 256 < v.toNat) :
    leafToken v s = .err .badLeafValue (v.zeroExtend 32) { s with inp := s.inp.advance 10 } :=
  (if_neg hn).trans (if_pos hv)

/-- The reader inside a header is not off: the token leaves RDHDR open. -/
theorem settleToken_of_open {s : State} (h : s.trav.stage ≠ .off) : settleToken (.ok s) = .next s := by
  rw [settleToken, if_neg h]

/-- The token that ends the tree field ends RDHDR (rule R112). -/
theorem settleToken_of_off {s : State} (h : s.trav.stage = .off) :
    settleToken (.ok s) = .next (complete (.rdhdr .treeHeader) s) := by
  rw [settleToken, if_pos h]

/-- Settles O33: the two tokens' arms, in the tree field with and without room for a node. -/
theorem magicAndInternalTokensAdvanceTheReader : Obligations.MagicAndInternalTokensAdvanceTheReader := by
  unfold Obligations.MagicAndInternalTokensAdvanceTheReader
  refine fun s => ⟨fun hs => exec_magic_of_magic hs, fun hs => if_neg hs, fun hs hn => ?room, fun hs hn => ?full,
    fun hs => if_neg hs⟩
  case room =>
    rw [exec_internal_of_tree hs, internalToken_of_room hn]
    exact settleToken_of_open (by simp [hs])
  case full =>
    rw [exec_internal_of_tree hs, internalToken_of_full hn]
    rfl

/-- A LEAF token that ends the tree field completes RDHDR, any other leaves the reader in it (rules R112, R170). -/
theorem settleToken_afterSubtree (s : State) (i : NodeIx) (inp : InStream) (t : Tree) :
    ((closeSubtree i t s.trav.stack).2.2 = true →
      settleToken (.ok (afterSubtree s i inp t)) = .next { s with
        inp := inp, tree := (closeSubtree i t s.trav.stack).2.1, busy := false, done := true, phase := .hdrrd,
        trav := Transient.empty }) ∧
    ((closeSubtree i t s.trav.stack).2.2 = false →
      settleToken (.ok (afterSubtree s i inp t)) = .next { s with
        inp := inp, tree := (closeSubtree i t s.trav.stack).2.1,
        trav := { s.trav with stack := (closeSubtree i t s.trav.stack).1, stage := .tree } }) := by
  refine ⟨fun hfin => ?_, fun hopen => ?_⟩
  · rw [settleToken_of_off (by simp [afterSubtree, hfin])]
    rfl
  · rw [settleToken_of_open (by simp [afterSubtree, hopen])]
    simp [afterSubtree, hopen]

/-- Settles O34: the token's arm, whose leaf is closed off by `closeSubtree`, clause by clause. -/
theorem leafTokenClosesSubtrees : Obligations.LeafTokenClosesSubtrees := by
  unfold Obligations.LeafTokenClosesSubtrees
  refine fun v s => ⟨?stored, fun i p l t fs => ⟨rfl, rfl, rfl⟩, fun hs hn hv => ?reserved, fun hs hn => ?full,
    fun hs => if_neg hs⟩
  case stored =>
    rintro hs hn hv t rfl
    rw [exec_leaf_of_tree v hs, leafToken_eq hn hv]
    obtain ⟨hfin, hopen⟩ := settleToken_afterSubtree s s.tree.nnodes (s.inp.advance 10) (addLeafNode v s.tree)
    rw [← hs] at hopen
    exact ⟨hfin, hopen⟩
  case reserved =>
    rw [exec_leaf_of_tree v hs, leafToken_of_reserved hn hv]
    rfl
  case full =>
    rw [exec_leaf_of_tree v hs, leafToken_of_full v hn]
    rfl

/-! ## RDHDR and the recursive reader -/

/-- An error of the recursive reader is RDHDR's (rule R170). -/
theorem rdhdrBody_of_err {s : State} {e : ErrCode} {info : Word} {inp : InStream} (ha : s.inp.stall = none)
    (h : readHeader s.inp s.tree = .err e info inp) :
    ∃ tree trav, rdhdrBody s = .err e info { s with inp := inp, tree := tree, trav := trav } := by
  have hbody := rdhdrBody_readHeader s ha
  rwa [h] at hbody

/-- The tree of the recursive reader is RDHDR's (rule R170). -/
theorem rdhdrBody_of_node {s : State} {i : NodeIx} {inp : InStream} {t : Tree} (ha : s.inp.stall = none)
    (h : readHeader s.inp s.tree = .node i inp t) :
    rdhdrBody s = .ok { s with inp := inp, tree := t, trav := { s.trav with stage := .off, stack := [] } } := by
  have hbody := rdhdrBody_readHeader s ha
  rwa [h] at hbody

/-- RDHDR where the recursive reader reads a tree (rules R112, R180). -/
theorem exec_rdhdr_of_node {s : State} {i : NodeIx} {inp : InStream} {t : Tree} (hr : Ready .idle s)
    (h : readHeader s.inp s.tree = .node i inp t) :
    exec (.rdhdr .treeHeader) s = .next { s with
      inp := inp, tree := t, phase := .hdrrd, done := true, trav := Transient.empty } := by
  have ⟨hbusy, _, _, hsource, _⟩ := hr
  rw [exec_completes (i := .rdhdr .treeHeader) hr (by decide) (by decide) (by decide) (by decide) (by decide)
    (rdhdrBody_of_node (s := accept s) hsource h)]
  simp only [complete, accept, nextPhase, ← hbusy]

/-- RDHDR where the recursive reader raises (rules R241, R242). -/
theorem exec_rdhdr_of_err {s : State} {e : ErrCode} {info : Word} {inp : InStream} (hr : Ready .idle s)
    (h : readHeader s.inp s.tree = .err e info inp) :
    exec (.rdhdr .treeHeader) s = .next (raiseExec e info { s with inp := inp }) := by
  have ⟨_, _, _, hsource, _⟩ := hr
  obtain ⟨tree, trav, hbody⟩ := rdhdrBody_of_err (s := accept s) hsource h
  rw [exec_raises (i := .rdhdr .treeHeader) hr (by decide) (by decide) (by decide) (by decide) (by decide) hbody]
  rfl

/-- Settles O29: RDHDR's body is the recursive reader's result, and completion or the raise drops the stack. -/
theorem rdhdrIsTheRecursiveReader : Obligations.RdhdrIsTheRecursiveReader := by
  unfold Obligations.RdhdrIsTheRecursiveReader
  intro s hr
  cases h : readHeader s.inp s.tree with
  | node i inp t => exact exec_rdhdr_of_node hr h
  | err e info inp => exact exec_rdhdr_of_err hr h

/-- A session before its first data command has read nothing (rule R45). -/
theorem AtStart.unread {s : State} (h : AtStart s) : s.inp.unread = s.inp.bits := by
  rw [InStream.unread, h.ipos, List.drop_zero]

/-- Settles O30: the recursive reader rebuilds a serialized tree, and the cursor stands after its 31 + 11 * NLEAF bits. -/
theorem rdhdrReadsBackTheTree : Obligations.RdhdrReadsBackTheTree := by
  unfold Obligations.RdhdrReadsBackTheTree
  intro s sh rest hi hr hb hs hv
  have hstart := hi.atStart hr
  rw [List.append_assoc] at hb
  obtain ⟨t, hread, ht, hindex, horder, hweights⟩ :=
    readHeader_of_bits (hstart.unread.trans hb) hs hv hstart.tree
  have hcursor : s.inp.advance (32 + sh.bits.length) = { s.inp with ipos := 31 + 11 * sh.leafCount } := by
    have hlen := sh.length_bits
    have hipos : s.inp.ipos + (32 + sh.bits.length) = 31 + 11 * sh.leafCount := by rw [hstart.ipos]; omega
    rw [InStream.advance, hipos]
  refine ⟨t, ?_, ht, ?_, horder, hweights⟩
  · rw [exec_rdhdr_of_node hr hread, hcursor, ← hi.flags.transient]
  · rw [← ht.rootValid, ← hindex]

/-! ## A wrong magic field -/

/-- A first field that is not MAGIC_TREE (rule R172). -/
theorem readHeader_of_wrongMagic {inp : InStream} {m : Word} {rest : List Bool} (t : Tree)
    (hu : inp.unread = bitsOf 32 m.toNat ++ rest) (hm : m ≠ Config.magicTree) :
    readHeader inp t = .err .formatError m (inp.advance 32) := by
  rw [readHeader, readBits_field (by decide) hu]
  exact if_pos hm

/-- An input too short for the magic field (rule R173). -/
theorem readHeader_of_short {inp : InStream} (t : Tree) (hl : inp.unread.length < 32) :
    readHeader inp t = .err .formatError 0xFFFFFFFF inp.atEnd := by
  rw [readHeader, readBits_short hl]

/-- An error of the header reader ends RDHDR and DECOMPRESS alike (rule R207). -/
theorem exec_of_readHeader_err {s : State} {i : Instr} {e : ErrCode} {info : Word} {inp : InStream}
    (hr : Ready .idle s) (hi : i = .rdhdr .treeHeader ∨ i = .decompress .treeHeader)
    (h : readHeader s.inp s.tree = .err e info inp) :
    exec i s = .next (raiseExec e info { s with inp := inp }) := by
  rcases hi with rfl | rfl
  · exact exec_rdhdr_of_err hr h
  · have ⟨_, _, _, hsource, _⟩ := hr
    obtain ⟨tree, trav, hread⟩ := rdhdrBody_of_err (s := accept s) hsource h
    have hbody : decompressBody (accept s) =
        .err e info { accept s with inp := inp, tree := tree, trav := trav } := by
      rw [decompressBody, hread, andThen_of_err]
    rw [exec_raises (i := .decompress .treeHeader) hr (by decide) (by decide) (by decide) (by decide) (by decide) hbody]
    rfl

/-- Settles O31: the recursive reader raises at its first field. -/
theorem wrongMagicIsAFormatError : Obligations.WrongMagicIsAFormatError := by
  unfold Obligations.WrongMagicIsAFormatError
  intro s i hi hr hcmd
  have hstart := hi.atStart hr
  refine ⟨fun m rest hb hm => ?wrong, fun hl => ?short⟩
  case wrong =>
    rw [exec_of_readHeader_err hr hcmd (readHeader_of_wrongMagic s.tree (hstart.unread.trans hb) hm)]
    rfl
  case short =>
    have hunread : s.inp.unread.length < 32 := by rw [length_unread]; omega
    rw [exec_of_readHeader_err hr hcmd (readHeader_of_short s.tree hunread)]
    rfl

/-! ## RDHDR token by token -/

/-- The reader finds a token only where that token has its effect (rule R170, log 3). -/
theorem exec_of_fetchToken {s : State} {i : Instr} (hf : fetchToken s = some (.token i)) :
    exec i s = settleToken (tokenBody i s) := by
  cases hs : s.trav.stage with
  | off => simp [fetchToken, hs] at hf
  | magic =>
    rw [fetchToken_of_magic hs, Option.some.injEq, fetchMagic] at hf
    split at hf
    · cases hf
    · cases hf
    · split at hf
      · cases hf
        exact exec_magic_of_magic hs
      · cases hf
  | tree =>
    rw [fetchToken_of_tree hs, Option.some.injEq, fetchTree] at hf
    split at hf
    · cases hf
    · cases hf
    · split_ifs at hf
      · cases hf
        exact exec_internal_of_tree hs
      · split at hf
        · cases hf
        · cases hf
        · split_ifs at hf
          cases hf
          exact exec_leaf_of_tree _ hs

/-- The reader finds something unless it is off. -/
theorem fetchToken_eq_none {s : State} (h : fetchToken s = none) : s.trav.stage = .off := by
  cases hs : s.trav.stage with
  | off => rfl
  | magic => simp [fetchToken, hs] at h
  | tree => simp [fetchToken, hs] at h

/-- One step inside a header is one token of RDHDR's loop (log 3). -/
theorem step_eq_settleToken {s : State} (hs : s.trav.stage ≠ .off) (ha : s.inp.stall = none) :
    step s = settleToken (readToken s) := by
  rw [step_reader hs ha, readerTurn, readToken]
  cases hf : fetchToken s with
  | none => exact absurd (fetchToken_eq_none hf) hs
  | some x =>
    cases x with
    | token i => exact exec_of_fetchToken hf
    | bad e info inp => rfl
    | wait => rfl

theorem run_succ {s t : State} (h : step s = .next t) (n : Nat) :
    Host.Core.run core (n + 1) s = Host.Core.run core n t := by
  have hcore : core.step s = .next t := h
  simp only [Host.Core.run, hcore]

theorem run_one {s t : State} (h : step s = .next t) : Host.Core.run core 1 s = .next t := run_succ h 0

/-- Stepping from inside a header ends as RDHDR's loop ends, unless the loop runs out of its tokens. `a` is the state
at acceptance, which only a wait looks at. -/
theorem exists_run_eq_settle (a : State) : ∀ (fuel : Nat) (s : State), s.trav.stage ≠ .off → Answering s →
    (∀ f, readTokens fuel s ≠ .fault f) →
    ∃ n, Host.Core.run core n s = settle (.rdhdr .treeHeader) a (readTokens fuel s)
  | 0, s, hs, _, hf => absurd (by rw [readTokens, if_neg hs]) (hf .traversalTooDeep)
  | fuel + 1, s, hs, ha, hf => by
    have hstep := step_eq_settleToken hs ha.1
    have hends := readToken_ends ha.1
    have hkeeps := readToken_keeps s
    rw [readTokens, if_neg hs] at hf ⊢
    cases hread : readToken s with
    | wait u => rw [hread] at hends; exact hends.elim
    | fault f => rw [hread, andThen_of_fault] at hf; exact absurd rfl (hf f)
    | err e info u =>
      rw [hread] at hstep
      exact ⟨1, run_one hstep⟩
    | ok u =>
      rw [hread] at hstep hkeeps hf
      rw [andThen_of_ok] at hf ⊢
      by_cases hu : u.trav.stage = .off
      · rw [readTokens_off fuel hu]
        rw [settleToken_of_off hu] at hstep
        exact ⟨1, run_one hstep⟩
      · rw [settleToken_of_open hu] at hstep
        obtain ⟨n, hn⟩ := exists_run_eq_settle a fuel u hu ⟨hkeeps.source.trans ha.1, hkeeps.sink.trans ha.2⟩ hf
        exact ⟨n + 1, (run_succ hstep n).trans hn⟩

/-- The header reader never runs out of its tokens (rule R177). -/
theorem rdhdrBody_not_fault {s : State} (ha : s.inp.stall = none) (f : Fault) : rdhdrBody s ≠ .fault f := by
  cases h : readHeader s.inp s.tree with
  | node i inp t => rw [rdhdrBody_of_node ha h]; nofun
  | err e info inp =>
    obtain ⟨tree, trav, hbody⟩ := rdhdrBody_of_err ha h
    rw [hbody]
    nofun

/-- Settles O8: the accepted command stands where its header begins, and each step from there is one token of its
loop. -/
theorem headerTokensAddUpToRdhdr : Obligations.HeaderTokensAddUpToRdhdr := by
  unfold Obligations.HeaderTokensAddUpToRdhdr
  intro s hr
  have ⟨hbusy, herr, hphase, hans⟩ := hr
  rw [exec_issue (i := .rdhdr .treeHeader) (by decide) (by decide) (by decide),
    issue_legal _ hbusy herr (by rw [hphase]; decide) (by decide)]
  exact exists_run_eq_settle (accept s) Config.headerTokens _ nofun hans
    (rdhdrBody_not_fault (s := accept s) hans.1)

end Sys2Proof.Machine

/-! PROOFS. Counting and building (rules R125 to R148): a histogram sums to its input, the leaves of the built tree carry
the counts, and the weights above them are exact sums. -/

namespace Sys2Proof.Machine

/-! ## Sums over the bytes of an input -/

/-- Every byte value, in ascending order. -/
def allBytes : List Byte := (List.range 256).map (BitVec.ofNat 8)

theorem toNat_ofNat_byte {k : Nat} (h : k < 256) : (BitVec.ofNat 8 k).toNat = k := by
  rw [BitVec.toNat_ofNat, Nat.mod_eq_of_lt h]

theorem nodup_allBytes : allBytes.Nodup := by
  refine List.nodup_range.map_on fun a ha b hb hab => ?_
  have hnat := congrArg BitVec.toNat hab
  rwa [toNat_ofNat_byte (List.mem_range.mp ha), toNat_ofNat_byte (List.mem_range.mp hb)] at hnat

theorem mem_allBytes (b : Byte) : b ∈ allBytes :=
  List.mem_map.mpr ⟨b.toNat, List.mem_range.mpr b.isLt, by simp⟩

/-- Of all byte values `r` is one. -/
theorem sum_allBytes_single (r : Byte) (f : Byte → Nat) :
    (allBytes.map fun b => if b = r then f b else 0).sum = f r := by
  have hfilter : allBytes.filter (fun b => decide (b = r)) = [r] := by
    rw [List.filter_eq, List.count_eq_one_of_mem nodup_allBytes (mem_allBytes r)]
    rfl
  rw [List.sum_map_ite, hfilter]
  simp

/-- A sum over an input is the sum over its byte values, each as often as it occurs. -/
theorem sum_allBytes_count (bytes : List Byte) (f : Byte → Nat) :
    (allBytes.map fun b => bytes.count b * f b).sum = (bytes.map f).sum := by
  induction bytes with
  | nil => simp
  | cons r bytes ih =>
    have hsplit : ∀ b, (r :: bytes).count b * f b = bytes.count b * f b + if b = r then f b else 0 := by
      intro b
      rw [List.count_cons, Nat.add_mul, BEq.comm, beq_eq_decide]
      by_cases h : b = r <;> simp [h]
    simp only [hsplit, List.sum_map_add, ih, sum_allBytes_single, List.map_cons, List.sum_cons, Nat.add_comm]

/-- A table that holds an input's counts, read in the order of the table. -/
theorem sum_freq_mul {freq : Vector Weight 256} {bytes : List Byte}
    (h : ∀ b : Byte, (freqAt freq b.toNat).toNat = bytes.count b) (f : Byte → Nat) :
    ((List.range 256).map fun k => (freqAt freq k).toNat * f (BitVec.ofNat 8 k)).sum = (bytes.map f).sum := by
  rw [← sum_allBytes_count, allBytes, List.map_map]
  refine congrArg List.sum (List.map_congr_left fun k hk => ?_)
  have hcount := h (BitVec.ofNat 8 k)
  rw [toNat_ofNat_byte (List.mem_range.mp hk)] at hcount
  rw [hcount]
  rfl

/-- The counts of an input sum to its length (rule R125). -/
theorem sumFreq_of_counts {freq : Vector Weight 256} {bytes : List Byte}
    (h : ∀ b : Byte, (freqAt freq b.toNat).toNat = bytes.count b) : sumFreq freq 256 = bytes.length := by
  simpa [sumFreq] using sum_freq_mul h fun _ => 1

/-- The symbols with a count are the different bytes of the input (rule R139). -/
theorem usedSymbols_of_counts {freq : Vector Weight 256} {bytes : List Byte}
    (h : ∀ b : Byte, (freqAt freq b.toNat).toNat = bytes.count b) : usedSymbols freq 256 = bytes.dedup.length := by
  have hperm : (allBytes.filter fun b => freqAt freq b.toNat != 0).Perm bytes.dedup := by
    refine (List.perm_ext_iff_of_nodup (nodup_allBytes.filter _) bytes.nodup_dedup).mpr fun b => ?_
    have hzero : freqAt freq b.toNat = 0 ↔ bytes.count b = 0 := by
      rw [← h b]
      exact ⟨fun hz => by rw [hz]; rfl, fun hz => BitVec.eq_of_toNat_eq hz⟩
    rw [List.mem_filter, bne_iff_ne, Ne, hzero, List.count_eq_zero, not_not, List.mem_dedup]
    exact and_iff_right (mem_allBytes b)
  rw [← hperm.length_eq, ← List.countP_eq_length_filter, allBytes, List.countP_map, usedSymbols]
  refine List.countP_congr fun k hk => ?_
  rw [Function.comp_apply, toNat_ofNat_byte (List.mem_range.mp hk)]

/-! ## COUNT -/

/-- Settles O21: COUNT's body on an input that fits, whose counts sum to its length; on one too long it raises, and
neither the counts nor the cursor outlive the error. -/
theorem countMakesTheHistogram : Obligations.CountMakesTheHistogram := by
  unfold Obligations.CountMakesTheHistogram
  intro s hi hr
  have ⟨hbusy, _, _, hsource, _⟩ := hr
  obtain ⟨hfits, hlong⟩ := countBody_spec (accept s) (hi.atStart hr).ipos hsource
  refine ⟨fun hl => ?fits, fun hl => ?long⟩
  case fits =>
    obtain ⟨freq, inlen, hbody, hcounts, hlen⟩ := hfits hl
    refine ⟨freq, inlen, ?_, hcounts, hlen, sumFreq_of_counts hcounts⟩
    rw [exec_completes (i := .count) hr (by decide) (by decide) (by decide) (by decide) (by decide) hbody]
    simp only [complete, accept, nextPhase, ← hbusy, ← hi.flags.transient]
  case long =>
    obtain ⟨freq, inlen, inp, hbody, hbytes, hstall, heod, hrewound⟩ := hlong hl
    rw [exec_raises (i := .count) hr (by decide) (by decide) (by decide) (by decide) (by decide) hbody]
    simp only [raiseExec, raise, leaveUnspecified, hbytes, hstall, heod, hrewound, accept_inp]
    rfl

/-! ## BUILD's arm -/

/-- In phase COUNTED the tables are those of the input, and no tree has been built (rule R129). -/
theorem RunInv.counted {s : State} (hi : RunInv s) (hr : Ready .counted s) : Counted s ∧ s.tree = Tree.empty := by
  have hholds := hi.holds hr
  obtain ⟨-, -, hphase, -⟩ := hr
  rw [PhaseHolds, hphase] at hholds
  exact ⟨hholds.1, hholds.2.1⟩

/-- BUILD in a run (rule R141). -/
theorem exec_build_of_counted {s : State} (hi : RunInv s) (hr : Ready .counted s) :
    ∃ t q, exec .build s = .next { s with tree := t, pq := q, phase := .built, done := true } ∧
      BuildOk s.freq ⟨t, q⟩ := by
  have hbusy : s.busy = false := hr.1
  obtain ⟨t, q, hbody, hbuild⟩ := buildBody_spec (accept s) (hi.counted hr).2
  refine ⟨t, q, ?_, hbuild⟩
  rw [exec_completes (i := .build) hr (by decide) (by decide) (by decide) (by decide) (by decide) hbody]
  simp only [complete, accept, nextPhase, ← hbusy, ← hi.flags.transient]

/-- An index past the node memory reads as an invalid entry (log 17). -/
theorem at_of_le {t : Tree} {i : NodeIx} (h : 513 ≤ i.toNat) : t.at i = Node.invalid := by
  simp [Tree.at, Vector.getD, Nat.not_lt.mpr h]

/-- The entries from NNODES on are unused (rule R24). -/
theorem TreeOk.at_eq_invalid {t : Tree} {sh : Shape} (h : TreeOk t sh) {i : NodeIx} (hi : t.nnodes.toNat ≤ i.toNat) :
    t.at i = Node.invalid := by
  by_cases hcap : i.toNat < 513
  · simpa using h.unused i.toNat hi hcap
  · exact at_of_le (by omega)

/-- The root of a built tree is its last node (rule R146). -/
theorem BuiltOk.root_eq {t : Tree} {sh : Shape} (h : BuiltOk t sh) {n : Nat} (hn : t.nnodes.toNat = n + 1) :
    t.root = ⟨true, BitVec.ofNat 10 n⟩ := by
  have hlast := h.rootLast
  have hindex : t.root.index = BitVec.ofNat 10 n := by
    rw [show n = t.root.index.toNat by omega, BitVec.ofNat_toNat, BitVec.setWidth_eq]
  rw [← hindex, ← h.rootValid]

/-- Settles O22: BUILD's tables hold the leaves in the order of the symbols, the sentinel's and the internal nodes, and
there are as many symbols as different bytes. -/
theorem buildPlacesEveryNode : Obligations.BuildPlacesEveryNode := by
  unfold Obligations.BuildPlacesEveryNode
  intro s hi hr
  obtain ⟨hcounted, -⟩ := hi.counted hr
  obtain ⟨t, q, hexec, hb⟩ := exec_build_of_counted hi hr
  obtain ⟨sh, hsh, hperm⟩ := hb.tree
  have hnodes : t.nnodes.toNat = 2 * usedSymbols s.freq 256 + 1 := hb.nnodes
  refine ⟨t, q, _, hexec, usedSymbols_of_counts hcounted.each ▸ rfl, rfl, hb.nleaf, hnodes, hsh.root_eq hnodes,
    hb.queue, hb.placed, hb.sentinel, fun i hlow hhigh => ⟨?valid, hb.high i hlow (hhigh.trans_eq hnodes.symm)⟩, fun i hout => ?unused,
    sh, hsh, hperm⟩
  case valid => simpa using hsh.used i.toNat (hhigh.trans_eq hnodes.symm)
  case unused => exact hsh.at_eq_invalid (hnodes.trans_le hout)

/-- Settles O23: the merges are those BUILD's tables record. -/
theorem buildMergesTheTwoLightest : Obligations.BuildMergesTheTwoLightest := by
  unfold Obligations.BuildMergesTheTwoLightest
  intro s u hi hr hexec
  obtain ⟨t, q, hbuilt, hb⟩ := exec_build_of_counted hi hr
  rw [hbuilt] at hexec
  cases hexec
  exact hb.merged

/-! ## Weights -/

/-- The weight of a symbol's leaf (rules R139, R140). -/
def leafWeight (freq : Vector Weight 256) (v : Sym) : Nat :=
  if v = Config.eos then 1 else (freqAt freq v.toNat).toNat

theorem leafWeight_eos (freq : Vector Weight 256) : leafWeight freq Config.eos = 1 := if_pos rfl

theorem leafWeight_ofNat (freq : Vector Weight 256) {k : Nat} (h : k < 256) :
    leafWeight freq (BitVec.ofNat 9 k) = (freqAt freq k).toNat := by
  have hk : (BitVec.ofNat 9 k).toNat = k := by rw [BitVec.toNat_ofNat, Nat.mod_eq_of_lt (by omega)]
  rw [leafWeight, if_neg (ne_eos_of_lt (by omega)), hk]

/-- The leaves of the counted symbols weigh what was counted. -/
theorem sum_leafWeight_usedValues (freq : Vector Weight 256) {n : Nat} (h : n ≤ 256) :
    ((usedValues freq n).map (leafWeight freq)).sum = sumFreq freq n := by
  induction n with
  | zero => rfl
  | succ n ih =>
    have hsucc : sumFreq freq (n + 1) = sumFreq freq n + (freqAt freq n).toNat := by
      simp [sumFreq, List.range_succ]
    rw [usedValues_succ, List.map_append, List.sum_append, ih (by omega), hsucc]
    split
    next hzero => simp [hzero]
    next => simp [leafWeight_ofNat freq (Nat.lt_of_succ_le h)]

/-- Every index below the number of used symbols is the place of one of them (rule R139). -/
theorem exists_usedSymbols_eq (freq : Vector Weight 256) {n k : Nat} (h : k < usedSymbols freq n) :
    ∃ s, s < n ∧ freqAt freq s ≠ 0 ∧ usedSymbols freq s = k := by
  induction n with
  | zero => simp [usedSymbols] at h
  | succ n ih =>
    by_cases hk : k < usedSymbols freq n
    · obtain ⟨s, hs, hused, hplace⟩ := ih hk
      exact ⟨s, by omega, hused, hplace⟩
    · rw [usedSymbols_succ] at h
      by_cases hzero : freqAt freq n = 0
      · rw [if_pos hzero] at h
        omega
      · rw [if_neg hzero] at h
        exact ⟨n, by omega, hzero, by omega⟩

/-- Every leaf BUILD has made carries the weight of its symbol (rules R139, R140). -/
theorem BuildOk.leaf_weight {freq : Vector Weight 256} {b : Builder} (h : BuildOk freq b) {i : NodeIx}
    (hi : i.toNat < b.tree.nnodes.toNat) (hl : (b.tree.at i).leaf = true) :
    (b.tree.at i).weight.toNat = leafWeight freq (b.tree.at i).sym := by
  have hlow : i.toNat ≤ usedSymbols freq 256 := by
    by_contra hhigh
    rw [h.high i (by omega) hi] at hl
    cases hl
  have hix : i = BitVec.ofNat 10 i.toNat := (ofNat_toNat_ix i).symm
  rcases Nat.lt_or_eq_of_le hlow with hlt | heq
  · obtain ⟨s, hs, hused, hplace⟩ := exists_usedSymbols_eq freq hlt
    rw [hix, ← hplace, h.placed s hs hused]
    exact (leafWeight_ofNat freq hs).symm
  · rw [hix, heq, h.sentinel]
    rfl

/-- A subtree weighs as much as its leaves, as long as that fits in a weight (rule R145). -/
theorem BuildOk.weight_of_spells {freq : Vector Weight 256} {b : Builder} (h : BuildOk freq b) {sh : Shape} :
    ∀ {i : NodeIx}, i.toNat < b.tree.nnodes.toNat → spells b.tree i sh = true →
      (sh.values.map (leafWeight freq)).sum < 2 ^ 32 →
      (b.tree.at i).weight.toNat = (sh.values.map (leafWeight freq)).sum := by
  induction sh with
  | leaf v =>
    intro i hi hs _
    obtain ⟨hleaf, hsym, -⟩ := leaf_of_spells hs
    rw [h.leaf_weight hi hleaf, hsym]
    simp [Shape.values]
  | node l r hl hr =>
    intro i hi hs hfit
    obtain ⟨hleaf, -, hsl, hsr⟩ := internal_of_spells hs
    have hm := h.merged i hi hleaf
    have hleft := hm.left
    have hright := hm.right
    simp only [Shape.values, List.map_append, List.sum_append] at hfit ⊢
    rw [hm.weight, BitVec.toNat_add, hl (by omega) hsl (by omega), hr (by omega) hsr (by omega),
      Nat.mod_eq_of_lt hfit]

/-- The sum over a merged node's children does not wrap (rule R145). -/
theorem BuildOk.weight_internal {freq : Vector Weight 256} {b : Builder} (h : BuildOk freq b) {sh : Shape} {i : NodeIx}
    (hi : i.toNat < b.tree.nnodes.toNat) (hs : spells b.tree i sh = true) (hleaf : (b.tree.at i).leaf = false)
    (hfit : (sh.values.map (leafWeight freq)).sum < 2 ^ 32) :
    (b.tree.at i).weight.toNat =
      (b.tree.at (b.tree.at i).left).weight.toNat + (b.tree.at (b.tree.at i).right).weight.toNat := by
  cases sh with
  | leaf v =>
    rw [(leaf_of_spells hs).1] at hleaf
    cases hleaf
  | node l r =>
    obtain ⟨-, -, hsl, hsr⟩ := internal_of_spells hs
    have hm := h.merged i hi hleaf
    have hleft := hm.left
    have hright := hm.right
    rw [h.weight_of_spells hi hs hfit]
    simp only [Shape.values, List.map_append, List.sum_append] at hfit ⊢
    rw [h.weight_of_spells (by omega) hsl (by omega), h.weight_of_spells (by omega) hsr (by omega)]

/-- Every node of a tree spells a part of it. -/
theorem exists_spells_of_mem_indices {t : Tree} {sh : Shape} : ∀ {i j : NodeIx}, spells t i sh = true →
    j ∈ indices t i sh → ∃ part, spells t j part = true ∧ part.values.Sublist sh.values := by
  induction sh with
  | leaf v =>
    intro i j hs hj
    obtain rfl : j = i := by simpa [indices] using hj
    exact ⟨.leaf v, hs, .refl _⟩
  | node l r hl hr =>
    intro i j hs hj
    obtain ⟨-, -, hsl, hsr⟩ := internal_of_spells hs
    rw [indices, List.cons_append, List.mem_cons, List.mem_append] at hj
    rcases hj with rfl | hj | hj
    · exact ⟨.node l r, hs, .refl _⟩
    · obtain ⟨part, hpart, hsub⟩ := hl hsl hj
      exact ⟨part, hpart, hsub.trans (List.sublist_append_left _ _)⟩
    · obtain ⟨part, hpart, hsub⟩ := hr hsr hj
      exact ⟨part, hpart, hsub.trans (List.sublist_append_right _ _)⟩

/-- Every used entry of the node memory is a node of the tree: there are as many of either (rule R24). -/
theorem TreeOk.mem_indices {t : Tree} {sh : Shape} (h : TreeOk t sh) {i : NodeIx} (hi : i.toNat < t.nnodes.toNat) :
    i ∈ indices t t.root.index sh := by
  have hsubset : (indices t t.root.index sh).map BitVec.toNat ⊆ List.range t.nnodes.toNat := by
    intro k hk
    obtain ⟨j, hj, rfl⟩ := List.mem_map.mp hk
    have hvalid := valid_of_spells h.spelled j hj
    by_contra hout
    rw [h.at_eq_invalid (by simpa using hout)] at hvalid
    cases hvalid
  have hperm : ((indices t t.root.index sh).map BitVec.toNat).Perm (List.range t.nnodes.toNat) :=
    (h.once.map_on fun _ _ _ _ => BitVec.eq_of_toNat_eq).subperm hsubset |>.perm_of_length_le
      (by simp [h.nodes])
  obtain ⟨j, hj, heq⟩ := List.mem_map.mp (hperm.mem_iff.mpr (List.mem_range.mpr hi))
  rwa [BitVec.eq_of_toNat_eq heq] at hj

/-- Settles O24: the leaves of any part of the tree weigh at most the counted length and the sentinel together, which
fits in a weight, so that every sum above them is exact. -/
theorem weightsAreExactSums : Obligations.WeightsAreExactSums := by
  unfold Obligations.WeightsAreExactSums
  intro s u hi hr hexec
  obtain ⟨hcounted, -⟩ := hi.counted hr
  obtain ⟨t, q, hbuilt, hb⟩ := exec_build_of_counted hi hr
  rw [hbuilt] at hexec
  cases hexec
  obtain ⟨sh, hsh, hperm⟩ := hb.tree
  have htotal : (sh.values.map (leafWeight s.freq)).sum = s.inlen.toNat + 1 := by
    rw [(hperm.map _).sum_eq, List.map_append, List.sum_append, sum_leafWeight_usedValues s.freq (le_refl 256),
      sumFreq_of_counts hcounted.each, hcounted.total, List.map_singleton, List.sum_singleton, leafWeight_eos]
  have hbound : s.inlen.toNat ≤ 2 ^ 32 - 2 := hcounted.total ▸ hcounted.bound
  refine ⟨?root, fun i hi => ?node⟩
  case root =>
    rw [← htotal]
    exact hb.weight_of_spells (Nat.lt_of_succ_le hsh.rootLast.le) hsh.spelled (by omega)
  case node =>
    obtain ⟨part, hspells, hsub⟩ := exists_spells_of_mem_indices hsh.spelled (hsh.mem_indices hi)
    have hle : (part.values.map (leafWeight s.freq)).sum ≤ s.inlen.toNat + 1 :=
      htotal ▸ (hsub.map _).sum_le_sum fun _ _ => Nat.zero_le _
    refine ⟨?_, fun hleaf => hb.weight_internal hi hspells hleaf (by omega)⟩
    exact (hb.weight_of_spells hi hspells (by omega)).trans_le hle

end Sys2Proof.Machine

/-! PROOFS. Headers, bodies and whole operations (rules R95 to R101, R165 to R168, R185 to R192, R205 to R215). -/

namespace Sys2Proof.Machine

/-! ## WRHDR and ENCODE -/

/-- Settles O28: WRHDR's body on a tree in the memory writes the magic field and the tree's serialization, which has
11 bits for each leaf but one. -/
theorem wrhdrAppendsTheHeader : Obligations.WrhdrAppendsTheHeader := by
  unfold Obligations.WrhdrAppendsTheHeader
  intro s sh hr ht hcoh
  have ⟨hbusy, _, _, _, hsink⟩ := hr
  have hdepth := height_of_treeOk ht (nnodes_le_of_treeOk ht)
  have hbody := wrhdrBody_of_tree (s := accept s) ht.spelled hdepth
  rw [drain_answering (s := accept s) hsink] at hbody
  obtain ⟨hcoherent, hwritten⟩ := writeList_coherent hcoh (bitsOf 32 Config.magicTree.toNat ++ sh.bits)
  refine ⟨_, ?exec, writeList_stall _ _, hcoherent, ?cursor, hwritten.trans (List.append_assoc _ _ _).symm⟩
  case exec =>
    rw [exec_completes (i := .wrhdr .treeHeader) hr (by decide) (by decide) (by decide) (by decide) (by decide) hbody]
    simp only [complete, accept, nextPhase, ← hbusy]
  case cursor =>
    have hlen := sh.length_bits
    have hleaves := ht.leaves
    rw [writeList_opos, List.length_append, length_bitsOf]
    omega

/-- Settles O35: ENCODE's body writes the codes and the sentinel's to the packer and flushes it. -/
theorem encodeWritesTheBody : Obligations.EncodeWritesTheBody := by
  unfold Obligations.EncodeWritesTheBody
  intro s hr hcoh hvalid
  have ⟨hbusy, _, _, hsource, hsink⟩ := hr
  have hbody := encodeBody_done (accept s) hsource hvalid
  rw [drain_answering (s := accept s) hsink] at hbody
  obtain ⟨hcoherent, hwritten⟩ := writeList_coherent hcoh
    ((s.inp.bytes.flatMap fun r => codeBitList (codeOfByte s.code r)) ++ codeBitList (codeAt s.code Config.eos))
  obtain ⟨hflushed, haligned, hobuf, hbits⟩ := flush_coherent hcoherent
  refine ⟨_, ?exec, (flush_stall _).trans (writeList_stall _ _), hobuf, ?bytes, _, rfl, ?bits⟩
  case exec =>
    rw [exec_completes (i := .encode) hr (by decide) (by decide) (by decide) (by decide) (by decide) hbody]
    simp only [complete, accept, signalRewind, nextPhase, ← hbusy]
  case bytes =>
    have hout := hflushed.2
    omega
  case bits => rw [hbits, hwritten, writeList_opos]

/-- Settles O36: ENCODE's body stops at the first byte without a code, after the rewind, and the raise keeps nothing of
how far it had come. -/
theorem byteWithoutACodeRaisesNoCode : Obligations.ByteWithoutACodeRaisesNoCode := by
  unfold Obligations.ByteWithoutACodeRaisesNoCode
  intro s good rest r hr hb hgood hbad
  have ⟨_, _, _, hans⟩ := hr
  obtain ⟨ipos, outp, hbody, hsink⟩ := encodeBody_noCode (accept s) hans hb hgood hbad
  rw [exec_raises (i := .encode) hr (by decide) (by decide) (by decide) (by decide) (by decide) hbody]
  exact congrArg Host.Outcome.next (raiseExec_progress _ _ (s := { s with
    inp := { s.inp with eod := false, rewound := true },
    port := { s.port with signals := s.port.signals ++ [.inRewind] } }) hsink)

/-! ## A body and the progress flags -/

/-- Two states that differ at most in the sequencing: BUSY, DONE, PHASE and the transient state, all of which a
command's completion sets (rules R35, R112). -/
def SameWork (s t : State) : Prop :=
  ∃ busy done phase trav, t = { s with busy := busy, done := done, phase := phase, trav := trav }

theorem SameWork.refl (s : State) : SameWork s s := ⟨_, _, _, _, rfl⟩

theorem SameWork.trans {s t u : State} (h : SameWork s t) (h' : SameWork t u) : SameWork s u := by
  obtain ⟨b, d, p, v, rfl⟩ := h
  obtain ⟨b', d', p', v', rfl⟩ := h'
  exact ⟨b', d', p', v', rfl⟩

theorem SameWork.of_accept_complete (i : Instr) (s : State) : SameWork (accept (complete i s)) s := ⟨_, _, _, _, rfl⟩

/-- Completion leaves no trace of the sequencing before it. -/
theorem SameWork.complete_eq {s t : State} (h : SameWork s t) {i j : Instr} (hp : nextPhase j t.phase = nextPhase i s.phase) :
    complete j t = complete i s := by
  obtain ⟨b, d, p, v, rfl⟩ := h
  simp only [complete] at hp ⊢
  rw [hp]

/-- A body does not look at the sequencing: where it ends well, it ends well from every state that differs in that
alone, and the results differ in that alone. -/
def IgnoresSequencing (body : State → Run) : Prop :=
  ∀ s t u, SameWork s t → s.outp.stall = none → body s = .ok u → ∃ v, body t = .ok v ∧ SameWork u v

theorem buildBody_ignoresSequencing : IgnoresSequencing buildBody := by
  rintro s t u ⟨b, d, p, v, rfl⟩ - h
  simp only [buildBody] at h ⊢
  generalize buildTree s.freq s.tree = built at h ⊢
  cases h
  exact ⟨_, rfl, b, d, p, v, rfl⟩

theorem gencodeBody_ignoresSequencing : IgnoresSequencing gencodeBody := by
  rintro s t u ⟨b, d, p, v, rfl⟩ - h
  rw [gencodeBody] at h ⊢
  split at h
  next => cases h
  next w hw =>
    cases h
    simp only [hw]
    exact ⟨_, rfl, b, d, p, _, rfl⟩

theorem wrhdrBody_ignoresSequencing : IgnoresSequencing wrhdrBody := by
  rintro s t u ⟨b, d, p, v, rfl⟩ hsink h
  rw [wrhdrBody] at h ⊢
  split at h
  next => cases h
  next bs hbs =>
    rw [drain_answering hsink] at h
    cases h
    simp only [hbs]
    exact ⟨_, drain_answering hsink _, b, d, p, v, rfl⟩

theorem encodeBody_ignoresSequencing : IgnoresSequencing encodeBody := by
  rintro s t u ⟨b, d, p, v, rfl⟩ hsink h
  rw [encodeBody, drain_answering (by exact hsink)] at h ⊢
  split at h
  next inp outp hloop =>
    cases h
    simp only [hloop]
    exact ⟨_, rfl, b, d, p, v, rfl⟩
  next => cases h
  next => cases h

theorem decodeBody_ignoresSequencing : IgnoresSequencing decodeBody := by
  rintro s t u ⟨b, d, p, v, rfl⟩ hsink h
  rw [decodeBody] at h ⊢
  split_ifs at h with hroot
  rw [drain_answering (by exact hsink)] at h ⊢
  rw [if_neg hroot]
  split at h
  next cur inp outp hloop =>
    cases h
    simp only [hloop]
    exact ⟨_, rfl, b, d, p, _, rfl⟩
  next => cases h
  next => cases h

/-! ## Commands one by one -/

/-- A legal command whose step moves PHASE has completed (rule R112). -/
theorem exists_ok_of_phase_ne {i : Instr} {s t : State} (hb : s.busy = false) (hc : i.isCommand = true)
    (hn : i ≠ .nop) (hl : i ≠ .clear) (h : exec i s = .next t) (hp : t.phase ≠ s.phase) :
    ∃ u, bodyOf i (accept s) = .ok u ∧ t = complete i u := by
  cases exec_cases hc hn hl h with
  | dropped hbusy => rw [hb] at hbusy; cases hbusy
  | ignored _ _ ht => rw [ht] at hp; exact absurd rfl hp
  | outOfPhase _ _ _ ht => rw [ht] at hp; exact absurd rfl hp
  | countHeader _ _ _ _ ht => rw [ht] at hp; exact absurd rfl hp
  | waits _ _ _ _ _ _ _ ht => rw [ht] at hp; exact absurd rfl hp
  | completed _ _ _ u hu _ ht => exact ⟨u, hu, ht⟩
  | raised _ _ _ _ _ _ _ _ hk ht => rw [ht] at hp; exact absurd hk.phase hp

/-- A command whose body cannot raise and whose collaborators answer has completed. -/
theorem exists_ok_of_ready {i : Instr} {p : Phase} {s t : State} (hr : Ready p s) (hc : i.isCommand = true)
    (hn : i ≠ .nop) (hl : i ≠ .clear) (hlegal : p ∈ legalPhases i) (hm : i.headerMode ≠ some .countHeader)
    (herr : ∀ e info u, bodyOf i (accept s) ≠ .err e info u) (h : exec i s = .next t) :
    ∃ u, bodyOf i (accept s) = .ok u ∧ t = complete i u := by
  obtain ⟨hbusy, hnoerr, hphase, hans⟩ := hr
  have hends := bodyOf_ends i (s := accept s) hans
  rw [exec_issue hc hn hl, issue_legal _ hbusy hnoerr (by rwa [hphase]) hm] at h
  cases hbody : bodyOf i (accept s) with
  | ok u =>
    rw [hbody] at h
    cases h
    exact ⟨u, rfl, rfl⟩
  | err e info u => exact absurd hbody (herr e info u)
  | wait u => rw [hbody] at hends; exact hends.elim
  | fault f => rw [hbody] at h; cases h

theorem buildBody_not_err (s : State) (e : ErrCode) (info : Word) (u : State) : buildBody s ≠ .err e info u := nofun

theorem gencodeBody_not_err (s : State) (e : ErrCode) (info : Word) (u : State) : gencodeBody s ≠ .err e info u := by
  rw [gencodeBody]
  split <;> nofun

theorem wrhdrBody_not_err {s : State} (hsink : s.outp.stall = none) (e : ErrCode) (info : Word) (u : State) :
    wrhdrBody s ≠ .err e info u := by
  rw [wrhdrBody]
  split
  · nofun
  · rw [drain_answering hsink]
    nofun

/-- A completed command leaves its collaborators answering and the engine ready in its next phase. -/
theorem ready_complete {i : Instr} {p q : Phase} {s u : State} (hr : Ready p s) (hk : Keeps (accept s) u)
    (hq : nextPhase i p = q) : Ready q (complete i u) := by
  obtain ⟨-, hnoerr, hphase, hsource, hsink⟩ := hr
  refine ⟨rfl, hk.err.trans hnoerr, ?_, hk.source.trans hsource, hk.sink.trans hsink⟩
  rw [complete_phase, hk.phase, accept_phase, hphase, hq]

/-- What `Keeps` says of a body that ended well. -/
theorem keeps_of_bodyOf_ok {i : Instr} {s u : State} (h : bodyOf i s = .ok u) : Keeps s u := by
  have hk := bodyOf_keeps i s
  rwa [h] at hk

/-- In a whole operation the next body does what it does as a command of its own (rules R205 to R207): `u` is the
result of the command before it, `v` what the operation has come to. -/
theorem IgnoresSequencing.resume {body : State → Run} (h : IgnoresSequencing body) {i : Instr} {u v w : State}
    (hs : SameWork u v) (hsink : u.outp.stall = none) (hbody : body (accept (complete i u)) = .ok w) :
    ∃ x, body v = .ok x ∧ SameWork w x :=
  h _ v w ((SameWork.of_accept_complete i u).trans hs) hsink hbody

/-- COMPRESS's five commands, one by one (rule R205). -/
theorem exec_compress_of_phases {s s₁ s₂ s₃ s₄ s₅ : State} (hr : Ready .idle s) (h₁ : exec .count s = .next s₁)
    (hp₁ : s₁.phase = .counted) (h₂ : exec .build s₁ = .next s₂) (h₃ : exec .gencode s₂ = .next s₃)
    (h₄ : exec (.wrhdr .treeHeader) s₃ = .next s₄) (h₅ : exec .encode s₄ = .next s₅) (hp₅ : s₅.phase = .encdone) :
    exec (.compress .treeHeader) s = .next s₅ := by
  obtain ⟨u₁, hcount, rfl⟩ := exists_ok_of_phase_ne hr.1 (by decide) (by decide) (by decide) h₁
    (by rw [hp₁, hr.2.2.1]; decide)
  have hr₁ : Ready .counted (complete .count u₁) := ready_complete hr (keeps_of_bodyOf_ok hcount) rfl
  obtain ⟨u₂, hbuild, rfl⟩ := exists_ok_of_ready (i := .build) hr₁ (by decide) (by decide) (by decide) (by decide) (by decide)
    (buildBody_not_err (accept _)) h₂
  have hr₂ : Ready .built (complete .build u₂) := ready_complete hr₁ (keeps_of_bodyOf_ok hbuild) rfl
  obtain ⟨u₃, hgencode, rfl⟩ := exists_ok_of_ready (i := .gencode) hr₂ (by decide) (by decide) (by decide) (by decide) (by decide)
    (gencodeBody_not_err (accept _)) h₃
  have hr₃ : Ready .coded (complete .gencode u₃) := ready_complete hr₂ (keeps_of_bodyOf_ok hgencode) rfl
  obtain ⟨u₄, hwrhdr, rfl⟩ := exists_ok_of_ready (i := .wrhdr .treeHeader) hr₃ (by decide) (by decide) (by decide) (by decide) (by decide)
    (wrhdrBody_not_err (s := accept _) hr₃.2.2.2.2) h₄
  have hr₄ : Ready .hdrwr (complete (.wrhdr .treeHeader) u₄) := ready_complete hr₃ (keeps_of_bodyOf_ok hwrhdr) rfl
  obtain ⟨u₅, hencode, rfl⟩ := exists_ok_of_phase_ne hr₄.1 (by decide) (by decide) (by decide) h₅
    (by rw [hp₅, hr₄.2.2.1]; decide)
  obtain ⟨v₂, hbuild', hv₂⟩ := buildBody_ignoresSequencing.resume (SameWork.refl u₁) hr₁.2.2.2.2 hbuild
  obtain ⟨v₃, hgencode', hv₃⟩ := gencodeBody_ignoresSequencing.resume hv₂ hr₂.2.2.2.2 hgencode
  obtain ⟨v₄, hwrhdr', hv₄⟩ := wrhdrBody_ignoresSequencing.resume hv₃ hr₃.2.2.2.2 hwrhdr
  obtain ⟨v₅, hencode', hv₅⟩ := encodeBody_ignoresSequencing.resume hv₄ hr₄.2.2.2.2 hencode
  have hbody : compressBody (accept s) = .ok v₅ := by
    rw [compressBody, show countBody (accept s) = .ok u₁ from hcount, andThen_of_ok, hbuild', andThen_of_ok, hgencode',
      andThen_of_ok, hwrhdr', andThen_of_ok, hencode']
  rw [exec_completes (i := .compress .treeHeader) hr (by decide) (by decide) (by decide) (by decide) (by decide) hbody,
    hv₅.complete_eq (i := .encode) rfl]

/-- DECOMPRESS's two commands, one by one (rule R206). -/
theorem exec_decompress_of_phases {s s₁ s₂ : State} (hr : Ready .idle s)
    (h₁ : exec (.rdhdr .treeHeader) s = .next s₁) (hp₁ : s₁.phase = .hdrrd) (h₂ : exec .decode s₁ = .next s₂)
    (hp₂ : s₂.phase = .decdone) : exec (.decompress .treeHeader) s = .next s₂ := by
  obtain ⟨u₁, hrdhdr, rfl⟩ := exists_ok_of_phase_ne hr.1 (by decide) (by decide) (by decide) h₁
    (by rw [hp₁, hr.2.2.1]; decide)
  have hr₁ : Ready .hdrrd (complete (.rdhdr .treeHeader) u₁) := ready_complete hr (keeps_of_bodyOf_ok hrdhdr) rfl
  obtain ⟨u₂, hdecode, rfl⟩ := exists_ok_of_phase_ne hr₁.1 (by decide) (by decide) (by decide) h₂
    (by rw [hp₂, hr₁.2.2.1]; decide)
  obtain ⟨v₂, hdecode', hv₂⟩ := decodeBody_ignoresSequencing.resume (SameWork.refl u₁) hr₁.2.2.2.2 hdecode
  have hbody : decompressBody (accept s) = .ok v₂ := by
    rw [decompressBody, show rdhdrBody (accept s) = .ok u₁ from hrdhdr, andThen_of_ok, hdecode']
  rw [exec_completes (i := .decompress .treeHeader) hr (by decide) (by decide) (by decide) (by decide) (by decide)
    hbody, hv₂.complete_eq (i := .decode) rfl]

/-- Settles O40: no body looks at the sequencing a command of its own would have changed before it. -/
theorem wholeOperationsAreTheirPhases : Obligations.WholeOperationsAreTheirPhases := by
  unfold Obligations.WholeOperationsAreTheirPhases
  exact ⟨fun _ _ _ _ _ _ hr h₁ hp₁ h₂ h₃ h₄ h₅ hp₅ => exec_compress_of_phases hr h₁ hp₁ h₂ h₃ h₄ h₅ hp₅,
    fun _ _ _ hr h₁ hp₁ h₂ hp₂ => exec_decompress_of_phases hr h₁ hp₁ h₂ hp₂⟩

end Sys2Proof.Machine

/-! PROOFS. Streams of the format (rules R95 to R101, R205 to R215): their length, reading them back, the two-leaf tree
of a repeated byte, and what a damaged stream gives. -/

namespace Sys2Proof.Machine

/-! ## Reading a stream -/

/-- At the start of a session OBUF is empty (rules R34, R45). -/
theorem AtStart.obuf {s : State} (h : AtStart s) : s.outp.obuf = [] :=
  List.length_eq_zero_iff.mp (by rw [h.coherent.1, h.opos])

/-- Settles O42: DECOMPRESS's body on a stream of the format, from a session that has read and written nothing. -/
theorem decompressReadsTheStream : Obligations.DecompressReadsTheStream := by
  unfold Obligations.DecompressReadsTheStream
  intro s sh xs p rest hi hr hb hs hv heos hx
  have hstart := hi.atStart hr
  have ⟨hbusy, _, _, hans⟩ := hr
  simp only [List.append_assoc] at hb
  obtain ⟨t, j, hbody, ht, -⟩ := decompressBody_spec (accept s) hans hstart.tree (hstart.unread.trans hb) hs hv heos hx
    hstart.coherent (by rw [accept_outp, hstart.opos])
  refine ⟨t, ?_, ht⟩
  have hcursor : s.inp.ipos + (32 + sh.bits.length + ((bodyBits xs).length + p.length)) =
      31 + 11 * sh.leafCount + (bodyBits xs).length + p.length := by
    have hlen := sh.length_bits
    rw [hstart.ipos]
    omega
  rw [exec_completes (i := .decompress .treeHeader) hr (by decide) (by decide) (by decide) (by decide) (by decide) hbody]
  simp only [complete, accept, nextPhase, InStream.advance, hcursor, hstart.opos, hstart.out, Nat.zero_add,
    List.nil_append, ← hbusy, ← hi.flags.transient]

/-! ## The length of a stream -/

theorem length_codeBitList (c : Code) : (codeBitList c).length = c.len.toNat := length_bitsOf _ _

/-- The bits of an input's codes, counted by symbol (rule R215). -/
theorem length_codes {freq : Vector Weight 256} {bytes : List Byte} (code : Vector Code 257)
    (h : ∀ b : Byte, (freqAt freq b.toNat).toNat = bytes.count b) :
    (bytes.flatMap fun r => codeBitList (codeOfByte code r)).length =
      ((List.range 256).map fun v => (freqAt freq v).toNat * (codeAt code (BitVec.ofNat 9 v)).len.toNat).sum := by
  have hcode : ∀ v < 256, codeOfByte code (BitVec.ofNat 8 v) = codeAt code (BitVec.ofNat 9 v) := fun v hv => by
    rw [codeOfByte, zeroExtend_byte, toNat_ofNat_byte hv]
  simp only [List.length_flatMap, length_codeBitList]
  rw [← sum_freq_mul h fun r => (codeOfByte code r).len.toNat]
  exact congrArg List.sum (List.map_congr_left fun v hv => by rw [hcode v (List.mem_range.mp hv)])

/-- Padding fills the last byte (rule R71). -/
theorem add_padLength (n : Nat) : n + padLength n = 8 * ((n + 7) / 8) := by
  rw [padLength]
  split <;> omega

/-- A stream and its pad fill whole bytes (rules R95, R99, R215). -/
theorem length_of_padded {out : List Byte} {bs : List Bool}
    (h : bitsOfBytes out = bs ++ List.replicate (padLength bs.length) false) : out.length = (bs.length + 7) / 8 := by
  have hlen := congrArg List.length h
  rw [length_bitsOfBytes, List.length_append, List.length_replicate, add_padLength] at hlen
  omega

/-- The output side after a stream has been written and flushed at the start of a session (rules R69, R71). -/
theorem AtStart.flush_eq {s : State} (h : AtStart s) (bs : List Bool) :
    (s.outp.writeList bs).flush =
      { s.outp with
        opos := 8 * (s.outp.writeList bs).flush.out.length, out := (s.outp.writeList bs).flush.out } := by
  obtain ⟨hcoherent, -⟩ := writeList_coherent h.coherent bs
  obtain ⟨hflushed, haligned, hobuf, -⟩ := flush_coherent hcoherent
  have hout := hflushed.2
  refine OutStream.ext ((flush_stall _).trans (writeList_stall _ _)) ?_ (hobuf.trans h.obuf.symm) rfl
  show (s.outp.writeList bs).flush.opos = 8 * (s.outp.writeList bs).flush.out.length
  omega

/-- Settles O41: COMPRESS's body at the start of a session; the codes of the input are counted by symbol. -/
theorem compressWritesTheStream : Obligations.CompressWritesTheStream := by
  unfold Obligations.CompressWritesTheStream
  intro s hi hr hl
  have hstart := hi.atStart hr
  have ⟨hbusy, _, _, hans⟩ := hr
  obtain ⟨freq, inlen, tree, pq, code, sh, hbody, hcounts, hinlen, hbuild, hbuilt, -, hcodes⟩ :=
    compressBody_spec (accept s) hans hstart.ipos hl hstart.tree
  have hstream := hstart.bitsOfBytes_flush (streamBits sh code s.inp.bytes)
  refine ⟨freq, inlen, tree, pq, code, (s.outp.writeList (streamBits sh code s.inp.bytes)).flush.out, ?exec, hcounts,
    hinlen, sh, hbuilt, hcodes, hbuild.queue, hstream, ?length⟩
  case exec =>
    rw [exec_completes (i := .compress .treeHeader) hr (by decide) (by decide) (by decide) (by decide) (by decide)
      hbody, ← hstart.flush_eq]
    simp only [complete, accept, signalRewind, nextPhase, ← hbusy, ← hi.flags.transient]
  case length =>
    have hlen := sh.length_bits
    have hleaves : sh.leafCount = tree.nleaf.toNat := hbuilt.leaves
    have hheader : 32 + sh.bits.length = 31 + 11 * tree.nleaf.toNat := by omega
    rw [length_of_padded hstream, streamBits, List.length_append, List.length_append, List.length_append, length_bitsOf,
      length_codes (bytes := s.inp.bytes) code hcounts, length_codeBitList, hheader, ← Nat.add_assoc]

/-! ## A repeated byte -/

/-- A leaf in the memory spells its own leaf (rule R23). -/
theorem shape_of_mkLeaf {t : Tree} {i : NodeIx} {sh : Shape} {v : Sym} {w : Weight} (hs : spells t i sh = true)
    (hi : t.at i = Node.mkLeaf v w) : sh = .leaf v := by
  cases sh with
  | leaf u =>
    obtain ⟨-, hsym, -⟩ := leaf_of_spells hs
    rw [hi] at hsym
    exact congrArg Shape.leaf hsym.symm
  | node l r =>
    obtain ⟨hleaf, -⟩ := internal_of_spells hs
    rw [hi] at hleaf
    cases hleaf

/-- The root of a tree of more than one node has two subtrees. -/
theorem exists_node_of_spells {t : Tree} {i : NodeIx} {sh : Shape} (hs : spells t i sh = true)
    (hi : (t.at i).leaf = false) :
    ∃ l r, sh = .node l r ∧ spells t (t.at i).left l = true ∧ spells t (t.at i).right r = true := by
  cases sh with
  | leaf v =>
    rw [(leaf_of_spells hs).1] at hi
    cases hi
  | node l r =>
    obtain ⟨-, -, hl, hr⟩ := internal_of_spells hs
    exact ⟨l, r, rfl, hl, hr⟩

/-- Two leaves, merged: the one that comes first in the queue's order is LEFT (rules R138, R142). -/
theorem MergeOk.children_of_two {t : Tree} (h : MergeOk t 2) :
    (t.at 2).left = 0 ∧ (t.at 2).right = 1 ∧ (entryOf t 0).before (entryOf t 1) = true ∨
    (t.at 2).left = 1 ∧ (t.at 2).right = 0 ∧ (entryOf t 1).before (entryOf t 0) = true := by
  have htwo : ∀ i : NodeIx, i.toNat < (2 : NodeIx).toNat → i = 0 ∨ i = 1 := fun i hi => by
    have hi : i.toNat < 2 := hi
    rcases Nat.lt_succ_iff_lt_or_eq.mp hi with h0 | h1
    · exact .inl (BitVec.eq_of_toNat_eq (Nat.lt_one_iff.mp h0))
    · exact .inr (BitVec.eq_of_toNat_eq h1)
  have horder := h.order
  rcases htwo _ h.left with hl | hl <;> rcases htwo _ h.right with hr | hr <;> rw [hl, hr] at horder
  · exact absurd horder (not_before_self _)
  · exact .inl ⟨hl, hr, horder⟩
  · exact .inr ⟨hl, hr, horder⟩
  · exact absurd horder (not_before_self _)

/-- The codes of a tree of two leaves: 0 for LEFT, 1 for RIGHT (rule R156). -/
theorem codeBitList_of_two_leaves {code : Vector Code 257} {u v : Sym}
    (h : CodesOk code (.node (.leaf u) (.leaf v))) :
    codeBitList (codeAt code u) = [false] ∧ codeBitList (codeAt code v) = [true] := by
  rw [h.spelled (u, [false]) (by simp [Shape.paths]), h.spelled (v, [true]) (by simp [Shape.paths]),
    codeBitList_codeOfPath (by simp), codeBitList_codeOfPath (by simp)]
  exact ⟨rfl, rfl⟩

/-- What BUILD makes of `n` copies of a byte: the byte's leaf, the sentinel's, and the root over both, the byte on the
left exactly when it occurs once (rules R138, R139, R213). -/
theorem BuildOk.shape_of_replicate {freq : Vector Weight 256} {t : Tree} {q : List PQEntry} {sh : Shape} {v : Byte}
    {n : Nat} (hb : BuildOk freq ⟨t, q⟩) (hsh : BuiltOk t sh)
    (hcounts : ∀ b : Byte, (freqAt freq b.toNat).toNat = (List.replicate n v).count b) (hn : 1 ≤ n) :
    usedSymbols freq 256 = 1 ∧
    sh = if n = 1 then .node (.leaf (v.zeroExtend 9)) (.leaf Config.eos)
      else .node (.leaf Config.eos) (.leaf (v.zeroExtend 9)) := by
  have hcount : (freqAt freq v.toNat).toNat = n := by rw [hcounts v, List.count_replicate_self]
  have hused : freqAt freq v.toNat ≠ 0 := fun hzero => by
    rw [hzero] at hcount
    exact absurd hcount.symm (by simp; omega)
  have hone : usedSymbols freq 256 = 1 := by
    rw [usedSymbols_of_counts hcounts, List.replicate_dedup (by omega), List.length_singleton]
  have hfirst : usedSymbols freq v.toNat = 0 := by
    have hlt := usedSymbols_lt freq (n := 256) v.isLt hused
    omega
  have hbyte : t.at 0 = Node.mkLeaf (v.zeroExtend 9) (freqAt freq v.toNat) := by
    have hplaced := hb.placed v.toNat v.isLt hused
    rwa [hfirst, ← zeroExtend_byte] at hplaced
  have hsent : t.at 1 = Node.mkLeaf Config.eos Config.eosWeight := by
    have hsentinel := hb.sentinel
    rwa [hone] at hsentinel
  have hnodes : t.nnodes.toNat = 2 + 1 := by
    have hnn := hb.nnodes
    rwa [hone] at hnn
  have hroot : t.root.index = 2 := congrArg Root.index (hsh.root_eq hnodes)
  have hleaf : (t.at 2).leaf = false := hb.high 2 (by rw [hone]; decide) (by rw [hnodes]; decide)
  have hspells := hsh.spelled
  rw [hroot] at hspells
  obtain ⟨l, r, rfl, hl, hr⟩ := exists_node_of_spells hspells hleaf
  refine ⟨hone, ?_⟩
  have hm : MergeOk t 2 := hb.merged 2 (by rw [hnodes]; decide) hleaf
  have hweights : (entryOf t 0).weight.toNat = n ∧ (entryOf t 1).weight.toNat = 1 := by
    rw [entryOf, entryOf, hbyte, hsent]
    exact ⟨hcount, rfl⟩
  rcases hm.children_of_two with ⟨hleft, hright, horder⟩ | ⟨hleft, hright, horder⟩ <;>
    rw [hleft] at hl <;> rw [hright] at hr <;> rw [before_iff, hweights.1, hweights.2] at horder
  · have hn1 : n = 1 := by
      rcases horder with hlt | ⟨heq, -⟩
      · omega
      · rw [← hweights.1, heq, hweights.2]
    rw [if_pos hn1, shape_of_mkLeaf hl hbyte, shape_of_mkLeaf hr hsent]
  · have hn2 : n ≠ 1 := by
      rcases horder with hlt | ⟨-, hlt⟩
      · omega
      · exact absurd hlt (by simp [entryOf])
    rw [if_neg hn2, shape_of_mkLeaf hl hsent, shape_of_mkLeaf hr hbyte]

/-- Settles O45: the tree has the byte's leaf and the sentinel's, and the lighter one, or the byte's when both weigh 1,
is on the left. -/
theorem singleSymbolInputHasOneBitCodes : Obligations.SingleSymbolInputHasOneBitCodes := by
  unfold Obligations.SingleSymbolInputHasOneBitCodes
  intro s v n hi hr hn hl hb
  have hstart := hi.atStart hr
  have ⟨_, _, _, hans⟩ := hr
  obtain ⟨freq, inlen, t, q, code, sh, hbody, hcounts, -, hbuild, hbuilt, -, hcodes⟩ :=
    compressBody_spec (accept s) hans hstart.ipos (by rw [accept_inp, hb, List.length_replicate]; exact hl) hstart.tree
  rw [accept_inp, hb] at hcounts
  obtain ⟨hone, hshape⟩ := hbuild.shape_of_replicate hbuilt hcounts hn
  have hnodes : t.nnodes.toNat = 2 * usedSymbols freq 256 + 1 := hbuild.nnodes
  have hleaves : t.nleaf.toNat = usedSymbols freq 256 + 1 := hbuild.nleaf
  rw [hone] at hnodes hleaves
  refine ⟨_, exec_completes (i := .compress .treeHeader) hr (by decide) (by decide) (by decide) (by decide)
    (by decide) hbody, rfl, BitVec.eq_of_toNat_eq hleaves, BitVec.eq_of_toNat_eq hnodes, ?_⟩
  show codeBitList (codeAt code Config.eos) = _ ∧ codeBitList (codeAt code (v.zeroExtend 9)) = _
  by_cases hn1 : n = 1
  · rw [hshape, if_pos hn1] at hcodes
    obtain ⟨hbyte, hsent⟩ := codeBitList_of_two_leaves hcodes
    rw [hbyte, hsent]
    simp [hn1]
  · rw [hshape, if_neg hn1] at hcodes
    obtain ⟨hsent, hbyte⟩ := codeBitList_of_two_leaves hcodes
    rw [hbyte, hsent]
    have hn2 : 2 ≤ n := by omega
    simp [hn1, hn2]

/-! ## Damaged streams -/

/-- The bits of the first `k` bytes. -/
theorem bitsOfBytes_take (bytes : List Byte) (k : Nat) :
    bitsOfBytes (bytes.take k) = (bitsOfBytes bytes).take (8 * k) := by
  induction bytes generalizing k with
  | nil => simp
  | cons b bytes ih =>
    cases k with
    | zero => simp
    | succ k =>
      have hrest : 8 * (k + 1) - 8 = 8 * k := by omega
      rw [List.take_succ_cons, bitsOfBytes_cons, bitsOfBytes_cons, ih, List.take_append, length_bitsOf, hrest,
        List.take_of_length_le (l := bitsOf 8 b.toNat) (by rw [length_bitsOf]; omega)]

/-- Four bytes are the bits of one field. -/
theorem bitsOf_field_of_bytes {bytes : List Byte} (h : bytes.length = 4) :
    bitsOf 32 (BitVec.ofNat 32 (ofBits (bitsOfBytes bytes)) : Word).toNat = bitsOfBytes bytes := by
  have hl : (bitsOfBytes bytes).length = 32 := by rw [length_bitsOfBytes, h]
  have hlt := ofBits_lt (bitsOfBytes bytes)
  rw [hl] at hlt
  rw [BitVec.toNat_ofNat, Nat.mod_eq_of_lt hlt, bitsOf_of_length hl]

/-- A stream cut in its tree field runs out of data there (rules R175, R214). -/
theorem readHeader_of_cut {sh : Shape} {inp : InStream} {t : Tree} {got missing : List Bool}
    (hu : inp.unread = bitsOf 32 Config.magicTree.toNat ++ got) (hb : sh.bits = got ++ missing) (hm : missing ≠ [])
    (hs : sh.leafCount ≤ 257) (hv : ∀ v ∈ sh.values, v.toNat ≤ 256) :
    ∃ info j, readHeader inp t = .err .prematureEndOfStream info j := by
  have hsize := sh.size_eq
  have hheight := sh.height_lt_leafCount
  have hunread : (inp.advance 32).unread = got := unread_of_append (length_bitsOf 32 _) hu
  obtain ⟨info, j, hread, -⟩ := readNode_of_cut (frames := 514) (inp := inp.advance 32)
    (t := { t with nnodes := 0, nleaf := 0 }) (hunread ▸ hb) hm (by simp; omega) (by omega) hv
  refine ⟨info, j, ?_⟩
  rw [readHeader, readBits_field (by decide) hu]
  dsimp only
  rw [if_neg (by simp), hread]

/-- A body cut off before the end of the sentinel's path holds some whole paths and then part of one, which no path
begins (rules R197, R209). -/
theorem exists_cut_of_body {sh : Shape} {p : List Bool} (hp : (Config.eos, p) ∈ sh.paths) :
    ∀ {xs : List (Sym × List Bool)} {m : Nat}, Emitted sh xs → m < (bodyBits xs ++ p).length →
      ∃ ys q, (bodyBits xs ++ p).take m = bodyBits ys ++ q ∧ Emitted sh ys ∧ ∀ x ∈ sh.paths, ¬ x.2 <+: q := by
  have hcut : ∀ {y : Sym × List Bool} {m : Nat}, y ∈ sh.paths → m < y.2.length →
      ∀ x ∈ sh.paths, ¬ x.2 <+: y.2.take m := fun hy hm x hx hprefix => by
    obtain rfl := Shape.paths_not_begin hx hy (hprefix.trans (List.take_prefix _ _))
    have hle := hprefix.length_le
    rw [List.length_take] at hle
    omega
  intro xs
  induction xs with
  | nil =>
    intro m _ hm
    exact ⟨[], p.take m, rfl, nofun, hcut hp (by simpa using hm)⟩
  | cons x xs ih =>
    intro m hx hm
    have hmem := hx x List.mem_cons_self
    have hxs : Emitted sh xs := fun y hy => hx y (List.mem_cons_of_mem _ hy)
    have hsplit : bodyBits (x :: xs) ++ p = x.2 ++ (bodyBits xs ++ p) := by simp [bodyBits]
    rw [hsplit] at hm ⊢
    by_cases hfirst : m < x.2.length
    · refine ⟨[], x.2.take m, ?_, nofun, hcut hmem.1 hfirst⟩
      rw [List.take_append_of_le_length hfirst.le]
      rfl
    · obtain ⟨ys, q, htake, hys, hq⟩ := ih (m := m - x.2.length) hxs (by rw [List.length_append] at hm; omega)
      refine ⟨x :: ys, q, ?_, fun y hy => ?_, hq⟩
      · rw [List.take_append, List.take_of_length_le (by omega), htake]
        simp [bodyBits]
      · rcases List.mem_cons.mp hy with rfl | hy
        · exact hmem
        · exact hys y hy

/-- A tree some input runs out in is no leaf: a leaf's path is empty. -/
theorem ne_leaf_of_cut {sh : Shape} {q : List Bool} (hq : ∀ x ∈ sh.paths, ¬ x.2 <+: q) (v : Sym) : sh ≠ .leaf v := by
  rintro rfl
  exact hq (v, []) (by simp [Shape.paths]) List.nil_prefix

/-- DECOMPRESS of a stream that ends before the sentinel's path is complete (rules R175, R197, R214). -/
theorem exec_decompress_of_cut {s : State} {sh : Shape} {xs : List (Sym × List Bool)} {p : List Bool} {m : Nat}
    (hi : RunInv s) (hr : Ready .idle s)
    (hb : s.inp.bits = bitsOf 32 Config.magicTree.toNat ++ (sh.bits ++ (bodyBits xs ++ p)).take m)
    (hm : m < (sh.bits ++ (bodyBits xs ++ p)).length) (hs : sh.leafCount ≤ 257) (hv : ∀ v ∈ sh.values, v.toNat ≤ 256)
    (he : (Config.eos, p) ∈ sh.paths) (hx : Emitted sh xs) :
    ∃ t info, exec (.decompress .treeHeader) s = .next t ∧
      result t = some (.error .prematureEndOfStream info) := by
  have hstart := hi.atStart hr
  have ⟨_, _, _, hans⟩ := hr
  have hunread := hstart.unread.trans hb
  by_cases htree : m < sh.bits.length
  · rw [List.take_append_of_le_length htree.le] at hunread
    obtain ⟨info, j, hread⟩ := readHeader_of_cut (t := s.tree) hunread (List.take_append_drop m sh.bits).symm
      (by simpa using htree) hs hv
    exact ⟨_, info, exec_of_readHeader_err hr (.inr rfl) hread, result_raiseExec (by decide) _ _⟩
  · rw [List.length_append] at hm
    obtain ⟨ys, q, htake, hys, hq⟩ := exists_cut_of_body he (m := m - sh.bits.length) hx (by omega)
    rw [List.take_append, List.take_of_length_le (by omega), htake] at hunread
    obtain ⟨u, hread, hu, -⟩ := readHeader_of_bits hunread hs hv hstart.tree
    have hrdhdr := rdhdrBody_of_node (s := accept s) hans.1 hread
    have hbody : (s.inp.advance (32 + sh.bits.length)).unread = bodyBits ys ++ q := by
      refine unread_of_append (bs := bitsOf 32 Config.magicTree.toNat ++ sh.bits) (by simp) ?_
      rw [hunread, List.append_assoc]
    obtain ⟨ipos, o, j, hcut, -⟩ := decodeBody_cut (s := { accept s with
      inp := s.inp.advance (32 + sh.bits.length), tree := u,
      trav := { s.trav with stage := .off, stack := [] } }) hans hu.spelled (ne_leaf_of_cut hq) hys hq hbody
    obtain ⟨w, hfails⟩ : ∃ w, decompressBody (accept s) = .err .prematureEndOfStream 2 w :=
      ⟨_, by rw [decompressBody, hrdhdr, andThen_of_ok]; exact hcut⟩
    exact ⟨_, 2, exec_raises (i := .decompress .treeHeader) hr (by decide) (by decide) (by decide) (by decide)
      (by decide) hfails, result_raiseExec (by decide) 2 w⟩

/-- The stream COMPRESS has written, as DECOMPRESS takes it apart (rules R95, R99). -/
theorem Compressed.bits_out {bytes : List Byte} {sh : Shape} {t : State} (h : Compressed bytes sh t) :
    ∃ n, n < 8 ∧ bitsOfBytes t.outp.out = bitsOf 32 Config.magicTree.toNat ++
      (sh.bits ++ (bodyBits (pathsOfBytes t.code bytes) ++ codeBitList (codeAt t.code Config.eos)) ++
        List.replicate n false) := by
  refine ⟨padLength (streamBits sh t.code bytes).length, by rw [padLength]; split <;> omega, ?_⟩
  rw [h.stream, bodyBits_pathsOfBytes]
  simp only [streamBits, List.append_assoc]

/-- A stream with another first field is no stream (rules R172, R214). -/
theorem Compressed.exec_decompress_of_altered {bytes head tail head' : List Byte} {sh : Shape} {t s : State}
    (h : Compressed bytes sh t) (hi : RunInv s) (hr : Ready .idle s) (hout : t.outp.out = head ++ tail)
    (hl : head.length = 4) (hl' : head'.length = 4) (hne : head' ≠ head) (hb : s.inp.bytes = head' ++ tail) :
    ∃ t' info, exec (.decompress .treeHeader) s = .next t' ∧ result t' = some (.error .formatError info) := by
  have hhead : bitsOfBytes head = bitsOf 32 Config.magicTree.toNat := by
    obtain ⟨n, -, hbits⟩ := h.bits_out
    rw [hout, bitsOfBytes_append] at hbits
    exact (List.append_inj hbits (by simp [hl])).1
  have hbits : s.inp.bits = bitsOf 32 (BitVec.ofNat 32 (ofBits (bitsOfBytes head')) : Word).toNat ++
      bitsOfBytes tail := by
    rw [bitsOf_field_of_bytes hl', InStream.bits, hb, bitsOfBytes_append]
  have hmagic : BitVec.ofNat 32 (ofBits (bitsOfBytes head')) ≠ Config.magicTree := fun heq => by
    refine hne (bitsOfBytes_injective ?_)
    rw [hhead, ← heq, bitsOf_field_of_bytes hl']
  have hread := readHeader_of_wrongMagic s.tree ((hi.atStart hr).unread.trans hbits) hmagic
  exact ⟨_, _, exec_of_readHeader_err hr (.inr rfl) hread, result_raiseExec (by decide) _ _⟩

/-- A stream cut short ends inside the magic field, the tree or the body (rule R214). -/
theorem Compressed.exec_decompress_of_take {bytes : List Byte} {sh : Shape} {t s : State} {k : Nat}
    (h : Compressed bytes sh t) (hi : RunInv s) (hr : Ready .idle s) (hk : k < t.outp.out.length)
    (hb : s.inp.bytes = t.outp.out.take k) :
    ∃ t' info, exec (.decompress .treeHeader) s = .next t' ∧
      result t' = some (.error (if k < 4 then .formatError else .prematureEndOfStream) info) := by
  have hlength : s.inp.bytes.length = k := by rw [hb, List.length_take]; omega
  by_cases hk4 : k < 4
  · have hshort : s.inp.unread.length < 32 := by rw [length_unread]; omega
    rw [if_pos hk4]
    exact ⟨_, _, exec_of_readHeader_err hr (.inr rfl) (readHeader_of_short s.tree hshort),
      result_raiseExec (by decide) _ _⟩
  · obtain ⟨n, hn, hbits⟩ := h.bits_out
    have htotal := congrArg List.length hbits
    rw [length_bitsOfBytes, List.length_append, length_bitsOf, List.length_append, List.length_replicate] at htotal
    have hcut : s.inp.bits = bitsOf 32 Config.magicTree.toNat ++ (sh.bits ++
        (bodyBits (pathsOfBytes t.code bytes) ++ codeBitList (codeAt t.code Config.eos))).take (8 * k - 32) := by
      rw [InStream.bits, hb, bitsOfBytes_take, hbits, List.take_append, length_bitsOf,
        List.take_of_length_le (by rw [length_bitsOf]; omega), List.take_append_of_le_length (by omega)]
    rw [if_neg hk4]
    exact exec_decompress_of_cut hi hr hcut (by omega) (leafCount_le_of_treeOk h.tree.toTreeOk) h.tree.symbols
      (code_of_leaf h.tree.toTreeOk h.codes h.tree.sentinel).1 h.emitted

/-- An input COMPRESS gives an output for is not too long (rule R128). -/
theorem length_le_of_output {s t : State} {c : List Byte} (hi : RunInv s) (hr : Ready .idle s)
    (hexec : exec (.compress .treeHeader) s = .next t) (hresult : result t = some (.output c)) :
    s.inp.bytes.length ≤ Config.maxLen := by
  by_contra hlong
  obtain ⟨t', hexec', hresult'⟩ := exec_compress_tooLong hi hr (Nat.lt_of_not_le hlong)
  rw [hexec] at hexec'
  cases hexec'
  rw [hresult] at hresult'
  cases hresult'

/-- Settles O46: the altered field is not the magic constant, and a cut stream stops before the end of the sentinel's
path, since fewer than eight pad bits follow it. -/
theorem corruptionIsDetected : Obligations.CorruptionIsDetected := by
  unfold Obligations.CorruptionIsDetected
  intro s t s' c hi hr hexec hresult hi' hr'
  obtain ⟨t₀, sh, hexec₀, hresult₀, hc⟩ :=
    exec_compress_compressed hi hr (length_le_of_output hi hr hexec hresult)
  rw [hexec] at hexec₀
  cases hexec₀
  rw [hresult] at hresult₀
  cases hresult₀
  exact ⟨fun head tail hout hl head' hl' hne hb => hc.exec_decompress_of_altered hi' hr' hout hl hl' hne hb,
    fun k hk hb => hc.exec_decompress_of_take hi' hr' hk hb⟩

end Sys2Proof.Machine

/-! PROOFS. Rules of the whole machine (rules R21 to R33, R64 to R71, R110 to R112, R241 to R247): what each instruction
can do to the sequencing, the tables and the streams, from the ends an execution has. -/

namespace Sys2Proof.Machine

/-! ## The ends of a command -/

/-- Step 1 of rule R110, for every command. -/
theorem exec_of_busy {i : Instr} {s : State} (hc : i.isCommand = true) (hb : s.busy = true) :
    exec i s = .next (dropCommand s) := by
  by_cases hn : i = .nop
  · rw [hn, exec_nop_of_busy hb]
  by_cases hl : i = .clear
  · rw [hl, exec_clear_of_busy hb]
  rw [exec_issue hc hn hl]
  simpa [hb] using issue_cases i (bodyOf i) s

/-- A word written to CMD while BUSY = 1 is dropped, command or not (rule R110 step 1). -/
theorem writeCmd_of_busy {w : Word} {s : State} (hb : s.busy = true) : writeCmd w s = .next (dropCommand s) := by
  cases hd : decodeWord w with
  | ok i => rw [writeCmd_ok hd, exec_of_busy (isCommand_of_decode hd) hb]
  | error e =>
    rw [writeCmd_illegal (by simp [hd])]
    simpa [hb] using issueIllegal_cases w s

/-- The end of a command that does not wait: completed to its next phase, or raised in the phase it was issued in (rules
R112, R241). -/
def Finished (i : Instr) (s t : State) : Prop :=
  t.done = true ∧ t.err = .noError ∧ some t.phase = phaseAfter i ∨
    t.done = false ∧ t.err ≠ .noError ∧ t.phase = s.phase

theorem finished_complete {i : Instr} {s u : State} (hc : i.isCommand = true) (hn : i ≠ .nop)
    (he : s.err = .noError) (hk : Keeps (accept s) u) : Finished i s (complete i u) :=
  .inl ⟨rfl, hk.err.trans he, nextPhase_eq i u.phase hc hn⟩

theorem finished_raiseExec {i : Instr} {s u : State} {e : ErrCode} (info : Word) (he : e.InExecution)
    (hk : Keeps (accept s) u) : Finished i s (raiseExec e info u) :=
  .inr ⟨rfl, he.1, hk.phase⟩

/-- Step 7 of rule R110: a legal command finishes or waits. -/
theorem finished_or_waits {i : Instr} {s t : State} (hc : i.isCommand = true) (hn : i ≠ .nop) (hl : i ≠ .clear)
    (hb : s.busy = false) (he : s.err = .noError) (hp : s.phase ∈ legalPhases i)
    (hm : i.headerMode ≠ some .countHeader) (h : exec i s = .next t) :
    (∃ u, bodyOf i (accept s) = .wait u ∧ t = hold i (accept s) u) ∨ t.busy = false ∧ Finished i s t := by
  rw [exec_issue hc hn hl, issue_legal _ hb he hp hm] at h
  rcases settle_bodyOf h with ⟨u, hu, -, rfl⟩ | ⟨u, -, hk, rfl⟩ | ⟨e, info, u, -, hx, hk, rfl⟩
  · exact .inl ⟨u, hu, rfl⟩
  · exact .inr ⟨rfl, finished_complete hc hn he hk⟩
  · exact .inr ⟨rfl, finished_raiseExec info hx hk⟩

/-- With source and sink answering a legal command finishes (rule R272). -/
theorem finished_of_answering {i : Instr} {s t : State} (hc : i.isCommand = true) (hn : i ≠ .nop) (hl : i ≠ .clear)
    (hb : s.busy = false) (he : s.err = .noError) (hp : s.phase ∈ legalPhases i)
    (hm : i.headerMode ≠ some .countHeader) (ha : Answering s) (h : exec i s = .next t) :
    t.busy = false ∧ Finished i s t := by
  rcases finished_or_waits hc hn hl hb he hp hm h with ⟨u, hu, -⟩ | hfin
  · have hends := bodyOf_ends i (s := accept s) ha
    rw [hu] at hends
    exact hends.elim
  · exact hfin

/-- Settles O9: a word is dropped, ignored or illegal, or it is a command's, which ends at step 5, 6 or 7. -/
theorem dispatchChecksInOrder : Obligations.DispatchChecksInOrder := by
  unfold Obligations.DispatchChecksInOrder
  refine fun w s => ⟨writeCmd_of_busy, fun _ _ hw => ?clear, fun hb he hw => writeCmd_of_error hw hb he,
    fun hb he hd => writeCmd_raises_illegalCommand hd hb he, fun hb _ hd => ?nop, fun i hb he hd hn => ?command⟩
  case clear => rw [hw, writeCmd_ok (i := .clear) (by decide)]
  case nop => rw [writeCmd_ok hd, exec_nop_of_not_busy hb]
  case command =>
    have hc := isCommand_of_decode hd
    have hword := commandWord_of_decodeWord hd
    rw [writeCmd_ok hd]
    refine ⟨fun hp => ?_, fun hp hm => ?_, fun hp hm hl ha t ht => finished_of_answering hc hn hl hb he hp hm ha ht⟩
    · rw [exec_of_notMem_legalPhases hc hb he hp, hword]
      rfl
    · rw [exec_of_countHeader hm hb he hp, hword]
      rfl

/-! ## Errors -/

/-- NOP changes at most CMDDROP (rule R113). -/
theorem nop_cases {s t : State} (h : exec .nop s = .next t) : t = dropCommand s ∨ t = s := by
  cases hb : s.busy with
  | true =>
    rw [exec_nop_of_busy hb] at h
    cases h
    exact .inl rfl
  | false =>
    rw [exec_nop_of_not_busy hb] at h
    cases h
    exact .inr rfl

/-- What an error raised by a command leaves of the sequencing (rules R241, R245, R247). -/
def Stopped (s t : State) : Prop :=
  s.err = .noError ∧ t.busy = false ∧ t.done = false ∧ t.phase = s.phase ∧ t.cmddrop = s.cmddrop ∧ t.ie = s.ie ∧
    t.port.signals.getLast? = some .outAbort ∧ irq t = s.ie

theorem stopped_raise {s u : State} {e : ErrCode} (info : Word) (hx : e ≠ .noError) (he : s.err = .noError)
    (hp : u.phase = s.phase) (hd : u.cmddrop = s.cmddrop) (hi : u.ie = s.ie) : Stopped s (raise e info u) :=
  ⟨he, rfl, rfl, hp, hd, hi, List.getLast?_concat, (irq_of_error (s := raise e info u) hx).trans hi⟩

/-- Settles O48: of the ends of an execution those that change ERR are `raise` with no error pending. -/
theorem everyErrorStopsTheEngine : Obligations.EveryErrorStopsTheEngine := by
  unfold Obligations.EveryErrorStopsTheEngine
  intro i s t hc hl h herr
  show Stopped s t
  by_cases hn : i = .nop
  · subst hn
    rcases nop_cases h with rfl | rfl <;> exact absurd rfl herr
  cases exec_cases hc hn hl h with
  | dropped _ ht => rw [ht] at herr; exact absurd rfl herr
  | ignored _ _ ht => rw [ht] at herr; exact absurd rfl herr
  | outOfPhase _ he _ ht => rw [ht]; exact stopped_raise _ (by decide) he rfl rfl rfl
  | countHeader _ he _ _ ht => rw [ht]; exact stopped_raise _ (by decide) he rfl rfl rfl
  | waits _ _ _ _ _ _ _ ht => rw [ht] at herr; exact absurd rfl herr
  | completed _ _ _ _ _ hk ht => rw [ht] at herr; exact absurd hk.err herr
  | raised _ he _ e info u _ hx hk ht =>
    rw [ht]
    exact stopped_raise (u := leaveUnspecified u) info hx.1 he hk.phase hk.cmddrop hk.ie

/-! ## PHASE -/

/-- The token that ends the tree field is a leaf's (rule R170, log 3). -/
theorem tokenBody_ends_tree {i : Instr} {s u : State} (hc : i.isCommand = false) (hs : s.trav.stage ≠ .off)
    (h : tokenBody i s = .ok u) (hu : u.trav.stage = .off) : ∃ v, i = .leaf v := by
  cases i with
  | leaf v => exact ⟨v, rfl⟩
  | magic =>
    cases h
    cases hu
  | internal =>
    simp only [tokenBody, internalToken] at h
    split_ifs at h
    cases h
    exact absurd hu hs
  | _ => cases hc

/-- A LEAF token has an effect in the tree field alone (log 3). -/
theorem exec_leaf_cases {v : Sym} {s t : State} (h : exec (.leaf v) s = .next t) :
    t = s ∨ s.trav.stage = .tree ∧ settleToken (leafToken v s) = .next t := by
  by_cases hs : s.trav.stage = .tree
  · rw [exec_leaf_of_tree v hs] at h
    exact .inr ⟨hs, h⟩
  · have hnext : exec (.leaf v) s = .next s := if_neg hs
    rw [hnext] at h
    cases h
    exact .inl rfl

/-- A token moves PHASE only where it ends the tree field (rule R112, log 3). -/
theorem phase_of_token {i : Instr} {s t : State} (hc : i.isCommand = false) (h : exec i s = .next t)
    (hp : t.phase ≠ s.phase) :
    s.trav.stage = .tree ∧ (∃ v, i = .leaf v) ∧ ∃ u, Keeps s u ∧ t = complete (.rdhdr .treeHeader) u := by
  rcases token_cases hc h with rfl | ⟨hs, hset⟩
  · exact absurd rfl hp
  have hk := tokenBody_keeps i s
  rcases settleToken_cases hset with ⟨u, hu, -, rfl⟩ | ⟨u, hu, hoff, rfl⟩ | ⟨e, info, u, hu, rfl⟩ | ⟨u, hu, rfl⟩ <;>
    rw [hu] at hk
  · exact absurd hk.phase hp
  · obtain ⟨v, rfl⟩ := tokenBody_ends_tree hc hs hu hoff
    rcases exec_leaf_cases h with hsame | ⟨htree, -⟩
    · rw [hsame] at hp
      exact absurd rfl hp
    · exact ⟨htree, ⟨v, rfl⟩, u, hk, rfl⟩
  · exact absurd hk.2.phase hp
  · exact absurd hk.phase hp

/-- Settles O52: of the ends of an execution completion alone moves PHASE, and CLEAR. -/
theorem phaseMovesOnlyAtCompletion : Obligations.PhaseMovesOnlyAtCompletion := by
  unfold Obligations.PhaseMovesOnlyAtCompletion
  intro i s t h hp
  cases hc : i.isCommand with
  | false =>
    obtain ⟨htree, hleaf, u, hk, rfl⟩ := phase_of_token hc h hp
    exact .inl ⟨rfl, hk.err, rfl, .inr ⟨htree, hleaf, rfl⟩⟩
  | true =>
    by_cases hl : i = .clear
    · subst hl
      cases hb : s.busy with
      | true =>
        rw [exec_clear_of_busy hb] at h
        cases h
        exact absurd rfl hp
      | false =>
        rw [exec_clear_of_not_busy hb] at h
        cases h
        exact .inr ⟨rfl, rfl⟩
    by_cases hn : i = .nop
    · subst hn
      rcases nop_cases h with rfl | rfl <;> exact absurd rfl hp
    cases exec_cases hc hn hl h with
    | dropped _ ht => rw [ht] at hp; exact absurd rfl hp
    | ignored _ _ ht => rw [ht] at hp; exact absurd rfl hp
    | outOfPhase _ _ _ ht => rw [ht] at hp; exact absurd rfl hp
    | countHeader _ _ _ _ ht => rw [ht] at hp; exact absurd rfl hp
    | waits _ _ _ _ _ _ _ ht => rw [ht] at hp; exact absurd rfl hp
    | completed _ _ hlegal u _ hk ht =>
      rw [ht]
      exact .inl ⟨rfl, hk.err, rfl, .inl ⟨hlegal, nextPhase_eq i u.phase hc hn⟩⟩
    | raised _ _ _ _ _ _ _ _ hk ht => rw [ht] at hp; exact absurd hk.phase hp

/-! ## Tables -/

/-- Between `s` and `t` the tables `i` does not write are the same (rules R21 to R23, R25 to R27, R32). -/
def OneWriter (i : Instr) (s t : State) : Prop :=
  (i ≠ .count → (∀ hm, i ≠ .compress hm) → t.freq = s.freq ∧ t.inlen = s.inlen) ∧
  (i ≠ .build → (∀ hm, i ≠ .compress hm) → t.pq = s.pq) ∧
  (i ≠ .gencode → (∀ hm, i ≠ .compress hm) → t.code = s.code) ∧
  (i ≠ .build → (∀ hm, i ≠ .compress hm) → (∀ hm, i ≠ .rdhdr hm) → (∀ hm, i ≠ .decompress hm) → i ≠ .magic →
    i ≠ .internal → (∀ v, i ≠ .leaf v) → t.tree = s.tree)

/-- Nothing is written where every table is the same. -/
theorem OneWriter.of_same {s t : State} (i : Instr) (h : SameTables s t) (ht : t.tree = s.tree) : OneWriter i s t :=
  ⟨fun _ _ => ⟨h.freq, h.inlen⟩, fun _ _ => h.pq, fun _ _ => h.code, fun _ _ _ _ _ _ _ => ht⟩

/-- The tables a body that ends well has written are its command's. -/
theorem oneWriter_of_bodyOf {i : Instr} {s u : State} (hc : i.isCommand = true) (h : bodyOf i s = .ok u) :
    OneWriter i s u := by
  cases i with
  | nop => cases h; exact .of_same _ (.refl s) rfl
  | clear => cases h; exact .of_same _ (.refl s) rfl
  | count =>
    obtain ⟨hpq, hcode, htree, -, -⟩ := countBody_frame h
    exact ⟨fun hi => absurd rfl hi, fun _ _ => hpq, fun _ _ => hcode, fun _ _ _ _ _ _ _ => htree⟩
  | build =>
    obtain ⟨hfreq, hinlen, hcode, -, -⟩ := buildBody_frame h
    exact ⟨fun _ _ => ⟨hfreq, hinlen⟩, fun hi => absurd rfl hi, fun _ _ => hcode, fun hi => absurd rfl hi⟩
  | gencode =>
    obtain ⟨hfreq, hinlen, hpq, htree, -, -⟩ := gencodeBody_frame h
    exact ⟨fun _ _ => ⟨hfreq, hinlen⟩, fun _ _ => hpq, fun hi => absurd rfl hi, fun _ _ _ _ _ _ _ => htree⟩
  | wrhdr hm =>
    obtain ⟨htables, htree, -, -⟩ := wrhdrBody_frame h
    exact .of_same _ htables htree
  | encode =>
    obtain ⟨bs, inp, rfl, -⟩ := encodeBody_frame h
    exact .of_same _ ⟨rfl, rfl, rfl, rfl⟩ rfl
  | rdhdr hm =>
    obtain ⟨htables, -, -⟩ := rdhdrBody_frame h
    exact ⟨fun _ _ => ⟨htables.freq, htables.inlen⟩, fun _ _ => htables.pq, fun _ _ => htables.code,
      fun _ _ hi => absurd rfl (hi hm)⟩
  | decode =>
    obtain ⟨bs, inp, trav, rfl, -, -⟩ := decodeBody_frame h
    exact .of_same _ ⟨rfl, rfl, rfl, rfl⟩ rfl
  | compress hm =>
    exact ⟨fun _ hi => absurd rfl (hi hm), fun _ hi => absurd rfl (hi hm), fun _ hi => absurd rfl (hi hm),
      fun _ hi => absurd rfl (hi hm)⟩
  | decompress hm =>
    obtain ⟨r, hr, hd⟩ := andThen_ok h
    obtain ⟨⟨hfreq, hinlen, hpq, hcode⟩, -, -⟩ := rdhdrBody_frame hr
    obtain ⟨bs, inp, trav, rfl, -, -⟩ := decodeBody_frame hd
    exact ⟨fun _ _ => ⟨hfreq, hinlen⟩, fun _ _ => hpq, fun _ _ => hcode, fun _ _ _ hi => absurd rfl (hi hm)⟩
  | magic | internal | leaf => cases hc

/-- A token writes the tree alone (rule R170, log 3). -/
theorem oneWriter_of_token {i : Instr} {s t : State} (hc : i.isCommand = false) (h : SameTables s t) :
    OneWriter i s t := by
  refine ⟨fun _ _ => ⟨h.freq, h.inlen⟩, fun _ _ => h.pq, fun _ _ => h.code, fun _ _ _ _ hm hi hl => ?_⟩
  cases i with
  | magic => exact absurd rfl hm
  | internal => exact absurd rfl hi
  | leaf v => exact absurd rfl (hl v)
  | _ => cases hc

/-- The ends of a token: no effect, an error, or its body's result, after which RDHDR may be complete. -/
theorem token_ends {i : Instr} {s t : State} (hc : i.isCommand = false) (h : exec i s = .next t) :
    t = s ∨ (∃ u, tokenBody i s = .ok u ∧ (t = u ∨ t = complete (.rdhdr .treeHeader) u)) ∨
      ∃ e info u, tokenBody i s = .err e info u ∧ t = raiseExec e info u := by
  rcases token_cases hc h with rfl | ⟨-, hset⟩
  · exact .inl rfl
  rcases settleToken_cases hset with ⟨u, hu, -, rfl⟩ | ⟨u, hu, -, rfl⟩ | ⟨e, info, u, hu, rfl⟩ | ⟨u, hu, -⟩
  · exact .inr (.inl ⟨t, hu, .inl rfl⟩)
  · exact .inr (.inl ⟨u, hu, .inr rfl⟩)
  · exact .inr (.inr ⟨e, info, u, hu, rfl⟩)
  · exact absurd hu (tokenBody_not_wait i s u)

/-- CTRL is written by no instruction, and the tables by their writers (rules R21 to R27, R32). -/
theorem ie_and_oneWriter_of_token {i : Instr} {s t : State} (hc : i.isCommand = false) (h : exec i s = .next t) :
    t.ie = s.ie ∧ (Defined t → OneWriter i s t) := by
  have hk := tokenBody_keeps i s
  rcases token_ends hc h with rfl | ⟨u, hu, ht⟩ | ⟨e, info, u, hu, rfl⟩
  · exact ⟨rfl, fun _ => oneWriter_of_token hc (.refl t)⟩
  · rw [hu] at hk
    obtain ⟨htables, -, -⟩ := tokenBody_frame hu
    rcases ht with rfl | rfl
    · exact ⟨hk.ie, fun _ => oneWriter_of_token hc htables⟩
    · exact ⟨hk.ie, fun _ => oneWriter_of_token hc ⟨htables.freq, htables.inlen, htables.pq, htables.code⟩⟩
  · rw [hu] at hk
    exact ⟨hk.2.ie, fun hd => absurd hd (not_defined_raiseExec hk.1)⟩

/-- Settles O50: outside its completion an execution writes no table, and at completion its body has written its own. -/
theorem tablesHaveOneWriter : Obligations.TablesHaveOneWriter := by
  unfold Obligations.TablesHaveOneWriter
  intro i s t h
  show t.ie = s.ie ∧ (Defined t → i ≠ .clear → OneWriter i s t)
  cases hc : i.isCommand with
  | false =>
    obtain ⟨hie, htables⟩ := ie_and_oneWriter_of_token hc h
    exact ⟨hie, fun hd _ => htables hd⟩
  | true =>
    by_cases hl : i = .clear
    · subst hl
      refine ⟨?_, fun _ hclear => absurd rfl hclear⟩
      cases hb : s.busy with
      | true => rw [exec_clear_of_busy hb] at h; cases h; rfl
      | false => rw [exec_clear_of_not_busy hb] at h; cases h; rfl
    by_cases hn : i = .nop
    · subst hn
      rcases nop_cases h with rfl | rfl <;> exact ⟨rfl, fun _ _ => .of_same _ ⟨rfl, rfl, rfl, rfl⟩ rfl⟩
    cases exec_cases hc hn hl h with
    | dropped _ ht => rw [ht]; exact ⟨rfl, fun _ _ => .of_same _ ⟨rfl, rfl, rfl, rfl⟩ rfl⟩
    | ignored _ _ ht => rw [ht]; exact ⟨rfl, fun _ _ => .of_same _ ⟨rfl, rfl, rfl, rfl⟩ rfl⟩
    | outOfPhase _ _ _ ht => rw [ht]; exact ⟨rfl, fun _ _ => .of_same _ ⟨rfl, rfl, rfl, rfl⟩ rfl⟩
    | countHeader _ _ _ _ ht => rw [ht]; exact ⟨rfl, fun _ _ => .of_same _ ⟨rfl, rfl, rfl, rfl⟩ rfl⟩
    | waits _ _ _ _ _ _ _ ht => rw [ht]; exact ⟨rfl, fun _ _ => .of_same _ ⟨rfl, rfl, rfl, rfl⟩ rfl⟩
    | completed _ _ _ u hu hk ht =>
      have hone : OneWriter i (accept s) u := oneWriter_of_bodyOf hc hu
      rw [ht]
      exact ⟨hk.ie, fun _ _ => hone⟩
    | raised _ _ _ _ _ _ _ hx hk ht => rw [ht]; exact ⟨hk.ie, fun hd => absurd hd (not_defined_raiseExec hx)⟩

/-! ## Streams -/

/-- Between `s` and `t` the streams `i` does not use are the same, and OUT has only grown (rules R64, R67, R69, R111). -/
def StreamsKept (i : Instr) (s t : State) : Prop :=
  (i = .nop ∨ i = .build ∨ i = .gencode ∨ (∃ hm, i = .wrhdr hm) → t.inp = s.inp) ∧
  (i = .nop ∨ i = .count ∨ i = .build ∨ i = .gencode ∨ (∃ hm, i = .rdhdr hm) ∨ i.isCommand = false →
    t.outp = s.outp) ∧
  s.outp.out <+: t.outp.out

theorem StreamsKept.of_same {s t : State} (i : Instr) (hi : t.inp = s.inp) (ho : t.outp = s.outp) :
    StreamsKept i s t :=
  ⟨fun _ => hi, fun _ => ho, by rw [ho]⟩

/-- The input a body that ends well has left as it was. -/
theorem inp_of_bodyOf {i : Instr} {s u : State} (h : bodyOf i s = .ok u)
    (hi : i = .nop ∨ i = .build ∨ i = .gencode ∨ ∃ hm, i = .wrhdr hm) : u.inp = s.inp := by
  rcases hi with rfl | rfl | rfl | ⟨hm, rfl⟩
  · cases h; rfl
  · exact (buildBody_frame h).2.2.2.1
  · exact (gencodeBody_frame h).2.2.2.2.1
  · exact (wrhdrBody_frame h).2.2.1

/-- The output a body that ends well has left as it was. -/
theorem outp_of_bodyOf {i : Instr} {s u : State} (hc : i.isCommand = true) (h : bodyOf i s = .ok u)
    (hi : i = .nop ∨ i = .count ∨ i = .build ∨ i = .gencode ∨ (∃ hm, i = .rdhdr hm) ∨ i.isCommand = false) :
    u.outp = s.outp := by
  rcases hi with rfl | rfl | rfl | rfl | ⟨hm, rfl⟩ | hi
  · cases h; rfl
  · exact (countBody_frame h).2.2.2.1
  · exact (buildBody_frame h).2.2.2.2
  · exact (gencodeBody_frame h).2.2.2.2.2
  · exact (rdhdrBody_frame h).2.1
  · rw [hc] at hi; cases hi

theorem streamsKept_of_bodyOf {i : Instr} {s u : State} (hc : i.isCommand = true) (h : bodyOf i s = .ok u) :
    StreamsKept i s u := by
  have hextends := bodyOf_extends i s
  rw [h] at hextends
  exact ⟨inp_of_bodyOf h, outp_of_bodyOf hc h, hextends⟩

/-- The output a body that waits has left as it was: COUNT and the reader write nothing, and BUILD and GENCODE never
wait. -/
theorem outp_of_wait {i : Instr} {s u : State} (hc : i.isCommand = true) (h : bodyOf i s = .wait u)
    (hi : i = .nop ∨ i = .count ∨ i = .build ∨ i = .gencode ∨ (∃ hm, i = .rdhdr hm) ∨ i.isCommand = false) :
    u.outp = s.outp := by
  rcases hi with rfl | rfl | rfl | rfl | ⟨hm, rfl⟩ | hi
  · cases h
  · exact (countBody_wait h).1
  · cases h
  · have hends := gencodeBody_ends s
    rw [show gencodeBody s = .wait u from h] at hends
    exact hends.elim
  · exact (rdhdrBody_wait h).1
  · rw [hc] at hi; cases hi

/-- A command that waits shows the output of the point it waits at and its input of acceptance (log 4). -/
theorem streamsKept_hold {i : Instr} {s u : State} (hc : i.isCommand = true) (h : bodyOf i (accept s) = .wait u) :
    StreamsKept i s (hold i (accept s) u) := by
  have hextends := bodyOf_extends i (accept s)
  rw [h] at hextends
  refine ⟨fun _ => rfl, fun hi => ?_, hextends⟩
  rw [hold_outp, outp_of_wait hc h hi]
  rfl

/-- Only ENCODE and COMPRESS rewind (rule R67), and only CLEAR changes the input (rule R64). -/
def InputKept (i : Instr) (s t : State) : Prop :=
  t.inp.bytes = s.inp.bytes ∧ (i ≠ .encode → (∀ hm, i ≠ .compress hm) → t.inp.rewound = s.inp.rewound)

theorem InputKept.of_same {s t : State} (i : Instr) (h : t.inp = s.inp) : InputKept i s t :=
  ⟨by rw [h], fun _ _ => by rw [h]⟩

/-- A token keeps the input, and the output altogether (log 3). -/
theorem streams_of_token {i : Instr} {s t : State} (hc : i.isCommand = false) (h : exec i s = .next t) :
    InputKept i s t ∧ (Defined t → StreamsKept i s t) := by
  have hk := tokenBody_keeps i s
  have hw := tokenBody_rewound i s
  have hinp : ¬ (i = .nop ∨ i = .build ∨ i = .gencode ∨ ∃ hm, i = .wrhdr hm) := by
    rintro (rfl | rfl | rfl | ⟨hm, rfl⟩) <;> cases hc
  rcases token_ends hc h with rfl | ⟨u, hu, ht⟩ | ⟨e, info, u, hu, rfl⟩
  · exact ⟨.of_same i rfl, fun _ => .of_same i rfl rfl⟩
  · rw [hu] at hk hw
    obtain ⟨-, houtp, -⟩ := tokenBody_frame hu
    have hkept : StreamsKept i s u := ⟨fun hi => absurd hi hinp, fun _ => houtp, by rw [houtp]⟩
    rcases ht with rfl | rfl
    · exact ⟨⟨hk.bytes, fun _ _ => hw⟩, fun _ => hkept⟩
    · exact ⟨⟨hk.bytes, fun _ _ => hw⟩, fun _ => hkept⟩
  · rw [hu] at hk hw
    exact ⟨⟨hk.2.bytes, fun _ _ => hw⟩, fun hd => absurd hd (not_defined_raiseExec hk.1)⟩

/-- Settles O51: outside its completion or a wait an execution leaves the streams alone, and the bodies move the cursor
and write as their commands may. -/
theorem streamsHaveTheirUsers : Obligations.StreamsHaveTheirUsers := by
  unfold Obligations.StreamsHaveTheirUsers
  intro i s t h hl
  suffices hkept : InputKept i s t ∧ (Defined t → StreamsKept i s t) from ⟨hkept.1.1, hkept.1.2, hkept.2⟩
  cases hc : i.isCommand with
  | false => exact streams_of_token hc h
  | true =>
    by_cases hn : i = .nop
    · subst hn
      rcases nop_cases h with rfl | rfl <;> exact ⟨.of_same _ rfl, fun _ => .of_same _ rfl rfl⟩
    have hrewound : i ≠ .encode → (∀ hm, i ≠ .compress hm) → (bodyOf i (accept s)).KeepsRewound (accept s) :=
      fun henc hcomp => bodyOf_rewound henc hcomp (accept s)
    cases exec_cases hc hn hl h with
    | dropped _ ht => rw [ht]; exact ⟨.of_same i rfl, fun _ => .of_same i rfl rfl⟩
    | ignored _ _ ht => rw [ht]; exact ⟨.of_same i rfl, fun _ => .of_same i rfl rfl⟩
    | outOfPhase _ _ _ ht => rw [ht]; exact ⟨.of_same i rfl, fun _ => .of_same i rfl rfl⟩
    | countHeader _ _ _ _ ht => rw [ht]; exact ⟨.of_same i rfl, fun _ => .of_same i rfl rfl⟩
    | waits _ _ _ _ u hu _ ht => rw [ht]; exact ⟨.of_same i rfl, fun _ => streamsKept_hold hc hu⟩
    | completed _ _ _ u hu hk ht =>
      have hkept : StreamsKept i (accept s) u := streamsKept_of_bodyOf hc hu
      rw [hu] at hrewound
      rw [ht]
      exact ⟨⟨hk.bytes, hrewound⟩, fun _ => hkept⟩
    | raised _ _ _ _ _ _ hu hx hk ht =>
      rw [hu] at hrewound
      rw [ht]
      exact ⟨⟨hk.bytes, hrewound⟩, fun hd => absurd hd (not_defined_raiseExec hx)⟩

end Sys2Proof.Machine

/-! PROOFS. The invariant of a run (rules R24, R28, R34, R35, R43, R177, R271): from a command accepted in it no body
faults, and what a body leaves when it ends well is what the next phase asks for. -/

namespace Sys2Proof.Machine

/-! ## An accepted command -/

/-- `i` has been accepted in a run and its body starts from `a` (rules R110, R111). -/
structure Accepted (i : Instr) (a : State) : Prop where
  command  : i.isCommand = true
  notNop   : i ≠ .nop
  notClear : i ≠ .clear
  legal    : a.phase ∈ legalPhases i
  header   : i.headerMode ≠ some .countHeader
  busy     : a.busy = true
  done     : a.done = false
  err      : a.err = .noError
  errinfo  : a.errinfo = 0
  trav     : a.trav = Transient.empty
  waiting  : a.waiting = none
  packer   : a.outp.Coherent
  holds    : PhaseHolds a

/-- A body's end from which the run goes on: no fault, and an end without error leaves what the next phase asks for. -/
def Run.Sound (i : Instr) : Run → Prop
  | .ok u => u.outp.Coherent ∧ PhaseHolds (complete i u)
  | .err _ _ _ => True
  | .wait _ => True
  | .fault _ => False

theorem sameData_answering (s : State) : SameData s (answering s) := ⟨rfl, rfl, rfl, rfl, rfl, rfl, rfl, rfl⟩

theorem Accepted.answering {i : Instr} {a : State} (h : Accepted i a) : Accepted i (answering a) :=
  { h with holds := phaseHolds_congr (sameData_answering a) h.holds }

/-- It is enough to look at collaborators that answer (rule R272). -/
theorem Run.Sound.of_follows {i : Instr} {r r' : Run} (h : r.Sound i) (hf : r.Follows r') : r'.Sound i := by
  cases r' with
  | ok u =>
    have hr : r = .ok (Machine.answering u) := hf
    rw [hr] at h
    obtain ⟨hcoherent, hholds⟩ := h
    exact ⟨hcoherent, phaseHolds_congr (s := complete i (Machine.answering u)) ⟨rfl, rfl, rfl, rfl, rfl, rfl, rfl, rfl⟩
      hholds⟩
  | err => trivial
  | wait => trivial
  | fault f =>
    have hr : r = .fault f := hf
    rw [hr] at h
    exact h

/-! ## The bodies, with source and sink answering -/

/-- In phase IDLE nothing has been read, written or counted. -/
theorem PhaseHolds.idle {s : State} (h : PhaseHolds s) (hp : s.phase = .idle) :
    NotCounted s ∧ s.tree = Tree.empty ∧ s.pq = [] ∧ NoCodes s ∧ NothingIn s ∧ NothingOut s := by
  rwa [PhaseHolds, hp] at h

theorem countBody_sound {s : State} (h : PhaseHolds s) (hp : s.phase = .idle) (ha : s.inp.stall = none)
    (hc : s.outp.Coherent) : (countBody s).Sound .count := by
  obtain ⟨-, htree, hpq, hcode, hin, hout⟩ := h.idle hp
  obtain ⟨hfits, hlong⟩ := countBody_spec s (congrArg InStream.ipos hin) ha
  rcases Nat.lt_or_ge Config.maxLen s.inp.bytes.length with hl | hl
  · obtain ⟨freq, inlen, inp, hbody, -⟩ := hlong hl
    rw [hbody]
    trivial
  · obtain ⟨freq, inlen, hbody, heach, htotal⟩ := hfits hl
    rw [hbody]
    exact ⟨hc, ⟨heach, htotal, hl⟩, htree, hpq, hcode, hout⟩

theorem buildBody_sound {s : State} (h : PhaseHolds s) (hp : s.phase = .counted) (hc : s.outp.Coherent) :
    (buildBody s).Sound .build := by
  rw [PhaseHolds, hp] at h
  obtain ⟨⟨heach, htotal, hbound⟩, htree, -, hcode, hout⟩ := h
  obtain ⟨t, q, hbody, hok⟩ := buildBody_spec s htree
  rw [hbody]
  exact ⟨hc, ⟨heach, htotal, hbound⟩, hok.tree, hok.queue, hcode, hout⟩

theorem gencodeBody_sound {s : State} (h : PhaseHolds s) (hp : s.phase = .built) (hc : s.outp.Coherent) :
    (gencodeBody s).Sound .gencode := by
  rw [PhaseHolds, hp] at h
  obtain ⟨⟨heach, htotal, hbound⟩, ⟨sh, hsh, hused⟩, hroot, -, hout⟩ := h
  rw [gencodeBody_of_tree hsh.spelled (height_of_treeOk hsh.toTreeOk (nnodes_le_of_treeOk hsh.toTreeOk))]
  exact ⟨hc, ⟨heach, htotal, hbound⟩, ⟨sh, hsh, hused, codesOk_recordPaths hsh.different hsh.symbols _⟩, hroot, hout⟩

theorem wrhdrBody_sound {s : State} {hm : HeaderMode} (h : PhaseHolds s) (hp : s.phase = .coded)
    (ha : s.outp.stall = none) (hc : s.outp.Coherent) : (wrhdrBody s).Sound (.wrhdr hm) := by
  rw [PhaseHolds, hp] at h
  obtain ⟨⟨heach, htotal, hbound⟩, ⟨sh, hsh, hused, hcodes⟩, hroot, hout⟩ := h
  rw [wrhdrBody_of_tree hsh.spelled (height_of_treeOk hsh.toTreeOk (nnodes_le_of_treeOk hsh.toTreeOk)),
    drain_answering ha]
  generalize hbs : bitsOf 32 Config.magicTree.toNat ++ sh.bits = bs
  obtain ⟨hcoherent, hwritten⟩ := writeList_coherent hc bs
  have hnothing : s.outp.written = [] := by
    rw [NothingOut] at hout
    rw [hout]
    rfl
  rw [hnothing, List.nil_append] at hwritten
  exact ⟨hcoherent, ⟨heach, htotal, hbound⟩, ⟨sh, hsh, hused, hcodes, hwritten.trans hbs.symm⟩, hroot⟩

/-- In a run every byte of the input has a code once there are codes (rule R190). -/
theorem valid_codeOfByte {s : State} {sh : Shape} (hcount : Counted s) (hsh : BuiltOk s.tree sh)
    (hused : UsedLeaves s sh) (hcodes : CodesOk s.code sh) :
    ∀ r ∈ s.inp.bytes, (codeOfByte s.code r).valid = true := by
  intro r hr
  refine (code_of_leaf hsh.toTreeOk hcodes (hused.mem_iff.2 ?_)).2
  exact List.mem_append_left _ (mem_usedValues (freqAt_ne_zero_of_mem hcount.each hr))

theorem encodeBody_sound {s : State} (h : PhaseHolds s) (hp : s.phase = .hdrwr) (ha : Answering s)
    (hc : s.outp.Coherent) : (encodeBody s).Sound .encode := by
  rw [PhaseHolds, hp] at h
  obtain ⟨hcount, ⟨sh, hsh, hused, hcodes, -⟩, hroot⟩ := h
  rw [encodeBody_done s ha.1 (valid_codeOfByte hcount hsh hused hcodes), drain_answering ha.2]
  obtain ⟨hcoherent, haligned, -, -⟩ := flush_coherent (writeList_coherent hc
    ((s.inp.bytes.flatMap fun r => codeBitList (codeOfByte s.code r)) ++ codeBitList (codeAt s.code Config.eos))).1
  exact ⟨hcoherent, ⟨hcount.each, hcount.total, hcount.bound⟩, ⟨sh, hsh, hused, hcodes⟩, hroot, haligned⟩

theorem rdhdrBody_sound {s : State} {hm : HeaderMode} (h : PhaseHolds s) (hp : s.phase = .idle)
    (ha : s.inp.stall = none) (hc : s.outp.Coherent) : (rdhdrBody s).Sound (.rdhdr hm) := by
  obtain ⟨hcounts, htree, hpq, hcode, hin, hout⟩ := h.idle hp
  cases hread : readHeader s.inp s.tree with
  | err e info inp =>
    obtain ⟨tree, trav, hbody⟩ := rdhdrBody_of_err ha hread
    rw [hbody]
    trivial
  | node i inp t =>
    obtain ⟨sh, rest, hbits, hleaves, hvalues⟩ := bits_of_readHeader hread
    obtain ⟨u, hread', hok, hroot, -, -⟩ := readHeader_of_bits hbits hleaves hvalues htree
    obtain ⟨rfl, rfl, rfl⟩ := Read.node.inj (hread.symm.trans hread')
    have hipos : s.inp.ipos + (32 + sh.bits.length) = 31 + 11 * sh.leafCount := by
      have hstart : s.inp.ipos = 0 := congrArg InStream.ipos hin
      have hlength := sh.length_bits
      omega
    rw [rdhdrBody_of_node ha hread]
    exact ⟨hc, hcounts, ⟨sh, hok, hipos⟩, hroot, hpq, hcode, hout⟩

theorem fault_of_drain {s : State} {r : Run} {f : Fault} (h : r.drain s = .fault f) : r = .fault f := by
  rcases drain_cases s r with hdrain | ⟨u, hdrain⟩ <;> rw [hdrain] at h
  · exact h
  · cases h

theorem decodeBody_not_fault (s : State) (f : Fault) : decodeBody s ≠ .fault f := by
  intro h
  rw [decodeBody] at h
  split_ifs at h
  have hloop := fault_of_drain h
  split at hloop <;> cases hloop

/-- DECODE's body never faults, and it ends well on a byte boundary with the tables as they were (rule R201). -/
theorem decodeBody_sound {s : State} {i : Instr} (hi : nextPhase i s.phase = .decdone) (hcounts : NotCounted s)
    (htree : ∃ sh, TreeOk s.tree sh) (hroot : s.tree.root.index = 0) (hpq : s.pq = []) (hcode : NoCodes s)
    (hc : s.outp.Coherent) : (decodeBody s).Sound i := by
  cases hbody : decodeBody s with
  | ok u =>
    obtain ⟨bs, inp, trav, rfl, -, -⟩ := decodeBody_frame hbody
    obtain ⟨hcoherent, haligned, -, -⟩ := flush_coherent (writeList_coherent hc bs).1
    refine ⟨hcoherent, ?_⟩
    rw [PhaseHolds, complete_phase, hi]
    exact ⟨hcounts, htree, hroot, hpq, hcode, haligned⟩
  | err => trivial
  | wait => trivial
  | fault f => exact absurd hbody (decodeBody_not_fault s f)

theorem compressBody_sound {s : State} {hm : HeaderMode} (h : PhaseHolds s) (hp : s.phase = .idle) (ha : Answering s)
    (hc : s.outp.Coherent) : (compressBody s).Sound (.compress hm) := by
  obtain ⟨-, htree, -, -, hin, -⟩ := h.idle hp
  have hipos : s.inp.ipos = 0 := congrArg InStream.ipos hin
  rcases Nat.lt_or_ge Config.maxLen s.inp.bytes.length with hl | hl
  · obtain ⟨u, hbody⟩ := compressBody_tooLong hipos ha.1 hl
    rw [hbody]
    trivial
  · obtain ⟨freq, inlen, t, q, code, sh, hbody, heach, htotal, hok, hsh, hused, hcodes⟩ :=
      compressBody_spec s ha hipos hl htree
    rw [hbody]
    obtain ⟨hcoherent, haligned, -, -⟩ :=
      flush_coherent (writeList_coherent hc (streamBits sh code s.inp.bytes)).1
    exact ⟨hcoherent, ⟨heach, htotal, hl⟩, ⟨sh, hsh, hused, hcodes⟩, hok.queue, haligned⟩

theorem decompressBody_sound {s : State} {hm : HeaderMode} (h : PhaseHolds s) (hp : s.phase = .idle)
    (ha : s.inp.stall = none) (hc : s.outp.Coherent) : (decompressBody s).Sound (.decompress hm) := by
  have hread := rdhdrBody_sound (hm := hm) h hp ha hc
  rw [decompressBody]
  cases hbody : rdhdrBody s with
  | ok u =>
    rw [hbody] at hread
    obtain ⟨hcoherent, hcounts, ⟨sh, hsh, -⟩, hroot, hpq, hcode, -⟩ := hread
    exact decodeBody_sound rfl hcounts ⟨sh, hsh⟩ hroot hpq hcode hcoherent
  | err => trivial
  | wait => trivial
  | fault f =>
    rw [hbody] at hread
    exact hread

/-- The body of an accepted command ends soundly, whether its collaborators answer or not. -/
theorem Accepted.sound {i : Instr} {a : State} (h : Accepted i a) : (bodyOf i a).Sound i := by
  refine Run.Sound.of_follows ?_ (bodyOf_answering i a)
  obtain ⟨hcommand, hnop, hclear, hlegal, -, -, -, -, -, -, -, hc, hholds⟩ := h.answering
  cases i with
  | nop => exact absurd rfl hnop
  | clear => exact absurd rfl hclear
  | count => exact countBody_sound hholds (List.mem_singleton.1 hlegal) rfl hc
  | build => exact buildBody_sound hholds (List.mem_singleton.1 hlegal) hc
  | gencode => exact gencodeBody_sound hholds (List.mem_singleton.1 hlegal) hc
  | wrhdr hm => exact wrhdrBody_sound hholds (List.mem_singleton.1 hlegal) rfl hc
  | encode => exact encodeBody_sound hholds (List.mem_singleton.1 hlegal) ⟨rfl, rfl⟩ hc
  | rdhdr hm => exact rdhdrBody_sound hholds (List.mem_singleton.1 hlegal) rfl hc
  | decode =>
    rw [PhaseHolds, List.mem_singleton.1 hlegal] at hholds
    obtain ⟨hcounts, ⟨sh, hsh, -⟩, hroot, hpq, hcode, -⟩ := hholds
    exact decodeBody_sound rfl hcounts ⟨sh, hsh⟩ hroot hpq hcode hc
  | compress hm => exact compressBody_sound hholds (List.mem_singleton.1 hlegal) ⟨rfl, rfl⟩ hc
  | decompress hm => exact decompressBody_sound hholds (List.mem_singleton.1 hlegal) rfl hc
  | magic | internal | leaf => cases hcommand

/-! ## The ends of an accepted command -/

/-- The invariant is kept, and the step is made. -/
def GoesOn (o : Host.Outcome State Fault Refusal) : Prop := ∃ t, o = .next t ∧ RunInv t

theorem runInv_hold {i : Instr} {a : State} (h : Accepted i a) (u : State) : RunInv (hold i a u) where
  flags :=
    { info := fun _ => h.errinfo
      doneIdle := fun hd => by rw [hold_done, h.done] at hd; cases hd
      busyClean := fun _ => h.err
      transient := h.trav
      waits := h.busy.symm }
  waiting w hw := by
    cases hw
    exact ⟨h.command, h.notNop, h.notClear, h.legal, h.header⟩
  packer _ := h.packer
  phase _ := phaseHolds_congr (s := a) ⟨rfl, rfl, rfl, rfl, rfl, rfl, rfl, rfl⟩ h.holds

theorem runInv_complete {i : Instr} {a u : State} (h : Accepted i a) (hk : Keeps a u) (hc : u.outp.Coherent)
    (hp : PhaseHolds (complete i u)) : RunInv (complete i u) := by
  have hwaiting : (complete i u).waiting = none := hk.waiting.trans h.waiting
  exact
    { flags :=
        { info := fun _ => hk.errinfo.trans h.errinfo
          doneIdle := fun _ => ⟨rfl, hk.err.trans h.err⟩
          busyClean := nofun
          transient := rfl
          waits := by rw [hwaiting]; rfl }
      waiting := fun w hw => by rw [hwaiting] at hw; cases hw
      packer := fun _ => by rw [beforeCommand_of_none hwaiting]; exact hc
      phase := fun _ => by rw [beforeCommand_of_none hwaiting]; exact hp }

theorem runInv_raiseExec {u : State} {e : ErrCode} (info : Word) (hx : e.InExecution) (hw : u.waiting = none) :
    RunInv (raiseExec e info u) where
  flags :=
    { info := fun he => absurd he hx.1
      doneIdle := nofun
      busyClean := nofun
      transient := rfl
      waits := congrArg Option.isSome hw }
  waiting w h := by
    rw [show (raiseExec e info u).waiting = none from hw] at h
    cases h
  packer hd := absurd hd (not_defined_raiseExec hx)
  phase hd := absurd hd (not_defined_raiseExec hx)

/-- An accepted command completes, raises or waits within the invariant (rules R74, R112, R241). -/
theorem Accepted.goesOn {i : Instr} {a : State} (h : Accepted i a) : GoesOn (settle i a (bodyOf i a)) := by
  have hsound := h.sound
  have hkeeps := bodyOf_keeps i a
  cases hbody : bodyOf i a with
  | ok u =>
    rw [hbody] at hsound hkeeps
    exact ⟨_, rfl, runInv_complete h hkeeps hsound.1 hsound.2⟩
  | err e info u =>
    rw [hbody] at hkeeps
    obtain ⟨hx, hk⟩ := hkeeps
    exact ⟨_, rfl, runInv_raiseExec info hx (hk.waiting.trans h.waiting)⟩
  | wait u => exact ⟨_, rfl, runInv_hold h u⟩
  | fault f =>
    rw [hbody] at hsound
    exact hsound.elim

/-! ## Acts of the host -/

/-- The invariant survives a change of the pins, of CTRL, of CMDDROP and of the free counter. -/
theorem RunInv.of_pins {s : State} (h : RunInv s) (cmddrop ie : Bool) (port : Port) (free : Nat) :
    RunInv { s with cmddrop := cmddrop, ie := ie, port := port, free := free } :=
  h.congr ⟨rfl, rfl, rfl, rfl, rfl, rfl, rfl, rfl⟩ rfl rfl rfl rfl rfl rfl

theorem RunInv.dropCommand {s : State} (h : RunInv s) : RunInv (dropCommand s) := h.of_pins true s.ie s.port s.free

/-- An error raised at dispatch leaves tables and streams defined (rules R110, R242). -/
theorem RunInv.raise {s : State} {e : ErrCode} (h : RunInv s) (hb : s.busy = false) (he : s.err = .noError)
    (hx : e.atDispatch = true) (info : Word) : RunInv (raise e info s) := by
  have hwaiting := h.not_waiting hb
  have hne : e ≠ .noError := by
    rintro rfl
    cases hx
  exact
    { flags :=
        { info := fun hnone => absurd hnone hne
          doneIdle := nofun
          busyClean := nofun
          transient := h.flags.transient
          waits := congrArg Option.isSome hwaiting }
      waiting := h.waiting
      packer := fun _ => by
        rw [beforeCommand_of_none (s := Machine.raise e info s) hwaiting]
        exact h.coherent hb (.inl he)
      phase := fun _ => by
        rw [beforeCommand_of_none (s := Machine.raise e info s) hwaiting]
        refine phaseHolds_congr (s := s) ⟨rfl, rfl, rfl, rfl, rfl, rfl, rfl, rfl⟩ ?_
        have hholds := h.phase (.inl he)
        rwa [h.at_rest hb] at hholds }

/-- A command accepted in a run (rule R110 step 7). -/
theorem RunInv.accepted {s : State} {i : Instr} (h : RunInv s) (hc : i.isCommand = true) (hn : i ≠ .nop)
    (hl : i ≠ .clear) (hb : s.busy = false) (he : s.err = .noError) (hp : s.phase ∈ legalPhases i)
    (hm : i.headerMode ≠ some .countHeader) : Accepted i (accept s) where
  command := hc
  notNop := hn
  notClear := hl
  legal := hp
  header := hm
  busy := rfl
  done := rfl
  err := he
  errinfo := h.flags.info he
  trav := h.flags.transient
  waiting := h.not_waiting hb
  packer := h.coherent hb (.inl he)
  holds := by
    have hholds := h.phase (.inl he)
    rw [h.at_rest hb] at hholds
    exact phaseHolds_congr (s := s) ⟨rfl, rfl, rfl, rfl, rfl, rfl, rfl, rfl⟩ hholds

theorem runInv_newSession (ie : Bool) (s : State) (port : Port) : RunInv { newSession ie s with port := port } :=
  runInv_fresh rfl rfl rfl rfl rfl ⟨rfl, rfl⟩ rfl rfl rfl rfl rfl rfl rfl

/-- A command written in a run goes on within the invariant, whatever dispatch does with it. -/
theorem RunInv.exec {s : State} {i : Instr} (h : RunInv s) (hc : i.isCommand = true) : GoesOn (exec i s) := by
  cases hb : s.busy with
  | true => exact ⟨_, exec_of_busy hc hb, h.dropCommand⟩
  | false =>
    by_cases hn : i = .nop
    · exact ⟨s, by rw [hn, exec_nop_of_not_busy hb], h⟩
    by_cases hl : i = .clear
    · exact ⟨clearSession s, by rw [hl, exec_clear_of_not_busy hb], runInv_newSession _ _ _⟩
    rw [exec_issue hc hn hl]
    rcases issue_cases i (bodyOf i) s with ⟨hbusy, -⟩ | ⟨-, -, ht⟩ | ⟨-, he, -, ht⟩ | ⟨-, he, -, -, ht⟩ |
      ⟨-, he, hp, hm, ht⟩
    · rw [hb] at hbusy
      cases hbusy
    · exact ⟨s, ht, h⟩
    · exact ⟨_, ht, h.raise hb he rfl _⟩
    · exact ⟨_, ht, h.raise hb he rfl _⟩
    · rw [ht]
      exact (h.accepted hc hn hl hb he hp hm).goesOn

theorem RunInv.writeCmd {s : State} (h : RunInv s) (w : Word) : GoesOn (writeCmd w s) := by
  cases hd : decodeWord w with
  | ok i =>
    rw [writeCmd_ok hd]
    exact h.exec (isCommand_of_decode hd)
  | error e =>
    rw [writeCmd_illegal (by simp [hd])]
    refine ⟨_, rfl, ?_⟩
    rcases issueIllegal_cases w s with ⟨-, ht⟩ | ⟨-, -, ht⟩ | ⟨hb, he, ht⟩ <;> rw [ht]
    · exact h.dropCommand
    · exact h
    · exact h.raise hb he rfl w

theorem RunInv.hostWrite {s : State} (h : RunInv s) (a : RegAddr) (be : BitVec 4) (w : Word) :
    GoesOn (hostWrite a be w s) := by
  rcases hostWrite_cases a be w s with ⟨-, -, ht⟩ | ⟨x, ie, ht⟩ <;> rw [ht]
  · exact (h.of_pins s.cmddrop s.ie _ s.free).writeCmd w
  · exact ⟨_, rfl, h.of_pins s.cmddrop ie _ s.free⟩

theorem RunInv.hostRead {s : State} (h : RunInv s) (a : RegAddr) (be : BitVec 4) : RunInv (hostRead a be s) := by
  obtain ⟨ans, k, ht, -⟩ := hostRead_cases a be s
  rw [ht]
  exact h.of_pins s.cmddrop s.ie _ k

theorem RunInv.setResetPin {s : State} (h : RunInv s) (level : Bool) : RunInv (setResetPin level s) := by
  cases level with
  | true => exact runInv_newSession _ _ _
  | false => exact h.of_pins s.cmddrop s.ie _ s.free

/-- A pair attached before the first data command changes an input of which nothing has been read (rules R263, R264). -/
theorem RunInv.attach_fresh {s : State} (h : RunInv s) (hb : s.busy = false) (he : s.err = .noError)
    (hp : s.phase = .idle) (p : Streams) :
    RunInv { s with
      inp := { s.inp with bytes := p.bytes, stall := p.source }, outp := { s.outp with stall := p.sink } } := by
  obtain ⟨hcounts, htree, hpq, hcode, hin, hout⟩ := h.idle hb (.inl he) hp
  have hwaiting := h.not_waiting hb
  refine ⟨⟨h.flags.info, h.flags.doneIdle, h.flags.busyClean, h.flags.transient, h.flags.waits⟩, h.waiting,
    fun _ => ?_, fun _ => ?_⟩ <;> rw [beforeCommand_of_none (by exact hwaiting)]
  · exact h.coherent hb (.inl he)
  · rw [PhaseHolds, hp]
    refine ⟨hcounts, htree, hpq, hcode, ?_, ?_⟩
    · rw [NothingIn] at hin ⊢
      rw [hin]
      rfl
    · rw [NothingOut] at hout ⊢
      rw [hout]
      rfl

theorem RunInv.attachStreams {s : State} (h : RunInv s) (p : Streams) : RunInv (attachStreams p s) := by
  rw [Machine.attachStreams]
  split_ifs with hfresh
  · obtain ⟨⟨hphase, herr⟩, hbusy⟩ : (s.phase = .idle ∧ s.err = .noError) ∧ s.busy = false := by
      simpa [freshSession] using hfresh
    exact h.attach_fresh hbusy herr hphase p
  · exact h.of_pins s.cmddrop s.ie _ s.free

/-- Source and sink that go on leave tables and streams as they are (rule R74). -/
theorem RunInv.moveStalls {s : State} (h : RunInv s) (source : Option SourceStall) (sink : Option Nat) :
    RunInv (moveStalls source sink s) :=
  h.congr ⟨rfl, rfl, rfl, rfl, rfl, rfl, rfl, rfl⟩ rfl rfl rfl rfl rfl rfl

/-- A waiting command that goes on is taken again from its acceptance (rule R74, log 4). -/
theorem RunInv.accepted_again {s : State} {w : Waiting} (h : RunInv s) (hw : s.waiting = some w)
    (source : Option SourceStall) (sink : Option Nat) :
    Accepted w.cmd (Machine.moveStalls source sink (beforeCommand s)) := by
  obtain ⟨hcommand, hnop, hclear, hlegal, hheader⟩ := h.waiting w hw
  have hbusy : s.busy = true := by rw [← h.flags.waits, hw]; rfl
  have herr : s.err = .noError := h.flags.busyClean hbusy
  have hdone : s.done = false := by
    by_contra hdone
    have hidle := (h.flags.doneIdle (by simpa using hdone)).1
    rw [hbusy] at hidle
    cases hidle
  exact
    { command := hcommand
      notNop := hnop
      notClear := hclear
      legal := by simpa using hlegal
      header := hheader
      busy := by simpa using hbusy
      done := by simpa using hdone
      err := by simpa using herr
      errinfo := by simpa using h.flags.info herr
      trav := by simpa using h.flags.transient
      waiting := by simp
      packer := h.packer (.inl herr)
      holds := phaseHolds_congr (s := beforeCommand s) ⟨rfl, rfl, rfl, rfl, rfl, rfl, rfl, rfl⟩ (h.phase (.inl herr)) }

theorem RunInv.goOn {s : State} (h : RunInv s) (source : Option SourceStall) (sink : Option Nat) :
    GoesOn (goOn source sink s) := by
  rw [Machine.goOn]
  cases hw : s.waiting with
  | none => exact ⟨_, rfl, h.moveStalls source sink⟩
  | some w => exact (h.accepted_again hw source sink).goesOn

/-- One act of the host or the platform. -/
theorem RunInv.hostStep {s : State} (h : RunInv s) (op : HostOp) : GoesOn (hostStep op s) := by
  cases op with
  | rst level => exact ⟨_, rfl, h.setResetPin level⟩
  | attach p => exact ⟨_, rfl, h.attachStreams p⟩
  | goOn source sink => exact h.goOn source sink
  | read a be =>
    refine ⟨_, rfl, ?_⟩
    split_ifs
    · exact h.of_pins s.cmddrop s.ie _ s.free
    · exact h.hostRead a be
  | write a be w =>
    rw [Machine.hostStep]
    split_ifs
    · exact ⟨_, rfl, h.of_pins s.cmddrop s.ie _ s.free⟩
    · exact h.hostWrite a be w

/-- Between commands the reader is not at work, so a step of a run is the next act of the host, if there is one. -/
theorem RunInv.step {s : State} (h : RunInv s) : GoesOn (step s) := by
  rw [h.step_eq_hostTurn]
  cases hop : s.port.host with
  | nil =>
    rw [hostTurn, hop]
    exact ⟨s, rfl, h⟩
  | cons op rest =>
    rw [hostTurn_cons hop]
    exact (h.of_pins s.cmddrop s.ie _ s.free).hostStep op

/-- Settles O53: every act of the host keeps the invariant, a command's because its body leaves what the next phase
asks for. -/
theorem stepsKeepTheInvariant : Obligations.StepsKeepTheInvariant := by
  unfold Obligations.StepsKeepTheInvariant
  intro s t hi h
  obtain ⟨u, hu, hinv⟩ := hi.step
  cases hu.symm.trans h
  exact hinv

/-- Settles O54: the bodies' walks and the header are bounded by the tree invariant, so no body faults. -/
theorem noStepOfARunStops : Obligations.NoStepOfARunStops := by
  unfold Obligations.NoStepOfARunStops
  intro s hi
  obtain ⟨t, ht, -⟩ := hi.step
  exact ⟨t, ht⟩

end Sys2Proof.Machine

/-! PROOFS. Waiting (rules R74, R112, R272, R273, log 4): a legal command finishes or waits, what a waiting command
shows, and where COUNT, ENCODE and WRHDR wait. -/

namespace Sys2Proof.Machine

/-! ## A command that waits -/

theorem exec_eq_settle {i : Instr} {s : State} (hc : i.isCommand = true) (hn : i ≠ .nop) (hl : i ≠ .clear)
    (hb : s.busy = false) (he : s.err = .noError) (hp : s.phase ∈ legalPhases i)
    (hm : i.headerMode ≠ some .countHeader) : exec i s = settle i (accept s) (bodyOf i (accept s)) := by
  rw [exec_issue hc hn hl, issue_legal _ hb he hp hm]

/-- A body does not end exactly where it waits. -/
theorem not_ends_iff (r : Run) : ¬ r.Ends ↔ ∃ u, r = .wait u := by
  cases r with
  | wait u => exact ⟨fun _ => ⟨u, rfl⟩, fun _ => id⟩
  | ok | err | fault => exact ⟨fun h => absurd trivial h, fun ⟨_, hu⟩ => nomatch hu⟩

/-- An accepted command is still running exactly when its body waits, and is then held at its acceptance. -/
theorem Accepted.busy_iff {i : Instr} {a t : State} (h : Accepted i a) (ht : settle i a (bodyOf i a) = .next t) :
    t.busy = true ↔ ∃ u, bodyOf i a = .wait u ∧ t = hold i a u := by
  rcases settle_bodyOf ht with ⟨u, hu, -, rfl⟩ | ⟨u, hu, -, rfl⟩ | ⟨e, info, u, hu, -, -, rfl⟩
  · exact ⟨fun _ => ⟨u, hu, rfl⟩, fun _ => h.busy⟩
  · exact ⟨nofun, fun ⟨v, hv, _⟩ => nomatch hu.symm.trans hv⟩
  · exact ⟨nofun, fun ⟨v, hv, _⟩ => nomatch hu.symm.trans hv⟩

theorem Accepted.busy_iff_not_ends {i : Instr} {a t : State} (h : Accepted i a)
    (ht : settle i a (bodyOf i a) = .next t) : t.busy = true ↔ ¬ (bodyOf i a).Ends := by
  rw [h.busy_iff ht, not_ends_iff]
  constructor
  · rintro ⟨u, hu, -⟩
    exact ⟨u, hu⟩
  · rintro ⟨u, hu⟩
    rw [hu] at ht
    cases ht
    exact ⟨u, hu, rfl⟩

/-! ## What a body has signalled -/

theorem Run.Signals.drain {sig : List Signal} {s : State} {r : Run} (h : r.Signals sig) : (r.drain s).Signals sig := by
  rw [Run.drain]
  split
  · exact h
  · cases r with
    | ok t => rw [Run.upTo]; split <;> exact h
    | err e info t => rw [Run.upTo]; split <;> exact h
    | wait t => exact h
    | fault x => trivial

theorem Run.Signals.andThen {sig : List Signal} {r : Run} {f : State → Run} (h : r.Signals sig)
    (hf : ∀ t, (f t).Signals t.port.signals) : (r.andThen f).Signals sig := by
  cases r with
  | ok t =>
    have hft := hf t
    rwa [show t.port.signals = sig from h] at hft
  | err | wait => exact h
  | fault => trivial

theorem countBody_signals (s : State) : (countBody s).Signals s.port.signals := by
  rw [countBody]
  split <;> exact rfl

theorem buildBody_signals (s : State) : (buildBody s).Signals s.port.signals := rfl

theorem gencodeBody_signals (s : State) : (gencodeBody s).Signals s.port.signals := by
  rw [gencodeBody]
  split
  · trivial
  · exact rfl

theorem wrhdrBody_signals (s : State) : (wrhdrBody s).Signals s.port.signals := by
  rw [wrhdrBody]
  split
  · trivial
  · exact Run.Signals.drain rfl

theorem decodeBody_signals (s : State) : (decodeBody s).Signals s.port.signals := by
  rw [decodeBody]
  split
  · exact rfl
  · refine Run.Signals.drain ?_
    split <;> exact rfl

theorem tokenBody_signals (i : Instr) (s : State) : (tokenBody i s).Signals s.port.signals := by
  cases i with
  | internal => rw [tokenBody, internalToken]; split <;> exact rfl
  | leaf v => rw [tokenBody, leafToken]; split_ifs <;> exact rfl
  | _ => exact rfl

theorem readToken_signals (s : State) : (readToken s).Signals s.port.signals := by
  rw [readToken]
  split
  · exact rfl
  · exact rfl
  · exact rfl
  · exact tokenBody_signals _ s

theorem readTokens_signals (fuel : Nat) (s : State) : (readTokens fuel s).Signals s.port.signals := by
  induction fuel generalizing s with
  | zero =>
    rw [readTokens]
    split
    · exact rfl
    · trivial
  | succ n ih =>
    rw [readTokens]
    split
    · exact rfl
    · exact (readToken_signals s).andThen ih

theorem rdhdrBody_signals (s : State) : (rdhdrBody s).Signals s.port.signals := readTokens_signals _ _

/-- Before its rewind COMPRESS signals nothing (rules R67, R205). -/
theorem compressBody_wait_signals {s u : State} (h : compressBody s = .wait u) :
    u.port.signals = s.port.signals ∨ u.port.signals = s.port.signals ++ [.inRewind] := by
  have hbefore := (((countBody_signals s).andThen buildBody_signals).andThen gencodeBody_signals).andThen
    wrhdrBody_signals
  rw [compressBody] at h
  generalize (((countBody s).andThen buildBody).andThen gencodeBody).andThen wrhdrBody = r at h hbefore
  cases r with
  | ok v =>
    have hencode := encodeBody_signals v
    rw [show encodeBody v = .wait u from h, show v.port.signals = s.port.signals from hbefore] at hencode
    exact .inr hencode
  | wait v =>
    cases h
    exact .inl hbefore
  | err | fault => cases h

/-- A waiting command has signalled nothing or, in ENCODE's pass, its rewind (rules R67, R74). -/
theorem signals_of_wait {i : Instr} {s u : State} (h : bodyOf i s = .wait u) :
    u.port.signals = s.port.signals ∨ u.port.signals = s.port.signals ++ [.inRewind] := by
  have hquiet : (bodyOf i s).Signals s.port.signals → u.port.signals = s.port.signals := by
    rw [h]
    exact id
  cases i with
  | count => exact .inl (hquiet (countBody_signals s))
  | gencode => exact .inl (hquiet (gencodeBody_signals s))
  | wrhdr hm => exact .inl (hquiet (wrhdrBody_signals s))
  | rdhdr hm => exact .inl (hquiet (rdhdrBody_signals s))
  | decode => exact .inl (hquiet (decodeBody_signals s))
  | decompress hm => exact .inl (hquiet ((rdhdrBody_signals s).andThen decodeBody_signals))
  | compress hm => exact compressBody_wait_signals h
  | encode =>
    have hencode := encodeBody_signals s
    rw [show encodeBody s = .wait u from h] at hencode
    exact .inr hencode
  | nop | clear | build | magic | internal | leaf => cases h

/-! ## Going on -/

/-- The state with a source and a sink that answer every request from here on. -/
abbrev unstalled (s : State) : State :=
  { s with inp := { s.inp with stall := none }, outp := { s.outp with stall := none } }

/-- A command held at its acceptance goes on, without a stop, as it does when nothing ever stops (rule R74, log 4). -/
theorem goOn_hold {i : Instr} {s : State} (u : State) (hi : RunInv s) (hc : i.isCommand = true) (hn : i ≠ .nop)
    (hl : i ≠ .clear) (hb : s.busy = false) (he : s.err = .noError) (hp : s.phase ∈ legalPhases i)
    (hm : i.headerMode ≠ some .countHeader) : goOn none none (hold i (accept s) u) = exec i (unstalled s) := by
  have hresumed : moveStalls none none (beforeCommand (hold i (accept s) u)) = accept (unstalled s) := by
    rw [beforeCommand_hold, show (none : Option Waiting) = (accept s).waiting from (hi.not_waiting hb).symm]
    simp only [moveStalls, laterSource_none, laterSink_none]
    rfl
  rw [exec_eq_settle (s := unstalled s) hc hn hl hb he hp hm, ← hresumed]
  rfl

/-! ## Where COUNT waits -/

theorem countBody_ends_iff (s : State) :
    (countBody s).Ends ↔
      (countLoop s.inp.passReads { freq := Vector.replicate 256 0, inlen := 0, inp := s.inp }).2 ≠ .wait := by
  rw [countBody]
  split <;> simp_all [Run.Ends]

/-- COUNT over a source that stops in its pass waits exactly when it makes a request the source does not serve (rules
R125, R128, R273). -/
theorem countBody_waits_iff {s : State} {k : Nat} (hp : s.inp.ipos = 0)
    (hs : s.inp.stall = some ⟨s.inp.rewound, k⟩) :
    ¬ (countBody s).Ends ↔ k < min s.inp.bytes.length Config.maxLen + 1 := by
  have hloop := countLoop_stalled (before := []) (after := s.inp.bytes)
    (t := { freq := Vector.replicate 256 0, inlen := 0, inp := s.inp }) (List.nil_append _).symm (by simpa using hp)
    ⟨fun b => by simp [freqAt], rfl⟩ (Nat.zero_le _) (length_lt_passReads s.inp) hs (Nat.zero_le k)
  rw [List.length_nil, Nat.zero_add] at hloop
  rw [countBody_ends_iff, not_not, hloop]

/-- COUNT's loop never waits for a source that stops in the other pass. -/
theorem countLoop_other_pass {fuel : Nat} {t : Tally} {p : SourceStall} (hs : t.inp.stall = some p)
    (hp : p.rewound ≠ t.inp.rewound) : (countLoop fuel t).2 ≠ .wait := by
  induction fuel generalizing t with
  | zero => simp [countLoop]
  | succ n ih =>
    obtain ⟨-, hstall, hrewound⟩ := readBits_frame 8 t.inp
    rw [countLoop, ask_other_pass hs hp]
    generalize t.inp.readBits 8 = found at hstall hrewound
    obtain ⟨_ | r, inp⟩ := found
    · simp
    · dsimp only
      split
      · simp
      · exact ih (hstall.trans hs) (by rwa [hrewound])

/-! ## Where ENCODE waits -/

/-- ENCODE over a source that stops after the rewind waits exactly when that is before the last of its L + 1 requests
(rules R185, R273). -/
theorem encodeBody_waits_iff {s : State} {k : Nat} (hsink : s.outp.stall = none) (hs : s.inp.stall = some ⟨true, k⟩)
    (hv : ∀ r ∈ s.inp.bytes, (codeOfByte s.code r).valid = true) :
    ¬ (encodeBody s).Ends ↔ k < s.inp.bytes.length + 1 := by
  obtain ⟨hwait, hdone⟩ := encodeLoop_stalled (before := []) (after := s.inp.bytes) (inp := s.inp.rewind)
    (outp := s.outp) (List.nil_append _).symm rfl (length_lt_passReads s.inp) hs (Nat.zero_le k) hv
  rw [List.length_nil, Nat.zero_add] at hwait hdone
  rw [encodeBody, drain_answering hsink]
  rcases Nat.lt_or_ge k (s.inp.bytes.length + 1) with hk | hk
  · obtain ⟨inp, outp, hloop⟩ := hwait hk
    rw [hloop]
    exact iff_of_true id hk
  · obtain ⟨inp, outp, hloop⟩ := hdone hk
    rw [hloop]
    exact iff_of_false (fun h => h trivial) (Nat.not_lt.2 hk)

/-! ## Where WRHDR waits -/

/-- The whole bytes of a header (rules R69, R165). -/
theorem length_out_header {t : Tree} {sh : Shape} {o : OutStream} (ht : TreeOk t sh) (hc : o.Coherent)
    (ho : o.opos = 0) :
    (o.writeList (bitsOf 32 Config.magicTree.toNat ++ sh.bits)).out.length = (31 + 11 * t.nleaf.toNat) / 8 := by
  have hlength := sh.length_bits
  have hleaves := ht.leaves
  rw [(writeList_coherent hc _).1.2, writeList_opos, List.length_append, length_bitsOf]
  congr 1
  omega

/-- WRHDR over a sink that accepts `n` bytes waits exactly when the header has more, with `n` of them in OUT. -/
theorem wrhdrBody_waits_iff {s : State} {sh : Shape} {n : Nat} (ht : TreeOk s.tree sh) (hc : s.outp.Coherent)
    (ho : NothingOut s) (hs : s.outp.stall = some n) :
    (¬ (wrhdrBody s).Ends ↔ n < (31 + 11 * s.tree.nleaf.toNat) / 8) ∧
      ∀ u, wrhdrBody s = .wait u → u.outp.out.length = n := by
  have hopos : s.outp.opos = 0 := congrArg OutStream.opos ho
  have hout : s.outp.out.length = 0 := by rw [hc.2, hopos]
  have hlength := length_out_header ht hc hopos
  rw [wrhdrBody_of_tree ht.spelled (height_of_treeOk ht (nnodes_le_of_treeOk ht)), Run.drain, hs]
  generalize s.outp.writeList (bitsOf 32 Config.magicTree.toNat ++ sh.bits) = o at hlength ⊢
  dsimp only
  rw [Run.upTo, hout, Nat.max_zero, ← hlength]
  dsimp only
  split_ifs with hn
  · refine ⟨iff_of_true id hn, ?_⟩
    rintro u ⟨⟩
    exact (List.length_take).trans (Nat.min_eq_left hn.le)
  · refine ⟨iff_of_false (fun h => h trivial) hn, ?_⟩
    rintro u ⟨⟩

/-! ## The statement -/

/-- What a waiting command shows (log 4). -/
theorem exists_shown_of_busy {i : Instr} {s t : State} (hi : RunInv s) (hc : i.isCommand = true) (hn : i ≠ .nop)
    (hl : i ≠ .clear) (hb : s.busy = false) (he : s.err = .noError) (hp : s.phase ∈ legalPhases i)
    (hm : i.headerMode ≠ some .countHeader) (ht : exec i s = .next t) (hbusy : t.busy = true) :
    ∃ out signals,
      t = { s with
        busy := true, done := false, outp := { s.outp with out := out }, port := { s.port with signals := signals },
        waiting := some { cmd := i, out := s.outp.out, signals := s.port.signals } } ∧
      s.outp.out <+: out ∧ (signals = s.port.signals ∨ signals = s.port.signals ++ [.inRewind]) ∧
      goOn none none t = exec i (unstalled s) := by
  rw [exec_eq_settle hc hn hl hb he hp hm] at ht
  obtain ⟨u, hu, rfl⟩ := ((hi.accepted hc hn hl hb he hp hm).busy_iff ht).1 hbusy
  have hextends := bodyOf_extends i (accept s)
  rw [hu] at hextends
  exact ⟨u.outp.out, u.port.signals, rfl, hextends, signals_of_wait (s := accept s) hu,
    goOn_hold u hi hc hn hl hb he hp hm⟩

/-- Settles O10: a legal command's body ends or waits; the loops of COUNT and ENCODE and the length of the header say
where. -/
theorem acceptedCommandsFinishOrWait : Obligations.AcceptedCommandsFinishOrWait := by
  unfold Obligations.AcceptedCommandsFinishOrWait
  intro i s hi hc hn hl hb he hp hm
  have haccepted := hi.accepted hc hn hl hb he hp hm
  obtain ⟨t, ht, -⟩ := hi.exec hc
  have hset : settle i (accept s) (bodyOf i (accept s)) = .next t := by
    rw [← exec_eq_settle hc hn hl hb he hp hm, ht]
  have hwaits := haccepted.busy_iff_not_ends hset
  have hholds := haccepted.holds
  refine ⟨t, ht, fun ha => (finished_of_answering hc hn hl hb he hp hm ha ht).1, fun hidle => ?finished,
    exists_shown_of_busy hi hc hn hl hb he hp hm ht, ?count, ?otherPass, ?encode, ?wrhdr⟩
  case finished =>
    rcases finished_or_waits hc hn hl hb he hp hm ht with ⟨u, -, rfl⟩ | ⟨-, hfinished⟩
    · cases hidle
    · exact hfinished
  case count =>
    rintro rfl k hs
    obtain ⟨-, -, -, -, hin, -⟩ := hholds.idle (List.mem_singleton.1 hp)
    have hpass : s.inp.stall = some ⟨s.inp.rewound, k⟩ := by
      rw [hs, show s.inp.rewound = false from congrArg InStream.rewound hin]
    exact hwaits.trans (countBody_waits_iff (s := accept s) (congrArg InStream.ipos hin) hpass)
  case otherPass =>
    rintro rfl k hs
    obtain ⟨-, -, -, -, hin, -⟩ := hholds.idle (List.mem_singleton.1 hp)
    have hother : true ≠ s.inp.rewound := by
      rw [show s.inp.rewound = false from congrArg InStream.rewound hin]
      decide
    rw [Bool.eq_false_iff, Ne, hwaits, not_not]
    exact (countBody_ends_iff (accept s)).2 (countLoop_other_pass hs hother)
  case encode =>
    rintro rfl hsink k hs
    rw [PhaseHolds, accept_phase, List.mem_singleton.1 hp] at hholds
    obtain ⟨hcount, ⟨sh, hsh, hused, hcodes, -⟩, -⟩ := hholds
    refine ⟨hwaits.trans (encodeBody_waits_iff (s := accept s) hsink hs (valid_codeOfByte hcount hsh hused hcodes)),
      fun hbusy => ?_⟩
    obtain ⟨u, hu, rfl⟩ := (haccepted.busy_iff hset).1 hbusy
    have hsignals := encodeBody_signals (accept s)
    rwa [show encodeBody (accept s) = .wait u from hu] at hsignals
  case wrhdr =>
    rintro rfl n hs
    rw [PhaseHolds, accept_phase, List.mem_singleton.1 hp] at hholds
    obtain ⟨-, ⟨sh, hsh, -, -⟩, -, hout⟩ := hholds
    obtain ⟨hiff, hlength⟩ := wrhdrBody_waits_iff (s := accept s) hsh.toTreeOk haccepted.packer hout hs
    refine ⟨hwaits.trans hiff, fun hbusy => ?_⟩
    obtain ⟨u, hu, rfl⟩ := (haccepted.busy_iff hset).1 hbusy
    exact hlength u hu

end Sys2Proof.Machine

/-! PROOFS. The register layouts (rules R38 to R41): a field of a register is a digit of the number its word is made
of. -/

namespace Sys2Proof.Machine

/-! ## Fields of a word -/

theorem getLsbD_ofNat_of_digit {x k : Nat} {b : Bool} (hk : k < 32) (h : x / 2 ^ k % 2 = b.toNat) :
    (BitVec.ofNat 32 x).getLsbD k = b := by
  rw [BitVec.getLsbD_ofNat, decide_eq_true hk, Bool.true_and, Nat.testBit_eq_decide_div_mod_eq, h]
  cases b <;> rfl

theorem toNat_extractLsb'_ofNat {x : Nat} (k n : Nat) (hx : x < 2 ^ 32) :
    ((BitVec.ofNat 32 x).extractLsb' k n).toNat = x / 2 ^ k % 2 ^ n := by
  rw [BitVec.extractLsb'_toNat, BitVec.toNat_ofNat, Nat.mod_eq_of_lt hx, Nat.shiftRight_eq_div_pow]

theorem extractLsb'_ofNat_of_digits {x k n : Nat} {v : BitVec n} (hx : x < 2 ^ 32) (h : x / 2 ^ k % 2 ^ n = v.toNat) :
    (BitVec.ofNat 32 x).extractLsb' k n = v :=
  BitVec.eq_of_toNat_eq ((toNat_extractLsb'_ofNat k n hx).trans h)

theorem extractLsb'_ofNat_eq_zero {x k n : Nat} (hx : x < 2 ^ 32) (h : x / 2 ^ k % 2 ^ n = 0) :
    (BitVec.ofNat 32 x).extractLsb' k n = 0 :=
  extractLsb'_ofNat_of_digits hx (h.trans BitVec.toNat_zero.symm)

theorem Phase.code_le (p : Phase) : p.code ≤ 7 := by cases p <;> decide

theorem ErrCode.code_le (e : ErrCode) : e.code ≤ 10 := by cases e <;> decide

/-! ## The scalar registers -/

/-- STATUS.ERRF is ERR.CODE ≠ 0 (rule R30). -/
theorem errf_eq_decide (s : State) : errf s = decide (s.err ≠ .noError) := by
  rw [Bool.eq_iff_iff, errf_eq_true, decide_eq_true_iff]

/-- STATUS (rule R38). -/
theorem statusWord_fields (s : State) :
    (statusWord s).getLsbD 0 = s.busy ∧ (statusWord s).getLsbD 1 = s.done ∧ (statusWord s).getLsbD 2 = errf s ∧
      (statusWord s).getLsbD 3 = statusEod s ∧ (statusWord s).getLsbD 4 = statusRewound s ∧
      (statusWord s).getLsbD 5 = s.cmddrop ∧ ((statusWord s).extractLsb' 8 4).toNat = s.phase.code ∧
      (statusWord s).extractLsb' 6 2 = 0 ∧ (statusWord s).extractLsb' 12 20 = 0 := by
  have h0 := Bool.toNat_le s.busy
  have h1 := Bool.toNat_le s.done
  have h2 := Bool.toNat_le (errf s)
  have h3 := Bool.toNat_le (statusEod s)
  have h4 := Bool.toNat_le (statusRewound s)
  have h5 := Bool.toNat_le s.cmddrop
  have hphase := s.phase.code_le
  refine ⟨getLsbD_ofNat_of_digit (by decide) ?_, getLsbD_ofNat_of_digit (by decide) ?_,
    getLsbD_ofNat_of_digit (by decide) ?_, getLsbD_ofNat_of_digit (by decide) ?_,
    getLsbD_ofNat_of_digit (by decide) ?_, getLsbD_ofNat_of_digit (by decide) ?_,
    (toNat_extractLsb'_ofNat 8 4 (by omega)).trans ?_, extractLsb'_ofNat_eq_zero (by omega) ?_,
    extractLsb'_ofNat_eq_zero (by omega) ?_⟩ <;> omega

/-- CTRL and ERR (rule R38). -/
theorem ctrl_err_fields (s : State) :
    (readReg s .ctrl).getLsbD 0 = s.ie ∧ (readReg s .ctrl).extractLsb' 1 31 = 0 ∧
      ((readReg s .err).extractLsb' 0 8).toNat = s.err.code ∧ (readReg s .err).extractLsb' 8 24 = 0 := by
  have hie := Bool.toNat_le s.ie
  have herr := s.err.code_le
  exact ⟨getLsbD_ofNat_of_digit (by decide) (by omega), extractLsb'_ofNat_eq_zero (by omega) (by omega),
    (toNat_extractLsb'_ofNat 0 8 (by omega)).trans (by omega), extractLsb'_ofNat_eq_zero (by omega) (by omega)⟩

/-- ROOT (rule R38). -/
theorem rootWord_fields (r : Root) :
    (rootWord r).getLsbD 31 = r.valid ∧ (rootWord r).extractLsb' 10 21 = 0 ∧
      (rootWord r).extractLsb' 0 10 = r.index := by
  have hvalid := Bool.toNat_le r.valid
  have hindex := r.index.isLt
  exact ⟨getLsbD_ofNat_of_digit (by decide) (by omega), extractLsb'_ofNat_eq_zero (by omega) (by omega),
    extractLsb'_ofNat_of_digits (by omega) (by omega)⟩

/-- A counter of ten bits in a word (rule R38). -/
theorem counter_fields (n : BitVec 10) :
    (BitVec.ofNat 32 n.toNat).extractLsb' 0 10 = n ∧ (BitVec.ofNat 32 n.toNat).extractLsb' 10 22 = 0 := by
  have hn := n.isLt
  exact ⟨extractLsb'_ofNat_of_digits (by omega) (by omega), extractLsb'_ofNat_eq_zero (by omega) (by omega)⟩

/-- PQCNT (rule R38). -/
theorem pqcnt_fields (s : State) :
    ((readReg s .pqcnt).extractLsb' 0 9).toNat = s.pq.length % 2 ^ 9 ∧ (readReg s .pqcnt).extractLsb' 9 23 = 0 := by
  exact ⟨(toNat_extractLsb'_ofNat 0 9 (by omega)).trans (by omega), extractLsb'_ofNat_eq_zero (by omega) (by omega)⟩

/-- FREQ (rule R41). -/
theorem readReg_freq (s : State) (v : Fin 256) : readReg s (.freq v) = s.freq[v] := by
  simp [readReg, freqAt, Vector.getD]

/-! ## The tables' registers -/

/-- NODEA (rule R39). -/
theorem nodeAWord_fields (n : Node) :
    (nodeAWord n).getLsbD 31 = n.valid ∧ (nodeAWord n).getLsbD 30 = n.leaf ∧
      (nodeAWord n).extractLsb' 20 10 = n.left ∧ (nodeAWord n).extractLsb' 10 10 = n.right ∧
      (nodeAWord n).getLsbD 9 = false ∧ (nodeAWord n).extractLsb' 0 9 = n.sym := by
  have hvalid := Bool.toNat_le n.valid
  have hleaf := Bool.toNat_le n.leaf
  have hleft := n.left.isLt
  have hright := n.right.isLt
  have hsym := n.sym.isLt
  exact ⟨getLsbD_ofNat_of_digit (by decide) (by omega), getLsbD_ofNat_of_digit (by decide) (by omega),
    extractLsb'_ofNat_of_digits (by omega) (by omega), extractLsb'_ofNat_of_digits (by omega) (by omega),
    getLsbD_ofNat_of_digit (by decide) (by rw [Bool.toNat_false]; omega),
    extractLsb'_ofNat_of_digits (by omega) (by omega)⟩

/-- CODELEN (rule R40). -/
theorem codeLenWord_fields (c : Code) :
    (codeLenWord c).getLsbD 31 = c.valid ∧ (codeLenWord c).extractLsb' 9 22 = 0 ∧
      (codeLenWord c).extractLsb' 0 9 = c.len := by
  have hvalid := Bool.toNat_le c.valid
  have hlen := c.len.isLt
  exact ⟨getLsbD_ofNat_of_digit (by decide) (by omega), extractLsb'_ofNat_eq_zero (by omega) (by omega),
    extractLsb'_ofNat_of_digits (by omega) (by omega)⟩

/-! ## Legal values in a run -/

/-- In every phase the node memory holds no tree or one whose root is its first or its last node, and the queue at most
the root (rules R24, R143, R174). -/
theorem PhaseHolds.tree_and_queue {s : State} (h : PhaseHolds s) :
    (s.tree = Tree.empty ∨ ∃ sh, TreeOk s.tree sh ∧
      (s.tree.root.index.toNat + 1 = s.tree.nnodes.toNat ∨ s.tree.root.index = 0)) ∧ s.pq.length ≤ 1 := by
  rw [PhaseHolds] at h
  cases hp : s.phase <;> rw [hp] at h
  case idle =>
    obtain ⟨-, htree, hpq, -⟩ := h
    exact ⟨.inl htree, by simp [hpq]⟩
  case counted =>
    obtain ⟨-, htree, hpq, -⟩ := h
    exact ⟨.inl htree, by simp [hpq]⟩
  case built =>
    obtain ⟨-, ⟨sh, hsh, -⟩, hpq, -⟩ := h
    exact ⟨.inr ⟨sh, hsh.toTreeOk, .inl hsh.rootLast⟩, by simp [hpq]⟩
  case coded =>
    obtain ⟨-, ⟨sh, hsh, -⟩, hpq, -⟩ := h
    exact ⟨.inr ⟨sh, hsh.toTreeOk, .inl hsh.rootLast⟩, by simp [hpq]⟩
  case hdrwr =>
    obtain ⟨-, ⟨sh, hsh, -⟩, hpq⟩ := h
    exact ⟨.inr ⟨sh, hsh.toTreeOk, .inl hsh.rootLast⟩, by simp [hpq]⟩
  case encdone =>
    obtain ⟨-, ⟨sh, hsh, -⟩, hpq, -⟩ := h
    exact ⟨.inr ⟨sh, hsh.toTreeOk, .inl hsh.rootLast⟩, by simp [hpq]⟩
  case hdrrd =>
    obtain ⟨-, ⟨sh, hsh, -⟩, hroot, hpq, -⟩ := h
    exact ⟨.inr ⟨sh, hsh, .inr hroot⟩, by simp [hpq]⟩
  case decdone =>
    obtain ⟨-, ⟨sh, hsh⟩, hroot, hpq, -⟩ := h
    exact ⟨.inr ⟨sh, hsh, .inr hroot⟩, by simp [hpq]⟩

/-- Outside an execution error the counters of a run keep to the capacities (rules R24 to R26). -/
theorem RunInv.counters_le {s : State} (hi : RunInv s) (hd : Defined s) :
    s.tree.nnodes.toNat ≤ 513 ∧ s.tree.root.index.toNat ≤ 512 ∧ s.tree.nleaf.toNat ≤ 257 ∧ s.pq.length ≤ 257 := by
  obtain ⟨htree, hpq⟩ := (hi.phase hd).tree_and_queue
  rw [beforeCommand_tree] at htree
  rw [beforeCommand_pq] at hpq
  suffices hcounts : s.tree.nnodes.toNat ≤ 513 ∧ s.tree.root.index.toNat ≤ 512 ∧ s.tree.nleaf.toNat ≤ 257 from
    ⟨hcounts.1, hcounts.2.1, hcounts.2.2, hpq.trans (by decide)⟩
  rcases htree with hempty | ⟨sh, hsh, hroot⟩
  · rw [hempty]
    decide
  · have hnodes := nnodes_le_of_treeOk hsh
    have hleaves := leafCount_le_of_treeOk hsh
    rw [hsh.leaves] at hleaves
    refine ⟨hnodes, ?_, hleaves⟩
    rcases hroot with hlast | hfirst
    · omega
    · rw [hfirst]
      decide

/-! ## The statement -/

/-- A word with a 1 in bits 31:9 is no command (rule R93). -/
theorem decodeWord_ne_ok_of_reserved {w : Word} (h : w.extractLsb' 9 23 ≠ 0) (i : Instr) : decodeWord w ≠ .ok i :=
  fun hd => h (decodeWord_eq_ok_iff.1 hd).1

/-- Settles O57: each word is the sum of its fields at their places, so a field is a digit of it. -/
theorem registerFieldsAreInPlace : Obligations.RegisterFieldsAreInPlace := by
  unfold Obligations.RegisterFieldsAreInPlace
  refine ⟨fun s => ?scalars, fun w i hd => ?command, fun w s h9 hb he => ?reserved, ?node, ?code⟩
  case scalars =>
    obtain ⟨hbusy, hdone, herrf, heod, hrewound, hdrop, hphase, hlow, hhigh⟩ := statusWord_fields s
    obtain ⟨hie, hctrl, herr, herrHigh⟩ := ctrl_err_fields s
    obtain ⟨hvalid, hrootMid, hindex⟩ := rootWord_fields s.tree.root
    obtain ⟨hnnodes, hnnodesHigh⟩ := counter_fields s.tree.nnodes
    obtain ⟨hnleaf, hnleafHigh⟩ := counter_fields s.tree.nleaf
    obtain ⟨hpqcnt, hpqcntHigh⟩ := pqcnt_fields s
    exact ⟨hbusy, hdone, herrf.trans (errf_eq_decide s), heod, hrewound, hdrop, status_flags_closed, hphase, hlow,
      hhigh, hie, hctrl, herr, herrHigh, hvalid, hrootMid, hindex, rfl, rfl, rfl, BitVec.toNat_ofNat _ _,
      BitVec.toNat_ofNat _ _, BitVec.toNat_ofNat _ _, BitVec.toNat_ofNat _ _, hnnodes, hnnodesHigh, hnleaf, hnleafHigh,
      hpqcnt, hpqcntHigh, rfl, rfl, rfl, readReg_freq s, s.phase.code_le, s.err.code_le,
      RunInv.counters_le, fun w => rfl⟩
  case command =>
    obtain ⟨hop, h9, -⟩ := (exists_decodeWord_eq_ok_iff w).1 ⟨i, hd⟩
    exact ⟨h9, getLsbD_eight_iff hd, hop⟩
  case reserved =>
    exact ⟨_, writeCmd_raises_illegalCommand (decodeWord_ne_ok_of_reserved h9) hb he, rfl, rfl⟩
  case node =>
    rintro s i n rfl
    obtain ⟨hvalid, hleaf, hleft, hright, hreserved, hsym⟩ := nodeAWord_fields (s.tree.at (BitVec.ofNat 10 i.val))
    exact ⟨hvalid, hleaf, hleft, hright, hreserved, hsym, rfl⟩
  case code =>
    rintro s v c rfl
    obtain ⟨hvalid, hreserved, hlen⟩ := codeLenWord_fields (codeAt s.code (BitVec.ofNat 9 v.val))
    refine ⟨hvalid, hreserved, hlen, fun w j hj => ?_⟩
    rw [readReg, BitVec.getLsbD_extractLsb', decide_eq_true hj, Bool.true_and]

end Sys2Proof.Machine
